-- ==== Sys2Proof/Word.lean ====
section
/-! DEFINITION. Word.lean: the machine's word types and the sparse maps that hold its numbered state. -/

namespace Sys2Proof

/-- A 64-bit word: a scalar register, an address, an information word (R9). -/
abbrev W64 := BitVec 64

/-- A 96-bit instruction as it stands in its line (R33). -/
abbrev Word96 := BitVec 96

/-- The 1,024 bits of a vector register (R143). -/
abbrev W1024 := BitVec 1024

/-- One byte. -/
abbrev Byte := BitVec 8

/-- State that is numbered and mostly at its reset value: keys strictly rising, an absent key
holding the reset value of that number. -/
abbrev SMap (α : Type) := List (Nat × α)

/-- The entry of key `n`, or `dflt` when the map lists none. -/
def SMap.get {α : Type} (dflt : α) : SMap α → Nat → α
  | [], _ => dflt
  | (k, v) :: r, n => if n = k then v else if n < k then dflt else SMap.get dflt r n

/-- The map with key `n` holding `v`. -/
def SMap.set {α : Type} : SMap α → Nat → α → SMap α
  | [], n, v => [(n, v)]
  | (k, x) :: r, n, v =>
    if n = k then (n, v) :: r
    else if n < k then (n, v) :: (k, x) :: r
    else (k, x) :: SMap.set r n v

/-- The map without key `n`. -/
def SMap.erase {α : Type} : SMap α → Nat → SMap α
  | [], _ => []
  | (k, x) :: r, n =>
    if n = k then r else if n < k then (k, x) :: r else (k, x) :: SMap.erase r n

/-- Keys strictly rising, all of them above `lo` when one is given. -/
def SMap.wfFrom {α : Type} : Option Nat → SMap α → Bool
  | _, [] => true
  | none, (k, _) :: r => SMap.wfFrom (some k) r
  | some lo, (k, _) :: r => decide (lo < k) && SMap.wfFrom (some k) r

/-- The form every map of the state has. -/
def SMap.wf {α : Type} (m : SMap α) : Bool := SMap.wfFrom none m

/-- The list with element `i` replaced, unchanged when there is no such element. -/
def replaceAt {α : Type} (l : List α) (i : Nat) (x : α) : List α := l.set i x

/-- The list without element `i`. -/
def dropAt {α : Type} (l : List α) (i : Nat) : List α := l.eraseIdx i

end Sys2Proof
end

