-- ==== Sys2Proof/Syntax.lean ====
section
/-! DEFINITION. Syntax.lean: every row of the opcode table as one constructor of `Instr`. The 218
instructions carry their operand form (a structure per form of Tables 3.1, 6.1, 6.6, 9.1, 12.1,
15.4 and 16.1); the 120 events of the asynchronous agents carry the agent and the choice they name. -/

namespace Sys2Proof

/-- Register numbers, one type per file of Table 2.4. -/
abbrev SReg := BitVec 6
abbrev VReg := BitVec 5
abbrev PReg := BitVec 3
abbrev BReg := BitVec 2
abbrev IReg := BitVec 2
abbrev TReg := BitVec 3
abbrev AReg := BitVec 2
abbrev QReg := BitVec 3
abbrev SemReg := BitVec 4
abbrev HReg := BitVec 3
abbrev XReg := BitVec 3

/-- The guard of an instruction: the predicate and the sense of R40 and R41. -/
structure Guard where
  neg : Bool
  p   : PReg
  deriving DecidableEq, Repr

/-- Element types of Table 5.1 (R123). -/
inductive ElemTy where
  | i8 | u8 | i16 | i32 | i64 | i4 | i6 | tsw8 | f16 | bf16 | f32 | f64 | c32
  deriving DecidableEq, Repr

/-- Rounding codes of Table 5.3 (R128). -/
inductive Rnd where
  | rn | rz | ru | rd | sat
  deriving DecidableEq, Repr

/-- Scopes of Table 2.6 (R45). -/
inductive Scope where
  | none | tile | group | stack | device | domain
  deriving DecidableEq, Repr

/-- Access sizes of Table 2.7 (R45). -/
inductive MemSize where
  | b | h | w | d | l | v | t
  deriving DecidableEq, Repr

/-- Row hints of Table 2.8 (R45). -/
inductive Hint where
  | dflt | openRow | closeRow
  deriving DecidableEq, Repr

/-- What a qpop reads (R341). -/
inductive PopKind where
  | queue | inflowScalar | inflowVector
  deriving DecidableEq, Repr

/-! Operand forms. Field names are those of Table 2.3 and Table 2.5. -/

structure SSS where
  g : Guard
  d : SReg
  a : SReg
  b : SReg
  deriving DecidableEq, Repr

structure SSI where
  g : Guard
  d : SReg
  a : SReg
  imm : W64
  deriving DecidableEq, Repr

structure SSN where
  g : Guard
  d : SReg
  a : SReg
  n : BitVec 6
  deriving DecidableEq, Repr

structure SI where
  g : Guard
  d : SReg
  imm : W64
  deriving DecidableEq, Repr

structure PSS where
  g : Guard
  d : PReg
  a : SReg
  b : SReg
  deriving DecidableEq, Repr

structure SSSP where
  g : Guard
  d : SReg
  a : SReg
  b : SReg
  c : PReg
  deriving DecidableEq, Repr

structure SS where
  g : Guard
  d : SReg
  a : SReg
  deriving DecidableEq, Repr

structure BfxF where
  g : Guard
  d : SReg
  a : SReg
  pos : BitVec 6
  w : BitVec 7
  deriving DecidableEq, Repr

structure BfiF where
  g : Guard
  d : SReg
  a : SReg
  b : SReg
  pos : BitVec 6
  w : BitVec 7
  deriving DecidableEq, Repr

structure SSSS where
  g : Guard
  d : SReg
  a : SReg
  b : SReg
  c : SReg
  deriving DecidableEq, Repr

structure PPP where
  g : Guard
  d : PReg
  a : PReg
  b : PReg
  deriving DecidableEq, Repr

structure PP where
  g : Guard
  d : PReg
  a : PReg
  deriving DecidableEq, Repr

structure BrF where
  g : Guard
  off : BitVec 52
  deriving DecidableEq, Repr

structure BrSS where
  g : Guard
  a : SReg
  b : SReg
  off : BitVec 52
  deriving DecidableEq, Repr

structure CallF where
  g : Guard
  d : SReg
  off : BitVec 52
  deriving DecidableEq, Repr

/-- Forms whose one operand is scalar a. -/
structure A1 where
  g : Guard
  a : SReg
  deriving DecidableEq, Repr

structure MfsF where
  g : Guard
  d : SReg
  x : XReg
  deriving DecidableEq, Repr

structure MtsF where
  g : Guard
  x : XReg
  a : SReg
  deriving DecidableEq, Repr

/-- Forms without operands. -/
structure G0 where
  g : Guard
  deriving DecidableEq, Repr

structure PurgeF where
  g : Guard
  a : SReg
  b : SReg
  all : Bool
  deriving DecidableEq, Repr

/-- swtrap and mark: scalar a and a 16-bit code. -/
structure CodeF where
  g : Guard
  a : SReg
  code : BitVec 16
  deriving DecidableEq, Repr

structure LdF where
  g : Guard
  d : SReg
  a : SReg
  b : SReg
  size : MemSize
  hint : Hint
  off : BitVec 44
  deriving DecidableEq, Repr

structure StF where
  g : Guard
  a : SReg
  b : SReg
  c : SReg
  size : MemSize
  hint : Hint
  off : BitVec 44
  deriving DecidableEq, Repr

structure LdbfF where
  g : Guard
  d : SReg
  a : BReg
  w : BitVec 7
  inc : Bool
  deriving DecidableEq, Repr

structure StbfF where
  g : Guard
  a : BReg
  b : SReg
  w : BitVec 7
  inc : Bool
  deriving DecidableEq, Repr

structure BsetF where
  g : Guard
  d : BReg
  a : SReg
  deriving DecidableEq, Repr

structure BgetF where
  g : Guard
  d : SReg
  a : BReg
  deriving DecidableEq, Repr

structure BaddF where
  g : Guard
  d : BReg
  a : BReg
  b : SReg
  imm : BitVec 40
  deriving DecidableEq, Repr

structure VVV where
  g : Guard
  d : VReg
  a : VReg
  b : VReg
  ty : ElemTy
  uns : Bool
  deriving DecidableEq, Repr

structure VVVV where
  g : Guard
  d : VReg
  a : VReg
  b : VReg
  c : VReg
  ty : ElemTy
  deriving DecidableEq, Repr

structure VV where
  g : Guard
  d : VReg
  a : VReg
  ty : ElemTy
  deriving DecidableEq, Repr

structure PVV where
  g : Guard
  d : PReg
  a : VReg
  b : VReg
  ty : ElemTy
  uns : Bool
  deriving DecidableEq, Repr

structure VST where
  g : Guard
  d : VReg
  a : SReg
  ty : ElemTy
  deriving DecidableEq, Repr

structure SVST where
  g : Guard
  d : SReg
  a : VReg
  b : SReg
  ty : ElemTy
  deriving DecidableEq, Repr

structure VSST where
  g : Guard
  d : VReg
  a : SReg
  b : SReg
  ty : ElemTy
  deriving DecidableEq, Repr

structure VVST where
  g : Guard
  d : VReg
  a : VReg
  b : SReg
  ty : ElemTy
  deriving DecidableEq, Repr

structure VVVP where
  g : Guard
  d : VReg
  a : VReg
  b : VReg
  c : PReg
  ty : ElemTy
  deriving DecidableEq, Repr

/-- vcvt: d and a name vector registers, or scalar registers when either type is FP64 (R152). -/
structure CvtF where
  g : Guard
  d : BitVec 6
  a : BitVec 6
  dst : ElemTy
  src : ElemTy
  rnd : Rnd
  part : BitVec 3
  deriving DecidableEq, Repr

structure SVT where
  g : Guard
  d : SReg
  a : VReg
  ty : ElemTy
  uns : Bool
  deriving DecidableEq, Repr

structure DotF where
  g : Guard
  d : SReg
  a : VReg
  b : VReg
  c : SReg
  ty : ElemTy
  deriving DecidableEq, Repr

structure VI where
  g : Guard
  d : VReg
  imm : W64
  deriving DecidableEq, Repr

/-- spawn, rchins and brkpt: scalar d, vector a, scalar b. -/
structure SVS where
  g : Guard
  d : SReg
  a : VReg
  b : SReg
  deriving DecidableEq, Repr

structure ReapF where
  g : Guard
  d : VReg
  poll : Bool
  deriving DecidableEq, Repr

/-- rchrd and siltrd: vector d, scalar a. -/
structure VS where
  g : Guard
  d : VReg
  a : SReg
  deriving DecidableEq, Repr

/-- bar and phase. -/
structure ScopeF where
  g : Guard
  scope : Scope
  deriving DecidableEq, Repr

structure VmldF where
  g : Guard
  d : VReg
  a : SReg
  b : SReg
  size : MemSize
  hint : Hint
  off : BitVec 44
  deriving DecidableEq, Repr

structure VmstF where
  g : Guard
  a : SReg
  b : SReg
  c : VReg
  size : MemSize
  hint : Hint
  off : BitVec 44
  deriving DecidableEq, Repr

structure GatF where
  g : Guard
  d : VReg
  a : SReg
  b : VReg
  size : MemSize
  off : BitVec 44
  deriving DecidableEq, Repr

structure SctF where
  g : Guard
  a : SReg
  b : VReg
  c : VReg
  size : MemSize
  off : BitVec 44
  deriving DecidableEq, Repr

structure TldF where
  g : Guard
  d : TReg
  a : SReg
  b : SReg
  hint : Hint
  off : BitVec 44
  deriving DecidableEq, Repr

structure RowF where
  g : Guard
  a : SReg
  off : BitVec 44
  deriving DecidableEq, Repr

structure VldxF where
  g : Guard
  d : VReg
  a : SReg
  b : SReg
  c : SReg
  size : MemSize
  off : BitVec 44
  deriving DecidableEq, Repr

structure VldaF where
  g : Guard
  d : VReg
  a : SReg
  c : SReg
  size : MemSize
  off : BitVec 44
  deriving DecidableEq, Repr

structure VstF where
  g : Guard
  a : SReg
  b : SReg
  c : VReg
  size : MemSize
  off : BitVec 44
  deriving DecidableEq, Repr

structure VfloorF where
  g : Guard
  a : SReg
  c : SReg
  off : BitVec 44
  deriving DecidableEq, Repr

structure AmoF where
  g : Guard
  d : SReg
  a : SReg
  b : SReg
  c : SReg
  size : MemSize
  scope : Scope
  off : BitVec 44
  deriving DecidableEq, Repr

structure LrF where
  g : Guard
  d : SReg
  a : SReg
  b : SReg
  size : MemSize
  off : BitVec 44
  deriving DecidableEq, Repr

/-- sc and waitaddr: scalars d, a, b and c. -/
structure ScF where
  g : Guard
  d : SReg
  a : SReg
  b : SReg
  c : SReg
  size : MemSize
  off : BitVec 44
  deriving DecidableEq, Repr

/-- rget, rput and rcas. -/
structure RcF where
  g : Guard
  d : SReg
  a : SReg
  c : VReg
  size : MemSize
  scope : Scope
  off : BitVec 44
  deriving DecidableEq, Repr

/-- radd and rcall: as `RcF` with scalar b. -/
structure RcbF where
  g : Guard
  d : SReg
  a : SReg
  b : SReg
  c : VReg
  size : MemSize
  scope : Scope
  off : BitVec 44
  deriving DecidableEq, Repr

/-- The engine fields of the product forms (Table 12.3). -/
structure MmaF where
  g : Guard
  d : AReg
  a : TReg
  b : TReg
  ws : SemReg
  ww : BitVec 16
  rs : SemReg
  rk : BitVec 16
  e : BitVec 8
  lat : Bool
  fh : Bool
  deriving DecidableEq, Repr

structure GathF where
  g : Guard
  a : SReg
  b : VReg
  n : BitVec 6
  deriving DecidableEq, Repr

structure SparF where
  g : Guard
  d : TReg
  a : TReg
  fh : Bool
  deriving DecidableEq, Repr

/-- drev and azero. -/
structure Acc1 where
  g : Guard
  d : AReg
  deriving DecidableEq, Repr

structure BflyF where
  g : Guard
  d : AReg
  stage : BitVec 4
  mode : BitVec 2
  j : BitVec 8
  deriving DecidableEq, Repr

structure TwmulF where
  g : Guard
  d : AReg
  a : SReg
  b : SReg
  deriving DecidableEq, Repr

structure AmovF where
  g : Guard
  d : TReg
  a : AReg
  rnd : Rnd
  fh : Bool
  deriving DecidableEq, Repr

structure AstF where
  g : Guard
  d : SReg
  a : SReg
  c : AReg
  rnd : Rnd
  ty : BitVec 2
  rg : Bool
  ring : BitVec 4
  off : BitVec 32
  deriving DecidableEq, Repr

structure AldF where
  g : Guard
  d : AReg
  a : SReg
  off : BitVec 32
  deriving DecidableEq, Repr

structure XferF where
  g : Guard
  d : SReg
  a : VReg
  deriving DecidableEq, Repr

structure RingsetF where
  g : Guard
  d : SReg
  a : SReg
  ring : BitVec 4
  deriving DecidableEq, Repr

structure RingwaitF where
  g : Guard
  d : SReg
  a : SReg
  b : SReg
  ring : BitVec 4
  deriving DecidableEq, Repr

structure IbindF where
  g : Guard
  d : IReg
  wcode : BitVec 3
  id : BitVec 8
  deriving DecidableEq, Repr

structure IunbindF where
  g : Guard
  d : IReg
  deriving DecidableEq, Repr

structure QpushF where
  g : Guard
  d : QReg
  a : VReg
  deriving DecidableEq, Repr

structure QpopF where
  g : Guard
  d : BitVec 6
  a : BitVec 3
  kind : PopKind
  deriving DecidableEq, Repr

structure QfreeF where
  g : Guard
  d : SReg
  a : QReg
  deriving DecidableEq, Repr

structure BxfF where
  g : Guard
  a : VReg
  deriving DecidableEq, Repr

structure SemF where
  g : Guard
  d : SemReg
  k : BitVec 16
  deriving DecidableEq, Repr

structure SemsetF where
  g : Guard
  d : SemReg
  a : SReg
  deriving DecidableEq, Repr

structure RepbF where
  g : Guard
  nm1 : BitVec 3
  cm1 : BitVec 16
  strC : BitVec 4
  strB : BitVec 4
  strA : BitVec 4
  strD : BitVec 4
  deriving DecidableEq, Repr

structure ShsetF where
  g : Guard
  d : HReg
  a : SReg
  b : SReg
  deriving DecidableEq, Repr

structure ShrdF where
  g : Guard
  d : SReg
  a : HReg
  ctl : Bool
  deriving DecidableEq, Repr

structure GselF where
  g : Guard
  a : SReg
  gauge : BitVec 2
  deriving DecidableEq, Repr

structure GrdF where
  g : Guard
  d : SReg
  item : BitVec 5
  gauge : BitVec 2
  deriving DecidableEq, Repr

/-- Boundaries of a partition reset (Table 18.8, R427). -/
inductive Boundary where
  | engine | tile | group | stack | port | device
  deriving DecidableEq, Repr

/-- The units inside a tile that an engine reset can name (Table 18.8): each scratchpad bank has a transform unit. -/
inductive EngineUnit where
  | matrix | streamer | transform (bank : Nat)
  deriving DecidableEq, Repr

/-- A packet on a link: its sequence number, the header it carries (full place top bits, index,
or full with an install), and its payload as a number (R420, R421). -/
inductive LinkHeader where
  | full (pre : Nat)
  | install (pre : Nat) (entry : Nat)
  | index (entry : Nat)
  deriving DecidableEq, Repr

structure LinkPacket where
  seq : Nat
  flits : Nat
  header : LinkHeader
  payload : Nat
  deriving DecidableEq, Repr

/-- One of the two vertical buses of a tile: to the vault, or the riser (R413). -/
structure VBus where
  tile : Nat
  riser : Bool
  deriving DecidableEq, Repr

/-- What a firmware image carries beside its body: the version, rollback counter and length of its header, the digest of
the body and the signature (R428). -/
structure ImageHead where
  version : Nat
  counter : Nat
  length : Nat
  digest : BitVec 256
  signature : List Byte
  deriving DecidableEq, Repr

/-- A firmware image as wellhead reads it (R428). -/
structure BootImage extends ImageHead where
  body : List Byte
  deriving DecidableEq, Repr

/-- One constructor per row of the opcode table. An instruction carries its operand form. An event of
an asynchronous agent carries the numbers that say where it happens: `core` is a global core number
(R103), `slot` a thread slot, `tile` bits 62:43 of a place (R165), `n` the position in the list of
things in transit that it concerns. -/
inductive Instr where
  | add (o : SSS)
  | sub (o : SSS)
  | and (o : SSS)
  | or (o : SSS)
  | xor (o : SSS)
  | andn (o : SSS)
  | sll (o : SSS)
  | srl (o : SSS)
  | sra (o : SSS)
  | rol (o : SSS)
  | min (o : SSS)
  | max (o : SSS)
  | minu (o : SSS)
  | maxu (o : SSS)
  | addi (o : SSI)
  | andi (o : SSI)
  | ori (o : SSI)
  | xori (o : SSI)
  | slli (o : SSN)
  | srli (o : SSN)
  | srai (o : SSN)
  | roli (o : SSN)
  | li (o : SI)
  | lpc (o : SI)
  | mul (o : SSS)
  | mulh (o : SSS)
  | mulhu (o : SSS)
  | div (o : SSS)
  | divu (o : SSS)
  | rem (o : SSS)
  | remu (o : SSS)
  | cmpeq (o : PSS)
  | cmpne (o : PSS)
  | cmplt (o : PSS)
  | cmple (o : PSS)
  | cmpltu (o : PSS)
  | cmpleu (o : PSS)
  | sel (o : SSSP)
  | slt (o : SSS)
  | sltu (o : SSS)
  | clz (o : SS)
  | ctz (o : SS)
  | popc (o : SS)
  | bswap (o : SS)
  | brev (o : SS)
  | bfx (o : BfxF)
  | bfxu (o : BfxF)
  | bfi (o : BfiF)
  | bins (o : SSSS)
  | bffcs (o : SSSP)
  | bplim (o : SSSS)
  | pand (o : PPP)
  | por (o : PPP)
  | pxor (o : PPP)
  | pandn (o : PPP)
  | pnot (o : PP)
  | br (o : BrF)
  | beq (o : BrSS)
  | bne (o : BrSS)
  | blt (o : BrSS)
  | bge (o : BrSS)
  | bltu (o : BrSS)
  | bgeu (o : BrSS)
  | call (o : CallF)
  | jmp (o : A1)
  | callr (o : SS)
  | ret (o : A1)
  | mfs (o : MfsF)
  | mts (o : MtsF)
  | nop (o : G0)
  | lbpurge (o : PurgeF)
  | swtrap (o : CodeF)
  | track (o : SSS)
  | tkill (o : SSS)
  | ld (o : LdF)
  | ldu (o : LdF)
  | st (o : StF)
  | ldbf (o : LdbfF)
  | ldbfs (o : LdbfF)
  | stbf (o : StbfF)
  | bset (o : BsetF)
  | bget (o : BgetF)
  | badd (o : BaddF)
  | vadd (o : VVV)
  | vsub (o : VVV)
  | vmul (o : VVV)
  | vmin (o : VVV)
  | vmax (o : VVV)
  | vand (o : VVV)
  | vor (o : VVV)
  | vxor (o : VVV)
  | vsll (o : VVV)
  | vsrl (o : VVV)
  | vsra (o : VVV)
  | vadds (o : VVV)
  | vfadd (o : VVV)
  | vfsub (o : VVV)
  | vfmul (o : VVV)
  | vfmin (o : VVV)
  | vfmax (o : VVV)
  | vfma (o : VVVV)
  | vfabs (o : VV)
  | vfneg (o : VV)
  | vcmpeq (o : PVV)
  | vcmpne (o : PVV)
  | vcmplt (o : PVV)
  | vcmple (o : PVV)
  | vfcmpeq (o : PVV)
  | vfcmplt (o : PVV)
  | vfcmple (o : PVV)
  | vfcmpun (o : PVV)
  | vperm (o : VVV)
  | vbcast (o : VST)
  | vextr (o : SVST)
  | vins (o : VSST)
  | vrot (o : VVST)
  | vsel (o : VVVP)
  | vcvt (o : CvtF)
  | vredadd (o : SVT)
  | vfredadd (o : SVT)
  | vredmin (o : SVT)
  | vredmax (o : SVT)
  | vfdot (o : DotF)
  | vrcp (o : VV)
  | vrsq (o : VV)
  | vexp2 (o : VV)
  | vlog2 (o : VV)
  | vmovi (o : VI)
  | vdiv (o : VVV)
  | vfdiv (o : VVV)
  | vfsqrt (o : VV)
  | spawn (o : SVS)
  | reap (o : ReapF)
  | yield (o : A1)
  | halt (o : G0)
  | migr (o : SSS)
  | launch (o : SSS)
  | trig (o : G0)
  | share (o : SS)
  | slice (o : SS)
  | bar (o : ScopeF)
  | vmld (o : VmldF)
  | vmst (o : VmstF)
  | vmgat (o : GatF)
  | vmsct (o : SctF)
  | tld (o : TldF)
  | rowopen (o : RowF)
  | rowclose (o : RowF)
  | vldx (o : VldxF)
  | vlda (o : VldaF)
  | vst (o : VstF)
  | vfloor (o : VfloorF)
  | phase (o : ScopeF)
  | amoAdd (o : AmoF)
  | amoAnd (o : AmoF)
  | amoOr (o : AmoF)
  | amoXor (o : AmoF)
  | amoMin (o : AmoF)
  | amoMax (o : AmoF)
  | amoMinu (o : AmoF)
  | amoMaxu (o : AmoF)
  | amoSwap (o : AmoF)
  | amoCas (o : AmoF)
  | amoBins (o : AmoF)
  | amoBffcs (o : AmoF)
  | amoBplim (o : AmoF)
  | lr (o : LrF)
  | sc (o : ScF)
  | waitres (o : SS)
  | waitaddr (o : ScF)
  | rget (o : RcF)
  | rput (o : RcF)
  | radd (o : RcbF)
  | rcas (o : RcF)
  | rcall (o : RcbF)
  | rchins (o : SVS)
  | rchinv (o : SS)
  | rchspl (o : SSS)
  | rchmrg (o : SSS)
  | rchrd (o : VS)
  | mmabf (o : MmaF)
  | mmafh (o : MmaF)
  | mmai8 (o : MmaF)
  | mmatw (o : MmaF)
  | mmasp (o : MmaF)
  | gath (o : GathF)
  | sparsify (o : SparF)
  | drev (o : Acc1)
  | bfly (o : BflyF)
  | twset (o : A1)
  | twmul (o : TwmulF)
  | azero (o : Acc1)
  | amov (o : AmovF)
  | ast (o : AstF)
  | ald (o : AldF)
  | xfer (o : XferF)
  | ringset (o : RingsetF)
  | ringwait (o : RingwaitF)
  | ibind (o : IbindF)
  | iunbind (o : IunbindF)
  | qpush (o : QpushF)
  | qpop (o : QpopF)
  | qfree (o : QfreeF)
  | bxf (o : BxfF)
  | semsig (o : SemF)
  | semwait (o : SemF)
  | semset (o : SemsetF)
  | repb (o : RepbF)
  | repstop (o : G0)
  | cfopen (o : A1)
  | cfclose (o : G0)
  | shset (o : ShsetF)
  | shrd (o : ShrdF)
  | mark (o : CodeF)
  | brkpt (o : SVS)
  | gsel (o : GselF)
  | grd (o : GrdF)
  | siltrd (o : VS)
  | divideResult (core : Nat) (slot : Nat)
  | vectorLongResult (core : Nat) (slot : Nat)
  | yieldExpiry (core : Nat) (slot : Nat)
  | barNotification (core : Nat) (slot : Nat)
  | tileRowDelivery (core : Nat) (slot : Nat)
  | tldStallTimeout (core : Nat) (slot : Nat)
  | amoReply (core : Nat) (slot : Nat)
  | amoResend (core : Nat) (slot : Nat)
  | waitBoundExpiry (core : Nat) (slot : Nat)
  | rchinvComplete (core : Nat)
  | gatherComplete (core : Nat) (slot : Nat)
  | engineOperationEnd (tile : Nat)
  | astRecordWrite (tile : Nat)
  | ringwaitWake (core : Nat) (slot : Nat)
  | transformCommandComplete (core : Nat) (slot : Nat)
  | semaphoreGrant (tile : Nat) (sem : Nat)
  | semaphoreStall (core : Nat) (slot : Nat)
  | sequencerIssue (core : Nat)
  | brkptComplete (core : Nat) (slot : Nat) (failed : (List Nat))
  | lineArrival (core : Nat) (slot : Nat)
  | loadReply (core : Nat) (slot : Nat)
  | seepLeak (place : Nat)
  | storePerformed (n : Nat)
  | releaseDrained (core : Nat) (slot : Nat)
  | threadEnd (core : Nat) (slot : Nat)
  | headInboxMessage (n : Nat)
  | dispatchOpportunity (device : Nat) (stack : Nat)
  | wakeMessage (n : Nat) (runtime : Bool)
  | trigCount (n : Nat)
  | endNotice (n : Nat)
  | successorSignal (n : Nat)
  | lqtailWrite (device : Nat) (queue : Nat) (value : W64)
  | lqEnable (device : Nat) (queue : Nat) (value : W64)
  | migrationSend (core : Nat) (slot : Nat)
  | migrationArrival (n : Nat)
  | migrationPlacement (core : Nat)
  | rowIdleClose (tile : Nat) (bank : Nat)
  | refreshStart (tile : Nat) (bank : Nat)
  | refreshEnd (tile : Nat) (bank : Nat)
  | bankSleep (tile : Nat) (bank : Nat)
  | bankWakeComplete (tile : Nat) (bank : Nat)
  | rowRepairStart (tile : Nat) (bank : Nat) (row : Nat)
  | rowRepairComplete (tile : Nat) (bank : Nat) (row : Nat)
  | sensorReport (tile : Nat) (bank : Nat) (degrees : Int) (quarters : BitVec 2)
  | bankRetirement (tile : Nat) (bank : Nat)
  | dredgerReinterleave (tile : Nat)
  | reinterleaveComplete (tile : Nat)
  | dredgerMove (tile : Nat) (src : Nat) (dst : Nat)
  | moveCopied (tile : Nat)
  | drgackWrite (tile : Nat) (value : W64)
  | gmapWrite (tile : Nat) (word : Nat) (value : W64)
  | rowCallMessage (n : Nat)
  | agentMessageStart (tile : Nat)
  | agentVaultOperation (tile : Nat) (n : Nat)
  | rcallHandlerEnd (tile : Nat)
  | rowCallReply (n : Nat)
  | backwaterReplay (tile : Nat)
  | regionEnable (tile : Nat) (region : Nat) (value : W64)
  | regionDisable (tile : Nat) (region : Nat) (value : W64)
  | vrfloorWrite (tile : Nat) (region : Nat) (value : W64)
  | directoryAdmission (core : Nat) (slot : Nat)
  | versionRead (core : Nat) (slot : Nat)
  | floorChange (core : Nat) (slot : Nat)
  | sealVersion (core : Nat) (slot : Nat)
  | versionTimeout (core : Nat) (slot : Nat)
  | streamerRequest (n : Nat)
  | streamerStart (tile : Nat)
  | streamerBlock (tile : Nat) (n : Nat) (block : Nat)
  | transferComplete (tile : Nat) (n : Nat)
  | inflowBlock (n : Nat)
  | queueEntryArrival (n : Nat)
  | queueCreditArrival (n : Nat)
  | riserArrival (tile : Nat) (up : Bool)
  | queueStall (core : Nat) (slot : Nat)
  | queueEnable (core : Nat) (ep : Nat) (value : W64)
  | queueDisable (core : Nat) (ep : Nat) (value : W64)
  | ringEnable (tile : Nat) (ring : Nat) (value : W64)
  | ringDisable (tile : Nat) (ring : Nat) (value : W64)
  | ridxStore (tile : Nat) (ring : Nat) (value : W64)
  | handleEntryWrite (device : Nat) (index : Nat) (word : Nat) (value : W64)
  | swapCommand (core : Nat) (value : W64)
  | swapTakeEffect (core : Nat)
  | spillRecordWritten (core : Nat)
  | fillCommand (core : Nat) (value : W64)
  | fillComplete (core : Nat)
  | gateRequest (core : Nat) (dl : Nat)
  | gateRequestLapse (core : Nat)
  | gateAck (core : Nat)
  | dieGated (core : Nat)
  | dieUngate (core : Nat)
  | gateRestoreComplete (core : Nat)
  | traceEnable (core : Nat) (value : W64)
  | traceRecordWrite (core : Nat)
  | droopTrip (tile : Nat) (compute : Bool)
  | siltEntryWrite (device : Nat)
  | deviceReset (device : Nat) (gsize : Nat) (ngroups : Nat)
  | partitionReset (boundary : Boundary) (unit : Nat) (eng : EngineUnit) (lost : (List Nat))
  | resetComplete (device : Nat) (n : Nat) (image : BootImage)
  | imageVerify (device : Nat) (image : Nat) (head : ImageHead) (body : List Byte)
  | attestationRequest (device : Nat) (nonce : Nat)
  | vbusBeatResend (tile : Nat) (riser : Bool)
  | vbusTest (tile : Nat) (riser : Bool) (failing : Nat)
  | vbusRetrain (tile : Nat) (riser : Bool)
  | linkPacketReceive (device : Nat) (port : Nat) (packet : LinkPacket) (crcOk : Bool)
  | linkAckReceive (device : Nat) (port : Nat) (seq : Nat)
  | linkNakReceive (device : Nat) (port : Nat) (seq : Nat)
  | linkReplayTimeout (device : Nat) (port : Nat)
  | linkRetrain (device : Nat) (port : Nat) (lane : Nat)
  | linkRetrainEnd (device : Nat) (port : Nat) (ok : Bool)
  | hwrite (device : Nat) (place : Nat) (bytes : (List Byte))
  | hread (device : Nat) (place : Nat) (n : Nat)
  | hlaunch (device : Nat) (handle : W64) (place : Nat)
  | checkpointQuiesced (device : Nat)
  | checkpointLive (device : Nat)
  | registerWrite (place : Nat) (value : W64) (head : Bool)
  | reinterleaveGranuleDone (tile : Nat)
  | vbusRetrainEnd (bus : VBus)
  | levelSourceSample (core : Nat)
  | modulePowerOn (device : Nat)
  | checkpointCopyBack (device : Nat)
  deriving DecidableEq, Repr

end Sys2Proof
end

