-- ==== Sys2Proof/WellFormed.lean ====
section
/-! DEFINITION. WellFormed.lean: the operand values that a form permits beyond the widths of its fields
(R71, R85, R89, R144, R147, R152, R226, Tables 6.2, 9.1, 12.1, 12.3 and 12.5). An instruction that breaks
them has no legal encoding: its word traps as illegal instruction. -/

namespace Sys2Proof

/-- The integer types of a vector form (R147). -/
def ElemTy.isInt : ElemTy → Bool
  | .i8 | .u8 | .i16 | .i32 | .i64 => true
  | _ => false

/-- The floating lane formats (R145). -/
def ElemTy.isFloat : ElemTy → Bool
  | .f16 | .bf16 | .f32 => true
  | _ => false

/-- Types with vector lanes, but for CF32 (Table 6.2). -/
def ElemTy.isLane (t : ElemTy) : Bool := t.isInt || t.isFloat

/-- The bits of an element (Table 5.1). -/
def ElemTy.bits : ElemTy → Nat
  | .i8 | .u8 | .tsw8 => 8
  | .i16 | .f16 | .bf16 => 16
  | .i32 | .f32 => 32
  | .i64 | .f64 | .c32 => 64
  | .i4 => 4
  | .i6 => 6

/-- Lanes of a vector register (Table 5.1); CF32 counts pairs. -/
def ElemTy.lanes (t : ElemTy) : Nat := 1024 / t.bits

/-- Types of vcvt (R152). -/
def ElemTy.isCvt (t : ElemTy) : Bool := t.isLane || t = .f64

/-- Sizes of a scalar access (R85). -/
def MemSize.isScalar : MemSize → Bool
  | .b | .h | .w | .d => true
  | _ => false

/-- 4 or 8 bytes (R243, R245). -/
def MemSize.isAtomic : MemSize → Bool
  | .w | .d => true
  | _ => false

/-- 64 or 128 bytes (R230). -/
def MemSize.isLine : MemSize → Bool
  | .l | .v => true
  | _ => false

/-- Bytes of an access (Table 2.7). -/
def MemSize.bytes : MemSize → Nat
  | .b => 1
  | .h => 2
  | .w => 4
  | .d => 8
  | .l => 64
  | .v => 128
  | .t => 2048

/-- A bit field of width w at position pos (R71). -/
def fieldOk (pos : BitVec 6) (w : BitVec 7) : Bool :=
  w.toNat != 0 && w.toNat ≤ 64 && pos.toNat + w.toNat ≤ 64

/-- A width of 1 to 64 (R89). -/
def widthOk (w : BitVec 7) : Bool := w.toNat != 0 && w.toNat ≤ 64

/-- The types, rounding and part of vcvt (R131, R152). FP64 conversions name scalar registers. -/
def cvtOk (o : CvtF) : Bool :=
  o.dst.isCvt && o.src.isCvt
  && (!(o.dst.isInt && o.src.isInt) || o.rnd = .rn || o.rnd = .sat)
  && (if o.dst = .f64 ∨ o.src = .f64 then o.part = 0
      else o.d.toNat < 32 && o.a.toNat < 32
        && o.part.toNat * min o.src.lanes o.dst.lanes < max o.src.lanes o.dst.lanes)

/-- A count of zero names no semaphore (R323). -/
def semOk (o : MmaF) : Bool :=
  (o.ww != 0 || o.ws = 0) && (o.rk != 0 || o.rs = 0)

/-- The dense products (Table 12.3). -/
def denseOk (o : MmaF) : Bool :=
  semOk o && o.e = 0 && !o.fh && (!o.lat || o.a = 0)

/-- The files of qpop (R341). -/
def popOk (o : QpopF) : Bool :=
  match o.kind with
  | .queue => o.d.toNat < 32
  | .inflowScalar => o.a.toNat < 4
  | .inflowVector => o.d.toNat < 32 && o.a.toNat < 4

/-- d, d + 1 and d + 2 are scalar registers other than s0 (R163). -/
def tripleOk (d : SReg) : Bool := d.toNat != 0 && d.toNat ≤ 61

/-- Whether the operands of an instruction are among those its form permits. An event of an asynchronous
agent has no encoding and no such limit. -/
def Instr.wellFormed : Instr → Bool
  | .add _ => true
  | .sub _ => true
  | .and _ => true
  | .or _ => true
  | .xor _ => true
  | .andn _ => true
  | .sll _ => true
  | .srl _ => true
  | .sra _ => true
  | .rol _ => true
  | .min _ => true
  | .max _ => true
  | .minu _ => true
  | .maxu _ => true
  | .addi _ => true
  | .andi _ => true
  | .ori _ => true
  | .xori _ => true
  | .slli _ => true
  | .srli _ => true
  | .srai _ => true
  | .roli _ => true
  | .li _ => true
  | .lpc _ => true
  | .mul _ => true
  | .mulh _ => true
  | .mulhu _ => true
  | .div _ => true
  | .divu _ => true
  | .rem _ => true
  | .remu _ => true
  | .cmpeq _ => true
  | .cmpne _ => true
  | .cmplt _ => true
  | .cmple _ => true
  | .cmpltu _ => true
  | .cmpleu _ => true
  | .sel _ => true
  | .slt _ => true
  | .sltu _ => true
  | .clz _ => true
  | .ctz _ => true
  | .popc _ => true
  | .bswap _ => true
  | .brev _ => true
  | .bfx o => fieldOk o.pos o.w
  | .bfxu o => fieldOk o.pos o.w
  | .bfi o => fieldOk o.pos o.w
  | .bins _ => true
  | .bffcs _ => true
  | .bplim _ => true
  | .pand _ => true
  | .por _ => true
  | .pxor _ => true
  | .pandn _ => true
  | .pnot _ => true
  | .br _ => true
  | .beq _ => true
  | .bne _ => true
  | .blt _ => true
  | .bge _ => true
  | .bltu _ => true
  | .bgeu _ => true
  | .call _ => true
  | .jmp _ => true
  | .callr _ => true
  | .ret _ => true
  | .mfs _ => true
  | .mts _ => true
  | .nop _ => true
  | .lbpurge o => !o.all || (o.a = 0 && o.b = 0)
  | .swtrap _ => true
  | .track _ => true
  | .tkill _ => true
  | .ld o => o.size.isScalar
  | .ldu o => o.size.isScalar
  | .st o => o.size.isScalar
  | .ldbf o => widthOk o.w
  | .ldbfs o => widthOk o.w
  | .stbf o => widthOk o.w
  | .bset _ => true
  | .bget _ => true
  | .badd _ => true
  | .vadd o => o.ty.isInt && !o.uns
  | .vsub o => o.ty.isInt && !o.uns
  | .vmul o => o.ty.isInt && !o.uns
  | .vmin o => o.ty.isInt
  | .vmax o => o.ty.isInt
  | .vand o => o.ty.isInt && !o.uns
  | .vor o => o.ty.isInt && !o.uns
  | .vxor o => o.ty.isInt && !o.uns
  | .vsll o => o.ty.isInt && !o.uns
  | .vsrl o => o.ty.isInt && !o.uns
  | .vsra o => o.ty.isInt && !o.uns
  | .vadds o => o.ty.isInt
  | .vfadd o => (o.ty.isFloat || o.ty = .c32) && !o.uns
  | .vfsub o => (o.ty.isFloat || o.ty = .c32) && !o.uns
  | .vfmul o => (o.ty.isFloat || o.ty = .c32) && !o.uns
  | .vfmin o => o.ty.isFloat && !o.uns
  | .vfmax o => o.ty.isFloat && !o.uns
  | .vfma o => o.ty.isFloat
  | .vfabs o => o.ty.isFloat
  | .vfneg o => o.ty.isFloat
  | .vcmpeq o => o.ty.isInt && !o.uns
  | .vcmpne o => o.ty.isInt && !o.uns
  | .vcmplt o => o.ty.isInt
  | .vcmple o => o.ty.isInt
  | .vfcmpeq o => o.ty.isFloat && !o.uns
  | .vfcmplt o => o.ty.isFloat && !o.uns
  | .vfcmple o => o.ty.isFloat && !o.uns
  | .vfcmpun o => o.ty.isFloat && !o.uns
  | .vperm o => o.ty.isLane && !o.uns
  | .vbcast o => o.ty.isLane
  | .vextr o => o.ty.isLane
  | .vins o => o.ty.isLane
  | .vrot o => o.ty.isLane
  | .vsel o => o.ty.isLane
  | .vcvt o => cvtOk o
  | .vredadd o => o.ty.isInt
  | .vfredadd o => o.ty.isFloat && !o.uns
  | .vredmin o => o.ty.isInt || (o.ty.isFloat && !o.uns)
  | .vredmax o => o.ty.isInt || (o.ty.isFloat && !o.uns)
  | .vfdot o => o.ty.isFloat
  | .vrcp o => o.ty.isFloat
  | .vrsq o => o.ty.isFloat
  | .vexp2 o => o.ty.isFloat
  | .vlog2 o => o.ty.isFloat
  | .vmovi _ => true
  | .vdiv o => o.ty.isInt
  | .vfdiv o => o.ty.isFloat && !o.uns
  | .vfsqrt o => o.ty.isFloat
  | .spawn _ => true
  | .reap _ => true
  | .yield _ => true
  | .halt _ => true
  | .migr _ => true
  | .launch _ => true
  | .trig _ => true
  | .share o => tripleOk o.d
  | .slice o => tripleOk o.d
  | .bar o => o.scope != .none
  | .vmld o => o.size.isLine
  | .vmst o => o.size.isLine
  | .vmgat o => o.size.isScalar
  | .vmsct o => o.size.isScalar
  | .tld _ => true
  | .rowopen _ => true
  | .rowclose _ => true
  | .vldx o => o.size.isLine
  | .vlda o => o.size.isLine
  | .vst o => o.size = .d || o.size.isLine
  | .vfloor _ => true
  | .phase o => o.scope != .none
  | .amoAdd o => o.size.isAtomic
  | .amoAnd o => o.size.isAtomic
  | .amoOr o => o.size.isAtomic
  | .amoXor o => o.size.isAtomic
  | .amoMin o => o.size.isAtomic
  | .amoMax o => o.size.isAtomic
  | .amoMinu o => o.size.isAtomic
  | .amoMaxu o => o.size.isAtomic
  | .amoSwap o => o.size.isAtomic
  | .amoCas o => o.size.isAtomic
  | .amoBins o => o.size.isAtomic
  | .amoBffcs o => o.size.isAtomic
  | .amoBplim o => o.size.isAtomic
  | .lr o => o.size.isAtomic
  | .sc o => o.size.isAtomic
  | .waitres _ => true
  | .waitaddr o => o.size.isAtomic
  | .rget o => o.size != .t
  | .rput o => o.size != .t
  | .radd o => o.size.isAtomic
  | .rcas o => o.size.isAtomic
  | .rcall o => o.size = .v
  | .rchins _ => true
  | .rchinv _ => true
  | .rchspl _ => true
  | .rchmrg _ => true
  | .rchrd _ => true
  | .mmabf o => denseOk o
  | .mmafh o => denseOk o
  | .mmai8 o => denseOk o
  | .mmatw o => semOk o && !o.lat && o.a.toNat % 2 = 0
  | .mmasp o => semOk o && !o.lat && o.e = 0 && o.b.toNat % 2 = 0
  | .gath o => o.n.toNat ≤ 32
  | .sparsify o => o.a.toNat % 2 = 0
  | .drev _ => true
  | .bfly o => o.mode.toNat != 3 && o.stage.toNat ≤ 8 && (o.mode != 0 || o.j = 0)
  | .twset _ => true
  | .twmul _ => true
  | .azero _ => true
  | .amov _ => true
  | .ast o => o.ty.toNat != 3 && (o.rg || (o.d = 0 && o.ring = 0)) && (o.ty != 0 || o.rnd = .rn)
  | .ald _ => true
  | .xfer _ => true
  | .ringset _ => true
  | .ringwait _ => true
  | .ibind o => o.wcode.toNat ≤ 4
  | .iunbind _ => true
  | .qpush _ => true
  | .qpop o => popOk o
  | .qfree _ => true
  | .bxf _ => true
  | .semsig o => o.k != 0
  | .semwait o => o.k != 0
  | .semset _ => true
  | .repb _ => true
  | .repstop _ => true
  | .cfopen _ => true
  | .cfclose _ => true
  | .shset _ => true
  | .shrd _ => true
  | .mark _ => true
  | .brkpt _ => true
  | .gsel _ => true
  | .grd o => o.item.toNat ≤ 19
  | .siltrd _ => true
  | .divideResult _ _ => true
  | .vectorLongResult _ _ => true
  | .yieldExpiry _ _ => true
  | .barNotification _ _ => true
  | .tileRowDelivery _ _ => true
  | .tldStallTimeout _ _ => true
  | .amoReply _ _ => true
  | .amoResend _ _ => true
  | .waitBoundExpiry _ _ => true
  | .rchinvComplete _ => true
  | .gatherComplete _ _ => true
  | .engineOperationEnd _ => true
  | .astRecordWrite _ => true
  | .ringwaitWake _ _ => true
  | .transformCommandComplete _ _ => true
  | .semaphoreGrant _ _ => true
  | .semaphoreStall _ _ => true
  | .sequencerIssue _ => true
  | .brkptComplete _ _ _ => true
  | .lineArrival _ _ => true
  | .loadReply _ _ => true
  | .seepLeak _ => true
  | .storePerformed _ => true
  | .releaseDrained _ _ => true
  | .threadEnd _ _ => true
  | .headInboxMessage _ => true
  | .dispatchOpportunity _ _ => true
  | .wakeMessage _ _ => true
  | .trigCount _ => true
  | .endNotice _ => true
  | .successorSignal _ => true
  | .lqtailWrite _ _ _ => true
  | .lqEnable _ _ _ => true
  | .migrationSend _ _ => true
  | .migrationArrival _ => true
  | .migrationPlacement _ => true
  | .rowIdleClose _ _ => true
  | .refreshStart _ _ => true
  | .refreshEnd _ _ => true
  | .bankSleep _ _ => true
  | .bankWakeComplete _ _ => true
  | .rowRepairStart _ _ _ => true
  | .rowRepairComplete _ _ _ => true
  | .sensorReport _ _ _ _ => true
  | .bankRetirement _ _ => true
  | .dredgerReinterleave _ => true
  | .reinterleaveComplete _ => true
  | .dredgerMove _ _ _ => true
  | .moveCopied _ => true
  | .drgackWrite _ _ => true
  | .gmapWrite _ _ _ => true
  | .rowCallMessage _ => true
  | .agentMessageStart _ => true
  | .agentVaultOperation _ _ => true
  | .rcallHandlerEnd _ => true
  | .rowCallReply _ => true
  | .backwaterReplay _ => true
  | .regionEnable _ _ _ => true
  | .regionDisable _ _ _ => true
  | .vrfloorWrite _ _ _ => true
  | .directoryAdmission _ _ => true
  | .versionRead _ _ => true
  | .floorChange _ _ => true
  | .sealVersion _ _ => true
  | .versionTimeout _ _ => true
  | .streamerRequest _ => true
  | .streamerStart _ => true
  | .streamerBlock _ _ _ => true
  | .transferComplete _ _ => true
  | .inflowBlock _ => true
  | .queueEntryArrival _ => true
  | .queueCreditArrival _ => true
  | .riserArrival _ _ => true
  | .queueStall _ _ => true
  | .queueEnable _ _ _ => true
  | .queueDisable _ _ _ => true
  | .ringEnable _ _ _ => true
  | .ringDisable _ _ _ => true
  | .ridxStore _ _ _ => true
  | .handleEntryWrite _ _ _ _ => true
  | .swapCommand _ _ => true
  | .swapTakeEffect _ => true
  | .spillRecordWritten _ => true
  | .fillCommand _ _ => true
  | .fillComplete _ => true
  | .gateRequest _ _ => true
  | .gateRequestLapse _ => true
  | .gateAck _ => true
  | .dieGated _ => true
  | .dieUngate _ => true
  | .gateRestoreComplete _ => true
  | .traceEnable _ _ => true
  | .traceRecordWrite _ => true
  | .droopTrip _ _ => true
  | .siltEntryWrite _ => true
  | .deviceReset _ _ _ => true
  | .partitionReset _ _ _ _ => true
  | .resetComplete _ _ _ => true
  | .imageVerify _ _ _ _ => true
  | .attestationRequest _ _ => true
  | .vbusBeatResend _ _ => true
  | .vbusTest _ _ _ => true
  | .vbusRetrain _ _ => true
  | .linkPacketReceive _ _ _ _ => true
  | .linkAckReceive _ _ _ => true
  | .linkNakReceive _ _ _ => true
  | .linkReplayTimeout _ _ => true
  | .linkRetrain _ _ _ => true
  | .linkRetrainEnd _ _ _ => true
  | .hwrite _ _ _ => true
  | .hread _ _ _ => true
  | .hlaunch _ _ _ => true
  | .checkpointQuiesced _ => true
  | .checkpointLive _ => true
  | .registerWrite _ _ _ => true
  | .reinterleaveGranuleDone _ => true
  | .vbusRetrainEnd _ => true
  | .levelSourceSample _ => true
  | .modulePowerOn _ => true
  | .checkpointCopyBack _ => true

end Sys2Proof
end

