-- ==== Sys2Proof/Decode.lean ====
section
/-! DEFINITION. Decode.lean: from the 96 bits of an instruction to `Instr` and back (R33, R40 to R49),
and the pairing rules of R37 and R38. -/

namespace Sys2Proof

/-- The fields of an instruction word (Tables 2.3 and 2.5). The W-format immediate is b, c and m
together. -/
structure Raw where
  op : BitVec 8
  fn : BitVec 8
  g  : Guard
  d  : BitVec 6
  a  : BitVec 6
  b  : BitVec 6
  c  : BitVec 6
  m  : BitVec 52
  deriving DecidableEq, Repr

/-- The word that holds the fields (Table 2.3: bits 95:64; Table 2.5: bits 63:0). -/
def Raw.pack (r : Raw) : Word96 :=
  r.op ++ r.fn ++ (if r.g.neg then 1#1 else 0#1) ++ r.g.p ++ r.d ++ r.a ++ r.b ++ r.c ++ r.m

/-- The fields of a word. -/
def Raw.unpack (w : Word96) : Raw :=
  { op := w.extractLsb' 88 8, fn := w.extractLsb' 80 8,
    g := { neg := w.getLsbD 79, p := w.extractLsb' 76 3 },
    d := w.extractLsb' 70 6, a := w.extractLsb' 64 6, b := w.extractLsb' 58 6, c := w.extractLsb' 52 6,
    m := w.extractLsb' 0 52 }

/-- The 64-bit immediate of format W. -/
def Raw.imm (r : Raw) : W64 := r.b ++ r.c ++ r.m

/-! Codes of the small fields. -/

/-- Codes of Table 5.1. -/
def ElemTy.code : ElemTy → BitVec 4
  | .i8 => 0
  | .u8 => 1
  | .i16 => 2
  | .i32 => 3
  | .i64 => 4
  | .i4 => 5
  | .i6 => 6
  | .tsw8 => 7
  | .f16 => 8
  | .bf16 => 9
  | .f32 => 10
  | .f64 => 11
  | .c32 => 12

/-- The inverse; a reserved code has none. -/
def ElemTy.ofCode (x : BitVec 4) : Option ElemTy :=
  match x.toNat with
  | 0 => some .i8
  | 1 => some .u8
  | 2 => some .i16
  | 3 => some .i32
  | 4 => some .i64
  | 5 => some .i4
  | 6 => some .i6
  | 7 => some .tsw8
  | 8 => some .f16
  | 9 => some .bf16
  | 10 => some .f32
  | 11 => some .f64
  | 12 => some .c32
  | _ => none

/-- Codes of Table 5.3. -/
def Rnd.code : Rnd → BitVec 3
  | .rn => 0
  | .rz => 1
  | .ru => 2
  | .rd => 3
  | .sat => 4

/-- The inverse; a reserved code has none. -/
def Rnd.ofCode (x : BitVec 3) : Option Rnd :=
  match x.toNat with
  | 0 => some .rn
  | 1 => some .rz
  | 2 => some .ru
  | 3 => some .rd
  | 4 => some .sat
  | _ => none

/-- Codes of Table 2.6. -/
def Scope.code : Scope → BitVec 3
  | .none => 0
  | .tile => 1
  | .group => 2
  | .stack => 3
  | .device => 4
  | .domain => 5

/-- The inverse; a reserved code has none. -/
def Scope.ofCode (x : BitVec 3) : Option Scope :=
  match x.toNat with
  | 0 => some .none
  | 1 => some .tile
  | 2 => some .group
  | 3 => some .stack
  | 4 => some .device
  | 5 => some .domain
  | _ => none

/-- Codes of Table 2.7. -/
def MemSize.code : MemSize → BitVec 3
  | .b => 0
  | .h => 1
  | .w => 2
  | .d => 3
  | .l => 4
  | .v => 5
  | .t => 6

/-- The inverse; a reserved code has none. -/
def MemSize.ofCode (x : BitVec 3) : Option MemSize :=
  match x.toNat with
  | 0 => some .b
  | 1 => some .h
  | 2 => some .w
  | 3 => some .d
  | 4 => some .l
  | 5 => some .v
  | 6 => some .t
  | _ => none

/-- Codes of Table 2.8. -/
def Hint.code : Hint → BitVec 2
  | .dflt => 0
  | .openRow => 1
  | .closeRow => 2

/-- The inverse; a reserved code has none. -/
def Hint.ofCode (x : BitVec 2) : Option Hint :=
  match x.toNat with
  | 0 => some .dflt
  | 1 => some .openRow
  | 2 => some .closeRow
  | _ => none

/-- Codes of the kind field of Table 12.5. -/
def PopKind.code : PopKind → BitVec 2
  | .queue => 0
  | .inflowScalar => 1
  | .inflowVector => 2

/-- The inverse; a reserved code has none. -/
def PopKind.ofCode (x : BitVec 2) : Option PopKind :=
  match x.toNat with
  | 0 => some .queue
  | 1 => some .inflowScalar
  | 2 => some .inflowVector
  | _ => none

/-- A one-bit flag as a field. -/
def flag (b : Bool) : BitVec 1 := if b then 1 else 0

/-! Each operand form and its fields, in the order of Table 2.5. -/

def rawSSS (op fn : BitVec 8) (o : SSS) : Raw :=
  { op := op, fn := fn, g := o.g, d := o.d, a := o.a, b := o.b, c := 0, m := 0 }

def formSSS (r : Raw) : Option SSS :=
  some { g := r.g, d := r.d, a := r.a, b := r.b }

def rawSSI (op fn : BitVec 8) (o : SSI) : Raw :=
  { op := op, fn := fn, g := o.g, d := o.d, a := o.a, b := o.imm.extractLsb' 58 6, c := o.imm.extractLsb' 52 6, m := o.imm.extractLsb' 0 52 }

def formSSI (r : Raw) : Option SSI :=
  some { g := r.g, d := r.d, a := r.a, imm := r.imm }

def rawSSN (op fn : BitVec 8) (o : SSN) : Raw :=
  { op := op, fn := fn, g := o.g, d := o.d, a := o.a, b := 0, c := 0, m := 0#46 ++ o.n }

def formSSN (r : Raw) : Option SSN :=
  some { g := r.g, d := r.d, a := r.a, n := r.m.extractLsb' 0 6 }

def rawSI (op fn : BitVec 8) (o : SI) : Raw :=
  { op := op, fn := fn, g := o.g, d := o.d, a := 0, b := o.imm.extractLsb' 58 6, c := o.imm.extractLsb' 52 6, m := o.imm.extractLsb' 0 52 }

def formSI (r : Raw) : Option SI :=
  some { g := r.g, d := r.d, imm := r.imm }

def rawPSS (op fn : BitVec 8) (o : PSS) : Raw :=
  { op := op, fn := fn, g := o.g, d := o.d.setWidth 6, a := o.a, b := o.b, c := 0, m := 0 }

def formPSS (r : Raw) : Option PSS :=
  some { g := r.g, d := r.d.setWidth 3, a := r.a, b := r.b }

def rawSSSP (op fn : BitVec 8) (o : SSSP) : Raw :=
  { op := op, fn := fn, g := o.g, d := o.d, a := o.a, b := o.b, c := o.c.setWidth 6, m := 0 }

def formSSSP (r : Raw) : Option SSSP :=
  some { g := r.g, d := r.d, a := r.a, b := r.b, c := r.c.setWidth 3 }

def rawSS (op fn : BitVec 8) (o : SS) : Raw :=
  { op := op, fn := fn, g := o.g, d := o.d, a := o.a, b := 0, c := 0, m := 0 }

def formSS (r : Raw) : Option SS :=
  some { g := r.g, d := r.d, a := r.a }

def rawBfxF (op fn : BitVec 8) (o : BfxF) : Raw :=
  { op := op, fn := fn, g := o.g, d := o.d, a := o.a, b := 0, c := 0, m := 0#39 ++ o.w ++ o.pos }

def formBfxF (r : Raw) : Option BfxF :=
  some { g := r.g, d := r.d, a := r.a, w := r.m.extractLsb' 6 7, pos := r.m.extractLsb' 0 6 }

def rawBfiF (op fn : BitVec 8) (o : BfiF) : Raw :=
  { op := op, fn := fn, g := o.g, d := o.d, a := o.a, b := o.b, c := 0, m := 0#39 ++ o.w ++ o.pos }

def formBfiF (r : Raw) : Option BfiF :=
  some { g := r.g, d := r.d, a := r.a, b := r.b, w := r.m.extractLsb' 6 7, pos := r.m.extractLsb' 0 6 }

def rawSSSS (op fn : BitVec 8) (o : SSSS) : Raw :=
  { op := op, fn := fn, g := o.g, d := o.d, a := o.a, b := o.b, c := o.c, m := 0 }

def formSSSS (r : Raw) : Option SSSS :=
  some { g := r.g, d := r.d, a := r.a, b := r.b, c := r.c }

def rawPPP (op fn : BitVec 8) (o : PPP) : Raw :=
  { op := op, fn := fn, g := o.g, d := o.d.setWidth 6, a := o.a.setWidth 6, b := o.b.setWidth 6, c := 0, m := 0 }

def formPPP (r : Raw) : Option PPP :=
  some { g := r.g, d := r.d.setWidth 3, a := r.a.setWidth 3, b := r.b.setWidth 3 }

def rawPP (op fn : BitVec 8) (o : PP) : Raw :=
  { op := op, fn := fn, g := o.g, d := o.d.setWidth 6, a := o.a.setWidth 6, b := 0, c := 0, m := 0 }

def formPP (r : Raw) : Option PP :=
  some { g := r.g, d := r.d.setWidth 3, a := r.a.setWidth 3 }

def rawBrF (op fn : BitVec 8) (o : BrF) : Raw :=
  { op := op, fn := fn, g := o.g, d := 0, a := 0, b := 0, c := 0, m := o.off }

def formBrF (r : Raw) : Option BrF :=
  some { g := r.g, off := r.m.extractLsb' 0 52 }

def rawBrSS (op fn : BitVec 8) (o : BrSS) : Raw :=
  { op := op, fn := fn, g := o.g, d := 0, a := o.a, b := o.b, c := 0, m := o.off }

def formBrSS (r : Raw) : Option BrSS :=
  some { g := r.g, a := r.a, b := r.b, off := r.m.extractLsb' 0 52 }

def rawCallF (op fn : BitVec 8) (o : CallF) : Raw :=
  { op := op, fn := fn, g := o.g, d := o.d, a := 0, b := 0, c := 0, m := o.off }

def formCallF (r : Raw) : Option CallF :=
  some { g := r.g, d := r.d, off := r.m.extractLsb' 0 52 }

def rawA1 (op fn : BitVec 8) (o : A1) : Raw :=
  { op := op, fn := fn, g := o.g, d := 0, a := o.a, b := 0, c := 0, m := 0 }

def formA1 (r : Raw) : Option A1 :=
  some { g := r.g, a := r.a }

def rawMfsF (op fn : BitVec 8) (o : MfsF) : Raw :=
  { op := op, fn := fn, g := o.g, d := o.d, a := o.x.setWidth 6, b := 0, c := 0, m := 0 }

def formMfsF (r : Raw) : Option MfsF :=
  some { g := r.g, d := r.d, x := r.a.setWidth 3 }

def rawMtsF (op fn : BitVec 8) (o : MtsF) : Raw :=
  { op := op, fn := fn, g := o.g, d := o.x.setWidth 6, a := o.a, b := 0, c := 0, m := 0 }

def formMtsF (r : Raw) : Option MtsF :=
  some { g := r.g, x := r.d.setWidth 3, a := r.a }

def rawG0 (op fn : BitVec 8) (o : G0) : Raw :=
  { op := op, fn := fn, g := o.g, d := 0, a := 0, b := 0, c := 0, m := 0 }

def formG0 (r : Raw) : Option G0 :=
  some { g := r.g }

def rawPurgeF (op fn : BitVec 8) (o : PurgeF) : Raw :=
  { op := op, fn := fn, g := o.g, d := 0, a := o.a, b := o.b, c := 0, m := 0#51 ++ flag o.all }

def formPurgeF (r : Raw) : Option PurgeF :=
  some { g := r.g, a := r.a, b := r.b, all := r.m.getLsbD 0 }

def rawCodeF (op fn : BitVec 8) (o : CodeF) : Raw :=
  { op := op, fn := fn, g := o.g, d := 0, a := o.a, b := 0, c := 0, m := 0#36 ++ o.code }

def formCodeF (r : Raw) : Option CodeF :=
  some { g := r.g, a := r.a, code := r.m.extractLsb' 0 16 }

def rawLdF (op fn : BitVec 8) (o : LdF) : Raw :=
  { op := op, fn := fn, g := o.g, d := o.d, a := o.a, b := o.b, c := 0, m := 0#3 ++ o.size.code ++ o.hint.code ++ o.off }

def formLdF (r : Raw) : Option LdF :=
  (MemSize.ofCode (r.m.extractLsb' 46 3)).bind fun size =>
  (Hint.ofCode (r.m.extractLsb' 44 2)).bind fun hint =>
  some { g := r.g, d := r.d, a := r.a, b := r.b, size := size, hint := hint, off := r.m.extractLsb' 0 44 }

def rawStF (op fn : BitVec 8) (o : StF) : Raw :=
  { op := op, fn := fn, g := o.g, d := 0, a := o.a, b := o.b, c := o.c, m := 0#3 ++ o.size.code ++ o.hint.code ++ o.off }

def formStF (r : Raw) : Option StF :=
  (MemSize.ofCode (r.m.extractLsb' 46 3)).bind fun size =>
  (Hint.ofCode (r.m.extractLsb' 44 2)).bind fun hint =>
  some { g := r.g, a := r.a, b := r.b, c := r.c, size := size, hint := hint, off := r.m.extractLsb' 0 44 }

def rawLdbfF (op fn : BitVec 8) (o : LdbfF) : Raw :=
  { op := op, fn := fn, g := o.g, d := o.d, a := o.a.setWidth 6, b := 0, c := 0, m := 0#44 ++ flag o.inc ++ o.w }

def formLdbfF (r : Raw) : Option LdbfF :=
  some { g := r.g, d := r.d, a := r.a.setWidth 2, inc := r.m.getLsbD 7, w := r.m.extractLsb' 0 7 }

def rawStbfF (op fn : BitVec 8) (o : StbfF) : Raw :=
  { op := op, fn := fn, g := o.g, d := 0, a := o.a.setWidth 6, b := o.b, c := 0, m := 0#44 ++ flag o.inc ++ o.w }

def formStbfF (r : Raw) : Option StbfF :=
  some { g := r.g, a := r.a.setWidth 2, b := r.b, inc := r.m.getLsbD 7, w := r.m.extractLsb' 0 7 }

def rawBsetF (op fn : BitVec 8) (o : BsetF) : Raw :=
  { op := op, fn := fn, g := o.g, d := o.d.setWidth 6, a := o.a, b := 0, c := 0, m := 0 }

def formBsetF (r : Raw) : Option BsetF :=
  some { g := r.g, d := r.d.setWidth 2, a := r.a }

def rawBgetF (op fn : BitVec 8) (o : BgetF) : Raw :=
  { op := op, fn := fn, g := o.g, d := o.d, a := o.a.setWidth 6, b := 0, c := 0, m := 0 }

def formBgetF (r : Raw) : Option BgetF :=
  some { g := r.g, d := r.d, a := r.a.setWidth 2 }

def rawBaddF (op fn : BitVec 8) (o : BaddF) : Raw :=
  { op := op, fn := fn, g := o.g, d := o.d.setWidth 6, a := o.a.setWidth 6, b := o.b, c := 0, m := 0#12 ++ o.imm }

def formBaddF (r : Raw) : Option BaddF :=
  some { g := r.g, d := r.d.setWidth 2, a := r.a.setWidth 2, b := r.b, imm := r.m.extractLsb' 0 40 }

def rawVVV (op fn : BitVec 8) (o : VVV) : Raw :=
  { op := op, fn := fn, g := o.g, d := o.d.setWidth 6, a := o.a.setWidth 6, b := o.b.setWidth 6, c := 0, m := 0#47 ++ flag o.uns ++ o.ty.code }

def formVVV (r : Raw) : Option VVV :=
  (ElemTy.ofCode (r.m.extractLsb' 0 4)).bind fun ty =>
  some { g := r.g, d := r.d.setWidth 5, a := r.a.setWidth 5, b := r.b.setWidth 5, uns := r.m.getLsbD 4, ty := ty }

def rawVVVV (op fn : BitVec 8) (o : VVVV) : Raw :=
  { op := op, fn := fn, g := o.g, d := o.d.setWidth 6, a := o.a.setWidth 6, b := o.b.setWidth 6, c := o.c.setWidth 6, m := 0#48 ++ o.ty.code }

def formVVVV (r : Raw) : Option VVVV :=
  (ElemTy.ofCode (r.m.extractLsb' 0 4)).bind fun ty =>
  some { g := r.g, d := r.d.setWidth 5, a := r.a.setWidth 5, b := r.b.setWidth 5, c := r.c.setWidth 5, ty := ty }

def rawVV (op fn : BitVec 8) (o : VV) : Raw :=
  { op := op, fn := fn, g := o.g, d := o.d.setWidth 6, a := o.a.setWidth 6, b := 0, c := 0, m := 0#48 ++ o.ty.code }

def formVV (r : Raw) : Option VV :=
  (ElemTy.ofCode (r.m.extractLsb' 0 4)).bind fun ty =>
  some { g := r.g, d := r.d.setWidth 5, a := r.a.setWidth 5, ty := ty }

def rawPVV (op fn : BitVec 8) (o : PVV) : Raw :=
  { op := op, fn := fn, g := o.g, d := o.d.setWidth 6, a := o.a.setWidth 6, b := o.b.setWidth 6, c := 0, m := 0#47 ++ flag o.uns ++ o.ty.code }

def formPVV (r : Raw) : Option PVV :=
  (ElemTy.ofCode (r.m.extractLsb' 0 4)).bind fun ty =>
  some { g := r.g, d := r.d.setWidth 3, a := r.a.setWidth 5, b := r.b.setWidth 5, uns := r.m.getLsbD 4, ty := ty }

def rawVST (op fn : BitVec 8) (o : VST) : Raw :=
  { op := op, fn := fn, g := o.g, d := o.d.setWidth 6, a := o.a, b := 0, c := 0, m := 0#48 ++ o.ty.code }

def formVST (r : Raw) : Option VST :=
  (ElemTy.ofCode (r.m.extractLsb' 0 4)).bind fun ty =>
  some { g := r.g, d := r.d.setWidth 5, a := r.a, ty := ty }

def rawSVST (op fn : BitVec 8) (o : SVST) : Raw :=
  { op := op, fn := fn, g := o.g, d := o.d, a := o.a.setWidth 6, b := o.b, c := 0, m := 0#48 ++ o.ty.code }

def formSVST (r : Raw) : Option SVST :=
  (ElemTy.ofCode (r.m.extractLsb' 0 4)).bind fun ty =>
  some { g := r.g, d := r.d, a := r.a.setWidth 5, b := r.b, ty := ty }

def rawVSST (op fn : BitVec 8) (o : VSST) : Raw :=
  { op := op, fn := fn, g := o.g, d := o.d.setWidth 6, a := o.a, b := o.b, c := 0, m := 0#48 ++ o.ty.code }

def formVSST (r : Raw) : Option VSST :=
  (ElemTy.ofCode (r.m.extractLsb' 0 4)).bind fun ty =>
  some { g := r.g, d := r.d.setWidth 5, a := r.a, b := r.b, ty := ty }

def rawVVST (op fn : BitVec 8) (o : VVST) : Raw :=
  { op := op, fn := fn, g := o.g, d := o.d.setWidth 6, a := o.a.setWidth 6, b := o.b, c := 0, m := 0#48 ++ o.ty.code }

def formVVST (r : Raw) : Option VVST :=
  (ElemTy.ofCode (r.m.extractLsb' 0 4)).bind fun ty =>
  some { g := r.g, d := r.d.setWidth 5, a := r.a.setWidth 5, b := r.b, ty := ty }

def rawVVVP (op fn : BitVec 8) (o : VVVP) : Raw :=
  { op := op, fn := fn, g := o.g, d := o.d.setWidth 6, a := o.a.setWidth 6, b := o.b.setWidth 6, c := o.c.setWidth 6, m := 0#48 ++ o.ty.code }

def formVVVP (r : Raw) : Option VVVP :=
  (ElemTy.ofCode (r.m.extractLsb' 0 4)).bind fun ty =>
  some { g := r.g, d := r.d.setWidth 5, a := r.a.setWidth 5, b := r.b.setWidth 5, c := r.c.setWidth 3, ty := ty }

def rawCvtF (op fn : BitVec 8) (o : CvtF) : Raw :=
  { op := op, fn := fn, g := o.g, d := o.d, a := o.a, b := 0, c := 0, m := 0#38 ++ o.part ++ o.rnd.code ++ o.src.code ++ o.dst.code }

def formCvtF (r : Raw) : Option CvtF :=
  (Rnd.ofCode (r.m.extractLsb' 8 3)).bind fun rnd =>
  (ElemTy.ofCode (r.m.extractLsb' 4 4)).bind fun src =>
  (ElemTy.ofCode (r.m.extractLsb' 0 4)).bind fun dst =>
  some { g := r.g, d := r.d, a := r.a, part := r.m.extractLsb' 11 3, rnd := rnd, src := src, dst := dst }

def rawSVT (op fn : BitVec 8) (o : SVT) : Raw :=
  { op := op, fn := fn, g := o.g, d := o.d, a := o.a.setWidth 6, b := 0, c := 0, m := 0#47 ++ flag o.uns ++ o.ty.code }

def formSVT (r : Raw) : Option SVT :=
  (ElemTy.ofCode (r.m.extractLsb' 0 4)).bind fun ty =>
  some { g := r.g, d := r.d, a := r.a.setWidth 5, uns := r.m.getLsbD 4, ty := ty }

def rawDotF (op fn : BitVec 8) (o : DotF) : Raw :=
  { op := op, fn := fn, g := o.g, d := o.d, a := o.a.setWidth 6, b := o.b.setWidth 6, c := o.c, m := 0#48 ++ o.ty.code }

def formDotF (r : Raw) : Option DotF :=
  (ElemTy.ofCode (r.m.extractLsb' 0 4)).bind fun ty =>
  some { g := r.g, d := r.d, a := r.a.setWidth 5, b := r.b.setWidth 5, c := r.c, ty := ty }

def rawVI (op fn : BitVec 8) (o : VI) : Raw :=
  { op := op, fn := fn, g := o.g, d := o.d.setWidth 6, a := 0, b := o.imm.extractLsb' 58 6, c := o.imm.extractLsb' 52 6, m := o.imm.extractLsb' 0 52 }

def formVI (r : Raw) : Option VI :=
  some { g := r.g, d := r.d.setWidth 5, imm := r.imm }

def rawSVS (op fn : BitVec 8) (o : SVS) : Raw :=
  { op := op, fn := fn, g := o.g, d := o.d, a := o.a.setWidth 6, b := o.b, c := 0, m := 0 }

def formSVS (r : Raw) : Option SVS :=
  some { g := r.g, d := r.d, a := r.a.setWidth 5, b := r.b }

def rawReapF (op fn : BitVec 8) (o : ReapF) : Raw :=
  { op := op, fn := fn, g := o.g, d := o.d.setWidth 6, a := 0, b := 0, c := 0, m := 0#51 ++ flag o.poll }

def formReapF (r : Raw) : Option ReapF :=
  some { g := r.g, d := r.d.setWidth 5, poll := r.m.getLsbD 0 }

def rawVS (op fn : BitVec 8) (o : VS) : Raw :=
  { op := op, fn := fn, g := o.g, d := o.d.setWidth 6, a := o.a, b := 0, c := 0, m := 0 }

def formVS (r : Raw) : Option VS :=
  some { g := r.g, d := r.d.setWidth 5, a := r.a }

def rawScopeF (op fn : BitVec 8) (o : ScopeF) : Raw :=
  { op := op, fn := fn, g := o.g, d := 0, a := 0, b := 0, c := 0, m := o.scope.code ++ 0#49 }

def formScopeF (r : Raw) : Option ScopeF :=
  (Scope.ofCode (r.m.extractLsb' 49 3)).bind fun scope =>
  some { g := r.g, scope := scope }

def rawVmldF (op fn : BitVec 8) (o : VmldF) : Raw :=
  { op := op, fn := fn, g := o.g, d := o.d.setWidth 6, a := o.a, b := o.b, c := 0, m := 0#3 ++ o.size.code ++ o.hint.code ++ o.off }

def formVmldF (r : Raw) : Option VmldF :=
  (MemSize.ofCode (r.m.extractLsb' 46 3)).bind fun size =>
  (Hint.ofCode (r.m.extractLsb' 44 2)).bind fun hint =>
  some { g := r.g, d := r.d.setWidth 5, a := r.a, b := r.b, size := size, hint := hint, off := r.m.extractLsb' 0 44 }

def rawVmstF (op fn : BitVec 8) (o : VmstF) : Raw :=
  { op := op, fn := fn, g := o.g, d := 0, a := o.a, b := o.b, c := o.c.setWidth 6, m := 0#3 ++ o.size.code ++ o.hint.code ++ o.off }

def formVmstF (r : Raw) : Option VmstF :=
  (MemSize.ofCode (r.m.extractLsb' 46 3)).bind fun size =>
  (Hint.ofCode (r.m.extractLsb' 44 2)).bind fun hint =>
  some { g := r.g, a := r.a, b := r.b, c := r.c.setWidth 5, size := size, hint := hint, off := r.m.extractLsb' 0 44 }

def rawGatF (op fn : BitVec 8) (o : GatF) : Raw :=
  { op := op, fn := fn, g := o.g, d := o.d.setWidth 6, a := o.a, b := o.b.setWidth 6, c := 0, m := 0#3 ++ o.size.code ++ 0#2 ++ o.off }

def formGatF (r : Raw) : Option GatF :=
  (MemSize.ofCode (r.m.extractLsb' 46 3)).bind fun size =>
  some { g := r.g, d := r.d.setWidth 5, a := r.a, b := r.b.setWidth 5, size := size, off := r.m.extractLsb' 0 44 }

def rawSctF (op fn : BitVec 8) (o : SctF) : Raw :=
  { op := op, fn := fn, g := o.g, d := 0, a := o.a, b := o.b.setWidth 6, c := o.c.setWidth 6, m := 0#3 ++ o.size.code ++ 0#2 ++ o.off }

def formSctF (r : Raw) : Option SctF :=
  (MemSize.ofCode (r.m.extractLsb' 46 3)).bind fun size =>
  some { g := r.g, a := r.a, b := r.b.setWidth 5, c := r.c.setWidth 5, size := size, off := r.m.extractLsb' 0 44 }

def rawTldF (op fn : BitVec 8) (o : TldF) : Raw :=
  { op := op, fn := fn, g := o.g, d := o.d.setWidth 6, a := o.a, b := o.b, c := 0, m := 0#3 ++ 6#3 ++ o.hint.code ++ o.off }

def formTldF (r : Raw) : Option TldF :=
  (Hint.ofCode (r.m.extractLsb' 44 2)).bind fun hint =>
  some { g := r.g, d := r.d.setWidth 3, a := r.a, b := r.b, hint := hint, off := r.m.extractLsb' 0 44 }

def rawRowF (op fn : BitVec 8) (o : RowF) : Raw :=
  { op := op, fn := fn, g := o.g, d := 0, a := o.a, b := 0, c := 0, m := 0#8 ++ o.off }

def formRowF (r : Raw) : Option RowF :=
  some { g := r.g, a := r.a, off := r.m.extractLsb' 0 44 }

def rawVldxF (op fn : BitVec 8) (o : VldxF) : Raw :=
  { op := op, fn := fn, g := o.g, d := o.d.setWidth 6, a := o.a, b := o.b, c := o.c, m := 0#3 ++ o.size.code ++ 0#2 ++ o.off }

def formVldxF (r : Raw) : Option VldxF :=
  (MemSize.ofCode (r.m.extractLsb' 46 3)).bind fun size =>
  some { g := r.g, d := r.d.setWidth 5, a := r.a, b := r.b, c := r.c, size := size, off := r.m.extractLsb' 0 44 }

def rawVldaF (op fn : BitVec 8) (o : VldaF) : Raw :=
  { op := op, fn := fn, g := o.g, d := o.d.setWidth 6, a := o.a, b := 0, c := o.c, m := 0#3 ++ o.size.code ++ 0#2 ++ o.off }

def formVldaF (r : Raw) : Option VldaF :=
  (MemSize.ofCode (r.m.extractLsb' 46 3)).bind fun size =>
  some { g := r.g, d := r.d.setWidth 5, a := r.a, c := r.c, size := size, off := r.m.extractLsb' 0 44 }

def rawVstF (op fn : BitVec 8) (o : VstF) : Raw :=
  { op := op, fn := fn, g := o.g, d := 0, a := o.a, b := o.b, c := o.c.setWidth 6, m := 0#3 ++ o.size.code ++ 0#2 ++ o.off }

def formVstF (r : Raw) : Option VstF :=
  (MemSize.ofCode (r.m.extractLsb' 46 3)).bind fun size =>
  some { g := r.g, a := r.a, b := r.b, c := r.c.setWidth 5, size := size, off := r.m.extractLsb' 0 44 }

def rawVfloorF (op fn : BitVec 8) (o : VfloorF) : Raw :=
  { op := op, fn := fn, g := o.g, d := 0, a := o.a, b := 0, c := o.c, m := 0#8 ++ o.off }

def formVfloorF (r : Raw) : Option VfloorF :=
  some { g := r.g, a := r.a, c := r.c, off := r.m.extractLsb' 0 44 }

def rawAmoF (op fn : BitVec 8) (o : AmoF) : Raw :=
  { op := op, fn := fn, g := o.g, d := o.d, a := o.a, b := o.b, c := o.c, m := o.scope.code ++ o.size.code ++ 0#2 ++ o.off }

def formAmoF (r : Raw) : Option AmoF :=
  (Scope.ofCode (r.m.extractLsb' 49 3)).bind fun scope =>
  (MemSize.ofCode (r.m.extractLsb' 46 3)).bind fun size =>
  some { g := r.g, d := r.d, a := r.a, b := r.b, c := r.c, scope := scope, size := size, off := r.m.extractLsb' 0 44 }

def rawLrF (op fn : BitVec 8) (o : LrF) : Raw :=
  { op := op, fn := fn, g := o.g, d := o.d, a := o.a, b := o.b, c := 0, m := 0#3 ++ o.size.code ++ 0#2 ++ o.off }

def formLrF (r : Raw) : Option LrF :=
  (MemSize.ofCode (r.m.extractLsb' 46 3)).bind fun size =>
  some { g := r.g, d := r.d, a := r.a, b := r.b, size := size, off := r.m.extractLsb' 0 44 }

def rawScF (op fn : BitVec 8) (o : ScF) : Raw :=
  { op := op, fn := fn, g := o.g, d := o.d, a := o.a, b := o.b, c := o.c, m := 0#3 ++ o.size.code ++ 0#2 ++ o.off }

def formScF (r : Raw) : Option ScF :=
  (MemSize.ofCode (r.m.extractLsb' 46 3)).bind fun size =>
  some { g := r.g, d := r.d, a := r.a, b := r.b, c := r.c, size := size, off := r.m.extractLsb' 0 44 }

def rawRcF (op fn : BitVec 8) (o : RcF) : Raw :=
  { op := op, fn := fn, g := o.g, d := o.d, a := o.a, b := 0, c := o.c.setWidth 6, m := o.scope.code ++ o.size.code ++ 0#2 ++ o.off }

def formRcF (r : Raw) : Option RcF :=
  (Scope.ofCode (r.m.extractLsb' 49 3)).bind fun scope =>
  (MemSize.ofCode (r.m.extractLsb' 46 3)).bind fun size =>
  some { g := r.g, d := r.d, a := r.a, c := r.c.setWidth 5, scope := scope, size := size, off := r.m.extractLsb' 0 44 }

def rawRcbF (op fn : BitVec 8) (o : RcbF) : Raw :=
  { op := op, fn := fn, g := o.g, d := o.d, a := o.a, b := o.b, c := o.c.setWidth 6, m := o.scope.code ++ o.size.code ++ 0#2 ++ o.off }

def formRcbF (r : Raw) : Option RcbF :=
  (Scope.ofCode (r.m.extractLsb' 49 3)).bind fun scope =>
  (MemSize.ofCode (r.m.extractLsb' 46 3)).bind fun size =>
  some { g := r.g, d := r.d, a := r.a, b := r.b, c := r.c.setWidth 5, scope := scope, size := size, off := r.m.extractLsb' 0 44 }

def rawMmaF (op fn : BitVec 8) (o : MmaF) : Raw :=
  { op := op, fn := fn, g := o.g, d := o.d.setWidth 6, a := o.a.setWidth 6, b := o.b.setWidth 6, c := 0, m := o.ws ++ o.ww ++ o.rs ++ o.rk ++ o.e ++ 0#2 ++ flag o.lat ++ flag o.fh }

def formMmaF (r : Raw) : Option MmaF :=
  some { g := r.g, d := r.d.setWidth 2, a := r.a.setWidth 3, b := r.b.setWidth 3, ws := r.m.extractLsb' 48 4, ww := r.m.extractLsb' 32 16, rs := r.m.extractLsb' 28 4, rk := r.m.extractLsb' 12 16, e := r.m.extractLsb' 4 8, lat := r.m.getLsbD 1, fh := r.m.getLsbD 0 }

def rawGathF (op fn : BitVec 8) (o : GathF) : Raw :=
  { op := op, fn := fn, g := o.g, d := 0, a := o.a, b := o.b.setWidth 6, c := 0, m := 0#46 ++ o.n }

def formGathF (r : Raw) : Option GathF :=
  some { g := r.g, a := r.a, b := r.b.setWidth 5, n := r.m.extractLsb' 0 6 }

def rawSparF (op fn : BitVec 8) (o : SparF) : Raw :=
  { op := op, fn := fn, g := o.g, d := o.d.setWidth 6, a := o.a.setWidth 6, b := 0, c := 0, m := 0#51 ++ flag o.fh }

def formSparF (r : Raw) : Option SparF :=
  some { g := r.g, d := r.d.setWidth 3, a := r.a.setWidth 3, fh := r.m.getLsbD 0 }

def rawAcc1 (op fn : BitVec 8) (o : Acc1) : Raw :=
  { op := op, fn := fn, g := o.g, d := o.d.setWidth 6, a := 0, b := 0, c := 0, m := 0 }

def formAcc1 (r : Raw) : Option Acc1 :=
  some { g := r.g, d := r.d.setWidth 2 }

def rawBflyF (op fn : BitVec 8) (o : BflyF) : Raw :=
  { op := op, fn := fn, g := o.g, d := o.d.setWidth 6, a := 0, b := 0, c := 0, m := 0#36 ++ o.j ++ 0#2 ++ o.mode ++ o.stage }

def formBflyF (r : Raw) : Option BflyF :=
  some { g := r.g, d := r.d.setWidth 2, j := r.m.extractLsb' 8 8, mode := r.m.extractLsb' 4 2, stage := r.m.extractLsb' 0 4 }

def rawTwmulF (op fn : BitVec 8) (o : TwmulF) : Raw :=
  { op := op, fn := fn, g := o.g, d := o.d.setWidth 6, a := o.a, b := o.b, c := 0, m := 0 }

def formTwmulF (r : Raw) : Option TwmulF :=
  some { g := r.g, d := r.d.setWidth 2, a := r.a, b := r.b }

def rawAmovF (op fn : BitVec 8) (o : AmovF) : Raw :=
  { op := op, fn := fn, g := o.g, d := o.d.setWidth 6, a := o.a.setWidth 6, b := 0, c := 0, m := 0#47 ++ o.rnd.code ++ 0#1 ++ flag o.fh }

def formAmovF (r : Raw) : Option AmovF :=
  (Rnd.ofCode (r.m.extractLsb' 2 3)).bind fun rnd =>
  some { g := r.g, d := r.d.setWidth 3, a := r.a.setWidth 2, rnd := rnd, fh := r.m.getLsbD 0 }

def rawAstF (op fn : BitVec 8) (o : AstF) : Raw :=
  { op := op, fn := fn, g := o.g, d := o.d, a := o.a, b := 0, c := o.c.setWidth 6, m := 0#10 ++ o.rnd.code ++ o.ty ++ flag o.rg ++ o.ring ++ o.off }

def formAstF (r : Raw) : Option AstF :=
  (Rnd.ofCode (r.m.extractLsb' 39 3)).bind fun rnd =>
  some { g := r.g, d := r.d, a := r.a, c := r.c.setWidth 2, rnd := rnd, ty := r.m.extractLsb' 37 2, rg := r.m.getLsbD 36, ring := r.m.extractLsb' 32 4, off := r.m.extractLsb' 0 32 }

def rawAldF (op fn : BitVec 8) (o : AldF) : Raw :=
  { op := op, fn := fn, g := o.g, d := o.d.setWidth 6, a := o.a, b := 0, c := 0, m := 0#20 ++ o.off }

def formAldF (r : Raw) : Option AldF :=
  some { g := r.g, d := r.d.setWidth 2, a := r.a, off := r.m.extractLsb' 0 32 }

def rawXferF (op fn : BitVec 8) (o : XferF) : Raw :=
  { op := op, fn := fn, g := o.g, d := o.d, a := o.a.setWidth 6, b := 0, c := 0, m := 0 }

def formXferF (r : Raw) : Option XferF :=
  some { g := r.g, d := r.d, a := r.a.setWidth 5 }

def rawRingsetF (op fn : BitVec 8) (o : RingsetF) : Raw :=
  { op := op, fn := fn, g := o.g, d := o.d, a := o.a, b := 0, c := 0, m := 0#48 ++ o.ring }

def formRingsetF (r : Raw) : Option RingsetF :=
  some { g := r.g, d := r.d, a := r.a, ring := r.m.extractLsb' 0 4 }

def rawRingwaitF (op fn : BitVec 8) (o : RingwaitF) : Raw :=
  { op := op, fn := fn, g := o.g, d := o.d, a := o.a, b := o.b, c := 0, m := 0#48 ++ o.ring }

def formRingwaitF (r : Raw) : Option RingwaitF :=
  some { g := r.g, d := r.d, a := r.a, b := r.b, ring := r.m.extractLsb' 0 4 }

def rawIbindF (op fn : BitVec 8) (o : IbindF) : Raw :=
  { op := op, fn := fn, g := o.g, d := o.d.setWidth 6, a := 0, b := 0, c := 0, m := 0#36 ++ o.id ++ 0#5 ++ o.wcode }

def formIbindF (r : Raw) : Option IbindF :=
  some { g := r.g, d := r.d.setWidth 2, id := r.m.extractLsb' 8 8, wcode := r.m.extractLsb' 0 3 }

def rawIunbindF (op fn : BitVec 8) (o : IunbindF) : Raw :=
  { op := op, fn := fn, g := o.g, d := o.d.setWidth 6, a := 0, b := 0, c := 0, m := 0 }

def formIunbindF (r : Raw) : Option IunbindF :=
  some { g := r.g, d := r.d.setWidth 2 }

def rawQpushF (op fn : BitVec 8) (o : QpushF) : Raw :=
  { op := op, fn := fn, g := o.g, d := o.d.setWidth 6, a := o.a.setWidth 6, b := 0, c := 0, m := 0 }

def formQpushF (r : Raw) : Option QpushF :=
  some { g := r.g, d := r.d.setWidth 3, a := r.a.setWidth 5 }

def rawQpopF (op fn : BitVec 8) (o : QpopF) : Raw :=
  { op := op, fn := fn, g := o.g, d := o.d, a := o.a.setWidth 6, b := 0, c := 0, m := 0#50 ++ o.kind.code }

def formQpopF (r : Raw) : Option QpopF :=
  (PopKind.ofCode (r.m.extractLsb' 0 2)).bind fun kind =>
  some { g := r.g, d := r.d, a := r.a.setWidth 3, kind := kind }

def rawQfreeF (op fn : BitVec 8) (o : QfreeF) : Raw :=
  { op := op, fn := fn, g := o.g, d := o.d, a := o.a.setWidth 6, b := 0, c := 0, m := 0 }

def formQfreeF (r : Raw) : Option QfreeF :=
  some { g := r.g, d := r.d, a := r.a.setWidth 3 }

def rawBxfF (op fn : BitVec 8) (o : BxfF) : Raw :=
  { op := op, fn := fn, g := o.g, d := 0, a := o.a.setWidth 6, b := 0, c := 0, m := 0 }

def formBxfF (r : Raw) : Option BxfF :=
  some { g := r.g, a := r.a.setWidth 5 }

def rawSemF (op fn : BitVec 8) (o : SemF) : Raw :=
  { op := op, fn := fn, g := o.g, d := o.d.setWidth 6, a := 0, b := 0, c := 0, m := 0#36 ++ o.k }

def formSemF (r : Raw) : Option SemF :=
  some { g := r.g, d := r.d.setWidth 4, k := r.m.extractLsb' 0 16 }

def rawSemsetF (op fn : BitVec 8) (o : SemsetF) : Raw :=
  { op := op, fn := fn, g := o.g, d := o.d.setWidth 6, a := o.a, b := 0, c := 0, m := 0 }

def formSemsetF (r : Raw) : Option SemsetF :=
  some { g := r.g, d := r.d.setWidth 4, a := r.a }

def rawRepbF (op fn : BitVec 8) (o : RepbF) : Raw :=
  { op := op, fn := fn, g := o.g, d := 0, a := 0, b := 0, c := 0, m := 0#17 ++ o.strD ++ o.strA ++ o.strB ++ o.strC ++ o.cm1 ++ o.nm1 }

def formRepbF (r : Raw) : Option RepbF :=
  some { g := r.g, strD := r.m.extractLsb' 31 4, strA := r.m.extractLsb' 27 4, strB := r.m.extractLsb' 23 4, strC := r.m.extractLsb' 19 4, cm1 := r.m.extractLsb' 3 16, nm1 := r.m.extractLsb' 0 3 }

def rawShsetF (op fn : BitVec 8) (o : ShsetF) : Raw :=
  { op := op, fn := fn, g := o.g, d := o.d.setWidth 6, a := o.a, b := o.b, c := 0, m := 0 }

def formShsetF (r : Raw) : Option ShsetF :=
  some { g := r.g, d := r.d.setWidth 3, a := r.a, b := r.b }

def rawShrdF (op fn : BitVec 8) (o : ShrdF) : Raw :=
  { op := op, fn := fn, g := o.g, d := o.d, a := o.a.setWidth 6, b := 0, c := 0, m := 0#51 ++ flag o.ctl }

def formShrdF (r : Raw) : Option ShrdF :=
  some { g := r.g, d := r.d, a := r.a.setWidth 3, ctl := r.m.getLsbD 0 }

def rawGselF (op fn : BitVec 8) (o : GselF) : Raw :=
  { op := op, fn := fn, g := o.g, d := 0, a := o.a, b := 0, c := 0, m := 0#50 ++ o.gauge }

def formGselF (r : Raw) : Option GselF :=
  some { g := r.g, a := r.a, gauge := r.m.extractLsb' 0 2 }

def rawGrdF (op fn : BitVec 8) (o : GrdF) : Raw :=
  { op := op, fn := fn, g := o.g, d := o.d, a := 0, b := 0, c := 0, m := 0#45 ++ o.item ++ o.gauge }

def formGrdF (r : Raw) : Option GrdF :=
  some { g := r.g, d := r.d, item := r.m.extractLsb' 2 5, gauge := r.m.extractLsb' 0 2 }

/-- The word of an instruction (R40 to R47): none for an event, which has no encoding. -/
def encode : Instr → Option Word96
  | .add o => some (rawSSS 0x01 0x00 o).pack
  | .sub o => some (rawSSS 0x01 0x01 o).pack
  | .and o => some (rawSSS 0x01 0x02 o).pack
  | .or o => some (rawSSS 0x01 0x03 o).pack
  | .xor o => some (rawSSS 0x01 0x04 o).pack
  | .andn o => some (rawSSS 0x01 0x05 o).pack
  | .sll o => some (rawSSS 0x01 0x06 o).pack
  | .srl o => some (rawSSS 0x01 0x07 o).pack
  | .sra o => some (rawSSS 0x01 0x08 o).pack
  | .rol o => some (rawSSS 0x01 0x09 o).pack
  | .min o => some (rawSSS 0x01 0x0A o).pack
  | .max o => some (rawSSS 0x01 0x0B o).pack
  | .minu o => some (rawSSS 0x01 0x0C o).pack
  | .maxu o => some (rawSSS 0x01 0x0D o).pack
  | .addi o => some (rawSSI 0x02 0x00 o).pack
  | .andi o => some (rawSSI 0x02 0x02 o).pack
  | .ori o => some (rawSSI 0x02 0x03 o).pack
  | .xori o => some (rawSSI 0x02 0x04 o).pack
  | .slli o => some (rawSSN 0x02 0x06 o).pack
  | .srli o => some (rawSSN 0x02 0x07 o).pack
  | .srai o => some (rawSSN 0x02 0x08 o).pack
  | .roli o => some (rawSSN 0x02 0x09 o).pack
  | .li o => some (rawSI 0x03 0x00 o).pack
  | .lpc o => some (rawSI 0x03 0x01 o).pack
  | .mul o => some (rawSSS 0x04 0x00 o).pack
  | .mulh o => some (rawSSS 0x04 0x01 o).pack
  | .mulhu o => some (rawSSS 0x04 0x02 o).pack
  | .div o => some (rawSSS 0x05 0x00 o).pack
  | .divu o => some (rawSSS 0x05 0x01 o).pack
  | .rem o => some (rawSSS 0x05 0x02 o).pack
  | .remu o => some (rawSSS 0x05 0x03 o).pack
  | .cmpeq o => some (rawPSS 0x06 0x00 o).pack
  | .cmpne o => some (rawPSS 0x06 0x01 o).pack
  | .cmplt o => some (rawPSS 0x06 0x02 o).pack
  | .cmple o => some (rawPSS 0x06 0x03 o).pack
  | .cmpltu o => some (rawPSS 0x06 0x04 o).pack
  | .cmpleu o => some (rawPSS 0x06 0x05 o).pack
  | .sel o => some (rawSSSP 0x07 0x00 o).pack
  | .slt o => some (rawSSS 0x07 0x01 o).pack
  | .sltu o => some (rawSSS 0x07 0x02 o).pack
  | .clz o => some (rawSS 0x08 0x00 o).pack
  | .ctz o => some (rawSS 0x08 0x01 o).pack
  | .popc o => some (rawSS 0x08 0x02 o).pack
  | .bswap o => some (rawSS 0x08 0x03 o).pack
  | .brev o => some (rawSS 0x08 0x04 o).pack
  | .bfx o => some (rawBfxF 0x09 0x00 o).pack
  | .bfxu o => some (rawBfxF 0x09 0x01 o).pack
  | .bfi o => some (rawBfiF 0x09 0x02 o).pack
  | .bins o => some (rawSSSS 0x0A 0x00 o).pack
  | .bffcs o => some (rawSSSP 0x0A 0x01 o).pack
  | .bplim o => some (rawSSSS 0x0A 0x02 o).pack
  | .pand o => some (rawPPP 0x0B 0x00 o).pack
  | .por o => some (rawPPP 0x0B 0x01 o).pack
  | .pxor o => some (rawPPP 0x0B 0x02 o).pack
  | .pandn o => some (rawPPP 0x0B 0x03 o).pack
  | .pnot o => some (rawPP 0x0B 0x04 o).pack
  | .br o => some (rawBrF 0x20 0x00 o).pack
  | .beq o => some (rawBrSS 0x20 0x01 o).pack
  | .bne o => some (rawBrSS 0x20 0x02 o).pack
  | .blt o => some (rawBrSS 0x20 0x03 o).pack
  | .bge o => some (rawBrSS 0x20 0x04 o).pack
  | .bltu o => some (rawBrSS 0x20 0x05 o).pack
  | .bgeu o => some (rawBrSS 0x20 0x06 o).pack
  | .call o => some (rawCallF 0x21 0x00 o).pack
  | .jmp o => some (rawA1 0x22 0x00 o).pack
  | .callr o => some (rawSS 0x22 0x01 o).pack
  | .ret o => some (rawA1 0x22 0x02 o).pack
  | .mfs o => some (rawMfsF 0x23 0x00 o).pack
  | .mts o => some (rawMtsF 0x23 0x01 o).pack
  | .nop o => some (rawG0 0x24 0x00 o).pack
  | .lbpurge o => some (rawPurgeF 0x24 0x01 o).pack
  | .swtrap o => some (rawCodeF 0x24 0x02 o).pack
  | .track o => some (rawSSS 0x25 0x00 o).pack
  | .tkill o => some (rawSSS 0x25 0x01 o).pack
  | .ld o => some (rawLdF 0x30 0x00 o).pack
  | .ldu o => some (rawLdF 0x30 0x01 o).pack
  | .st o => some (rawStF 0x31 0x00 o).pack
  | .ldbf o => some (rawLdbfF 0x32 0x00 o).pack
  | .ldbfs o => some (rawLdbfF 0x32 0x01 o).pack
  | .stbf o => some (rawStbfF 0x32 0x02 o).pack
  | .bset o => some (rawBsetF 0x33 0x00 o).pack
  | .bget o => some (rawBgetF 0x33 0x01 o).pack
  | .badd o => some (rawBaddF 0x33 0x02 o).pack
  | .vadd o => some (rawVVV 0x40 0x00 o).pack
  | .vsub o => some (rawVVV 0x40 0x01 o).pack
  | .vmul o => some (rawVVV 0x40 0x02 o).pack
  | .vmin o => some (rawVVV 0x40 0x03 o).pack
  | .vmax o => some (rawVVV 0x40 0x04 o).pack
  | .vand o => some (rawVVV 0x40 0x05 o).pack
  | .vor o => some (rawVVV 0x40 0x06 o).pack
  | .vxor o => some (rawVVV 0x40 0x07 o).pack
  | .vsll o => some (rawVVV 0x40 0x08 o).pack
  | .vsrl o => some (rawVVV 0x40 0x09 o).pack
  | .vsra o => some (rawVVV 0x40 0x0A o).pack
  | .vadds o => some (rawVVV 0x40 0x0B o).pack
  | .vfadd o => some (rawVVV 0x41 0x00 o).pack
  | .vfsub o => some (rawVVV 0x41 0x01 o).pack
  | .vfmul o => some (rawVVV 0x41 0x02 o).pack
  | .vfmin o => some (rawVVV 0x41 0x04 o).pack
  | .vfmax o => some (rawVVV 0x41 0x05 o).pack
  | .vfma o => some (rawVVVV 0x41 0x03 o).pack
  | .vfabs o => some (rawVV 0x41 0x06 o).pack
  | .vfneg o => some (rawVV 0x41 0x07 o).pack
  | .vcmpeq o => some (rawPVV 0x42 0x00 o).pack
  | .vcmpne o => some (rawPVV 0x42 0x01 o).pack
  | .vcmplt o => some (rawPVV 0x42 0x02 o).pack
  | .vcmple o => some (rawPVV 0x42 0x03 o).pack
  | .vfcmpeq o => some (rawPVV 0x42 0x04 o).pack
  | .vfcmplt o => some (rawPVV 0x42 0x05 o).pack
  | .vfcmple o => some (rawPVV 0x42 0x06 o).pack
  | .vfcmpun o => some (rawPVV 0x42 0x07 o).pack
  | .vperm o => some (rawVVV 0x43 0x00 o).pack
  | .vbcast o => some (rawVST 0x43 0x01 o).pack
  | .vextr o => some (rawSVST 0x43 0x02 o).pack
  | .vins o => some (rawVSST 0x43 0x03 o).pack
  | .vrot o => some (rawVVST 0x43 0x04 o).pack
  | .vsel o => some (rawVVVP 0x43 0x05 o).pack
  | .vcvt o => some (rawCvtF 0x44 0x00 o).pack
  | .vredadd o => some (rawSVT 0x45 0x00 o).pack
  | .vfredadd o => some (rawSVT 0x45 0x01 o).pack
  | .vredmin o => some (rawSVT 0x45 0x02 o).pack
  | .vredmax o => some (rawSVT 0x45 0x03 o).pack
  | .vfdot o => some (rawDotF 0x45 0x04 o).pack
  | .vrcp o => some (rawVV 0x46 0x00 o).pack
  | .vrsq o => some (rawVV 0x46 0x01 o).pack
  | .vexp2 o => some (rawVV 0x46 0x02 o).pack
  | .vlog2 o => some (rawVV 0x46 0x03 o).pack
  | .vmovi o => some (rawVI 0x47 0x00 o).pack
  | .vdiv o => some (rawVVV 0x48 0x00 o).pack
  | .vfdiv o => some (rawVVV 0x48 0x01 o).pack
  | .vfsqrt o => some (rawVV 0x48 0x02 o).pack
  | .spawn o => some (rawSVS 0x60 0x00 o).pack
  | .reap o => some (rawReapF 0x60 0x01 o).pack
  | .yield o => some (rawA1 0x60 0x02 o).pack
  | .halt o => some (rawG0 0x60 0x03 o).pack
  | .migr o => some (rawSSS 0x60 0x04 o).pack
  | .launch o => some (rawSSS 0x61 0x00 o).pack
  | .trig o => some (rawG0 0x61 0x01 o).pack
  | .share o => some (rawSS 0x62 0x00 o).pack
  | .slice o => some (rawSS 0x62 0x01 o).pack
  | .bar o => some (rawScopeF 0x63 0x00 o).pack
  | .vmld o => some (rawVmldF 0x70 0x00 o).pack
  | .vmst o => some (rawVmstF 0x70 0x01 o).pack
  | .vmgat o => some (rawGatF 0x70 0x02 o).pack
  | .vmsct o => some (rawSctF 0x70 0x03 o).pack
  | .tld o => some (rawTldF 0x71 0x00 o).pack
  | .rowopen o => some (rawRowF 0x72 0x00 o).pack
  | .rowclose o => some (rawRowF 0x72 0x01 o).pack
  | .vldx o => some (rawVldxF 0x73 0x00 o).pack
  | .vlda o => some (rawVldaF 0x73 0x01 o).pack
  | .vst o => some (rawVstF 0x73 0x02 o).pack
  | .vfloor o => some (rawVfloorF 0x73 0x03 o).pack
  | .phase o => some (rawScopeF 0x74 0x00 o).pack
  | .amoAdd o => some (rawAmoF 0x75 0x00 o).pack
  | .amoAnd o => some (rawAmoF 0x75 0x01 o).pack
  | .amoOr o => some (rawAmoF 0x75 0x02 o).pack
  | .amoXor o => some (rawAmoF 0x75 0x03 o).pack
  | .amoMin o => some (rawAmoF 0x75 0x04 o).pack
  | .amoMax o => some (rawAmoF 0x75 0x05 o).pack
  | .amoMinu o => some (rawAmoF 0x75 0x06 o).pack
  | .amoMaxu o => some (rawAmoF 0x75 0x07 o).pack
  | .amoSwap o => some (rawAmoF 0x75 0x08 o).pack
  | .amoCas o => some (rawAmoF 0x75 0x09 o).pack
  | .amoBins o => some (rawAmoF 0x75 0x0A o).pack
  | .amoBffcs o => some (rawAmoF 0x75 0x0B o).pack
  | .amoBplim o => some (rawAmoF 0x75 0x0C o).pack
  | .lr o => some (rawLrF 0x76 0x00 o).pack
  | .sc o => some (rawScF 0x76 0x01 o).pack
  | .waitres o => some (rawSS 0x77 0x00 o).pack
  | .waitaddr o => some (rawScF 0x77 0x01 o).pack
  | .rget o => some (rawRcF 0x78 0x00 o).pack
  | .rput o => some (rawRcF 0x78 0x01 o).pack
  | .radd o => some (rawRcbF 0x78 0x02 o).pack
  | .rcas o => some (rawRcF 0x78 0x03 o).pack
  | .rcall o => some (rawRcbF 0x78 0x04 o).pack
  | .rchins o => some (rawSVS 0x79 0x00 o).pack
  | .rchinv o => some (rawSS 0x79 0x01 o).pack
  | .rchspl o => some (rawSSS 0x79 0x02 o).pack
  | .rchmrg o => some (rawSSS 0x79 0x03 o).pack
  | .rchrd o => some (rawVS 0x79 0x04 o).pack
  | .mmabf o => some (rawMmaF 0x90 0x00 o).pack
  | .mmafh o => some (rawMmaF 0x90 0x01 o).pack
  | .mmai8 o => some (rawMmaF 0x90 0x02 o).pack
  | .mmatw o => some (rawMmaF 0x90 0x03 o).pack
  | .mmasp o => some (rawMmaF 0x90 0x04 o).pack
  | .gath o => some (rawGathF 0x91 0x00 o).pack
  | .sparsify o => some (rawSparF 0x91 0x01 o).pack
  | .drev o => some (rawAcc1 0x92 0x00 o).pack
  | .bfly o => some (rawBflyF 0x92 0x01 o).pack
  | .twset o => some (rawA1 0x92 0x02 o).pack
  | .twmul o => some (rawTwmulF 0x92 0x03 o).pack
  | .azero o => some (rawAcc1 0x93 0x00 o).pack
  | .amov o => some (rawAmovF 0x93 0x01 o).pack
  | .ast o => some (rawAstF 0x93 0x02 o).pack
  | .ald o => some (rawAldF 0x93 0x03 o).pack
  | .xfer o => some (rawXferF 0x94 0x00 o).pack
  | .ringset o => some (rawRingsetF 0x94 0x01 o).pack
  | .ringwait o => some (rawRingwaitF 0x94 0x02 o).pack
  | .ibind o => some (rawIbindF 0x95 0x00 o).pack
  | .iunbind o => some (rawIunbindF 0x95 0x01 o).pack
  | .qpush o => some (rawQpushF 0x96 0x00 o).pack
  | .qpop o => some (rawQpopF 0x96 0x01 o).pack
  | .qfree o => some (rawQfreeF 0x96 0x02 o).pack
  | .bxf o => some (rawBxfF 0x97 0x00 o).pack
  | .semsig o => some (rawSemF 0x98 0x00 o).pack
  | .semwait o => some (rawSemF 0x98 0x01 o).pack
  | .semset o => some (rawSemsetF 0x98 0x02 o).pack
  | .repb o => some (rawRepbF 0x99 0x00 o).pack
  | .repstop o => some (rawG0 0x99 0x01 o).pack
  | .cfopen o => some (rawA1 0xB0 0x00 o).pack
  | .cfclose o => some (rawG0 0xB0 0x01 o).pack
  | .shset o => some (rawShsetF 0xB1 0x00 o).pack
  | .shrd o => some (rawShrdF 0xB1 0x01 o).pack
  | .mark o => some (rawCodeF 0xB2 0x00 o).pack
  | .brkpt o => some (rawSVS 0xB2 0x01 o).pack
  | .gsel o => some (rawGselF 0xB2 0x02 o).pack
  | .grd o => some (rawGrdF 0xB2 0x03 o).pack
  | .siltrd o => some (rawVS 0xB2 0x04 o).pack
  | .divideResult _ _ => none
  | .vectorLongResult _ _ => none
  | .yieldExpiry _ _ => none
  | .barNotification _ _ => none
  | .tileRowDelivery _ _ => none
  | .tldStallTimeout _ _ => none
  | .amoReply _ _ => none
  | .amoResend _ _ => none
  | .waitBoundExpiry _ _ => none
  | .rchinvComplete _ => none
  | .gatherComplete _ _ => none
  | .engineOperationEnd _ => none
  | .astRecordWrite _ => none
  | .ringwaitWake _ _ => none
  | .transformCommandComplete _ _ => none
  | .semaphoreGrant _ _ => none
  | .semaphoreStall _ _ => none
  | .sequencerIssue _ => none
  | .brkptComplete _ _ _ => none
  | .lineArrival _ _ => none
  | .loadReply _ _ => none
  | .seepLeak _ => none
  | .storePerformed _ => none
  | .releaseDrained _ _ => none
  | .threadEnd _ _ => none
  | .headInboxMessage _ => none
  | .dispatchOpportunity _ _ => none
  | .wakeMessage _ _ => none
  | .trigCount _ => none
  | .endNotice _ => none
  | .successorSignal _ => none
  | .lqtailWrite _ _ _ => none
  | .lqEnable _ _ _ => none
  | .migrationSend _ _ => none
  | .migrationArrival _ => none
  | .migrationPlacement _ => none
  | .rowIdleClose _ _ => none
  | .refreshStart _ _ => none
  | .refreshEnd _ _ => none
  | .bankSleep _ _ => none
  | .bankWakeComplete _ _ => none
  | .rowRepairStart _ _ _ => none
  | .rowRepairComplete _ _ _ => none
  | .sensorReport _ _ _ _ => none
  | .bankRetirement _ _ => none
  | .dredgerReinterleave _ => none
  | .reinterleaveComplete _ => none
  | .dredgerMove _ _ _ => none
  | .moveCopied _ => none
  | .drgackWrite _ _ => none
  | .gmapWrite _ _ _ => none
  | .rowCallMessage _ => none
  | .agentMessageStart _ => none
  | .agentVaultOperation _ _ => none
  | .rcallHandlerEnd _ => none
  | .rowCallReply _ => none
  | .backwaterReplay _ => none
  | .regionEnable _ _ _ => none
  | .regionDisable _ _ _ => none
  | .vrfloorWrite _ _ _ => none
  | .directoryAdmission _ _ => none
  | .versionRead _ _ => none
  | .floorChange _ _ => none
  | .sealVersion _ _ => none
  | .versionTimeout _ _ => none
  | .streamerRequest _ => none
  | .streamerStart _ => none
  | .streamerBlock _ _ _ => none
  | .transferComplete _ _ => none
  | .inflowBlock _ => none
  | .queueEntryArrival _ => none
  | .queueCreditArrival _ => none
  | .riserArrival _ _ => none
  | .queueStall _ _ => none
  | .queueEnable _ _ _ => none
  | .queueDisable _ _ _ => none
  | .ringEnable _ _ _ => none
  | .ringDisable _ _ _ => none
  | .ridxStore _ _ _ => none
  | .handleEntryWrite _ _ _ _ => none
  | .swapCommand _ _ => none
  | .swapTakeEffect _ => none
  | .spillRecordWritten _ => none
  | .fillCommand _ _ => none
  | .fillComplete _ => none
  | .gateRequest _ _ => none
  | .gateRequestLapse _ => none
  | .gateAck _ => none
  | .dieGated _ => none
  | .dieUngate _ => none
  | .gateRestoreComplete _ => none
  | .traceEnable _ _ => none
  | .traceRecordWrite _ => none
  | .droopTrip _ _ => none
  | .siltEntryWrite _ => none
  | .deviceReset _ _ _ => none
  | .partitionReset _ _ _ _ => none
  | .resetComplete _ _ _ => none
  | .imageVerify _ _ _ _ => none
  | .attestationRequest _ _ => none
  | .vbusBeatResend _ _ => none
  | .vbusTest _ _ _ => none
  | .vbusRetrain _ _ => none
  | .linkPacketReceive _ _ _ _ => none
  | .linkAckReceive _ _ _ => none
  | .linkNakReceive _ _ _ => none
  | .linkReplayTimeout _ _ => none
  | .linkRetrain _ _ _ => none
  | .linkRetrainEnd _ _ _ => none
  | .hwrite _ _ _ => none
  | .hread _ _ _ => none
  | .hlaunch _ _ _ => none
  | .checkpointQuiesced _ => none
  | .checkpointLive _ => none
  | .registerWrite _ _ _ => none
  | .reinterleaveGranuleDone _ => none
  | .vbusRetrainEnd _ => none
  | .levelSourceSample _ => none
  | .modulePowerOn _ => none
  | .checkpointCopyBack _ => none

/-! The forms of each major opcode by function code (Tables 2.9 to 2.13). -/

def forms01 (r : Raw) : Option Instr :=
  match r.fn.toNat with
  | 0x00 => (formSSS r).map .add
  | 0x01 => (formSSS r).map .sub
  | 0x02 => (formSSS r).map .and
  | 0x03 => (formSSS r).map .or
  | 0x04 => (formSSS r).map .xor
  | 0x05 => (formSSS r).map .andn
  | 0x06 => (formSSS r).map .sll
  | 0x07 => (formSSS r).map .srl
  | 0x08 => (formSSS r).map .sra
  | 0x09 => (formSSS r).map .rol
  | 0x0A => (formSSS r).map .min
  | 0x0B => (formSSS r).map .max
  | 0x0C => (formSSS r).map .minu
  | 0x0D => (formSSS r).map .maxu
  | _ => none

def forms02 (r : Raw) : Option Instr :=
  match r.fn.toNat with
  | 0x00 => (formSSI r).map .addi
  | 0x02 => (formSSI r).map .andi
  | 0x03 => (formSSI r).map .ori
  | 0x04 => (formSSI r).map .xori
  | 0x06 => (formSSN r).map .slli
  | 0x07 => (formSSN r).map .srli
  | 0x08 => (formSSN r).map .srai
  | 0x09 => (formSSN r).map .roli
  | _ => none

def forms03 (r : Raw) : Option Instr :=
  match r.fn.toNat with
  | 0x00 => (formSI r).map .li
  | 0x01 => (formSI r).map .lpc
  | _ => none

def forms04 (r : Raw) : Option Instr :=
  match r.fn.toNat with
  | 0x00 => (formSSS r).map .mul
  | 0x01 => (formSSS r).map .mulh
  | 0x02 => (formSSS r).map .mulhu
  | _ => none

def forms05 (r : Raw) : Option Instr :=
  match r.fn.toNat with
  | 0x00 => (formSSS r).map .div
  | 0x01 => (formSSS r).map .divu
  | 0x02 => (formSSS r).map .rem
  | 0x03 => (formSSS r).map .remu
  | _ => none

def forms06 (r : Raw) : Option Instr :=
  match r.fn.toNat with
  | 0x00 => (formPSS r).map .cmpeq
  | 0x01 => (formPSS r).map .cmpne
  | 0x02 => (formPSS r).map .cmplt
  | 0x03 => (formPSS r).map .cmple
  | 0x04 => (formPSS r).map .cmpltu
  | 0x05 => (formPSS r).map .cmpleu
  | _ => none

def forms07 (r : Raw) : Option Instr :=
  match r.fn.toNat with
  | 0x00 => (formSSSP r).map .sel
  | 0x01 => (formSSS r).map .slt
  | 0x02 => (formSSS r).map .sltu
  | _ => none

def forms08 (r : Raw) : Option Instr :=
  match r.fn.toNat with
  | 0x00 => (formSS r).map .clz
  | 0x01 => (formSS r).map .ctz
  | 0x02 => (formSS r).map .popc
  | 0x03 => (formSS r).map .bswap
  | 0x04 => (formSS r).map .brev
  | _ => none

def forms09 (r : Raw) : Option Instr :=
  match r.fn.toNat with
  | 0x00 => (formBfxF r).map .bfx
  | 0x01 => (formBfxF r).map .bfxu
  | 0x02 => (formBfiF r).map .bfi
  | _ => none

def forms0A (r : Raw) : Option Instr :=
  match r.fn.toNat with
  | 0x00 => (formSSSS r).map .bins
  | 0x01 => (formSSSP r).map .bffcs
  | 0x02 => (formSSSS r).map .bplim
  | _ => none

def forms0B (r : Raw) : Option Instr :=
  match r.fn.toNat with
  | 0x00 => (formPPP r).map .pand
  | 0x01 => (formPPP r).map .por
  | 0x02 => (formPPP r).map .pxor
  | 0x03 => (formPPP r).map .pandn
  | 0x04 => (formPP r).map .pnot
  | _ => none

def forms20 (r : Raw) : Option Instr :=
  match r.fn.toNat with
  | 0x00 => (formBrF r).map .br
  | 0x01 => (formBrSS r).map .beq
  | 0x02 => (formBrSS r).map .bne
  | 0x03 => (formBrSS r).map .blt
  | 0x04 => (formBrSS r).map .bge
  | 0x05 => (formBrSS r).map .bltu
  | 0x06 => (formBrSS r).map .bgeu
  | _ => none

def forms21 (r : Raw) : Option Instr :=
  match r.fn.toNat with
  | 0x00 => (formCallF r).map .call
  | _ => none

def forms22 (r : Raw) : Option Instr :=
  match r.fn.toNat with
  | 0x00 => (formA1 r).map .jmp
  | 0x01 => (formSS r).map .callr
  | 0x02 => (formA1 r).map .ret
  | _ => none

def forms23 (r : Raw) : Option Instr :=
  match r.fn.toNat with
  | 0x00 => (formMfsF r).map .mfs
  | 0x01 => (formMtsF r).map .mts
  | _ => none

def forms24 (r : Raw) : Option Instr :=
  match r.fn.toNat with
  | 0x00 => (formG0 r).map .nop
  | 0x01 => (formPurgeF r).map .lbpurge
  | 0x02 => (formCodeF r).map .swtrap
  | _ => none

def forms25 (r : Raw) : Option Instr :=
  match r.fn.toNat with
  | 0x00 => (formSSS r).map .track
  | 0x01 => (formSSS r).map .tkill
  | _ => none

def forms30 (r : Raw) : Option Instr :=
  match r.fn.toNat with
  | 0x00 => (formLdF r).map .ld
  | 0x01 => (formLdF r).map .ldu
  | _ => none

def forms31 (r : Raw) : Option Instr :=
  match r.fn.toNat with
  | 0x00 => (formStF r).map .st
  | _ => none

def forms32 (r : Raw) : Option Instr :=
  match r.fn.toNat with
  | 0x00 => (formLdbfF r).map .ldbf
  | 0x01 => (formLdbfF r).map .ldbfs
  | 0x02 => (formStbfF r).map .stbf
  | _ => none

def forms33 (r : Raw) : Option Instr :=
  match r.fn.toNat with
  | 0x00 => (formBsetF r).map .bset
  | 0x01 => (formBgetF r).map .bget
  | 0x02 => (formBaddF r).map .badd
  | _ => none

def forms40 (r : Raw) : Option Instr :=
  match r.fn.toNat with
  | 0x00 => (formVVV r).map .vadd
  | 0x01 => (formVVV r).map .vsub
  | 0x02 => (formVVV r).map .vmul
  | 0x03 => (formVVV r).map .vmin
  | 0x04 => (formVVV r).map .vmax
  | 0x05 => (formVVV r).map .vand
  | 0x06 => (formVVV r).map .vor
  | 0x07 => (formVVV r).map .vxor
  | 0x08 => (formVVV r).map .vsll
  | 0x09 => (formVVV r).map .vsrl
  | 0x0A => (formVVV r).map .vsra
  | 0x0B => (formVVV r).map .vadds
  | _ => none

def forms41 (r : Raw) : Option Instr :=
  match r.fn.toNat with
  | 0x00 => (formVVV r).map .vfadd
  | 0x01 => (formVVV r).map .vfsub
  | 0x02 => (formVVV r).map .vfmul
  | 0x04 => (formVVV r).map .vfmin
  | 0x05 => (formVVV r).map .vfmax
  | 0x03 => (formVVVV r).map .vfma
  | 0x06 => (formVV r).map .vfabs
  | 0x07 => (formVV r).map .vfneg
  | _ => none

def forms42 (r : Raw) : Option Instr :=
  match r.fn.toNat with
  | 0x00 => (formPVV r).map .vcmpeq
  | 0x01 => (formPVV r).map .vcmpne
  | 0x02 => (formPVV r).map .vcmplt
  | 0x03 => (formPVV r).map .vcmple
  | 0x04 => (formPVV r).map .vfcmpeq
  | 0x05 => (formPVV r).map .vfcmplt
  | 0x06 => (formPVV r).map .vfcmple
  | 0x07 => (formPVV r).map .vfcmpun
  | _ => none

def forms43 (r : Raw) : Option Instr :=
  match r.fn.toNat with
  | 0x00 => (formVVV r).map .vperm
  | 0x01 => (formVST r).map .vbcast
  | 0x02 => (formSVST r).map .vextr
  | 0x03 => (formVSST r).map .vins
  | 0x04 => (formVVST r).map .vrot
  | 0x05 => (formVVVP r).map .vsel
  | _ => none

def forms44 (r : Raw) : Option Instr :=
  match r.fn.toNat with
  | 0x00 => (formCvtF r).map .vcvt
  | _ => none

def forms45 (r : Raw) : Option Instr :=
  match r.fn.toNat with
  | 0x00 => (formSVT r).map .vredadd
  | 0x01 => (formSVT r).map .vfredadd
  | 0x02 => (formSVT r).map .vredmin
  | 0x03 => (formSVT r).map .vredmax
  | 0x04 => (formDotF r).map .vfdot
  | _ => none

def forms46 (r : Raw) : Option Instr :=
  match r.fn.toNat with
  | 0x00 => (formVV r).map .vrcp
  | 0x01 => (formVV r).map .vrsq
  | 0x02 => (formVV r).map .vexp2
  | 0x03 => (formVV r).map .vlog2
  | _ => none

def forms47 (r : Raw) : Option Instr :=
  match r.fn.toNat with
  | 0x00 => (formVI r).map .vmovi
  | _ => none

def forms48 (r : Raw) : Option Instr :=
  match r.fn.toNat with
  | 0x00 => (formVVV r).map .vdiv
  | 0x01 => (formVVV r).map .vfdiv
  | 0x02 => (formVV r).map .vfsqrt
  | _ => none

def forms60 (r : Raw) : Option Instr :=
  match r.fn.toNat with
  | 0x00 => (formSVS r).map .spawn
  | 0x01 => (formReapF r).map .reap
  | 0x02 => (formA1 r).map .yield
  | 0x03 => (formG0 r).map .halt
  | 0x04 => (formSSS r).map .migr
  | _ => none

def forms61 (r : Raw) : Option Instr :=
  match r.fn.toNat with
  | 0x00 => (formSSS r).map .launch
  | 0x01 => (formG0 r).map .trig
  | _ => none

def forms62 (r : Raw) : Option Instr :=
  match r.fn.toNat with
  | 0x00 => (formSS r).map .share
  | 0x01 => (formSS r).map .slice
  | _ => none

def forms63 (r : Raw) : Option Instr :=
  match r.fn.toNat with
  | 0x00 => (formScopeF r).map .bar
  | _ => none

def forms70 (r : Raw) : Option Instr :=
  match r.fn.toNat with
  | 0x00 => (formVmldF r).map .vmld
  | 0x01 => (formVmstF r).map .vmst
  | 0x02 => (formGatF r).map .vmgat
  | 0x03 => (formSctF r).map .vmsct
  | _ => none

def forms71 (r : Raw) : Option Instr :=
  match r.fn.toNat with
  | 0x00 => (formTldF r).map .tld
  | _ => none

def forms72 (r : Raw) : Option Instr :=
  match r.fn.toNat with
  | 0x00 => (formRowF r).map .rowopen
  | 0x01 => (formRowF r).map .rowclose
  | _ => none

def forms73 (r : Raw) : Option Instr :=
  match r.fn.toNat with
  | 0x00 => (formVldxF r).map .vldx
  | 0x01 => (formVldaF r).map .vlda
  | 0x02 => (formVstF r).map .vst
  | 0x03 => (formVfloorF r).map .vfloor
  | _ => none

def forms74 (r : Raw) : Option Instr :=
  match r.fn.toNat with
  | 0x00 => (formScopeF r).map .phase
  | _ => none

def forms75 (r : Raw) : Option Instr :=
  match r.fn.toNat with
  | 0x00 => (formAmoF r).map .amoAdd
  | 0x01 => (formAmoF r).map .amoAnd
  | 0x02 => (formAmoF r).map .amoOr
  | 0x03 => (formAmoF r).map .amoXor
  | 0x04 => (formAmoF r).map .amoMin
  | 0x05 => (formAmoF r).map .amoMax
  | 0x06 => (formAmoF r).map .amoMinu
  | 0x07 => (formAmoF r).map .amoMaxu
  | 0x08 => (formAmoF r).map .amoSwap
  | 0x09 => (formAmoF r).map .amoCas
  | 0x0A => (formAmoF r).map .amoBins
  | 0x0B => (formAmoF r).map .amoBffcs
  | 0x0C => (formAmoF r).map .amoBplim
  | _ => none

def forms76 (r : Raw) : Option Instr :=
  match r.fn.toNat with
  | 0x00 => (formLrF r).map .lr
  | 0x01 => (formScF r).map .sc
  | _ => none

def forms77 (r : Raw) : Option Instr :=
  match r.fn.toNat with
  | 0x00 => (formSS r).map .waitres
  | 0x01 => (formScF r).map .waitaddr
  | _ => none

def forms78 (r : Raw) : Option Instr :=
  match r.fn.toNat with
  | 0x00 => (formRcF r).map .rget
  | 0x01 => (formRcF r).map .rput
  | 0x02 => (formRcbF r).map .radd
  | 0x03 => (formRcF r).map .rcas
  | 0x04 => (formRcbF r).map .rcall
  | _ => none

def forms79 (r : Raw) : Option Instr :=
  match r.fn.toNat with
  | 0x00 => (formSVS r).map .rchins
  | 0x01 => (formSS r).map .rchinv
  | 0x02 => (formSSS r).map .rchspl
  | 0x03 => (formSSS r).map .rchmrg
  | 0x04 => (formVS r).map .rchrd
  | _ => none

def forms90 (r : Raw) : Option Instr :=
  match r.fn.toNat with
  | 0x00 => (formMmaF r).map .mmabf
  | 0x01 => (formMmaF r).map .mmafh
  | 0x02 => (formMmaF r).map .mmai8
  | 0x03 => (formMmaF r).map .mmatw
  | 0x04 => (formMmaF r).map .mmasp
  | _ => none

def forms91 (r : Raw) : Option Instr :=
  match r.fn.toNat with
  | 0x00 => (formGathF r).map .gath
  | 0x01 => (formSparF r).map .sparsify
  | _ => none

def forms92 (r : Raw) : Option Instr :=
  match r.fn.toNat with
  | 0x00 => (formAcc1 r).map .drev
  | 0x01 => (formBflyF r).map .bfly
  | 0x02 => (formA1 r).map .twset
  | 0x03 => (formTwmulF r).map .twmul
  | _ => none

def forms93 (r : Raw) : Option Instr :=
  match r.fn.toNat with
  | 0x00 => (formAcc1 r).map .azero
  | 0x01 => (formAmovF r).map .amov
  | 0x02 => (formAstF r).map .ast
  | 0x03 => (formAldF r).map .ald
  | _ => none

def forms94 (r : Raw) : Option Instr :=
  match r.fn.toNat with
  | 0x00 => (formXferF r).map .xfer
  | 0x01 => (formRingsetF r).map .ringset
  | 0x02 => (formRingwaitF r).map .ringwait
  | _ => none

def forms95 (r : Raw) : Option Instr :=
  match r.fn.toNat with
  | 0x00 => (formIbindF r).map .ibind
  | 0x01 => (formIunbindF r).map .iunbind
  | _ => none

def forms96 (r : Raw) : Option Instr :=
  match r.fn.toNat with
  | 0x00 => (formQpushF r).map .qpush
  | 0x01 => (formQpopF r).map .qpop
  | 0x02 => (formQfreeF r).map .qfree
  | _ => none

def forms97 (r : Raw) : Option Instr :=
  match r.fn.toNat with
  | 0x00 => (formBxfF r).map .bxf
  | _ => none

def forms98 (r : Raw) : Option Instr :=
  match r.fn.toNat with
  | 0x00 => (formSemF r).map .semsig
  | 0x01 => (formSemF r).map .semwait
  | 0x02 => (formSemsetF r).map .semset
  | _ => none

def forms99 (r : Raw) : Option Instr :=
  match r.fn.toNat with
  | 0x00 => (formRepbF r).map .repb
  | 0x01 => (formG0 r).map .repstop
  | _ => none

def formsB0 (r : Raw) : Option Instr :=
  match r.fn.toNat with
  | 0x00 => (formA1 r).map .cfopen
  | 0x01 => (formG0 r).map .cfclose
  | _ => none

def formsB1 (r : Raw) : Option Instr :=
  match r.fn.toNat with
  | 0x00 => (formShsetF r).map .shset
  | 0x01 => (formShrdF r).map .shrd
  | _ => none

def formsB2 (r : Raw) : Option Instr :=
  match r.fn.toNat with
  | 0x00 => (formCodeF r).map .mark
  | 0x01 => (formSVS r).map .brkpt
  | 0x02 => (formGselF r).map .gsel
  | 0x03 => (formGrdF r).map .grd
  | 0x04 => (formVS r).map .siltrd
  | _ => none

/-- The instruction that the fields name when every field is as its form wants it. -/
def candidate (r : Raw) : Option Instr :=
  match r.op.toNat with
  | 0x01 => forms01 r
  | 0x02 => forms02 r
  | 0x03 => forms03 r
  | 0x04 => forms04 r
  | 0x05 => forms05 r
  | 0x06 => forms06 r
  | 0x07 => forms07 r
  | 0x08 => forms08 r
  | 0x09 => forms09 r
  | 0x0A => forms0A r
  | 0x0B => forms0B r
  | 0x20 => forms20 r
  | 0x21 => forms21 r
  | 0x22 => forms22 r
  | 0x23 => forms23 r
  | 0x24 => forms24 r
  | 0x25 => forms25 r
  | 0x30 => forms30 r
  | 0x31 => forms31 r
  | 0x32 => forms32 r
  | 0x33 => forms33 r
  | 0x40 => forms40 r
  | 0x41 => forms41 r
  | 0x42 => forms42 r
  | 0x43 => forms43 r
  | 0x44 => forms44 r
  | 0x45 => forms45 r
  | 0x46 => forms46 r
  | 0x47 => forms47 r
  | 0x48 => forms48 r
  | 0x60 => forms60 r
  | 0x61 => forms61 r
  | 0x62 => forms62 r
  | 0x63 => forms63 r
  | 0x70 => forms70 r
  | 0x71 => forms71 r
  | 0x72 => forms72 r
  | 0x73 => forms73 r
  | 0x74 => forms74 r
  | 0x75 => forms75 r
  | 0x76 => forms76 r
  | 0x77 => forms77 r
  | 0x78 => forms78 r
  | 0x79 => forms79 r
  | 0x90 => forms90 r
  | 0x91 => forms91 r
  | 0x92 => forms92 r
  | 0x93 => forms93 r
  | 0x94 => forms94 r
  | 0x95 => forms95 r
  | 0x96 => forms96 r
  | 0x97 => forms97 r
  | 0x98 => forms98 r
  | 0x99 => forms99 r
  | 0xB0 => formsB0 r
  | 0xB1 => formsB1 r
  | 0xB2 => formsB2 r
  | _ => none

/-- The instruction of a word on a core where its form is legal: the word names a form, its operands are
well formed, and every bit of it belongs to a field of the form. -/
def decode (w : Word96) : Option Instr :=
  match candidate (Raw.unpack w) with
  | some i => if i.wellFormed && encode i == some w then some i else none
  | none => none

/-! Rejection by reason (R48, R49). -/

/-- Whether a major opcode is allocated (Tables 2.9 to 2.13). -/
def opAllocated (op : Nat) : Bool :=
  (0x01 ≤ op && op ≤ 0x0B) ||
  (0x20 ≤ op && op ≤ 0x25) ||
  (0x30 ≤ op && op ≤ 0x33) ||
  (0x40 ≤ op && op ≤ 0x48) ||
  (0x60 ≤ op && op ≤ 0x63) ||
  (0x70 ≤ op && op ≤ 0x79) ||
  (0x90 ≤ op && op ≤ 0x99) ||
  (0xB0 ≤ op && op ≤ 0xB2)

/-- The number of the highest function code of a major opcode; 0x02 has gaps at 0x01 and 0x05. -/
def fnAllocated (op fn : Nat) : Bool :=
  match op with
  | 0x01 => fn ≤ 13
  | 0x02 => [0, 2, 3, 4, 6, 7, 8, 9].contains fn
  | 0x03 => fn ≤ 1
  | 0x04 => fn ≤ 2
  | 0x05 => fn ≤ 3
  | 0x06 => fn ≤ 5
  | 0x07 => fn ≤ 2
  | 0x08 => fn ≤ 4
  | 0x09 => fn ≤ 2
  | 0x0A => fn ≤ 2
  | 0x0B => fn ≤ 4
  | 0x20 => fn ≤ 6
  | 0x21 => fn ≤ 0
  | 0x22 => fn ≤ 2
  | 0x23 => fn ≤ 1
  | 0x24 => fn ≤ 2
  | 0x25 => fn ≤ 1
  | 0x30 => fn ≤ 1
  | 0x31 => fn ≤ 0
  | 0x32 => fn ≤ 2
  | 0x33 => fn ≤ 2
  | 0x40 => fn ≤ 11
  | 0x41 => fn ≤ 7
  | 0x42 => fn ≤ 7
  | 0x43 => fn ≤ 5
  | 0x44 => fn ≤ 0
  | 0x45 => fn ≤ 4
  | 0x46 => fn ≤ 3
  | 0x47 => fn ≤ 0
  | 0x48 => fn ≤ 2
  | 0x60 => fn ≤ 4
  | 0x61 => fn ≤ 1
  | 0x62 => fn ≤ 1
  | 0x63 => fn ≤ 0
  | 0x70 => fn ≤ 3
  | 0x71 => fn ≤ 0
  | 0x72 => fn ≤ 1
  | 0x73 => fn ≤ 3
  | 0x74 => fn ≤ 0
  | 0x75 => fn ≤ 12
  | 0x76 => fn ≤ 1
  | 0x77 => fn ≤ 1
  | 0x78 => fn ≤ 4
  | 0x79 => fn ≤ 4
  | 0x90 => fn ≤ 4
  | 0x91 => fn ≤ 1
  | 0x92 => fn ≤ 3
  | 0x93 => fn ≤ 3
  | 0x94 => fn ≤ 2
  | 0x95 => fn ≤ 1
  | 0x96 => fn ≤ 2
  | 0x97 => fn ≤ 0
  | 0x98 => fn ≤ 2
  | 0x99 => fn ≤ 1
  | 0xB0 => fn ≤ 1
  | 0xB1 => fn ≤ 1
  | 0xB2 => fn ≤ 4
  | _ => false

/-- Forms that Table 2.13 marks compute. -/
def computeOnly (op fn : Nat) : Bool :=
  op = 0x90 || op = 0x92 || op = 0x93 || (op = 0x91 && fn = 1)

/-- The sizes of the register files that the fields d, a, b and c of a form name (Table 2.4); 64 for a
field that names none. -/
structure FileSizes where
  d : Nat
  a : Nat
  b : Nat
  c : Nat
  deriving DecidableEq, Repr

/-- vcvt names scalar registers when either type is FP64 (R152). -/
def cvtFile (m : BitVec 52) : Nat :=
  if m.extractLsb' 0 4 = 0xB ∨ m.extractLsb' 4 4 = 0xB then 64 else 32

/-- qpop: kind joins the function code in choosing the files; kind 3 is checked as kind 0 (R320). -/
def popFiles (m : BitVec 52) : FileSizes :=
  match (m.extractLsb' 0 2).toNat with
  | 1 => ⟨64, 4, 64, 64⟩
  | 2 => ⟨32, 4, 64, 64⟩
  | _ => ⟨32, 8, 64, 64⟩

/-- The files of every form. -/
def fileSizes (r : Raw) : FileSizes :=
  match r.op.toNat, r.fn.toNat with
  | 0x06, _ => ⟨8, 64, 64, 64⟩
  | 0x07, 0x00 => ⟨64, 64, 64, 8⟩
  | 0x0A, 0x01 => ⟨64, 64, 64, 8⟩
  | 0x0B, 0x00 => ⟨8, 8, 8, 64⟩
  | 0x0B, 0x01 => ⟨8, 8, 8, 64⟩
  | 0x0B, 0x02 => ⟨8, 8, 8, 64⟩
  | 0x0B, 0x03 => ⟨8, 8, 8, 64⟩
  | 0x0B, 0x04 => ⟨8, 8, 64, 64⟩
  | 0x32, _ => ⟨64, 4, 64, 64⟩
  | 0x33, 0x00 => ⟨4, 64, 64, 64⟩
  | 0x33, 0x01 => ⟨64, 4, 64, 64⟩
  | 0x33, 0x02 => ⟨4, 4, 64, 64⟩
  | 0x40, _ => ⟨32, 32, 32, 64⟩
  | 0x41, 0x00 => ⟨32, 32, 32, 64⟩
  | 0x41, 0x01 => ⟨32, 32, 32, 64⟩
  | 0x41, 0x02 => ⟨32, 32, 32, 64⟩
  | 0x41, 0x04 => ⟨32, 32, 32, 64⟩
  | 0x41, 0x05 => ⟨32, 32, 32, 64⟩
  | 0x41, 0x03 => ⟨32, 32, 32, 32⟩
  | 0x41, 0x06 => ⟨32, 32, 64, 64⟩
  | 0x41, 0x07 => ⟨32, 32, 64, 64⟩
  | 0x42, _ => ⟨8, 32, 32, 64⟩
  | 0x43, 0x00 => ⟨32, 32, 32, 64⟩
  | 0x43, 0x01 => ⟨32, 64, 64, 64⟩
  | 0x43, 0x02 => ⟨64, 32, 64, 64⟩
  | 0x43, 0x03 => ⟨32, 64, 64, 64⟩
  | 0x43, 0x04 => ⟨32, 32, 64, 64⟩
  | 0x43, 0x05 => ⟨32, 32, 32, 8⟩
  | 0x44, _ => ⟨cvtFile r.m, cvtFile r.m, 64, 64⟩
  | 0x45, 0x00 => ⟨64, 32, 64, 64⟩
  | 0x45, 0x01 => ⟨64, 32, 64, 64⟩
  | 0x45, 0x02 => ⟨64, 32, 64, 64⟩
  | 0x45, 0x03 => ⟨64, 32, 64, 64⟩
  | 0x45, 0x04 => ⟨64, 32, 32, 64⟩
  | 0x46, _ => ⟨32, 32, 64, 64⟩
  | 0x47, _ => ⟨32, 64, 64, 64⟩
  | 0x48, 0x00 => ⟨32, 32, 32, 64⟩
  | 0x48, 0x01 => ⟨32, 32, 32, 64⟩
  | 0x48, 0x02 => ⟨32, 32, 64, 64⟩
  | 0x60, 0x00 => ⟨64, 32, 64, 64⟩
  | 0x60, 0x01 => ⟨32, 64, 64, 64⟩
  | 0x70, 0x00 => ⟨32, 64, 64, 64⟩
  | 0x70, 0x01 => ⟨64, 64, 64, 32⟩
  | 0x70, 0x02 => ⟨32, 64, 32, 64⟩
  | 0x70, 0x03 => ⟨64, 64, 32, 32⟩
  | 0x71, _ => ⟨8, 64, 64, 64⟩
  | 0x73, 0x00 => ⟨32, 64, 64, 64⟩
  | 0x73, 0x01 => ⟨32, 64, 64, 64⟩
  | 0x73, 0x02 => ⟨64, 64, 64, 32⟩
  | 0x78, _ => ⟨64, 64, 64, 32⟩
  | 0x79, 0x00 => ⟨64, 32, 64, 64⟩
  | 0x79, 0x04 => ⟨32, 64, 64, 64⟩
  | 0x90, fn => ⟨4, if fn ≤ 2 && r.m.getLsbD 1 then 64 else 8, 8, 64⟩
  | 0x91, 0x00 => ⟨64, 64, 32, 64⟩
  | 0x91, 0x01 => ⟨8, 8, 64, 64⟩
  | 0x92, 0x00 => ⟨4, 64, 64, 64⟩
  | 0x92, 0x01 => ⟨4, 64, 64, 64⟩
  | 0x92, 0x03 => ⟨4, 64, 64, 64⟩
  | 0x93, 0x00 => ⟨4, 64, 64, 64⟩
  | 0x93, 0x01 => ⟨8, 4, 64, 64⟩
  | 0x93, 0x02 => ⟨64, 64, 64, 4⟩
  | 0x93, 0x03 => ⟨4, 64, 64, 64⟩
  | 0x94, 0x00 => ⟨64, 32, 64, 64⟩
  | 0x95, _ => ⟨4, 64, 64, 64⟩
  | 0x96, 0x00 => ⟨8, 32, 64, 64⟩
  | 0x96, 0x01 => popFiles r.m
  | 0x96, 0x02 => ⟨64, 8, 64, 64⟩
  | 0x97, _ => ⟨64, 32, 64, 64⟩
  | 0x98, _ => ⟨16, 64, 64, 64⟩
  | 0xB1, 0x00 => ⟨8, 64, 64, 64⟩
  | 0xB1, 0x01 => ⟨64, 8, 64, 64⟩
  | 0xB2, 0x01 => ⟨64, 32, 64, 64⟩
  | 0xB2, 0x04 => ⟨32, 64, 64, 64⟩
  | _, _ => ⟨64, 64, 64, 64⟩

/-- Reason 0x04 or 0x07: a register field outside its file (R42). share and slice take d from 1 to 61
(R163); the special register of mfs and mts reports 0x07. -/
def rangeReason (r : Raw) : Option Nat :=
  let z := fileSizes r
  if r.op.toNat = 0x23 ∧ r.fn.toNat = 0 ∧ 8 ≤ r.a.toNat then some 7
  else if r.op.toNat = 0x23 ∧ r.fn.toNat = 1 ∧ 8 ≤ r.d.toNat then some 7
  else if r.op.toNat = 0x62 ∧ (r.d.toNat = 0 ∨ 61 < r.d.toNat) then some 4
  else if z.d ≤ r.d.toNat ∨ z.a ≤ r.a.toNat ∨ z.b ≤ r.b.toNat ∨ z.c ≤ r.c.toNat then some 4
  else none

/-- The first check of R49 that a word which is no legal instruction fails. -/
def badReason (compute : Bool) (w : Word96) : Nat :=
  let r := Raw.unpack w
  if !opAllocated r.op.toNat then 1
  else if !fnAllocated r.op.toNat r.fn.toNat then 2
  else if computeOnly r.op.toNat r.fn.toNat && !compute then 5
  else match rangeReason r with
    | some x => x
    | none => 3

/-- The instruction of a word on a core of the given kind, or the reason of its illegal-instruction trap
(R49). -/
def decodeChecked (compute : Bool) (w : Word96) : Except Nat Instr :=
  match decode w with
  | some i =>
    let r := Raw.unpack w
    if computeOnly r.op.toNat r.fn.toNat && !compute then .error 5 else .ok i
  | none => .error (badReason compute w)

/-- The instruction that the decoder reads from an instruction of the opcode table whose bits are `w`
(every instruction is one 96-bit word). -/
def decodeTableWord (_nbits w : Nat) : Option Instr := decode (BitVec.ofNat 96 w)

/-! Pairs (R37, R38). -/

/-- Pairing classes. -/
inductive PairClass where
  | s | v | m | e | n
  deriving DecidableEq, Repr

/-- The class of a major opcode (Tables 2.9 to 2.13). -/
def pairClass (op : Nat) : PairClass :=
  if 0x01 ≤ op ∧ op ≤ 0x0B then .s
  else if op = 0x33 then .s
  else if 0x30 ≤ op ∧ op ≤ 0x32 then .m
  else if 0x40 ≤ op ∧ op ≤ 0x48 then .v
  else if 0x70 ≤ op ∧ op ≤ 0x78 then .m
  else if 0x90 ≤ op ∧ op ≤ 0x99 then .e
  else .n

/-- Table 2.2. -/
def legalPair : PairClass → PairClass → Bool
  | .s, .v | .v, .s | .s, .m | .m, .s | .v, .e | .e, .v => true
  | _, _ => false

/-- Register files as they matter to the rule that two members write one register. -/
inductive RegName where
  | s (n : Nat) | v (n : Nat) | p (n : Nat) | b (n : Nat) | t (n : Nat) | acc (n : Nat)
  deriving DecidableEq, Repr

/-- The registers that an instruction writes by name. -/
def writesOf : Instr → List RegName
  | .add o => [.s o.d.toNat]
  | .sub o => [.s o.d.toNat]
  | .and o => [.s o.d.toNat]
  | .or o => [.s o.d.toNat]
  | .xor o => [.s o.d.toNat]
  | .andn o => [.s o.d.toNat]
  | .sll o => [.s o.d.toNat]
  | .srl o => [.s o.d.toNat]
  | .sra o => [.s o.d.toNat]
  | .rol o => [.s o.d.toNat]
  | .min o => [.s o.d.toNat]
  | .max o => [.s o.d.toNat]
  | .minu o => [.s o.d.toNat]
  | .maxu o => [.s o.d.toNat]
  | .addi o => [.s o.d.toNat]
  | .andi o => [.s o.d.toNat]
  | .ori o => [.s o.d.toNat]
  | .xori o => [.s o.d.toNat]
  | .slli o => [.s o.d.toNat]
  | .srli o => [.s o.d.toNat]
  | .srai o => [.s o.d.toNat]
  | .roli o => [.s o.d.toNat]
  | .li o => [.s o.d.toNat]
  | .lpc o => [.s o.d.toNat]
  | .mul o => [.s o.d.toNat]
  | .mulh o => [.s o.d.toNat]
  | .mulhu o => [.s o.d.toNat]
  | .div o => [.s o.d.toNat]
  | .divu o => [.s o.d.toNat]
  | .rem o => [.s o.d.toNat]
  | .remu o => [.s o.d.toNat]
  | .cmpeq o => [.p o.d.toNat]
  | .cmpne o => [.p o.d.toNat]
  | .cmplt o => [.p o.d.toNat]
  | .cmple o => [.p o.d.toNat]
  | .cmpltu o => [.p o.d.toNat]
  | .cmpleu o => [.p o.d.toNat]
  | .sel o => [.s o.d.toNat]
  | .slt o => [.s o.d.toNat]
  | .sltu o => [.s o.d.toNat]
  | .clz o => [.s o.d.toNat]
  | .ctz o => [.s o.d.toNat]
  | .popc o => [.s o.d.toNat]
  | .bswap o => [.s o.d.toNat]
  | .brev o => [.s o.d.toNat]
  | .bfx o => [.s o.d.toNat]
  | .bfxu o => [.s o.d.toNat]
  | .bfi o => [.s o.d.toNat]
  | .bins o => [.s o.d.toNat]
  | .bffcs o => [.s o.d.toNat, .p o.c.toNat]
  | .bplim o => [.s o.d.toNat]
  | .pand o => [.p o.d.toNat]
  | .por o => [.p o.d.toNat]
  | .pxor o => [.p o.d.toNat]
  | .pandn o => [.p o.d.toNat]
  | .pnot o => [.p o.d.toNat]
  | .br _ => []
  | .beq _ => []
  | .bne _ => []
  | .blt _ => []
  | .bge _ => []
  | .bltu _ => []
  | .bgeu _ => []
  | .call o => [.s o.d.toNat]
  | .jmp _ => []
  | .callr o => [.s o.d.toNat]
  | .ret _ => []
  | .mfs o => [.s o.d.toNat]
  | .mts _ => []
  | .nop _ => []
  | .lbpurge _ => []
  | .swtrap _ => []
  | .track o => [.s o.d.toNat]
  | .tkill o => [.s o.d.toNat]
  | .ld o => [.s o.d.toNat]
  | .ldu o => [.s o.d.toNat]
  | .st _ => []
  | .ldbf o => if o.inc then [.s o.d.toNat, .b o.a.toNat] else [.s o.d.toNat]
  | .ldbfs o => if o.inc then [.s o.d.toNat, .b o.a.toNat] else [.s o.d.toNat]
  | .stbf o => if o.inc then [.b o.a.toNat] else []
  | .bset o => [.b o.d.toNat]
  | .bget o => [.s o.d.toNat]
  | .badd o => [.b o.d.toNat]
  | .vadd o => [.v o.d.toNat]
  | .vsub o => [.v o.d.toNat]
  | .vmul o => [.v o.d.toNat]
  | .vmin o => [.v o.d.toNat]
  | .vmax o => [.v o.d.toNat]
  | .vand o => [.v o.d.toNat]
  | .vor o => [.v o.d.toNat]
  | .vxor o => [.v o.d.toNat]
  | .vsll o => [.v o.d.toNat]
  | .vsrl o => [.v o.d.toNat]
  | .vsra o => [.v o.d.toNat]
  | .vadds o => [.v o.d.toNat]
  | .vfadd o => [.v o.d.toNat]
  | .vfsub o => [.v o.d.toNat]
  | .vfmul o => [.v o.d.toNat]
  | .vfmin o => [.v o.d.toNat]
  | .vfmax o => [.v o.d.toNat]
  | .vfma o => [.v o.d.toNat]
  | .vfabs o => [.v o.d.toNat]
  | .vfneg o => [.v o.d.toNat]
  | .vcmpeq o => [.p o.d.toNat]
  | .vcmpne o => [.p o.d.toNat]
  | .vcmplt o => [.p o.d.toNat]
  | .vcmple o => [.p o.d.toNat]
  | .vfcmpeq o => [.p o.d.toNat]
  | .vfcmplt o => [.p o.d.toNat]
  | .vfcmple o => [.p o.d.toNat]
  | .vfcmpun o => [.p o.d.toNat]
  | .vperm o => [.v o.d.toNat]
  | .vbcast o => [.v o.d.toNat]
  | .vextr o => [.s o.d.toNat]
  | .vins o => [.v o.d.toNat]
  | .vrot o => [.v o.d.toNat]
  | .vsel o => [.v o.d.toNat]
  | .vcvt o => if o.dst = .f64 ∨ o.src = .f64 then [.s o.d.toNat] else [.v o.d.toNat]
  | .vredadd o => [.s o.d.toNat]
  | .vfredadd o => [.s o.d.toNat]
  | .vredmin o => [.s o.d.toNat]
  | .vredmax o => [.s o.d.toNat]
  | .vfdot o => [.s o.d.toNat]
  | .vrcp o => [.v o.d.toNat]
  | .vrsq o => [.v o.d.toNat]
  | .vexp2 o => [.v o.d.toNat]
  | .vlog2 o => [.v o.d.toNat]
  | .vmovi o => [.v o.d.toNat]
  | .vdiv o => [.v o.d.toNat]
  | .vfdiv o => [.v o.d.toNat]
  | .vfsqrt o => [.v o.d.toNat]
  | .spawn o => [.s o.d.toNat]
  | .reap o => [.v o.d.toNat]
  | .yield _ => []
  | .halt _ => []
  | .migr o => [.s o.d.toNat]
  | .launch o => [.s o.d.toNat]
  | .trig _ => []
  | .share o => [.s o.d.toNat, .s (o.d.toNat + 1), .s (o.d.toNat + 2)]
  | .slice o => [.s o.d.toNat, .s (o.d.toNat + 1), .s (o.d.toNat + 2)]
  | .bar _ => []
  | .vmld o => [.v o.d.toNat]
  | .vmst _ => []
  | .vmgat o => [.v o.d.toNat]
  | .vmsct _ => []
  | .tld o => [.t o.d.toNat]
  | .rowopen _ => []
  | .rowclose _ => []
  | .vldx o => [.v o.d.toNat]
  | .vlda o => [.v o.d.toNat]
  | .vst _ => []
  | .vfloor _ => []
  | .phase _ => []
  | .amoAdd o => [.s o.d.toNat]
  | .amoAnd o => [.s o.d.toNat]
  | .amoOr o => [.s o.d.toNat]
  | .amoXor o => [.s o.d.toNat]
  | .amoMin o => [.s o.d.toNat]
  | .amoMax o => [.s o.d.toNat]
  | .amoMinu o => [.s o.d.toNat]
  | .amoMaxu o => [.s o.d.toNat]
  | .amoSwap o => [.s o.d.toNat]
  | .amoCas o => [.s o.d.toNat]
  | .amoBins o => [.s o.d.toNat]
  | .amoBffcs o => [.s o.d.toNat]
  | .amoBplim o => [.s o.d.toNat]
  | .lr o => [.s o.d.toNat]
  | .sc o => [.s o.d.toNat]
  | .waitres o => [.s o.d.toNat]
  | .waitaddr o => [.s o.d.toNat]
  | .rget o => [.s o.d.toNat, .v o.c.toNat]
  | .rput o => [.s o.d.toNat]
  | .radd o => [.s o.d.toNat, .v o.c.toNat]
  | .rcas o => [.s o.d.toNat, .v o.c.toNat]
  | .rcall o => [.s o.d.toNat, .v o.c.toNat]
  | .rchins o => [.s o.d.toNat]
  | .rchinv o => [.s o.d.toNat]
  | .rchspl o => [.s o.d.toNat]
  | .rchmrg o => [.s o.d.toNat]
  | .rchrd o => [.v o.d.toNat]
  | .mmabf o => [.acc o.d.toNat]
  | .mmafh o => [.acc o.d.toNat]
  | .mmai8 o => [.acc o.d.toNat]
  | .mmatw o => [.acc o.d.toNat]
  | .mmasp o => [.acc o.d.toNat]
  | .gath _ => []
  | .sparsify o => [.t o.d.toNat]
  | .drev o => [.acc o.d.toNat]
  | .bfly o => [.acc o.d.toNat]
  | .twset _ => []
  | .twmul o => [.acc o.d.toNat]
  | .azero o => [.acc o.d.toNat]
  | .amov o => [.t o.d.toNat]
  | .ast o => if o.rg then [.s o.d.toNat] else []
  | .ald o => [.acc o.d.toNat]
  | .xfer o => [.s o.d.toNat]
  | .ringset o => [.s o.d.toNat]
  | .ringwait o => [.s o.d.toNat]
  | .ibind _ => []
  | .iunbind _ => []
  | .qpush _ => []
  | .qpop o => if o.kind = .inflowScalar then [.s o.d.toNat] else [.v o.d.toNat]
  | .qfree o => [.s o.d.toNat]
  | .bxf _ => []
  | .semsig _ => []
  | .semwait _ => []
  | .semset _ => []
  | .repb _ => []
  | .repstop _ => []
  | .cfopen _ => []
  | .cfclose _ => []
  | .shset _ => []
  | .shrd o => [.s o.d.toNat]
  | .mark _ => []
  | .brkpt o => [.s o.d.toNat]
  | .gsel _ => []
  | .grd o => [.s o.d.toNat]
  | .siltrd o => [.v o.d.toNat]
  | .divideResult _ _ => []
  | .vectorLongResult _ _ => []
  | .yieldExpiry _ _ => []
  | .barNotification _ _ => []
  | .tileRowDelivery _ _ => []
  | .tldStallTimeout _ _ => []
  | .amoReply _ _ => []
  | .amoResend _ _ => []
  | .waitBoundExpiry _ _ => []
  | .rchinvComplete _ => []
  | .gatherComplete _ _ => []
  | .engineOperationEnd _ => []
  | .astRecordWrite _ => []
  | .ringwaitWake _ _ => []
  | .transformCommandComplete _ _ => []
  | .semaphoreGrant _ _ => []
  | .semaphoreStall _ _ => []
  | .sequencerIssue _ => []
  | .brkptComplete _ _ _ => []
  | .lineArrival _ _ => []
  | .loadReply _ _ => []
  | .seepLeak _ => []
  | .storePerformed _ => []
  | .releaseDrained _ _ => []
  | .threadEnd _ _ => []
  | .headInboxMessage _ => []
  | .dispatchOpportunity _ _ => []
  | .wakeMessage _ _ => []
  | .trigCount _ => []
  | .endNotice _ => []
  | .successorSignal _ => []
  | .lqtailWrite _ _ _ => []
  | .lqEnable _ _ _ => []
  | .migrationSend _ _ => []
  | .migrationArrival _ => []
  | .migrationPlacement _ => []
  | .rowIdleClose _ _ => []
  | .refreshStart _ _ => []
  | .refreshEnd _ _ => []
  | .bankSleep _ _ => []
  | .bankWakeComplete _ _ => []
  | .rowRepairStart _ _ _ => []
  | .rowRepairComplete _ _ _ => []
  | .sensorReport _ _ _ _ => []
  | .bankRetirement _ _ => []
  | .dredgerReinterleave _ => []
  | .reinterleaveComplete _ => []
  | .dredgerMove _ _ _ => []
  | .moveCopied _ => []
  | .drgackWrite _ _ => []
  | .gmapWrite _ _ _ => []
  | .rowCallMessage _ => []
  | .agentMessageStart _ => []
  | .agentVaultOperation _ _ => []
  | .rcallHandlerEnd _ => []
  | .rowCallReply _ => []
  | .backwaterReplay _ => []
  | .regionEnable _ _ _ => []
  | .regionDisable _ _ _ => []
  | .vrfloorWrite _ _ _ => []
  | .directoryAdmission _ _ => []
  | .versionRead _ _ => []
  | .floorChange _ _ => []
  | .sealVersion _ _ => []
  | .versionTimeout _ _ => []
  | .streamerRequest _ => []
  | .streamerStart _ => []
  | .streamerBlock _ _ _ => []
  | .transferComplete _ _ => []
  | .inflowBlock _ => []
  | .queueEntryArrival _ => []
  | .queueCreditArrival _ => []
  | .riserArrival _ _ => []
  | .queueStall _ _ => []
  | .queueEnable _ _ _ => []
  | .queueDisable _ _ _ => []
  | .ringEnable _ _ _ => []
  | .ringDisable _ _ _ => []
  | .ridxStore _ _ _ => []
  | .handleEntryWrite _ _ _ _ => []
  | .swapCommand _ _ => []
  | .swapTakeEffect _ => []
  | .spillRecordWritten _ => []
  | .fillCommand _ _ => []
  | .fillComplete _ => []
  | .gateRequest _ _ => []
  | .gateRequestLapse _ => []
  | .gateAck _ => []
  | .dieGated _ => []
  | .dieUngate _ => []
  | .gateRestoreComplete _ => []
  | .traceEnable _ _ => []
  | .traceRecordWrite _ => []
  | .droopTrip _ _ => []
  | .siltEntryWrite _ => []
  | .deviceReset _ _ _ => []
  | .partitionReset _ _ _ _ => []
  | .resetComplete _ _ _ => []
  | .imageVerify _ _ _ _ => []
  | .attestationRequest _ _ => []
  | .vbusBeatResend _ _ => []
  | .vbusTest _ _ _ => []
  | .vbusRetrain _ _ => []
  | .linkPacketReceive _ _ _ _ => []
  | .linkAckReceive _ _ _ => []
  | .linkNakReceive _ _ _ => []
  | .linkReplayTimeout _ _ => []
  | .linkRetrain _ _ _ => []
  | .linkRetrainEnd _ _ _ => []
  | .hwrite _ _ _ => []
  | .hread _ _ _ => []
  | .hlaunch _ _ _ => []
  | .checkpointQuiesced _ => []
  | .checkpointLive _ => []
  | .registerWrite _ _ _ => []
  | .reinterleaveGranuleDone _ => []
  | .vbusRetrainEnd _ => []
  | .levelSourceSample _ => []
  | .modulePowerOn _ => []
  | .checkpointCopyBack _ => []

/-- Whether two members write one register (R38); s0 and p0 do not count. -/
def sharedWrite (i j : Instr) : Bool :=
  (writesOf i).any fun r => r != .s 0 && r != .p 0 && (writesOf j).contains r

/-- The reason for which a pair of legal words is refused (R38). -/
def pairReason (w1 w2 : Word96) (i j : Instr) : Option Nat :=
  if !legalPair (pairClass (Raw.unpack w1).op.toNat) (pairClass (Raw.unpack w2).op.toNat) then some 8
  else if sharedWrite i j then some 9
  else none

end Sys2Proof
end

