-- ==== Sys2Proof/Config.lean ====
section
/-! DEFINITION. Config.lean: what the manual leaves open. Free values have no body: nothing can be
proved of the value they give, and they are applied to `State.fresh`, which every use advances. -/

namespace Sys2Proof

/-- The word that a read of a register offset no table lists, or of a write-only field, returns: the
manual states no value (log 4, DESIGN CHOICE). -/
opaque Config.freeWord : Nat → W64

/-- A byte of the signature that wellhead makes over attestation evidence (R430), by device, evidence and byte number: the
device key is fused and the manual gives no value of it (log 5, DESIGN CHOICE). -/
opaque Config.signature : Nat → List Byte → Nat → Byte

/-- The SHAKE256 digest of an image's body (R428, Table 18.9); FIPS 202, which gives it, is not part of the manual
(log 5, DESIGN CHOICE). -/
opaque Config.digest : List Byte → BitVec 256

/-- Whether a signature passes under the vendor's key over an image's header and digest, by version, rollback counter,
length, digest and signature (R428); the algorithm is of FIPS 205 and the keys are not stated (log 5, DESIGN CHOICE). -/
opaque Config.signatureOk : Nat → Nat → Nat → BitVec 256 → List Byte → Bool

/-- The fused rollback counter of a device (R428) and its serial number (Table 18.9), which the manual does not state
(log 5, DESIGN CHOICE). -/
opaque Config.fusedCounter : Nat → BitVec 32
opaque Config.serial : Nat → BitVec 128

/-- The rank of an index of a group among ports 0 to 14 of a device, by device and index: those ports lead to the other
indices in the order of their ranks, and the manual gives no numbering (R423; log 42, DESIGN CHOICE). -/
opaque Config.portRank : Nat → Nat → Nat

/-- The device and the port at the other end of a device's port to the domain fabric, and the port of a bridge device's
host: the manual gives no numbering (R423; log 42, DESIGN CHOICE). -/
opaque Config.linkPeer : Nat → Nat → BitVec 11 × BitVec 5

/-- Where the header of a varve line lies among the 64-byte slots that its line has in the version store, by line: the
layout belongs to the vault (R210; log 109, DESIGN CHOICE). -/
opaque Config.headerSlot : Nat → Nat

end Sys2Proof
end

