-- ==== Sys2Proof/Machine/Bits.lean ====
section
/-! DEFINITION. Bits.lean: bit fields, sign extension, lanes and byte order (R1, R4, R6, R143). -/

namespace Sys2Proof.Machine

/-- bits(x, hi, lo) of R8 for a 64-bit word, as a number. -/
def bitsOf (x : W64) (hi lo : Nat) : Nat := x.toNat / 2 ^ lo % 2 ^ (hi + 1 - lo)

/-- One bit of a word. -/
def bitOf (x : W64) (i : Nat) : Bool := x.getLsbD i

/-- The low `n` bits of a number read as a two's complement integer. -/
def signedOf (n : Nat) (x : Nat) : Int :=
  if x % 2 ^ n < 2 ^ (n - 1) then (x % 2 ^ n : Nat) else ((x % 2 ^ n : Nat) : Int) - (2 ^ n : Nat)

/-- The two's complement representation of an integer in `n` bits. -/
def wrapTo (n : Nat) (x : Int) : Nat := (x % ((2 ^ n : Nat) : Int)).toNat

/-- A word from a number, modulo 2^64. -/
def w64 (n : Nat) : W64 := BitVec.ofNat 64 n

/-- A word from an integer, modulo 2^64. -/
def w64i (x : Int) : W64 := BitVec.ofInt 64 x

/-- sext(x, w) of R8, as a 64-bit word. -/
def sext64 (w : Nat) (x : Nat) : W64 := w64i (signedOf w x)

/-- The word with bits hi:lo replaced. -/
def setBits (x : W64) (hi lo : Nat) (v : Nat) : W64 :=
  w64 (x.toNat - (bitsOf x hi lo) * 2 ^ lo + (v % 2 ^ (hi + 1 - lo)) * 2 ^ lo)

/-- The word with one bit replaced. -/
def setBit (x : W64) (i : Nat) (b : Bool) : W64 := setBits x i i (if b then 1 else 0)

/-- The number of a Bool. -/
def bit01 (b : Bool) : Nat := if b then 1 else 0

/-- The `n` bytes of a number, least significant first (R6). -/
def bytesOf : Nat → Nat → List Byte
  | 0, _ => []
  | n + 1, x => BitVec.ofNat 8 x :: bytesOf n (x / 256)

/-- The number of a little-endian list of bytes (R6). -/
def natOfBytes : List Byte → Nat
  | [] => 0
  | b :: r => b.toNat + 256 * natOfBytes r

/-- The lowest set bit of a number within `fuel` positions. -/
def lowestBit (fuel x : Nat) : Option Nat :=
  match fuel with
  | 0 => none
  | f + 1 => if x % 2 = 1 then some 0 else (lowestBit f (x / 2)).map (· + 1)

/-- The number of set bits among the low `fuel` bits. -/
def popCount (fuel x : Nat) : Nat :=
  match fuel with
  | 0 => 0
  | f + 1 => x % 2 + popCount f (x / 2)

/-- Parity of the low `fuel` bits. -/
def parityOf (fuel x : Nat) : Bool := popCount fuel x % 2 = 1

/-- A number below `2 ^ fuel` with its low `fuel` bits reversed. -/
def reverseBits (fuel x : Nat) : Nat :=
  match fuel with
  | 0 => 0
  | f + 1 => x % 2 * 2 ^ f + reverseBits f (x / 2)

/-- Lane `i` of width `w` of a vector register (R143). -/
def laneOf (v : W1024) (w i : Nat) : Nat := v.toNat / 2 ^ (w * i) % 2 ^ w

/-- The lanes of width `w` as a list, lane 0 first. -/
def lanesOf (v : W1024) (w : Nat) : List Nat := (List.range (1024 / w)).map (laneOf v w)

/-- The number whose base-2^w digits are the given lanes. -/
def packNat (w : Nat) : List Nat → Nat
  | [] => 0
  | x :: r => x % 2 ^ w + 2 ^ w * packNat w r

/-- The vector register with the given lanes. -/
def packLanes (w : Nat) (l : List Nat) : W1024 := BitVec.ofNat 1024 (packNat w l)

/-- The register with lane `i` of width `w` replaced. -/
def setLane (v : W1024) (w i x : Nat) : W1024 :=
  BitVec.ofNat 1024 (v.toNat - laneOf v w i * 2 ^ (w * i) + x % 2 ^ w * 2 ^ (w * i))

/-- 64-bit lane `i`, as a word. -/
def lane64 (v : W1024) (i : Nat) : W64 := v.extractLsb' (64 * i) 64

/-- The 128 bytes of a vector register, byte 0 first. -/
def vecBytes (v : W1024) : List Byte := bytesOf 128 v.toNat

/-- The vector register that holds the given bytes from byte 0, zero above them. -/
def vecOfBytes (l : List Byte) : W1024 := BitVec.ofNat 1024 (natOfBytes (l.take 128))

/-- The numbers `0 .. n - 1` for which the bit of `x` is set. -/
def setBitsOf (n x : Nat) : List Nat := (List.range n).filter fun i => x.testBit i

end Sys2Proof.Machine
end

