-- ==== Sys2Proof/Machine/State.lean ====
section
/-! DEFINITION. State.lean: everything the manual gives the machine, as plain data, for the whole
domain: threads, cores, tiles, devices, memory by place, registers by place, and what is in transit
between them. Every numbered map holds at an absent key the reset value of that number. -/

namespace Sys2Proof.Machine

/-- Reasons the machine stops for good. -/
inductive Fault where
  /-- Raised by `step` when the device of the core in focus is held in reset because wellhead failed its
  verification and nothing else is due: "the device does not leave reset" (R428). Safe. -/
  | heldInReset (device : Nat)
  deriving DecidableEq, Repr

/-- Reasons a step has no meaning. -/
inductive Refusal where
  /-- Raised only by arms of `exec` whose instruction is not modelled yet. Safe. -/
  | notModelled (mnemonic : String)
  deriving DecidableEq, Repr

/-- A scalar register: its bits and its poison mark (R9, R359). -/
structure SVal where
  bits : W64
  poison : Bool
  deriving DecidableEq, Repr

/-- A vector register: 1,024 bits and one poison mark per 32-bit word (R143, R359). -/
structure VVal where
  bits : W1024
  poison : BitVec 32
  deriving DecidableEq, Repr

/-- A byte in transit with the poison mark of its word (R359). -/
abbrev PByte := Byte × Bool

/-- The registers a program names: s1..s63, v0..v31, p1..p7, b0..b3 (R9, R67, R88, R143). -/
structure RegFile where
  s : SMap SVal
  v : SMap VVal
  p : SMap W64
  b : SMap (BitVec 40)
  deriving DecidableEq, Repr

/-- Slot states of Table 4.1 (R93). -/
inductive SlotState where
  | idle | ready | waitingMemory | waitingMessage | trapped | swapped
  deriving DecidableEq, Repr

/-- The retry latch: a whole issue unit with its line word (R27, R28). `mem` tells the second member trapped;
`fetch` that the unit is to be fetched again rather than taken from the latch (R357). -/
structure Latch where
  pc : W64
  first : Word96
  second : Option Word96
  lineword : BitVec 32
  mem : Bool
  fetch : Bool
  deriving DecidableEq, Repr

/-- One coffer level (R362). -/
structure Coffer where
  handler : W64
  savedS2 : SVal
  count : BitVec 32
  deferred : Bool
  deriving DecidableEq, Repr

/-- One shore register (R369): bounds and the control of Table 15.6. -/
structure Shore where
  lo : BitVec 32
  hi : BitVec 32
  ctl : Byte
  deriving DecidableEq, Repr

/-- One inflow register with its buffer in arrival order (R295). -/
structure Inflow where
  bound : Bool
  wcode : Nat
  id : Nat
  buf : List PByte
  deriving DecidableEq, Repr

/-- One reservation: an 8-byte scratchpad word, by its place, and its validity (R245). -/
structure Resv where
  word : Nat
  valid : Bool
  deriving DecidableEq, Repr

/-- A run of the repetition buffer (R314 to R317). -/
structure Run where
  repbPc : W64
  /-- the address of the first captured position -/
  start : W64
  words : List Word96
  strD : Nat
  strA : Nat
  strB : Nat
  strC : Nat
  count : Nat
  iter : Nat
  pos : Nat
  active : Bool
  stopping : Bool
  /-- a captured instruction trapped: cause and information word (R317) -/
  fault : Option (Byte × W64)
  deriving DecidableEq, Repr

/-- One byte of a posted write: bits outside `mask` keep what they hold when the write lands (R91). -/
structure PWrite where
  addr : Nat
  data : Byte
  mask : Byte
  poison : Bool
  deriving DecidableEq, Repr

/-- What a posted write goes to: bytes of a place, the open version of a varve line (R214), or the row of a place. -/
inductive PostKind where
  | plain
  | version (line number : Nat)
  /-- a rowopen or rowclose behind its thread's stores to the vault (R237) -/
  | row (opens : Bool)
  deriving DecidableEq, Repr

/-- A posted store that has not been performed (R26, R199). `home` is its home's number; slot 48 stands for the
matrix engine (R332), 49 for the spill engine (R384), 50 for a streamer (R291). -/
structure Posted where
  /-- its number in the order of issue -/
  seq : Nat
  core : Nat
  slot : Nat
  uid : Nat
  entry : Nat
  head : Bool
  home : Nat
  kind : PostKind
  hint : Hint
  bytes : List PWrite
  deriving DecidableEq, Repr

/-- What a pending load reads and where its value goes. `got` holds what the homes have read so far, by piece: the
bank words of one access, and the lanes of a gather, are performed at separate instants in any order (R231). An element
of a gather is a lane, a place and a reach entry. -/
inductive LoadOp where
  | scalar (d n : Nat) (signed : Bool) (place : Nat)
  | bits (d w : Nat) (signed : Bool) (place shift n : Nat) (got : SMap (List PByte))
  | vector (d : Nat) (lanes : List Nat) (place n : Nat) (got : SMap (List PByte))
  | gather (d n : Nat) (elems : List (Nat × Nat × Nat)) (got : SMap (List PByte))
  | reserve (d n place : Nat)
  deriving DecidableEq, Repr

/-- An atomic on its way to its home (R243, R245). `fn` is the function code of 0x75; `sc` marks a
store-conditional; `refused` is the cycle in which a full backwater turned its message away. -/
structure AmoOp where
  d : Nat
  fn : Nat
  n : Nat
  place : Nat
  entry : Nat
  v : SVal
  q : SVal
  sc : Bool
  refused : Option Nat
  deriving DecidableEq, Repr

/-- Operations an agent message asks for (Table 7.12, R244). -/
inductive MsgOp where
  | rget | rput | radd | rcas | rcall
  | amo (fn n : Nat) (v q : SVal)
  deriving DecidableEq, Repr

/-- A message to a vault agent (R188). -/
structure Msg where
  src : Nat
  slot : Nat
  uid : Nat
  op : MsgOp
  ty : Nat
  len : Nat
  place : Nat
  task : W64
  arg : W64
  data : VVal
  deriving DecidableEq, Repr

/-- A row call as its sender holds it: registers, address and message (R248). -/
structure RcOp where
  d : Nat
  c : Nat
  n : Nat
  va : W64
  entry : Nat
  msg : Msg
  deriving DecidableEq, Repr

/-- The reply of an agent (R191). `old` is the old data the agent returns. -/
structure Reply where
  core : Nat
  slot : Nat
  uid : Nat
  status : Nat
  place : Nat
  data : VVal
  deriving DecidableEq, Repr

/-- A vld.x or vld.a (R238, R239). `lines` are line places. -/
structure VldOp where
  d : Nat
  exact : Bool
  v : Nat
  size : Nat
  lines : List Nat
  entry : Nat
  bound : Nat
  deriving DecidableEq, Repr

/-- A vst waiting for admission (R240): version, place of the first byte, data, and the shore registers whose flag its
write sets (R374). -/
structure VstOp where
  flags : List Nat
  v : Nat
  place : Nat
  entry : Nat
  data : List PByte
  deriving DecidableEq, Repr

/-- The decoded request descriptor of xfer (Table 11.1). -/
structure XferDesc where
  srch : W64
  srco : W64
  dsth : W64
  dsto : W64
  len : Nat
  push : Bool
  inflow : Bool
  ring : Nat
  qtgt : W64
  user : W64
  deriving DecidableEq, Repr

/-- A transfer of a vault streamer (R289 to R294): `passed` tells that its check counted it in its entries, `ringDead`
that its ring's tile has been reset since. -/
structure Transfer where
  num : Nat
  core : Nat
  slot : Nat
  uid : Nat
  task : W64
  handle : W64
  ringTile : Nat
  seq : Nat
  d : Nat
  desc : XferDesc
  srcPlace : Nat
  dstPlace : Nat
  todo : List Nat
  /-- scratchpad words read so far of blocks that are being read (R231) -/
  part : SMap (SMap (List PByte))
  status : Nat
  fault : Nat
  done : Nat
  passed : Bool
  ringDead : Bool
  deriving DecidableEq, Repr

/-- What a thread does once its earlier posted stores have been performed (Table 8.1, R83, R289). -/
inductive ReleaseOp where
  | phase
  | amo (op : AmoOp)
  | rowCall (op : RcOp)
  /-- `got`: the words of the record that have been read (R200) -/
  | launch (d : Nat) (target : W64) (record entry : Nat) (got : SMap (List PByte))
  | trig
  | bar (scope : Nat)
  | ending (manner : Nat)
  | purge (lo len : W64) (all : Bool)
  /-- `reserved`: its record has been reserved (R289) -/
  | xfer (t : Transfer) (reserved : Bool)
  | cfclose
  deriving DecidableEq, Repr

/-- A bank transform command (Table 11.9) with its translated places; the place of a compressed operand is that of its
first offset table entry, and `srcBase` and `dstBase` are the places that such entries' offsets count from. -/
structure BxfOp where
  src : W64
  dst : W64
  km1 : Nat
  stride : Nat
  n : Nat
  btype : Nat
  etype : ElemTy
  cmp : Bool
  qnt : Bool
  red : Bool
  trn : Bool
  dq : Bool
  exp : Bool
  srcPlaces : List Nat
  dstPlace : Nat
  srcEntries : List Nat
  dstEntry : Nat
  srcBase : Nat
  dstBase : Nat
  /-- bytes of the virtual ranges of such regions -/
  srcLen : Nat
  dstLen : Nat
  deriving DecidableEq, Repr

/-- How far a bank transform unit has come with its command (R310 to R313). `reads` are the words still to be read,
each under a key, `got` what has been read, and `writes` the words still to be written, a group before the next. -/
structure BxfRun where
  phase : Nat
  piece : Nat
  reads : List (Nat × Nat)
  got : SMap (List PByte)
  writes : List (List (List PWrite))
  deriving DecidableEq, Repr

/-- Work of the matrix engine (R258). -/
inductive EngineForm where
  | product (fn : Nat) (o : MmaF)
  | sparsify (o : SparF)
  | drev (o : Acc1)
  | bfly (o : BflyF)
  | twset (v : W64)
  | twmul (o : TwmulF) (t u : Nat)
  | azero (o : Acc1)
  | amov (o : AmovF)
  /-- `todo`: its 64-byte accesses that are still to be made, once its data has passed the shore check -/
  | ast (o : AstF) (va : W64) (place entry : Nat) (seq : Option Nat) (shores : List Shore)
      (todo : Option (List (List PWrite)))
  /-- `got`: what its 64-byte accesses have read; `part`: the words of the next one -/
  | ald (o : AldF) (va : W64) (place entry : Nat) (got : List PByte) (part : SMap (List PByte))
  deriving DecidableEq, Repr

/-- A queued engine instruction with its issuer, the BFCTL value it runs under (R274) and the bank of tile
state it was accepted in (R384). -/
structure EngineOp where
  core : Nat
  slot : Nat
  uid : Nat
  task : W64
  form : EngineForm
  bf : W64
  gen : Nat
  /-- its number in the order of acceptance; posted stores of the issuer below it precede its memory accesses (R332) -/
  fence : Nat
  deriving DecidableEq, Repr

/-- A completion record that the engine has still to write (R334); `fence` numbers the stores it follows. -/
structure AstRecord where
  ring : Nat
  seq : Nat
  status : Nat
  done : Nat
  fault : Nat
  task : W64
  fence : Nat
  deriving DecidableEq, Repr

/-- A long-class operation that a thread awaits (R22, R94). -/
inductive Wait where
  | fetch (va : W64) (entry place : Nat)
  | divide (d : Nat) (val : SVal) (due : Nat)
  | vector (d : Nat) (val : VVal) (due : Nat)
  | load (op : LoadOp) (entry : Nat) (hint : Hint)
  /-- `fence`: queued readers of the register accepted below this number come first (R260) -/
  | tileLoad (t place : Nat) (va : W64) (entry last gen fence : Nat) (clear : Bool) (rows : List (List PByte)) (hint : Hint)
  /-- `got`: the words read so far, word k of row i under 8i + k -/
  | gather (places : List Nat) (entries : List Nat) (gen fence : Nat) (clear : Bool) (got : SMap (List PByte))
  | yielding (due : Nat)
  | reap (d : Nat)
  | release (op : ReleaseOp)
  | sealing (then_ : ReleaseOp)
  | amo (op : AmoOp)
  | vld (op : VldOp)
  | vst (op : VstOp)
  | vfloor (place f entry : Nat)
  | waitres (d bound : Nat)
  | waitaddr (d place n : Nat) (v : Nat) (bound entry : Nat)
  | rowCall (op : RcOp)
  | rchinv (d idx : Nat)
  | rchins (d idx : Nat) (w0 w1 w2 w3 : W64)
  /-- `granted`: the cycle of its grant -/
  | sem (sem w : Nat) (form : Option EngineOp) (granted : Option Nat)
  | engineFull (op : EngineOp)
  | queuePush (ep : Nat) (data : VVal)
  | queuePop (ep d : Nat)
  | inflow (i : Nat) (toVector : Bool) (d : Nat)
  | xferAccept (d : Nat) (seq : Nat)
  | ringwait (ring d : Nat) (seen : BitVec 32) (bound : Nat)
  | bxf (op : BxfOp) (run : BxfRun)
  | seqBusy (run : Run)
  | repstop
  /-- a halt, or a branch to the exit address with the control record it leaves: type and target -/
  | endAfterRun (manner : Nat) (ctl : Option (Nat × W64))
  | triggered
  | barred (scope episode round : Nat)
  | shape (d dim : Nat) (slice poison : Bool) (place : Option Nat) (got : SMap (List PByte))
  | brkpt (d idx : Nat) (w0 w1 w2 : W64)
  | siltrd (d : Nat) (seq : W64)
  | migrating (target : Nat) (heldDst : Option Nat)
  deriving DecidableEq, Repr

/-- A member of an issue unit that waits: which member it is, the cycle of its issue, and what it awaits
(R22, R39). -/
structure Waiting where
  member : Bool
  at0 : Nat
  op : Wait
  deriving DecidableEq, Repr

/-- One thread slot (R9, R93, R104). -/
structure Thread where
  state : SlotState
  /-- the state in which a swapped thread goes on when it is back (R380, R384) -/
  saved : SlotState
  /-- the first cycle in which a ready thread can issue (R22) -/
  readyAt : Nat
  pc : W64
  regs : RegFile
  task : W64
  phase : W64
  coffers : List Coffer
  dzt : Bool
  lastcause : Byte
  shores : SMap Shore
  inflows : SMap Inflow
  resv : List Resv
  latch : Option Latch
  exit : W64
  handle : W64
  shape : W64
  weaveIdx : SMap (BitVec 32)
  weaveExt : SMap (BitVec 32)
  waits : List Waiting
  nextPc : W64
  /-- writes of an issue unit that take effect when its last waiting member completes (R7, R225, R322) -/
  held : RegFile
  reissue : Bool
  retry : Bool
  skipBreak : Bool
  stopHeld : Bool
  /-- the cause of the trap the thread is held in, which TRACK moves to lastcause (R355) -/
  trapCause : Byte
  trapInfo : W64
  /-- engine faults waiting for the thread's next issues (R335): cause, information word -/
  engFault : List (Byte × W64)
  run : Option Run
  lastIssue : Option Nat
  uid : Nat
  barEpisode : SMap Nat
  /-- the cycle in which the slot last became idle, plus one (R117) -/
  idleAt : Nat
  deriving DecidableEq, Repr

/-- A message of a head slot's inbox, as reap delivers it (R157). -/
structure Notice where
  kind : Nat
  slot : Nat
  manner : Nat
  lanes : List W64
  deriving DecidableEq, Repr

/-- One reach entry: the four words of Table 7.6. -/
structure Reach where
  w0 : W64
  w1 : W64
  w2 : W64
  w3 : W64
  deriving DecidableEq, Repr

/-- A buffered fetch line (R17): its virtual address, the tagsel of the entry that translated it,
and its 64 bytes. -/
structure BufLine where
  va : W64
  tag : BitVec 16
  data : BitVec 512
  deriving DecidableEq, Repr

/-- A gauge (R402). -/
structure Gauge where
  cfg : W64
  min : BitVec 32
  max : BitVec 32
  count : BitVec 32
  bins : SMap (BitVec 32)
  deriving DecidableEq, Repr

/-- A breakpoint entry (Table 16.5). -/
structure Brk where
  tag : W64
  addr : W64
  ctl : W64
  deriving DecidableEq, Repr

/-- A slot of the shadow bank (R377): 0 empty, 1 held, 2 loaded, 3 busy; a held context with the save place in
force at its swap and the cycle of the swap. -/
structure ShadowSlot where
  state : Nat
  ctx : Option Thread
  place : Nat
  stamp : W64
  deriving DecidableEq, Repr

/-- Matrix-engine registers of one compute core (Table 10.1). Register 8 of the row maps is the latch;
row r of register t has key 32t + r; word w of accumulator a has key 1024a + w. -/
structure EngineRegs where
  rows : SMap (BitVec 512)
  mask : SMap (BitVec 32)
  pois : SMap (BitVec 32)
  idx : SMap W64
  ivalid : Byte
  acc : SMap (BitVec 32)
  bfctl : W64
  aexp : SMap (BitVec 33)
  deriving DecidableEq, Repr

/-- A context whose record lies in the vault: its slot, its save place, and what its record does not hold, so that
its replies find it and its versions stay its own when it comes back (R384). -/
structure Away where
  ctx : Thread
  slot : Nat
  place : Nat
  stamp : W64
  deriving DecidableEq, Repr

/-- The shadow tile block (R377). -/
structure ShadowTile where
  state : Nat
  regs : Option EngineRegs
  place : Nat
  deriving DecidableEq, Repr

/-- A swap or fill command: slots and whether the tile block is included (R379 to R382). -/
structure BankCmd where
  mask : BitVec 16
  tile : Bool
  at0 : Nat
  deriving DecidableEq, Repr

/-- One core (R102). -/
structure Core where
  threads : SMap Thread
  reaches : SMap Reach
  trapBase : BitVec 52
  trapWidx : BitVec 6
  trapSeq : BitVec 32
  trapFlag : Bool
  inbox : List Notice
  lines : List BufLine
  stopped : Bool
  gauges : SMap Gauge
  /-- each gauge as it stood before the cycle in which it last sampled, and that cycle plus one (R403) -/
  gaugeOld : SMap Gauge
  gaugeAt : SMap Nat
  traceWait : List (Nat × W64)
  /-- the scopes of phases as written, each with its cycle and slot (R202) -/
  traceScopes : List (Nat × Nat × Nat)
  /-- the cycle of the enable, after which records are taken (R392) -/
  traceFrom : Nat
  traceLast : Nat
  traceDrop : Nat
  traceLost : Bool
  arrivals : List (Thread × Nat)
  shadow : SMap ShadowSlot
  away : SMap Away
  shadowTile : ShadowTile
  swapPend : Option BankCmd
  /-- the cycle in which the pending swap begins (R381) -/
  swapAt : Option Nat
  swapRun : Option BankCmd
  swapErr : Nat
  /-- the records of the running spill, the tile block in bit 16, as kind 0x11 reports them -/
  spillMask : Nat
  /-- slots whose threads the core runtime has displaced, with the launch's priority, until it brings them back (R121) -/
  displaced : List (Nat × Nat)
  /-- fills that have been accepted and not finished -/
  fillRun : List BankCmd
  seqOwner : Option Nat
  gateDue : Nat
  gateAt : Nat
  headSaved : Option Thread
  lastUnit : Option (Nat × Nat × W64)
  agentSaved : Option Thread
  handlerIssues : Nat
  /-- entries of the shape window, the one copied to longest ago first (R114) -/
  shapeOrder : List Nat
  deriving DecidableEq, Repr

/-- What is held at a vault for a row under repair: a posted store by its number, or an atomic's message (R406, R407). -/
inductive Held where
  | store (seq : Nat)
  | atomic (m : Msg)
  deriving DecidableEq, Repr

/-- One DRAM bank (R173, R174, R416 to R419). Bank 32 of a tile stands for its column sensor. -/
structure Bank where
  openRow : Option Nat
  /-- the cycle of its last activation (R417) -/
  lastAct : Option Nat
  /-- an access of an agent, the dispatcher or a host waits for it to wake (R174) -/
  wanted : Bool
  /-- what is held for its rows, by row, in the order of arrival (R407) -/
  held : List (Nat × Held)
  /-- the cycle in which its sensor's reading last changed (R418) -/
  readAt : Nat
  keepOpen : Bool
  last : Nat
  refreshEnd : Option Nat
  asleep : Bool
  /-- rows under repair -/
  repairs : List Nat
  /-- its sensor has reported since the reset -/
  reported : Bool
  deriving DecidableEq, Repr

/-- An armed monitor entry (R247). -/
structure Monitor where
  core : Nat
  slot : Nat
  place : Nat
  n : Nat
  deriving DecidableEq, Repr

/-- A message that the agent has started (R189). -/
structure Started where
  msg : Msg
  deriving DecidableEq, Repr

/-- A dredger command in progress (R389, R390). -/
structure Dredge where
  move : Bool
  src : Nat
  dst : Nat
  step : Nat
  acks : BitVec 2
  deriving DecidableEq, Repr

/-- A bus retraining, waiting (`active` false) or running (R415). -/
structure Retrain where
  active : Bool
  /-- failing lanes that it maps to spares -/
  lanes : Nat
  /-- it has been counted as deferred -/
  deferred : Bool
  at0 : Nat
  deriving DecidableEq, Repr

/-- An entry of a riser FIFO with whether it has crossed (R301). -/
structure RiserEntry where
  data : VVal
  arrived : Bool
  deriving DecidableEq, Repr

/-- Entries of a receive endpoint: held in its buffer, and waiting for room (R300). An entry knows
the endpoint its credit returns to, none for a streamer's entry (R304). -/
structure QEntry where
  data : VVal
  credit : Option (Nat × Nat)
  deriving DecidableEq, Repr

structure QBuf where
  held : List QEntry
  room : List QEntry
  /-- entries that have entered the buffer since the enable -/
  next : Nat
  deriving DecidableEq, Repr

/-- A waiter on a semaphore: the cycle of its arrival, its core and its slot (R269). -/
structure SemWaiter where
  sem : Nat
  at0 : Nat
  core : Nat
  slot : Nat
  deriving DecidableEq, Repr

/-- One tile (R102). -/
structure Tile where
  inbox : List Msg
  backwater : List Msg
  /-- the slot of the backwater heap in which its oldest message lies (R194) -/
  heapHead : Nat
  /-- row activations of the vault by 1 s window since the device reset (R418) -/
  acts : SMap Nat
  inflight : List Started
  handler : Option Msg
  banks : SMap Bank
  oldLive : Option (BitVec 32)
  eng : EngineRegs
  /-- counts the exchanges of the tile block, so that work keeps to the bank it was issued in (R384) -/
  engGen : Nat
  engineQ : List EngineOp
  astRecords : List AstRecord
  bfAccepted : W64
  /-- waiters on the semaphores in the order of arrival (R269) -/
  semQ : List SemWaiter
  monitors : List Monitor
  strInbox : List Transfer
  strActive : List Transfer
  qbuf : SMap QBuf
  riserUp : List RiserEntry
  riserDown : List RiserEntry
  /-- per FIFO, up at 0: the cycle of its latest pop, plus one, and the pops of that cycle (R342) -/
  riserPops : SMap (Nat × Nat)
  dredge : Option Dredge
  /-- retrainings asked for or running: of the vault bus at 0, of the riser at 1 (R415) -/
  retrain : SMap Retrain
  /-- spare lanes in use, by bus (R415) -/
  spared : SMap Nat
  /-- the cycles of the latest CRC failures of lane l of a bus, under 2l plus the bus (R415) -/
  busFails : SMap (List Nat)
  deriving DecidableEq, Repr

/-- A sealed version of a varve line (R213). -/
structure Sealed where
  number : Nat
  data : BitVec 512
  poison : BitVec 16
  deriving DecidableEq, Repr

/-- The open version of a varve line: owner task, opening thread and the coffer level it belongs to (R213, R365). -/
structure OpenVer where
  number : Nat
  data : BitVec 512
  poison : BitVec 16
  owner : W64
  opener : Nat
  level : Nat
  deriving DecidableEq, Repr

/-- One varve line (R213). -/
structure Line where
  sealed : List Sealed
  opened : Option OpenVer
  ns : Option Nat
  lost : Option Nat
  /-- the place of the codeword that made its header uncorrectable (R361) -/
  damaged : Option Nat
  deriving DecidableEq, Repr

/-- A member of a launch: the core of its placement, its weave indices, whether it has ended, and how
far its bars have come (episodes entered and rounds done) per scope (R110, R164). -/
structure Member where
  core : Nat
  idx : List Nat
  ended : Bool
  bar : SMap (Nat × Nat)
  deriving DecidableEq, Repr

/-- A launch in progress at its dispatcher (R117 to R120). -/
structure Launch where
  handle : W64
  done : Nat
  succ : List W64
  trigcount : Nat
  trigs : Nat
  early : Bool
  siglost : Bool
  pending : Nat
  members : List Member
  counted : Nat
  killed : Nat
  shape : Nat
  prio : Nat
  deriving DecidableEq, Repr

/-- A wake for one core of a placement (R115). -/
structure Wake where
  core : Nat
  record : Nat
  handle : W64
  task : W64
  first : Nat
  count : Nat
  idx : List Nat
  ext : List Nat
  entry : W64
  args : W64
  exit : W64
  stksize : Nat
  env : Nat
  shape : Nat
  prio : Nat
  preempt : Bool
  /-- its head slot has applied the environment block, and the share waits for idle slots (R115) -/
  applied : Bool
  deriving DecidableEq, Repr

/-- What is in transit between agents. -/
inductive Packet where
  | message (tile : Nat) (m : Msg)
  | reply (r : Reply)
  /-- `at0`: the cycle in which it was sent, after which it arrives (R299, R342) -/
  | queueEntry (fromCore fromEp toCore toEp : Nat) (data : VVal) (at0 : Nat)
  | credit (toCore toEp fromCore fromEp at0 : Nat)
  | notice (core : Nat) (n : Notice)
  | wake (w : Wake)
  | trig (handle : W64) (core slot uid : Nat)
  | ended (handle : W64) (core : Nat) (idx : List Nat) (killed : Bool)
  | signal (device queue seq : Nat) (launch : W64)
  | migrant (target source : Nat) (ctx : Thread) (heldDst : Option Nat)
  | request (tile : Nat) (t : Transfer)
  | inflow (core slot i id : Nat) (data : List PByte) (tile num : Nat)
  deriving DecidableEq, Repr

/-- One end of a Brudalo link (R420 to R422). -/
structure Port where
  txNext : Nat
  /-- packets that are not acknowledged, oldest first, each with how often it has been resent -/
  replay : List (LinkPacket × Nat)
  /-- copies of packets on their way to the other end, in the order sent -/
  wire : List LinkPacket
  txTable : SMap Nat
  oldest : Nat
  rxNext : Nat
  rxTable : SMap Nat
  accepted : List LinkPacket
  /-- acknowledgements (true) and negative ones on their way to the other end, with the number each names -/
  answers : List (Bool × Nat)
  /-- the cycles of each lane's latest CRC failures (R422) -/
  fails : SMap (List Nat)
  training : Bool
  failed : Nat
  deriving DecidableEq, Repr

/-- A reset in progress (R426, R427). -/
structure Reset where
  boundary : Boundary
  unit : Nat
  eng : EngineUnit
  due : Nat
  deriving DecidableEq, Repr

/-- Checkpoint modes of R431. -/
inductive Ckpt where
  | none | quiescing | live
  deriving DecidableEq, Repr

/-- An entry of the silt record, four words (R404). -/
structure Silt where
  seq : Nat
  cycle : Nat
  epoch : Nat
  kind : Nat
  subcode : Nat
  unit : Nat
  info : W64
  deriving DecidableEq, Repr

/-- A signed answer of wellhead (R430): bytes 0x000 to 0x0C7 of the evidence and the 29,792 bytes of the signature. -/
structure Evidence where
  device : Nat
  body : List Byte
  signature : List Byte
  deriving DecidableEq, Repr

/-- A copy of one device's memory in the safe tier (R431). -/
structure Snapshot where
  device : Nat
  live : Bool
  /-- the safe tier that holds it, as basin named it -/
  tier : Nat
  /-- the bytes that each of ports 15 to 17 has carried -/
  shares : SMap Nat
  mem : List Host.Cell
  marks : List Nat
  lines : SMap Line
  deriving DecidableEq, Repr

/-- A message of a host: HWRITE, HREAD or HLAUNCH (R424). -/
inductive HostMsg where
  | write (place : Nat) (bytes : List Byte)
  | read (place n : Nat)
  | launch (target : W64) (place : Nat)
  deriving DecidableEq, Repr

/-- What an access of basin comes to (R429). -/
inductive BasinReply where
  | refused (place : Nat)
  | word (place : Nat) (value : W64)
  | silt (entry : Option Silt)
  deriving DecidableEq, Repr

/-- One device. -/
structure Device where
  silt : List Silt
  siltQ : List Silt
  siltDrop : Nat
  epoch : Nat
  /-- the cycle of the latest device reset, from which its %cycle counts (Table 1.1) -/
  resetAt : Nat
  seepEvents : SMap Nat
  /-- the last queue served per stack and priority, plus one (R117) -/
  lastServed : SMap Nat
  /-- the cycle since which the head record of a queue is there to be served, plus one -/
  since : SMap Nat
  /-- the cycle of the last start opportunity that a stack's dispatcher used, plus one -/
  served : SMap Nat
  ports : SMap Port
  digests : SMap Nat
  held : Bool
  /-- what basin has been told: the cores whose gate request lapsed, oldest first (R386) -/
  lapsed : List Nat
  /-- answers to basin's accesses, oldest first (R429) -/
  basin : List BasinReply
  /-- resets that an error class or basin has raised, and that are still to be made (R425) -/
  raised : List (Boundary × Nat × EngineUnit)
  resets : List Reset
  ckpt : Ckpt
  /-- a live checkpoint: what it has copied, and the ranges of places still to be copied (R431) -/
  copy : Option (Snapshot × List (Nat × Nat))
  /-- the safe tier that basin has named (R431) -/
  tier : Option Nat
  /-- messages of the host of a bridge device that wait to be performed, oldest first (R424) -/
  hostQ : List HostMsg
  /-- no copy has come back since the latest device reset (R431) -/
  blank : Bool
  deriving DecidableEq, Repr

/-- Replies to a host (R424). -/
inductive HostReply where
  | written | refused | data (bytes : List PByte) | launched (result : W64)
  deriving DecidableEq, Repr

/-- Error classes of Table 18.8 whose boundary is a reset; those of a head slot and of a port's retrainings are detected
where they come about. -/
inductive ErrorClass where
  | coreState | engineUnit | mesh | bridge | firmware
  deriving DecidableEq, Repr

/-- What basin does (R429, R431): it reads or writes a place, reads an entry of the silt record, asks for a reset, or
names the safe tier of its device. -/
inductive BasinAct where
  | tier (n : Nat)
  | read (place : Nat)
  | write (place : Nat) (value : W64)
  | silt (seq : Nat)
  | reset (boundary : Boundary) (unit : Nat) (eng : EngineUnit)
  deriving DecidableEq, Repr

/-- What comes about outside the rows of the opcode table. -/
inductive Outside where
  /-- a codeword of memory takes an error, correctable or not (R359, R375) -/
  | upset (place : Nat) (soft : Bool)
  /-- the core runtime brings back a thread that it has displaced (R121), or swaps out its task threads for a checkpoint
  (R431) -/
  | runtime (core : Nat)
  /-- a port sends a packet, again or for the first time (R420) -/
  | send (device port : Nat) (packet : LinkPacket)
  /-- a live checkpoint copies a range of places through a port (R431) -/
  | copy (device place n port : Nat)
  /-- a waiting message of the host of a bridge device is performed (R424) -/
  | host (device n : Nat)
  /-- an error class is detected (R425) -/
  | error (e : ErrorClass) (unit : Nat) (eng : EngineUnit)
  /-- an access of basin (R429) -/
  | basin (a : BasinAct) (device : Nat)
  deriving DecidableEq, Repr

/-- What moves next: an event of an asynchronous agent, what comes about outside, the issue turn of a core, or the
passing of cycles. The order in which agents act is an input of the machine wherever the manual gives none. -/
inductive Turn where
  | event (e : Instr)
  | outside (o : Outside)
  | issue (core : Nat)
  | tick (n : Nat)
  deriving DecidableEq, Repr

/-- The thread whose instruction is being executed. -/
structure Cur where
  core : Nat
  slot : Nat
  deriving DecidableEq, Repr

/-- The issue unit being executed: its words, whether it is a pair and which member runs, the
registers as at issue (R39), whether it is a TRACK retry (R234), and the trap or stop a member of a pair
has raised. -/
structure IssueUnit where
  pc : W64
  first : Word96
  second : Option Word96
  lineword : BitVec 32
  member : Bool
  retry : Bool
  skip : Bool
  snap : Option RegFile
  defer_ : Bool
  /-- an instruction issued by the repetition sequencer (R315) -/
  byRun : Bool
  /-- positions behind the unit that a repb of it captures (R314) -/
  past : Nat
  trap : Option (Byte × W64)
  stop : Option (Nat × Option W64)
  deriving DecidableEq, Repr

/-- The machine: the whole domain. -/
structure State where
  cycle : Nat
  agenda : List Turn
  focus : Nat
  cur : Cur
  unit : IssueUnit
  fresh : Nat
  nextUid : Nat
  mem : List Host.Cell
  marks : List Nat
  ecc : List Nat
  /-- codewords with a correctable error that no read has met (R375) -/
  soft : List Nat
  posted : List Posted
  net : List Packet
  regs : SMap W64
  seepHeld : List Nat
  timers : SMap Nat
  /-- the last operation of a unit whose operations of one cycle have an order: the cycle plus one, and its place in the
  order (R212, R337, R346) -/
  order : SMap (Nat × Nat)
  cores : SMap Core
  tiles : SMap Tile
  devices : SMap Device
  lines : SMap Line
  launches : List Launch
  signals : SMap Nat
  hostReplies : List HostReply
  safeTier : List Snapshot
  evidence : List Evidence
  deriving DecidableEq, Repr

/-! Reset values. -/

def RegFile.reset : RegFile := ⟨[], [], [], []⟩

/-- A slot that holds no thread, every register as R11 starts a thread. -/
def Thread.reset : Thread :=
  { state := .idle, saved := .ready, readyAt := 0, pc := 0, regs := RegFile.reset, task := 0, phase := 0,
    coffers := [], dzt := false, lastcause := 0, shores := [], inflows := [], resv := [], latch := none, exit := 0,
    handle := 0, shape := 0, weaveIdx := [], weaveExt := [], waits := [], nextPc := 0, held := RegFile.reset,
    reissue := false, retry := false, skipBreak := false, stopHeld := false, trapCause := 0, trapInfo := 0,
    engFault := [], run := none, lastIssue := none, uid := 0, barEpisode := [], idleAt := 0 }

/-- The tile of a core, as bits 62:43 of its places (R103, R165). -/
def tileOfCore (core : Nat) : Nat :=
  (core / 1024 * 4 + core % 1024 / 256) * 128 + core % 128

/-- Whether a core is a compute core (Table 4.4). -/
def isCompute (core : Nat) : Bool := core / 128 % 2 = 1

/-- The device of a core (R103). -/
def deviceOfCore (core : Nat) : Nat := core / 1024

/-- The staging and the compute core of a tile. -/
def stagingOf (tile : Nat) : Nat := tile / 512 * 1024 + tile / 128 % 4 * 256 + tile % 128
def computeOf (tile : Nat) : Nat := stagingOf tile + 128

/-- The first place of a space of a tile (R165). -/
def spaceBase (tile space : Nat) : Nat := (tile * 8 + space) * 2 ^ 40

/-- The identity of the head or the agent of a core, apart from every number that a task thread gets
(log 97, DESIGN CHOICE). -/
def residentUid (core slot : Nat) : Nat := 2 ^ 64 + core * 16 + slot

/-- Slots that hold a thread at core start (R95, R411). -/
def Core.startThread (core slot : Nat) : Thread :=
  if slot = 0 then { Thread.reset with state := .ready, task := 0xFFFF, uid := residentUid core slot }
  else if slot = 15 ∧ isCompute core = false then
    { Thread.reset with state := .ready, pc := 0x40, task := 0xFFFF, uid := residentUid core slot }
  else Thread.reset

/-- The reach entries of Table 18.1. -/
def Reach.start (core idx : Nat) : Reach :=
  let t := tileOfCore core
  match idx with
  | 0 => ⟨0x0000000000000001, 0x0000000000200000, BitVec.ofNat 64 (spaceBase t 0), 0xFFFF000000002005⟩
  | 1 => ⟨0x0000000100000001, 0x0000000100400000, BitVec.ofNat 64 (spaceBase t 1), 0xFFFF000000008003⟩
  | 2 => ⟨0x0000000200000001, 0x0000000200010000, BitVec.ofNat 64 (spaceBase t 2), 0xFFFF00000000C003⟩
  | 3 => ⟨0x0000000300000001, 0x0000000301000000, BitVec.ofNat 64 (spaceBase t 3), 0xFFFF00000000C003⟩
  | _ => ⟨0, 0, 0, 0⟩

/-- The engine registers at core reset (R256). -/
def EngineRegs.reset : EngineRegs := ⟨[], [], [], [], 0, [], 0, []⟩

/-- A core at its start. Its maps list nothing: an absent thread is `Core.startThread`, an absent reach
is `Reach.start`. -/
def Core.reset : Core :=
  { threads := [], reaches := [], trapBase := 0, trapWidx := 0, trapSeq := 0, trapFlag := false, inbox := [],
    lines := [], stopped := false, gauges := [], gaugeOld := [], gaugeAt := [], traceWait := [], traceScopes := [], traceFrom := 0,
    traceLast := 0, traceDrop := 0, traceLost := false, arrivals := [], shadow := [], away := [],
    shadowTile := ⟨0, none, 0⟩, swapPend := none, swapAt := none, swapRun := none, swapErr := 0, spillMask := 0, displaced := [],
    fillRun := [], seqOwner := none, gateDue := 0, gateAt := 0, headSaved := none, lastUnit := none,
    agentSaved := none, handlerIssues := 0, shapeOrder := [] }

def Bank.reset : Bank :=
  { openRow := none, lastAct := none, wanted := false, held := [], readAt := 0, keepOpen := false, last := 0,
    refreshEnd := none, asleep := false, repairs := [], reported := false }

def Tile.reset : Tile :=
  { inbox := [], backwater := [], heapHead := 0, acts := [], inflight := [], handler := none, banks := [], oldLive := none,
    eng := EngineRegs.reset, engGen := 0, engineQ := [], astRecords := [], bfAccepted := 0, semQ := [], monitors := [],
    strInbox := [], strActive := [], qbuf := [], riserUp := [], riserDown := [], riserPops := [], dredge := none, retrain := [],
    spared := [], busFails := [] }

def Port.reset : Port :=
  { txNext := 0, replay := [], wire := [], txTable := [], oldest := 0, rxNext := 0, rxTable := [], accepted := [],
    answers := [], fails := [], training := false, failed := 0 }

def Device.reset : Device :=
  { silt := [], siltQ := [], siltDrop := 0, epoch := 0, resetAt := 0, seepEvents := [], lastServed := [], since := [], served := [], ports := [],
    digests := [], held := false, lapsed := [], basin := [], raised := [],
    resets := [], ckpt := .none, copy := none, tier := none, hostQ := [], blank := true }

def Line.reset : Line := ⟨[], none, none, none, none⟩

def IssueUnit.reset : IssueUnit := ⟨0, 0, none, 0, false, false, false, none, false, false, 0, none, none⟩

/-- The reset value of the 64-bit register word at `offset` of space 2 (Tables 7.14, 8.2, 10.6, 11.5,
11.6, 11.8, 16.3). -/
def space2Reset (offset : Nat) : W64 :=
  if offset = 0x00 then 0xFFFFFFFF
  else if offset = 0x08 then 0x80000000
  else if offset = 0x20 then BitVec.ofNat 64 (0x3FF * 2 ^ 21)
  else if offset = 0x28 then 1
  else if offset = 0x380 then 0x100000
  else if 0x400 ≤ offset ∧ offset < 0x600 ∧ offset % 32 = 0 then 4
  else if offset = 0x800 ∨ offset = 0x808 then 16
  else if offset = 0x810 ∨ offset = 0x818 then 0x100000
  else if offset = 0xA08 ∨ offset = 0xB08 then 6
  else 0

/-- The reset value of the 64-bit register word at `offset` of the service space (R411, Tables 4.11,
15.7, 15.9, 15.14, 16.8, 18.2 to 18.4, 18.7). -/
def space3Reset (offset : Nat) : W64 :=
  if offset = 0 then 3
  else if 0x100000 ≤ offset ∧ offset < 0x100200 ∧ offset % 32 = 8 then 0x400
  else if 0x300000 ≤ offset ∧ offset ≤ 0x300100 then 0x600000000
  else if 0x360000 ≤ offset ∧ offset < 0x360480 then 0x600000000
  else if offset = 0x350108 then 5041
  else if offset = 0x350110 then 0x8000000000100000
  else if offset = 0x350200 then 0x8000000000000000
  else 0

/-- The reset value of the register word at a place of space 2 or 3. -/
def regReset (place : Nat) : W64 :=
  let offset := place % 2 ^ 40 / 8 * 8
  if place / 2 ^ 40 % 8 = 2 then space2Reset offset else space3Reset offset

/-- The machine right after device reset (R11, R411): every map empty, so every core at its start and
every register at its reset value; the staging head slot of tile 0 of device 0 is in focus (log 6, DESIGN CHOICE). -/
def State.reset : State :=
  { cycle := 0, agenda := [], focus := 0, cur := ⟨0, 0⟩, unit := IssueUnit.reset, fresh := 0, nextUid := 1,
    mem := [], marks := [], ecc := [], soft := [], posted := [], net := [], regs := [], seepHeld := [], timers := [],
    order := [], cores := [], tiles := [], devices := [], lines := [], launches := [], signals := [], hostReplies := [],
    safeTier := [], evidence := [] }

end Sys2Proof.Machine
end

