-- ==== Sys2Proof/Machine/Record.lean ====
section
/-! DEFINITION. Record.lean: the register file of a thread, and the saved record of its context (R104, R383,
Table 15.10). -/

namespace Sys2Proof.Machine

def RegFile.getS (r : RegFile) (n : Nat) : SVal := if n = 0 then ⟨0, false⟩ else SMap.get ⟨0, false⟩ r.s n
def RegFile.setS (r : RegFile) (n : Nat) (v : SVal) : RegFile :=
  if n = 0 then r else { r with s := SMap.set r.s n v }
def RegFile.getV (r : RegFile) (n : Nat) : VVal := SMap.get ⟨0, 0⟩ r.v n
def RegFile.setV (r : RegFile) (n : Nat) (v : VVal) : RegFile := { r with v := SMap.set r.v n v }
/-- p0 reads as all ones (R69). -/
def RegFile.getP (r : RegFile) (n : Nat) : W64 := if n = 0 then BitVec.allOnes 64 else SMap.get 0 r.p n
def RegFile.setP (r : RegFile) (n : Nat) (v : W64) : RegFile :=
  if n = 0 then r else { r with p := SMap.set r.p n v }
def RegFile.getB (r : RegFile) (n : Nat) : BitVec 40 := SMap.get 0 r.b n
def RegFile.setB (r : RegFile) (n : Nat) (v : BitVec 40) : RegFile := { r with b := SMap.set r.b n v }


/-- The registers of a map that differ from what another map holds. -/
def SMap.since {α : Type} [DecidableEq α] (d : α) (old new : SMap α) : SMap α :=
  new.filter fun e => e.2 ≠ SMap.get d old e.1

/-- A map with the entries of another written over it. -/
def SMap.over {α : Type} (m : SMap α) (l : SMap α) : SMap α := l.foldl (fun m e => SMap.set m e.1 e.2) m

/-- The registers that differ from those of an earlier file. -/
def RegFile.since (old new : RegFile) : RegFile :=
  ⟨SMap.since ⟨0, false⟩ old.s new.s, SMap.since ⟨0, 0⟩ old.v new.v,
    SMap.since 0 old.p new.p, SMap.since 0 old.b new.b⟩

/-- The file with the registers of another written over it. -/
def RegFile.over (r l : RegFile) : RegFile :=
  ⟨SMap.over r.s l.s, SMap.over r.v l.v, SMap.over r.p l.p, SMap.over r.b l.b⟩

/-! The saved record. -/

/-- `n` bytes of a number that bear one mark. -/
def markedBytes (n x : Nat) (poison : Bool) : List PByte := (bytesOf n x).map fun b => (b, poison)

def cleanBytes (n x : Nat) : List PByte := markedBytes n x false

/-- The bytes of a vector register with the marks of their words. -/
def vecRecord (v : VVal) : List PByte :=
  (List.range 32).flatMap fun k => markedBytes 4 (v.bits.toNat / 2 ^ (32 * k)) (v.poison.getLsbD k)

/-- The saved-state code of the state word. -/
def SlotState.savedCode : SlotState → Nat
  | .waitingMemory => 2
  | .waitingMessage => 3
  | .trapped => 4
  | _ => 1

def SlotState.ofSaved (k : Nat) : SlotState :=
  match k with
  | 2 => .waitingMemory
  | 3 => .waitingMessage
  | 4 => .trapped
  | _ => .ready

def Shore.none : Shore := ⟨0, 0, 0⟩
def Inflow.none : Inflow := ⟨false, 0, 0, []⟩
def Coffer.none : Coffer := ⟨0, ⟨0, false⟩, 0, false⟩

/-- The state word: %tsw, %cofdepth, saved state, reissue, reply pending, and the skip of R399. -/
def Thread.stateWord (t : Thread) : Nat :=
  bit01 t.dzt * 4 + t.lastcause.toNat * 2 ^ 8 + t.coffers.length * 2 ^ 16 + t.saved.savedCode * 2 ^ 19
    + bit01 t.reissue * 2 ^ 22 + bit01 (!t.waits.isEmpty) * 2 ^ 23 + bit01 t.skipBreak * 2 ^ 24

/-- The record of a context, 5,056 bytes, with %cycle at the swap. -/
def Thread.record (t : Thread) (stamp : W64) : List PByte :=
  let sv := fun v : SVal => markedBytes 8 v.bits.toNat v.poison
  let coffer := fun i =>
    let c := t.coffers[i]?.getD Coffer.none
    cleanBytes 8 c.handler.toNat ++ sv c.savedS2 ++ cleanBytes 4 c.count.toNat ++ cleanBytes 4 (bit01 c.deferred)
  let inflow := fun i =>
    let f := SMap.get Inflow.none t.inflows i
    (bit01 f.bound * 2 ^ 11 + f.wcode * 2 ^ 8 + f.id) * 2 ^ (12 * i)
  let shore := fun i => SMap.get Shore.none t.shores i
  let l := t.latch.getD ⟨0, 0, none, 0, false, false⟩
  let seq := match t.run with
    | some r => cleanBytes 8 r.repbPc.toNat
        ++ cleanBytes 8 (r.iter % 2 ^ 16 + r.pos * 2 ^ 16 + bit01 r.active * 2 ^ 31)
    | none => cleanBytes 16 0
  cleanBytes 8 t.pc.toNat
    ++ (List.range 63).flatMap (fun i => sv (t.regs.getS (i + 1)))
    ++ (List.range 32).flatMap (fun i => vecRecord (t.regs.getV i))
    ++ (List.range 7).flatMap (fun i => cleanBytes 8 (t.regs.getP (i + 1)).toNat)
    ++ (List.range 4).flatMap (fun i => cleanBytes 8 (t.regs.getB i).toNat)
    ++ (List.range 8).flatMap (fun i => cleanBytes 4 (shore i).lo.toNat ++ cleanBytes 4 (shore i).hi.toNat)
    ++ (List.range 8).flatMap (fun i => cleanBytes 1 (shore i).ctl.toNat)
    ++ cleanBytes 8 t.task.toNat ++ cleanBytes 8 t.phase.toNat ++ cleanBytes 8 t.exit.toNat
    ++ cleanBytes 8 t.handle.toNat
    ++ cleanBytes 12 l.first.toNat ++ cleanBytes 4 l.lineword.toNat
    ++ (List.range 8).flatMap (fun i => cleanBytes 4 (SMap.get 0 t.weaveIdx i).toNat)
    ++ cleanBytes 8 t.stateWord
    ++ cleanBytes 8 (inflow 0 + inflow 1 + inflow 2 + inflow 3)
    ++ (List.range 8).flatMap (fun i => cleanBytes 4 (SMap.get 0 t.weaveExt i).toNat)
    ++ (List.range 4).flatMap coffer ++ seq ++ cleanBytes 8 stamp.toNat
    ++ cleanBytes 12 (l.second.getD 0).toNat ++ cleanBytes 4 (bit01 l.second.isSome + bit01 l.mem * 2)
    ++ cleanBytes 8 t.shape.toNat ++ cleanBytes 16 0

/-- `n` bytes of a record as a number, and whether any of their words is marked. -/
def recordNum (l : List PByte) (at0 n : Nat) : Nat := natOfBytes (((l.drop at0).take n).map Prod.fst)
def recordBad (l : List PByte) (at0 n : Nat) : Bool := ((l.drop at0).take n).any Prod.snd

/-- The registers of a record. -/
def RegFile.ofRecord (l : List PByte) : RegFile :=
  let sv := fun at0 : Nat => (⟨BitVec.ofNat 64 (recordNum l at0 8), recordBad l at0 8⟩ : SVal)
  let vv := fun at0 : Nat =>
    (⟨BitVec.ofNat 1024 (recordNum l at0 128),
      BitVec.ofNat 32 (packNat 1 ((List.range 32).map fun k => bit01 (recordBad l (at0 + 4 * k) 4)))⟩ : VVal)
  let r := (List.range 63).foldl (fun (r : RegFile) i => r.setS (i + 1) (sv (8 + 8 * i))) ⟨[], [], [], []⟩
  let r := (List.range 32).foldl (fun (r : RegFile) i => r.setV i (vv (0x200 + 128 * i))) r
  let r := (List.range 7).foldl (fun (r : RegFile) i =>
    r.setP (i + 1) (BitVec.ofNat 64 (recordNum l (0x1200 + 8 * i) 8))) r
  (List.range 4).foldl (fun (r : RegFile) i =>
    r.setB i (BitVec.ofNat 40 (recordNum l (0x1238 + 8 * i) 8))) r

/-- A context read back from a record. `base` is the context as it left, when the save place names it: it gives
what a record does not hold. -/
def Thread.ofRecord (base : Thread) (l : List PByte) : Thread :=
  let num := recordNum l
  let word := fun at0 : Nat => BitVec.ofNat 64 (num at0 8)
  let st := num 0x12F0 8
  let saved := SlotState.ofSaved (st / 2 ^ 19 % 8)
  let reissue := st.testBit 22
  let second := num 0x1398 12
  let flags := num 0x13A4 4
  let latch : Latch :=
    { pc := word 0, first := BitVec.ofNat 96 (num 0x12C0 12),
      second := if flags.testBit 0 then some (BitVec.ofNat 96 second) else none,
      lineword := BitVec.ofNat 32 (num 0x12CC 4), mem := flags.testBit 1,
      fetch := match base.latch with
        | some b => b.fetch
        | none => false }
  let shore := fun i => (⟨BitVec.ofNat 32 (num (0x1258 + 8 * i) 4), BitVec.ofNat 32 (num (0x125C + 8 * i) 4),
    BitVec.ofNat 8 (num (0x1298 + i) 1)⟩ : Shore)
  let inflow := fun i =>
    let x := num 0x12F8 8 / 2 ^ (12 * i) % 2 ^ 12
    let old := SMap.get Inflow.none base.inflows i
    let bound := x.testBit 11
    (⟨bound, x / 2 ^ 8 % 8, x % 2 ^ 8, if bound then old.buf else []⟩ : Inflow)
  let coffer := fun i =>
    let a := 0x1320 + 24 * i
    (⟨word a, ⟨word (a + 8), recordBad l (a + 8) 8⟩, BitVec.ofNat 32 (num (a + 16) 4), (num (a + 20) 4).testBit 0⟩ :
      Coffer)
  let seq := num 0x1388 8
  let run := match base.run with
    | some r => some { r with repbPc := word 0x1380, iter := seq % 2 ^ 16, pos := seq / 2 ^ 16 % 8,
                              active := seq.testBit 31 }
    | none => if seq.testBit 31 then
        some ⟨word 0x1380, word 0x1380, [], 0, 0, 0, 0, 0, seq % 2 ^ 16, seq / 2 ^ 16 % 8, true, false, none⟩ else none
  { base with
    state := .swapped, saved := saved, resv := [], pc := word 0, regs := RegFile.ofRecord l, task := word 0x12A0,
    phase := word 0x12A8, exit := word 0x12B0, handle := word 0x12B8, shape := word 0x13A8,
    dzt := st.testBit 2, lastcause := BitVec.ofNat 8 (st / 2 ^ 8),
    coffers := (List.range (Nat.min 4 (st / 2 ^ 16 % 8))).map coffer,
    shores := (List.range 8).foldl (fun m i => SMap.set m i (shore i)) [],
    inflows := (List.range 4).foldl (fun m i => SMap.set m i (inflow i)) [],
    weaveIdx := (List.range 8).foldl (fun m i => SMap.set m i (BitVec.ofNat 32 (num (0x12D0 + 4 * i) 4))) [],
    weaveExt := (List.range 8).foldl (fun m i => SMap.set m i (BitVec.ofNat 32 (num (0x1300 + 4 * i) 4))) [],
    latch := if reissue || saved = .trapped || st.testBit 23 then some latch else none,
    reissue := reissue, skipBreak := st.testBit 24, waits := if st.testBit 23 then base.waits else [], run := run }

end Sys2Proof.Machine
end

