-- ==== Sys2Proof/Machine/Ops.lean ====
section
/-! DEFINITION. Ops.lean: the operations that every meaning shares: access to the parts of the state,
memory with its poison marks, translation through reaches, posted stores, notices, the trace, the silt
record and the seep counters, taking a trap or a stop, and waiting. -/

namespace Sys2Proof.Machine

/-- The vault agent's slot: slot 15 of a staging core (R95). -/
def isAgent (core slot : Nat) : Bool := slot = 15 && !isCompute core

/-! Parts of the state. -/

def State.core (s : State) (c : Nat) : Core := SMap.get Core.reset s.cores c
def State.setCore (s : State) (c : Nat) (x : Core) : State := { s with cores := SMap.set s.cores c x }
def State.modCore (s : State) (c : Nat) (f : Core → Core) : State := s.setCore c (f (s.core c))

def Core.shadowSlot (x : Core) (slot : Nat) : ShadowSlot := SMap.get ⟨0, none, 0, 0⟩ x.shadow slot

def Core.awayAt (x : Core) (k : Nat) : Away := SMap.get ⟨Thread.reset, 0, 0, 0⟩ x.away k

/-- The context of a slot: 0 to 15 the active bank, 16 to 31 the shadow bank, 32 and up a context whose
record lies in the vault (R384). -/
def Core.thread (x : Core) (core slot : Nat) : Thread :=
  if slot < 16 then SMap.get (Core.startThread core slot) x.threads slot
  else if slot < 32 then (x.shadowSlot (slot - 16)).ctx.getD Thread.reset
  else (x.awayAt (slot - 32)).ctx

def Core.setThread (x : Core) (slot : Nat) (t : Thread) : Core :=
  if slot < 16 then { x with threads := SMap.set x.threads slot t }
  else if slot < 32 then
    { x with shadow := SMap.set x.shadow (slot - 16) { x.shadowSlot (slot - 16) with ctx := some t } }
  else
    { x with away := SMap.set x.away (slot - 32) { x.awayAt (slot - 32) with ctx := t } }

def State.thread (s : State) (c slot : Nat) : Thread := (s.core c).thread c slot
def State.setThread (s : State) (c slot : Nat) (t : Thread) : State := s.modCore c fun x => x.setThread slot t
def State.modThread (s : State) (c slot : Nat) (f : Thread → Thread) : State :=
  s.setThread c slot (f (s.thread c slot))

/-- The thread whose instruction is being executed. -/
def State.cth (s : State) : Thread := s.thread s.cur.core s.cur.slot
def State.modCur (s : State) (f : Thread → Thread) : State := s.modThread s.cur.core s.cur.slot f

/-- Head mode (R15). -/
def State.isHead (s : State) : Bool := s.cur.slot = 0

def State.tile (s : State) (t : Nat) : Tile := SMap.get Tile.reset s.tiles t
def State.setTile (s : State) (t : Nat) (x : Tile) : State := { s with tiles := SMap.set s.tiles t x }
def State.modTile (s : State) (t : Nat) (f : Tile → Tile) : State := s.setTile t (f (s.tile t))

def State.device (s : State) (d : Nat) : Device := SMap.get Device.reset s.devices d
def State.modDevice (s : State) (d : Nat) (f : Device → Device) : State :=
  { s with devices := SMap.set s.devices d (f (s.device d)) }

def State.line (s : State) (n : Nat) : Line := SMap.get Line.reset s.lines n
def State.setLine (s : State) (n : Nat) (l : Line) : State := { s with lines := SMap.set s.lines n l }

/-- %cycle of a device: core clock cycles since its reset (Table 1.1, R13) (log 96, DESIGN CHOICE). -/
def State.now (s : State) (dev : Nat) : Nat := s.cycle - (s.device dev).resetAt

/-- The tile of the executing core. -/
def State.curTile (s : State) : Nat := tileOfCore s.cur.core

/-- The low 7 bits of a tile are its number within the stack (R103, R165). -/
def deviceOfTile (tile : Nat) : Nat := tile / 512
def stackOfTile (tile : Nat) : Nat := tile / 128 % 4

/-- The position-0 tile of a tile's group (R103). -/
def groupHead (tile : Nat) : Nat := tile / 128 * 128 + tile % 128 / 64 * 64 + tile % 16 / 4 * 4

/-- Parts of a place (Table 7.1). -/
def tileOfPlace (p : Nat) : Nat := p / 2 ^ 43
def spaceOfPlace (p : Nat) : Nat := p / 2 ^ 40 % 8
def offsetOfPlace (p : Nat) : Nat := p % 2 ^ 40

/-! Register words of spaces 2 and 3. -/

def State.reg (s : State) (place : Nat) : W64 := SMap.get (regReset place) s.regs (place / 8)
def State.setReg (s : State) (place : Nat) (w : W64) : State := { s with regs := SMap.set s.regs (place / 8) w }

/-- A register word of the service space or of space 2 of a tile. -/
def State.reg2 (s : State) (tile off : Nat) : W64 := s.reg (spaceBase tile 2 + off)
def State.reg3 (s : State) (tile off : Nat) : W64 := s.reg (spaceBase tile 3 + off)
def State.setReg2 (s : State) (tile off : Nat) (w : W64) : State := s.setReg (spaceBase tile 2 + off) w
def State.setReg3 (s : State) (tile off : Nat) (w : W64) : State := s.setReg (spaceBase tile 3 + off) w

/-- A number that nothing fixes, and the state in which the next one differs. -/
def State.takeFresh (s : State) : W64 × State := (Config.freeWord s.fresh, { s with fresh := s.fresh + 1 })

/-! Units whose operations of one cycle have an order. -/

/-- Whether a unit can perform an operation at this place of its order: it has performed none of a later place in this
cycle. -/
def State.inOrder (s : State) (unit key : Nat) : Bool :=
  let o := SMap.get (0, 0) s.order unit
  o.1 ≠ s.cycle + 1 || o.2 ≤ key

/-- A unit has performed an operation at this place of its order. -/
def State.ordered (s : State) (unit key : Nat) : State := { s with order := SMap.set s.order unit (s.cycle + 1, key) }

/-- The directory of a vault as such a unit (R212); the place of a sender's operation, a vfloor last. -/
def directoryUnit (tile : Nat) : Nat := tile
def directoryKey (core slot : Nat) (floor : Bool) : Nat := bit01 floor * 2 ^ 40 + core * 16 + slot % 16

/-! Sorted lists of numbers. -/

def insertNat (n : Nat) : List Nat → List Nat
  | [] => [n]
  | x :: r => if n = x then x :: r else if n < x then n :: x :: r else x :: insertNat n r

/-- The list with every number of `l` inserted. -/
def insertAll (l : List Nat) (r : List Nat) : List Nat := l.foldl (fun r n => insertNat n r) r

/-! Memory. A byte that no cell lists reads as 0 (log 2, DESIGN CHOICE). -/

def memRead : List Host.Cell → Nat → Byte
  | [], _ => 0
  | (k, v) :: r, a => if a = k then v else memRead r a

/-- The memory without a cell for address `a`. -/
def memErase : List Host.Cell → Nat → List Host.Cell
  | [], _ => []
  | (k, v) :: r, a => if a = k then r else (k, v) :: memErase r a

/-- The memory with a nonzero byte at address `a`. -/
def memInsert : List Host.Cell → Nat → Byte → List Host.Cell
  | [], a, b => [(a, b)]
  | (k, v) :: r, a, b =>
    if a = k then (a, b) :: r else if a < k then (a, b) :: (k, v) :: r else (k, v) :: memInsert r a b

/-- Writing keeps the canonical form: a byte equal to what an unlisted address reads as has no cell. -/
def memWrite (m : List Host.Cell) (a : Nat) (b : Byte) : List Host.Cell :=
  if b = 0 then memErase m a else memInsert m a b

/-- Addresses strictly rising from above `lo`, and no cell equal to an unlisted byte. -/
def Memory.wfFrom : Option Nat → List Host.Cell → Bool
  | _, [] => true
  | none, (k, v) :: r => v != 0 && Memory.wfFrom (some k) r
  | some lo, (k, v) :: r => decide (lo < k) && v != 0 && Memory.wfFrom (some k) r

/-- The canonical form of memory. -/
def Memory.wf (m : List Host.Cell) : Bool := Memory.wfFrom none m

def State.byte (s : State) (a : Nat) : Byte := memRead s.mem a
def State.setByte (s : State) (a : Nat) (b : Byte) : State := { s with mem := memWrite s.mem a b }

/-- Whether the 4-byte word of an address is poisoned (R359). -/
def State.marked (s : State) (a : Nat) : Bool := s.marks.contains (a / 4)

/-- `n` bytes from a place with the marks of their words, without meeting the codewords. -/
def State.peek (s : State) (a : Nat) : Nat → List PByte
  | 0 => []
  | n + 1 => (s.byte a, s.marked a) :: s.peek (a + 1) n

/-- A little-endian number of `n` bytes at a place. -/
def State.peekNat (s : State) (a n : Nat) : Nat := natOfBytes ((s.peek a n).map Prod.fst)

/-- A register word or a memory word of 8 bytes as the dispatcher and the runtime read it. -/
def State.word (s : State) (place : Nat) : W64 := w64 (s.peekNat place 8)

/-! Silt, notices and seep counters. -/

/-- Events of one cycle stand in ascending kind, then ascending unit (R404). -/
def siltInsert (e : Silt) : List Silt → List Silt
  | [] => [e]
  | x :: r =>
    if x.epoch = e.epoch ∧ x.cycle = e.cycle ∧ (e.kind < x.kind ∨ e.kind = x.kind ∧ e.unit < x.unit) then e :: x :: r
    else x :: siltInsert e r

/-- An event of a device, queued for its silt record behind a queue of 64 (R404). -/
def State.silt (s : State) (dev kind subcode unit : Nat) (info : W64) : State :=
  s.modDevice dev fun d =>
    if 64 ≤ d.siltQ.length then { d with siltDrop := d.siltDrop + 1 }
    else { d with siltQ := siltInsert ⟨0, s.now dev, d.epoch, kind, subcode, unit, info⟩ d.siltQ }

/-- A notice on its way to a head slot (R99). -/
def State.notify (s : State) (core : Nat) (n : Notice) : State := { s with net := s.net ++ [.notice core n] }

/-- A seep counter sets event and, unless it has sent what it sends since it was last armed, sends it (R375): a notice to
the head slot of the staging core, and silt entries whose unit is that core's local number (log 67, DEDUCED). -/
def State.seepFire (s : State) (place : Nat) : State :=
  let w := s.reg place
  let s := s.setReg place (setBit w 63 true)
  if s.seepHeld.contains place then s
  else
    let core := stagingOf (tileOfPlace place)
    let dev := deviceOfTile (tileOfPlace place)
    let s := { s with seepHeld := insertNat place s.seepHeld }
    let s := s.notify core ⟨0x13, 0, 0, [w64 place, w64 (bitsOf w 15 0)]⟩
    let s := s.silt dev 0x02 0 (core % 1024) (w64 place)
    let n : Nat := SMap.get 0 (s.device dev).seepEvents (place / 8) + 1
    let s := s.modDevice dev fun d => { d with seepEvents := SMap.set d.seepEvents (place / 8) n }
    if n = 4 then s.silt dev 0x0C 2 (core % 1024) (w64 place) else s

/-- A seep counter with `fill` raised (R375): at its mark it sets event; it sends its notice once until software clears
event and fill has fallen below mark / 2. -/
def State.seepAdd (s : State) (place inc : Nat) : State :=
  let w := s.reg place
  let fill := min 0xFFFF (bitsOf w 15 0 + inc)
  let mark := bitsOf w 31 16
  let s := s.setReg place (setBits w 15 0 fill)
  let s := if bitsOf w 15 0 = 0 then { s with timers := SMap.set s.timers (place / 8) s.cycle } else s
  if mark ≠ 0 ∧ mark ≤ fill then s.seepFire place else s

/-- A counter is armed again when event is clear and fill is below mark / 2. -/
def State.seepRearm (s : State) (place : Nat) : State :=
  let w := s.reg place
  if bitOf w 63 = false ∧ bitsOf w 15 0 < bitsOf w 31 16 / 2 then
    { s with seepHeld := s.seepHeld.filter (· ≠ place) }
  else s

/-- The seep counters of a bank and of a tile group. -/
def bankSeep (tile bank : Nat) : Nat := spaceBase tile 3 + 0x300000 + 8 * bank
def groupSeep (tile : Nat) : Nat := spaceBase (groupHead tile) 3 + 0x300100

/-! DRAM banks (R171 to R174). -/

/-- The index of the (n+1)-th set bit of `x` among `fuel` positions from `i` on. -/
def nthBit : Nat → Nat → Nat → Nat → Nat
  | 0, i, _, _ => i
  | fuel + 1, i, x, n =>
    if x.testBit i then (if n = 0 then i else nthBit fuel (i + 1) x (n - 1)) else nthBit fuel (i + 1) x n

/-- Bank and row of a vault offset under a live-bank map (R171). -/
def bankOf (live off : Nat) : Nat × Nat :=
  let l := popCount 32 live
  let c := off / 2048
  (nthBit 32 0 live (c % l), c / l)

/-- The live-bank map under which a vault offset is mapped (R172). -/
def State.liveFor (s : State) (tile off : Nat) : Nat :=
  let live := bitsOf (s.reg2 tile 0) 31 0
  let reil := s.reg2 tile 0x10
  match (s.tile tile).oldLive with
  | some old => if bitOf reil 63 ∧ bitsOf reil 9 0 ≤ off / 2 ^ 21 then old.toNat else live
  | none => live

def State.bankAt (s : State) (place : Nat) : Nat × Nat :=
  bankOf (s.liveFor (tileOfPlace place) (offsetOfPlace place)) (offsetOfPlace place)

def Tile.bank (t : Tile) (b : Nat) : Bank := SMap.get Bank.reset t.banks b
def State.bank (s : State) (tile b : Nat) : Bank := (s.tile tile).bank b
def State.setBank (s : State) (tile b : Nat) (x : Bank) : State :=
  s.modTile tile fun t => { t with banks := SMap.set t.banks b x }

/-- The 1 s windows, counted from the device reset, in which a tile's row activations are compared (R418; log 102,
DESIGN CHOICE). -/
def actWindow : Nat := 1600000000

/-- An access that finds another row, or none, open activates its row (R417, R418). -/
def State.activate (s : State) (t bank row : Nat) : State :=
  let b := s.bank t bank
  if b.openRow = some row then s
  else
    let w := s.now (deviceOfTile t) / actWindow
    (s.setBank t bank { b with lastAct := some s.cycle }).modTile t fun x =>
      { x with acts := SMap.set x.acts w (SMap.get 0 x.acts w + 1) }

/-- The row state after an access to a vault place (R173): the hint decides how the row is left. -/
def State.touchRow (s : State) (place : Nat) (hint : Hint) : State :=
  if spaceOfPlace place = 0 then
    let br := s.bankAt place
    let t := tileOfPlace place
    let s := s.activate t br.1 br.2
    let b := s.bank t br.1
    match hint with
    | .dflt => s.setBank t br.1 { b with openRow := some br.2, keepOpen := false, last := s.cycle }
    | .openRow => s.setBank t br.1 { b with openRow := some br.2, keepOpen := true, last := s.cycle }
    | .closeRow => s.setBank t br.1 { b with openRow := none, keepOpen := false, last := s.cycle }
  else s

/-- The first bytes, one in each 2 KiB chunk, of `n` bytes at a place: a chunk lies in one row of one bank (R171). -/
def chunksOf (place n : Nat) : List Nat :=
  place :: (List.range ((place + n - 1) / 2048 - place / 2048)).map fun i => (place / 2048 + i + 1) * 2048

/-- The rows of an access of `n` bytes (R173). -/
def State.touchSpan (s : State) (place n : Nat) (hint : Hint) : State :=
  (chunksOf place n).foldl (fun s p => s.touchRow p hint) s

/-- The place of the first byte of the row of a vault place (R175). -/
def rowPlace (place : Nat) : Nat := place / 2048 * 2048

/-- Whether the row of a vault place is under repair (R174). -/
def State.rowRepairing (s : State) (place : Nat) : Bool :=
  spaceOfPlace place = 0 &&
    (let br := s.bankAt place
     (s.bank (tileOfPlace place) br.1).repairs.contains br.2)

/-- TBANK of a bank (Table 18.3): bit 15 tells a throttle, bit 13 a thermal hold (R417). -/
def sensorReg (tile bank : Nat) : Nat := spaceBase tile 3 + 0x350000 + 8 * bank
def State.bankHeld (s : State) (tile bank : Nat) : Bool := bitOf (s.reg (sensorReg tile bank)) 13
def State.bankThrottled (s : State) (tile bank : Nat) : Bool := bitOf (s.reg (sensorReg tile bank)) 15

/-- The granule that the dredger is rewriting under a new interleave; accesses to it are held (R172 step 3). -/
def State.rewriting (s : State) (place : Nat) : Bool :=
  match (s.tile (tileOfPlace place)).dredge with
  | some d => !d.move && offsetOfPlace place / 2 ^ 21 = bitsOf (s.reg2 (tileOfPlace place) 0x10) 9 0
  | none => false

/-- A CRC failure of a lane counts with those of the last 2^20 cycles (R415, R422). -/
def recordFail (m : SMap (List Nat)) (lane cycle : Nat) : SMap (List Nat) :=
  SMap.set m lane (((SMap.get [] m lane).filter fun c => decide (cycle < c + 2 ^ 20)) ++ [cycle])

/-- Whether a lane has given 16 CRC failures in 2^20 cycles (log 84, DEDUCED). -/
def failsDue (l : List Nat) (cycle : Nat) : Bool := decide (16 ≤ (l.filter fun c => decide (cycle < c + 2 ^ 20)).length)

/-- The retraining of a bus of a tile (R415). -/
def Tile.retrainOf (t : Tile) (riser : Bool) : Option Retrain :=
  (t.retrain.find? fun e => e.1 = bit01 riser).map Prod.snd

/-- Whether a retraining stops the vault bus or the riser of a tile (R415). -/
def State.busStopped (s : State) (tile : Nat) (riser : Bool) : Bool :=
  match (s.tile tile).retrainOf riser with
  | some r => r.active
  | none => false

/-- Whether the bank of a place is throttled. -/
def State.throttled (s : State) (place : Nat) : Bool :=
  spaceOfPlace place = 0 && s.bankThrottled (tileOfPlace place) (s.bankAt place).1

/-- Whether a throttled bank cannot activate a row yet: one activation per 64 cycles (R417). -/
def State.bankLimited (s : State) (tile bank row : Nat) : Bool :=
  let b := s.bank tile bank
  s.bankThrottled tile bank && b.openRow != some row
    && (match b.lastAct with
        | some c => decide (s.cycle < c + 64)
        | none => false)

/-- Whether the vault performs no access to a place now: its bank is refreshing, asleep, held, limited or repairing the
row, its granule is being rewritten, or its bus is retraining (Table 7.5, R172, R415, R417). -/
def State.bankStops (s : State) (place : Nat) : Bool :=
  spaceOfPlace place = 0 &&
    (let br := s.bankAt place
     let b := s.bank (tileOfPlace place) br.1
     b.refreshEnd.isSome || b.asleep || b.repairs.contains br.2 || s.bankHeld (tileOfPlace place) br.1
       || s.bankLimited (tileOfPlace place) br.1 br.2 || s.rewriting place || s.busStopped (tileOfPlace place) false)

/-- What is held for the row of a vault place, in the order of arrival, as far as it is still to be performed (R407). -/
def State.heldFor (s : State) (place : Nat) : List Held :=
  let br := s.bankAt place
  (((s.bank (tileOfPlace place) br.1).held.filter fun e => e.1 = br.2).map Prod.snd).filter fun h =>
    match h with
    | .store q => s.posted.any fun p => p.seq = q
    | .atomic m => (s.tile (tileOfPlace place)).inflight.any fun f => f.msg = m

/-- Whether the vault cannot perform an access to a place now: it performs none, or what is held for the row comes
first (R407). -/
def State.bankBusy (s : State) (place : Nat) : Bool :=
  s.bankStops place || (spaceOfPlace place = 0 && !(s.heldFor place).isEmpty)

/-- Whether the vault cannot perform an access to `n` bytes at a place now. -/
def State.spanBusy (s : State) (place n : Nat) : Bool := (chunksOf place n).any s.bankBusy

/-- Whether the vault holds the accesses to a place, however long they go on: its bank is asleep, held or repairing the
row, what is held for the row comes first, its granule is being rewritten, or its bus is retraining. -/
def State.bankHolds (s : State) (place : Nat) : Bool :=
  spaceOfPlace place = 0 &&
    (let br := s.bankAt place
     let b := s.bank (tileOfPlace place) br.1
     b.asleep || b.repairs.contains br.2 || s.bankHeld (tileOfPlace place) br.1 || s.rewriting place
       || s.busStopped (tileOfPlace place) false || !(s.heldFor place).isEmpty)

/-- Whether an access that goes on over many rows of the vault, of a background engine (Table 15.8), cannot come to its end
now. A refresh or a throttle in its course only lengthens it (log 124, DEDUCED). -/
def State.spanHeld (s : State) (place n : Nat) : Bool := (chunksOf place n).any s.bankHolds

/-- An access of an agent, the dispatcher or a host that finds a sleeping bank wakes it (R174). -/
def State.callBanks (s : State) (spans : List (Nat × Nat)) : State :=
  (spans.flatMap fun x => chunksOf x.1 x.2).foldl (fun s p =>
    if spaceOfPlace p = 0 then
      let t := tileOfPlace p
      let b := (s.bankAt p).1
      if (s.bank t b).asleep then s.setBank t b { s.bank t b with wanted := true } else s
    else s) s

/-! Codewords (R359). -/

/-- The first place and the length of the ECC codeword of a place. -/
def codeword (a : Nat) : Nat × Nat := if spaceOfPlace a = 0 then (a / 32 * 32, 32) else (a / 8 * 8, 8)

/-- A codeword that a read meets, at the counter of its bank (R359, R375): a correctable error is corrected and adds 1;
the words of an uncorrectable one are marked, and it adds 16 (log 18, DEDUCED). -/
def State.markCodeword (s : State) (a : Nat) : State :=
  let cw := codeword a
  let bank := fun (s : State) (n : Nat) =>
    if spaceOfPlace a = 0 then s.seepAdd (bankSeep (tileOfPlace a) (s.bankAt a).1) n else s
  let s := if s.soft.contains cw.1 then bank { s with soft := s.soft.filter (· ≠ cw.1) } 1 else s
  if s.ecc.contains cw.1 then
    bank { s with ecc := s.ecc.filter (· ≠ cw.1),
                  marks := insertAll ((List.range (cw.2 / 4)).map fun i => cw.1 / 4 + i) s.marks } 16
  else s

/-- A codeword that a read meets, also at the counter of its tile group (R375). -/
def State.meetCodeword (s : State) (a : Nat) : State :=
  let bad := s.ecc.contains (codeword a).1
  let s := s.markCodeword a
  if bad then s.seepAdd (groupSeep (tileOfPlace a)) 16 else s

/-- A read of `n` bytes: the codewords it meets first (R359). -/
def State.readBytes (s : State) (a n : Nat) : State × List PByte :=
  let s := ((List.range n).map fun i => (codeword (a + i)).1).eraseDups.foldl State.meetCodeword s
  (s, s.peek a n)

/-- A read of a fetch line, whose poison the group counts by its cause, 0x0C (R375). -/
def State.readLine (s : State) (a : Nat) : State × List PByte :=
  let s := ((List.range 64).map fun i => (codeword (a + i)).1).eraseDups.foldl State.markCodeword s
  (s, s.peek a 64)

/-- Of a range of `n` bytes that a home reads, the 8-byte words still to be read. -/
def wordsLeft (n : Nat) (got : SMap (List PByte)) : List Nat :=
  (List.range (n / 8)).filter fun i => got.all fun e => e.1 ≠ i

/-- The next instant of a read of `n` bytes: all of them in a vault, and in the scratchpad one of the words that are
left and ready, any of them (R231; log 21, DESIGN CHOICE). -/
def State.readNext (s : State) (place n : Nat) (ready : Nat → Bool) (got : SMap (List PByte)) :
    State × SMap (List PByte) :=
  if spaceOfPlace place = 1 then
    let l := (wordsLeft n got).filter fun i => ready (place + 8 * i)
    match l[(Config.freeWord s.fresh).toNat % l.length]? with
    | none => (s, got)
    | some i =>
      let r := State.readBytes { s with fresh := s.fresh + 1 } (place + 8 * i) 8
      (r.1, SMap.set got i r.2)
  else if ready place then
    let r := s.readBytes place n
    (r.1, (List.range (n / 8)).foldl (fun m i => SMap.set m i ((r.2.drop (8 * i)).take 8)) got)
  else (s, got)

/-- The bytes of a range that has been read. -/
def wordBytes (n : Nat) (got : SMap (List PByte)) : List PByte :=
  (List.range (n / 8)).flatMap fun i => SMap.get [] got i

def poisoned (l : List PByte) : Bool := l.any Prod.snd
def numberOf (l : List PByte) : Nat := natOfBytes (l.map Prod.fst)

/-! The trace (R392 to R395). -/

def SlotState.code : SlotState → Nat
  | .idle => 0
  | .ready => 1
  | .waitingMemory => 2
  | .waitingMessage => 3
  | .trapped => 4
  | .swapped => 5

/-- The trace registers of a core (Table 16.3). -/
def traceReg (core off : Nat) : Nat :=
  spaceBase (tileOfCore core) 2 + (if isCompute core then 0xB00 else 0xA00) + off

/-- Whether the core traces a thread of this tag. -/
def State.tracing (s : State) (core : Nat) (task : W64) : Bool :=
  let c := s.reg (traceReg core 0)
  bitOf c 63 && (bitsOf c 15 0 = 0 || bitsOf c 15 0 = bitsOf task 15 0)

/-- Records of one core stand in cycle order and, within a cycle, by slot (R394). -/
def traceInsert (e : Nat × W64) : List (Nat × W64) → List (Nat × W64)
  | [] => [e]
  | x :: r =>
    if e.1 < x.1 ∨ e.1 = x.1 ∧ bitsOf e.2 60 57 < bitsOf x.2 60 57 then e :: x :: r else x :: traceInsert e r

/-- A record waits to be written, or is dropped when 64 wait (R395). Nothing is recorded up to the cycle of the
enable. -/
def State.tracePush (s : State) (core at0 : Nat) (rec : W64) : State :=
  let c := s.core core
  if at0 ≤ c.traceFrom then s
  else if 64 ≤ c.traceWait.length then
    let w := s.reg (traceReg core 0x20)
    let s := s.setReg (traceReg core 0x20) (setBits w 31 0 (min 0xFFFFFFFF (bitsOf w 31 0 + 1)))
    s.modCore core fun c => { c with traceDrop := c.traceDrop + 1, traceLost := true }
  else s.setCore core { c with traceWait := traceInsert (at0, rec) c.traceWait }

def traceWord (kind slot payload : Nat) : W64 := w64 (kind * 2 ^ 61 + slot * 2 ^ 57 + payload)

/-- The codes of Table 2.6. -/
def scopeCode : Scope → Nat
  | .none => 0
  | .tile => 1
  | .group => 2
  | .stack => 3
  | .device => 4
  | .domain => 5

/-- The trace's record of the scope of a phase as written (R202), for a thread that the core traces, after the cycle of
the enable. It stands beside the ring, whose records have no field for it (log 114, DESIGN CHOICE). -/
def State.traceScope (s : State) (core slot scope : Nat) : State :=
  if s.tracing core (s.thread core slot).task && decide ((s.core core).traceFrom < s.cycle) then
    s.modCore core fun c => { c with traceScopes := c.traceScopes ++ [(s.cycle, slot, scope)] }
  else s

/-- A slot enters a state (Table 4.1), and the change is traced in the first cycle of the new state (R394).
`task` is the tag of the thread that arrives, stays or leaves. -/
def State.enterState (s : State) (core slot : Nat) (st : SlotState) (cause : Nat) : State :=
  let t := s.thread core slot
  let at0 := if st = .ready then s.cycle + 1 else s.cycle
  let s1 := s.setThread core slot { t with state := st, readyAt := if st = .ready then at0 else t.readyAt }
  if slot < 16 ∧ t.state ≠ st ∧ s.tracing core t.task then
    s1.tracePush core at0 (traceWord 0 slot
      (st.code * 2 ^ 36 + t.state.code * 2 ^ 32 + cause * 2 ^ 24 + bitsOf t.task 15 0))
  else s1

/-! Registers of a thread. -/

def Thread.setS (t : Thread) (n : Nat) (v : SVal) : Thread := { t with regs := t.regs.setS n v }
def Thread.setV (t : Thread) (n : Nat) (v : VVal) : Thread := { t with regs := t.regs.setV n v }
/-- A clean scalar result. -/
def Thread.setClean (t : Thread) (n : Nat) (w : W64) : Thread := t.setS n ⟨w, false⟩

/-! Program counter (R16). -/

/-- The address of the position that follows `pc`. -/
def seqNext (pc : W64) : W64 := if bitsOf pc 5 0 = 48 then pc + 16 else pc + 12

/-- The address of the member being executed. -/
def State.memberPc (s : State) : W64 := if s.unit.member then seqNext s.unit.pc else s.unit.pc

/-- The current unit as the retry latch holds it (R27, R28). -/
def State.curLatch (s : State) : Latch :=
  { pc := s.unit.pc, first := s.unit.first, second := s.unit.second, lineword := s.unit.lineword,
    mem := s.unit.member, fetch := false }

/-- The address `n` positions on. -/
def skipPos : Nat → W64 → W64
  | 0, pc => pc
  | n + 1, pc => skipPos n (seqNext pc)

/-- The address that follows the member being executed, and what a repb of its unit captures (R16, R314). -/
def State.nextOf (s : State) : W64 := skipPos s.unit.past (seqNext s.memberPc)

/-- The instruction completes: pc moves past it (R16), or, while another member of the pair waits, the
address that follows the unit does. -/
def State.advance (s : State) : State :=
  let next := s.nextOf
  s.modCur fun t => if t.waits = [] then { t with pc := next } else { t with nextPc := next }

/-! Waiting (R22, R94). -/

/-- The executing instruction waits: its thread leaves rotation in the given state with the unit in its
latch. With another member of a pair waiting for a message, the state stays waiting-message (log 12, DEDUCED). -/
def State.waitOn (s : State) (st : SlotState) (w : Wait) : State :=
  let t := s.cth
  let st := if t.waits ≠ [] ∧ t.state = .waitingMessage then .waitingMessage else st
  let t := { t with waits := t.waits ++ [⟨s.unit.member, s.cycle, w⟩], pc := s.unit.pc,
                    nextPc := s.nextOf, latch := some s.curLatch }
  (s.setThread s.cur.core s.cur.slot t).enterState s.cur.core s.cur.slot st 0

/-- The first waiting member that satisfies `p`, without it. -/
def dropWait (p : Wait → Bool) : List Waiting → List Waiting
  | [] => []
  | w :: r => if p w.op then r else w :: dropWait p r

def Thread.findWait (t : Thread) (p : Wait → Bool) : Option Waiting := t.waits.find? fun w => p w.op

/-- A thread becomes ready; one outside the active bank does so when it is back (R384). -/
def State.makeReady (s : State) (core slot : Nat) : State :=
  let t := s.thread core slot
  if t.state = .swapped then s.setThread core slot { t with saved := .ready } else s.enterState core slot .ready 0

/-- The register writes that a unit has made since `old`, kept until its last member completes (R7, R225, R322). -/
def Thread.holdSince (old : RegFile) (t : Thread) : Thread :=
  { t with regs := old, held := t.held.over (RegFile.since old t.regs) }

/-- When nothing of the unit waits any more, its held writes take effect and the thread is ready in the next cycle at
the address that follows the unit (R22, R39, R225). -/
def State.settle (s : State) (core slot : Nat) : State :=
  let t := s.thread core slot
  if t.waits = [] then
    (s.setThread core slot { t with pc := t.nextPc, latch := if t.reissue then t.latch else none,
                                       regs := t.regs.over t.held, held := RegFile.reset }).makeReady core slot
  else s

/-- A waiting member completes: it no longer waits, `f` writes its results, which are held while the other member
waits (R39). -/
def State.finishWait (s : State) (core slot : Nat) (p : Wait → Bool) (f : Thread → Thread) : State :=
  let t := s.thread core slot
  let t' := f { t with waits := dropWait p t.waits }
  (s.setThread core slot (if t'.waits = [] then t' else t'.holdSince t.regs)).settle core slot

/-! Gauges (R402, R403). -/

/-- The bin of a sample. -/
def gaugeBin (v : Nat) : Nat := if v = 0 then 0 else min 15 (Nat.log2 v + 1)

def satInc (x : BitVec 32) : BitVec 32 := if x = BitVec.allOnes 32 then x else x + 1

/-- A gauge that has taken a sample (R403). -/
def Gauge.sample (g : Gauge) (v : Nat) : Gauge :=
  let c := Nat.min v 0xFFFFFFFF
  let b := gaugeBin (v / 2 ^ bitsOf g.cfg 7 4)
  { g with min := if g.count = 0 then BitVec.ofNat 32 c else BitVec.ofNat 32 (Nat.min g.min.toNat c),
           max := BitVec.ofNat 32 (Nat.max g.max.toNat c), count := satInc g.count,
           bins := SMap.set g.bins b (satInc (SMap.get 0 g.bins b)) }

def Gauge.reset : Gauge := ⟨0, 0xFFFFFFFF, 0, 0, []⟩
def Core.gauge (c : Core) (g : Nat) : Gauge := SMap.get Gauge.reset c.gauges g

/-- Gauge `i` of a core takes a sample. What it held before this cycle is kept for grd (R403). -/
def Core.sampleGauge (c : Core) (now i v : Nat) : Core :=
  let g := c.gauge i
  let c := if SMap.get 0 c.gaugeAt i = now + 1 then c
    else { c with gaugeOld := SMap.set c.gaugeOld i g, gaugeAt := SMap.set c.gaugeAt i (now + 1) }
  { c with gauges := SMap.set c.gauges i (g.sample v) }

/-- One latency sample of a source for a thread: every enabled gauge of the core with that source and a
matching tag takes it (R402). -/
def State.gaugeLatency (s : State) (core slot src v : Nat) : State :=
  let task := (s.thread core slot).task
  s.modCore core fun c =>
    (List.range 4).foldl (fun c i =>
      let g := c.gauge i
      if bitOf g.cfg 0 ∧ bitsOf g.cfg 15 8 = src
          ∧ (bitsOf g.cfg 63 48 = 0 ∨ bitsOf g.cfg 63 48 = bitsOf task 15 0) then
        c.sampleGauge s.cycle i v
      else c) c

/-! The head slot's notices (R157). -/

/-- The 16 lanes of a notice (Table 6.7). -/
def noticeVec (kind slot manner : Nat) (lanes : List W64) : VVal :=
  ⟨packLanes 64 ((kind + slot * 2 ^ 8 + manner * 2 ^ 16) :: lanes.map BitVec.toNat), 0⟩

/-- PGCTL.state of a compute core: 0 on, 1 saving, 2 gated, 3 restoring (Table 15.9). -/
def gateReg (core : Nat) : Nat := spaceBase (tileOfCore core) 3 + (if isCompute core then 0x201000 else 0x200000) + 0x20
def State.gateState (s : State) (core : Nat) : Nat := bitsOf (s.reg (gateReg core)) 61 60

/-- A core whose head slot takes messages: neither stopped nor gated (R358, R388). -/
def State.takesMessages (s : State) (core : Nat) : Bool :=
  !(s.core core).stopped && s.gateState core = 0

/-- What reap returns now: the trap flag first, else the oldest notice. -/
def State.reapTake (s : State) (core : Nat) : Option (VVal × State) :=
  let c := s.core core
  if c.trapFlag then
    some (noticeVec 1 0 0 [c.trapWidx.setWidth 64], s.setCore core { c with trapFlag := false })
  else match c.inbox with
    | [] => none
    | n :: r => some (noticeVec n.kind n.slot n.manner n.lanes, s.setCore core { c with inbox := r })

def isReap : Wait → Bool
  | .reap _ => true
  | _ => false

/-- A head slot that waits in reap takes a notice that is there (R99, R157). A record or a notice ends no other wait of
a head slot (log 101, DEDUCED). -/
def State.wakeReap (s : State) (core : Nat) : State :=
  match (s.thread core 0).findWait isReap with
  | some ⟨_, _, .reap d⟩ =>
    if s.takesMessages core then
      match s.reapTake core with
      | some (v, s) => s.finishWait core 0 isReap fun t => t.setV d v
      | none => s
    else s
  | _ => s

/-! Reaches (R176 to R179). -/

def Reach.valid (e : Reach) : Bool := bitOf e.w0 0
def Reach.base (e : Reach) : Nat := e.w0.toNat / 64 * 64
def Reach.limit (e : Reach) : Nat := e.w1.toNat / 64 * 64
def Reach.place (e : Reach) : Nat := bitsOf e.w2 62 6 * 64
def Reach.tagsel (e : Reach) : Nat := bitsOf e.w3 63 48
def Reach.kind (e : Reach) : Nat := bitsOf e.w3 15 13
def Reach.z (e : Reach) : Bool := bitOf e.w3 5
def Reach.v (e : Reach) : Bool := bitOf e.w3 4
def Reach.c (e : Reach) : Bool := bitOf e.w3 3
def Reach.x (e : Reach) : Bool := bitOf e.w3 2
def Reach.w (e : Reach) : Bool := bitOf e.w3 1
def Reach.r (e : Reach) : Bool := bitOf e.w3 0

def Core.reach (c : Core) (core i : Nat) : Reach := SMap.get (Reach.start core i) c.reaches i
def State.reach (s : State) (core i : Nat) : Reach := (s.core core).reach core i
def State.setReach (s : State) (core i : Nat) (e : Reach) : State :=
  s.modCore core fun c => { c with reaches := SMap.set c.reaches i e }

/-- An entry matches a thread by its tag (Table 7.6). -/
def Reach.matchesTag (e : Reach) (task : W64) : Bool := e.tagsel = 0 || e.tagsel = bitsOf task 15 0

/-- The entry that translates an address for a thread (R179 step 1). -/
def State.findReach (s : State) (core : Nat) (task : W64) (va : Nat) : Option Nat :=
  (List.range 32).find? fun i =>
    let e := s.reach core i
    e.valid && e.matchesTag task && e.base ≤ va && va < e.limit

/-- What an access needs of its reach (R178). -/
structure Need where
  r : Bool
  w : Bool
  x : Bool
  c : Bool
  v : Bool
  deriving DecidableEq, Repr

def Need.fetch : Need := ⟨false, false, true, false, false⟩
def Need.load : Need := ⟨true, false, false, false, false⟩
def Need.store : Need := ⟨false, true, false, false, false⟩
def Need.both : Need := ⟨true, true, false, false, false⟩

/-- Whether an entry grants a need to a thread; space 3 is for head mode only (R178). -/
def Reach.grants (e : Reach) (n : Need) (head : Bool) : Bool :=
  (!n.r || e.r) && (!n.w || e.w) && (!n.x || e.x) && (n.c == e.c) && (n.v == e.v)
    && (head || spaceOfPlace e.place != 3)

/-- The size of a space of a tile (R166). A row call reaches another tile's vault, whose capacity its
agent checks (R191); the vault is at most 2 GiB (log 16, DEDUCED). -/
def State.spaceSize (s : State) (tile space : Nat) (call : Bool) : Nat :=
  match space with
  | 0 => if call then 2 ^ 31 else bitsOf (s.reg2 tile 0x08) 31 0
  | 1 => 2 ^ 22
  | 2 => 2 ^ 16
  | 3 => 2 ^ 24
  | _ => 0

/-- The state of a granule (Table 7.8): at or above the capacity it reads as absent. -/
def State.granule (s : State) (tile g : Nat) : Nat :=
  if bitsOf (s.reg2 tile 0x08) 31 0 ≤ g * 2 ^ 21 then 0
  else (s.reg3 tile (8 * (g / 32))).toNat / 4 ^ (g % 32) % 4

/-- A word of the granule map as a load reads it (Table 7.8, R180). -/
def State.gmapWord (s : State) (tile word : Nat) : W64 :=
  w64 (packNat 2 ((List.range 32).map fun i => s.granule tile (word * 32 + i)))

/-- The granules that `n` bytes at a vault place touch. -/
def granulesOf (place n : Nat) : List Nat :=
  let lo := offsetOfPlace place / 2 ^ 21
  let hi := (offsetOfPlace place + n - 1) / 2 ^ 21
  (List.range (hi + 1 - lo)).map (lo + ·)

/-- What a form answers when it does not complete: a trap, or a stop at a breakpoint entry. -/
inductive Bad where
  | trap (cause : Nat) (info : W64)
  | stop (entry : Nat) (addr : Option W64)
  deriving DecidableEq, Repr

/-- What a form answers when it goes on: it is done, and pc moves past it; or it has set pc or waits. -/
inductive Fin where
  | done (s : State)
  | go (s : State)
  deriving DecidableEq, Repr

abbrev Chk (α : Type) := Except Bad α

/-- A translated access. -/
structure Xlat where
  entry : Nat
  place : Nat
  deriving DecidableEq, Repr

/-- Steps 1 to 4 of R179: the entry and the place. A compressed region serves tld and bxf alone, whose own
checks do not come here (R309). -/
def State.translate (s : State) (core slot : Nat) (need : Need) (va : W64) (n : Nat) : Chk Xlat :=
  match s.findReach core (s.thread core slot).task va.toNat with
  | none => .error (.trap 0x10 va)
  | some i =>
    let e := s.reach core i
    if e.z then .error (.trap (if (va.toNat - e.base) % 2048 ≠ 0 then 0x05 else 0x11) va)
    else if e.limit < va.toNat + n then .error (.trap 0x12 va)
    else if !e.grants need (slot % 16 = 0) then .error (.trap 0x11 va)
    else
      let p := e.place + (va.toNat - e.base)
      if s.spaceSize (tileOfPlace p) (spaceOfPlace p) need.c < offsetOfPlace p + n then .error (.trap 0x14 (w64 p))
      else .ok ⟨i, p⟩

/-- Step 5 of R179. -/
def State.resident (s : State) (x : Xlat) (n : Nat) : Chk Xlat :=
  if spaceOfPlace x.place = 0 then
    let t := tileOfPlace x.place
    match (granulesOf x.place n).find? fun g => s.granule t g = 0 with
    | some g => .error (.trap 0x13 (w64 (spaceBase t 0 + g * 2 ^ 21)))
    | none => .ok x
  else .ok x

/-- The checks of R179 for `n` bytes at `va`. A row call leaves residency to the agent (R191). -/
def State.checkVa (s : State) (core slot : Nat) (need : Need) (va : W64) (n : Nat) : Chk Xlat :=
  match s.translate core slot need va n with
  | .error b => .error b
  | .ok x => if need.c then .ok x else s.resident x n

/-- The same for the executing thread. -/
def State.access (s : State) (need : Need) (va : W64) (n : Nat) : Chk Xlat :=
  s.checkVa s.cur.core s.cur.slot need va n

/-! Breakpoints (R397, R398). -/

/-- The breakpoint table of a device, which its cores' copies follow (R397). -/
def brkReg (dev i w : Nat) : Nat := spaceBase (dev * 512) 3 + 0x340000 + 32 * i + 8 * w
def State.brk (s : State) (core i : Nat) : Brk :=
  let w := fun k => s.reg (brkReg (deviceOfCore core) i k)
  ⟨w 0, w 1, w 2⟩

/-- The lowest address of a range that lies in [addr, addr + len). -/
def overlapAt (addr len : Nat) (r : Nat × Nat) : Option Nat :=
  if max addr r.1 < min (addr + len) (r.1 + r.2) then some (max addr r.1) else none

def lowest : List Nat → Option Nat
  | [] => none
  | x :: r => match lowest r with
    | none => some x
    | some y => some (min x y)

/-- The data test of R398 over (address, length) ranges. -/
def State.dataStop (s : State) (ranges : List (Nat × Nat)) (isLoad isStore : Bool) : Chk Unit :=
  if s.unit.skip || s.unit.byRun then .ok ()
  else
    let task := s.cth.task
    let hit := fun i =>
      let b := s.brk s.cur.core i
      let k := bitsOf b.ctl 62 60
      if bitOf b.ctl 63 ∧ b.tag = task ∧ ((k = 1 ∧ isLoad) ∨ (k = 2 ∧ isStore) ∨ k = 3) then
        lowest (ranges.filterMap (overlapAt b.addr.toNat (bitsOf b.ctl 31 0)))
      else none
    match (List.range 8).find? fun i => (hit i).isSome with
    | some i => .error (.stop i ((hit i).map w64))
    | none => .ok ()

/-! Traps (R27 to R31, R356, R368, R375). -/

/-- Whether a device reset is running. -/
def Device.inReset (d : Device) : Bool := d.resets.any fun r => r.boundary = .device

/-- A reset is raised, for PARTITION_RESET or DEVICE_RESET to make (R425). -/
def State.raiseReset (s : State) (dev : Nat) (b : Boundary) (unit : Nat) (eng : EngineUnit) : State :=
  s.modDevice dev fun d => if d.raised.contains (b, unit, eng) then d else { d with raised := d.raised ++ [(b, unit, eng)] }

/-- A core stops (R29, R159, R358): no slot of it issues until a partition reset of its tile, which is raised (Table
18.8). -/
def State.stopCore (s : State) (core cause : Nat) (info : W64) : State :=
  let s := s.modCore core fun c => { c with stopped := true }
  let s := s.raiseReset (deviceOfCore core) .tile (tileOfCore core) .matrix
  s.silt (deviceOfCore core) 0x01 cause (core % 1024) info

/-- The place of the trap ring, when %trapptr names one in the tile's own scratchpad (R29, R30) (log 15, DEDUCED). -/
def State.trapRing (s : State) (core : Nat) : Option Nat :=
  let va := (s.core core).trapBase.toNat * 4096
  match s.findReach core (s.thread core 0).task va with
  | none => none
  | some i =>
    let e := s.reach core i
    let p := e.place + (va - e.base)
    if va + 4096 ≤ e.limit ∧ tileOfPlace p = tileOfCore core ∧ spaceOfPlace p = 1
        ∧ offsetOfPlace p + 4096 ≤ 2 ^ 22 then some p else none

/-- The 64 bytes of a trap record (Table 1.7). -/
def trapRecord (seq core slot cause : Nat) (l : Latch) (info task cycle : W64) : List Byte :=
  let insn := if l.mem then l.second.getD 0 else l.first
  bytesOf 8 (seq * 2 ^ 32 + core % 1024 * 2 ^ 16 + bit01 l.second.isSome * 2 ^ 13 + bit01 l.mem * 2 ^ 12
    + slot * 2 ^ 8 + cause)
  ++ bytesOf 8 l.pc.toNat ++ bytesOf 8 info.toNat ++ bytesOf 8 task.toNat ++ bytesOf 12 insn.toNat
  ++ bytesOf 4 l.lineword.toNat ++ bytesOf 8 cycle.toNat ++ bytesOf 8 0

/-- The reservations of a tile's threads that a write to `words` (8-byte words by place / 8) invalidates,
but for those of one thread (R245). -/
def State.spoilResv (s : State) (tile : Nat) (words : List Nat) (own : Option (Nat × Nat)) : State :=
  [stagingOf tile, computeOf tile].foldl (fun s core =>
    (List.range 48).foldl (fun s slot =>
      let t := s.thread core slot
      if own = some (core, slot) ∨ t.resv = [] then s
      else
        let r := t.resv.map fun e => if words.contains (e.word / 8) then { e with valid := false } else e
        if r = t.resv then s else s.setThread core slot { t with resv := r }) s) s

/-- The value of waitres (R246). -/
def resvFlags (r : List Resv) (expired : Bool) : W64 :=
  w64 (packNat 1 (r.map fun e => bit01 !e.valid) + bit01 expired * 16 + bit01 r.isEmpty * 32)

def isWaitres : Wait → Bool
  | .waitres _ _ => true
  | _ => false

/-- Threads in waitres one of whose reservations has become invalid go on (R246). -/
def State.wakeWaitres (s : State) (tile : Nat) : State :=
  [stagingOf tile, computeOf tile].foldl (fun s core =>
    (List.range 16).foldl (fun s slot =>
      let t := s.thread core slot
      match t.findWait isWaitres with
      | some ⟨_, _, .waitres d _⟩ =>
        if t.resv.any fun e => !e.valid then
          s.finishWait core slot isWaitres fun t => t.setClean d (resvFlags t.resv false)
        else s
      | _ => s) s) s

def isWaitaddr : Wait → Bool
  | .waitaddr .. => true
  | _ => false

/-- Threads whose monitor entry a performed write touches go on with status 0; the entry is freed (R247). -/
def State.wakeMonitors (s : State) (tile : Nat) (addrs : List Nat) : State :=
  let hit := fun (m : Monitor) => addrs.any fun a => decide (m.place ≤ a) && decide (a < m.place + m.n)
  let due := (s.tile tile).monitors.filter hit
  let s := s.modTile tile fun t => { t with monitors := t.monitors.filter fun m => !hit m }
  due.foldl (fun s m =>
    match (s.thread m.core m.slot).findWait isWaitaddr with
    | some ⟨_, _, .waitaddr d ..⟩ => s.finishWait m.core m.slot isWaitaddr fun t => t.setClean d 0
    | _ => s) s

/-- The words of memory after a write: a word written whole with clean data loses its mark, a poisoned
byte marks its word, and any other word keeps its mark (R359). -/
def markAfter (ws : List PWrite) (marks : List Nat) (word : Nat) : List Nat :=
  let mine := ws.filter fun w => w.addr / 4 = word
  if mine.any PWrite.poison then insertNat word marks
  else if (List.range 4).all fun i => mine.any fun w => w.addr = word * 4 + i && w.mask = 0xFF then
    marks.filter (· ≠ word)
  else marks

/-- The write of one byte: bits outside the mask keep what they hold (R91). -/
def State.writeOne (s : State) (w : PWrite) : State :=
  s.setByte w.addr ((s.byte w.addr &&& ~~~w.mask) ||| (w.data &&& w.mask))

/-- A codeword that a write covers: whole, it becomes good; in part, it is read to merge (R359). -/
def State.coverCodeword (s : State) (ws : List PWrite) (cw : Nat) : State :=
  let n := (codeword cw).2
  if (List.range n).all fun i => ws.any fun w => w.addr = cw + i && w.mask = 0xFF then
    { s with ecc := s.ecc.filter (· ≠ cw), soft := s.soft.filter (· ≠ cw) }
  else s.meetCodeword cw

/-- Bytes written at one instant at their home: data, marks, reservations and monitors (R197, R245, R247,
R359). `own` is the thread whose reservations a successful sc keeps out of this. -/
def State.perform (s : State) (ws : List PWrite) (own : Option (Nat × Nat)) : State :=
  match ws with
  | [] => s
  | w :: _ =>
    let tile := tileOfPlace w.addr
    let s := (ws.map fun w : PWrite => (codeword w.addr).1).eraseDups.foldl (fun s cw => s.coverCodeword ws cw) s
    let s := ws.foldl State.writeOne s
    let s := { s with marks := (ws.map fun w : PWrite => w.addr / 4).eraseDups.foldl (markAfter ws) s.marks }
    let s := s.spoilResv tile (ws.map fun w : PWrite => w.addr / 8).eraseDups own
    let s := s.wakeWaitres tile
    s.wakeMonitors tile (ws.map PWrite.addr)

/-- Whole clean bytes from a place. -/
def cleanWrites (place : Nat) : List Byte → List PWrite
  | [] => []
  | b :: r => ⟨place, b, 0xFF, false⟩ :: cleanWrites (place + 1) r

/-- Bytes with their marks from a place. -/
def markedWrites (place : Nat) : List PByte → List PWrite
  | [] => []
  | b :: r => ⟨place, b.1, 0xFF, b.2⟩ :: markedWrites (place + 1) r

/-- The core writes a trap record and then advances widx (R27, R30). -/
def State.recordFor (s : State) (core slot cause : Nat) (info task : W64) (l : Latch) (ring : Nat) : State :=
  let c := s.core core
  let bytes := trapRecord c.trapSeq.toNat core slot cause l info task (w64 (s.now (deviceOfCore core)))
  let s := s.perform (cleanWrites (ring + 64 * c.trapWidx.toNat) bytes) none
  let s := s.modCore core fun c =>
    { c with trapWidx := c.trapWidx + 1, trapSeq := c.trapSeq + 1, trapFlag := true }
  s.wakeReap core

def State.recordTrap (s : State) (core slot cause : Nat) (info : W64) (l : Latch) (ring : Nat) : State :=
  s.recordFor core slot cause info (s.thread core slot).task l ring

/-- Data writes admitted to an open version that no longer exists are performed without effect. -/
def State.dropVersionWrites (s : State) (line number : Nat) : State :=
  { s with posted := s.posted.filter fun p => p.kind ≠ .version line number }

/-- The open version of a line is discarded as if it had never opened (R223). A reader that blocks on the line
evaluates to row 6 of Table 8.4 before and after, so it goes on waiting. -/
def State.discardLine (s : State) (line : Nat) : State :=
  match (s.line line).opened with
  | some v => (s.setLine line { s.line line with opened := none }).dropVersionWrites line v.number
  | none => s

/-- The lines whose open version was opened by a thread and satisfies `p`, ascending. -/
def State.openedBy (s : State) (uid : Nat) (p : OpenVer → Bool) : List Nat :=
  s.lines.filterMap fun e =>
    match e.2.opened with
    | some v => if v.opener = uid && p v then some e.1 else none
    | none => none

/-- Open versions of a thread that satisfy `p` are discarded (R223, R368). -/
def State.discardVersions (s : State) (uid : Nat) (p : OpenVer → Bool) : State :=
  (s.openedBy uid p).foldl State.discardLine s

/-- The causes that unwind a coffer (R368). -/
def unwinds (cause : Nat) (info : W64) : Bool :=
  let k := if cause = 0x21 then bitsOf info 7 0 else cause
  k = 0x08 || k = 0x09 || k = 0x0A

/-- The unwind of the innermost coffer (R368). -/
def State.unwind (s : State) (core slot cause : Nat) (info pc : W64) : State :=
  let t := s.thread core slot
  let k := t.coffers.length
  match t.coffers.getLast? with
  | none => s
  | some lv =>
    let s := s.discardVersions t.uid fun v => v.level = k
    let t := { t with coffers := t.coffers.dropLast, resv := [], waits := [], latch := none, held := RegFile.reset,
                      pc := lv.handler, nextPc := lv.handler, retry := false, reissue := false,
                      regs := ((((t.regs.setS 4 ⟨w64 cause, false⟩).setS 5 ⟨info, false⟩).setS 6
                        ⟨lv.count.setWidth 64, false⟩).setS 7 ⟨pc, false⟩).setS 2 lv.savedS2 }
    (s.setThread core slot t).makeReady core slot

/-- Seep increments of a cause (R375). -/
def State.seepForCause (s : State) (core cause : Nat) (info : W64) : State :=
  let g := groupSeep (tileOfCore core)
  if cause = 0x0A then s.seepAdd g 16
  else if cause = 0x0C then s.seepAdd g (if bitOf info 0 then 16 else 1)
  else if cause = 0x15 then s.seepAdd g 1
  else s

/-- The trapped state of a thread whose context holds its trap: a trap record in the core's ring and a waiting
head slot made ready, or a stop of the core in the head slot and when %trapptr names no usable ring (R27, R29). -/
def State.holdTrap (s : State) (core slot cause : Nat) (info : W64) (l : Latch) : State :=
  if slot = 0 then (s.enterState core slot .trapped cause).stopCore core cause info
  else match s.trapRing core with
    | none => (s.enterState core slot .trapped cause).stopCore core cause info
    | some ring => (s.enterState core slot .trapped cause).recordTrap core slot cause info l ring

/-- Taking a trap (R27, R29, R368): the unwind of a coffer for the causes that unwind; else the unit goes to the
retry latch and the thread is trapped. The reservation set is emptied (R245). A thread outside the active bank is
trapped when a swap brings it in (R382). -/
def State.takeTrap (s : State) (core slot cause : Nat) (info : W64) (l : Latch) : State :=
  let s := s.seepForCause core cause info
  let t := s.thread core slot
  if t.coffers ≠ [] ∧ unwinds cause info then s.unwind core slot cause info l.pc
  else
    let t := { t with latch := some l, resv := [], waits := [], held := RegFile.reset, stopHeld := false,
                      trapCause := BitVec.ofNat 8 cause, trapInfo := info, pc := l.pc, retry := false,
                      reissue := false }
    if t.state = .swapped then s.setThread core slot { t with saved := .trapped }
    else (s.setThread core slot t).holdTrap core slot cause info l

/-- Taking a stop (R399): no record, no cause; the head slot receives kind 0x19. -/
def State.takeStop (s : State) (core slot entry : Nat) (addr : Option W64) (l : Latch) : State :=
  let t := s.thread core slot
  let s := s.setThread core slot { t with latch := some l, stopHeld := true, waits := [], pc := l.pc,
                                          retry := s.unit.retry }
  let s := s.enterState core slot .trapped 0
  s.notify core ⟨0x19, slot, 0, [w64 entry, t.task, l.pc] ++ addr.toList⟩

/-- What a form of the executing thread raises. Of a pair, or of a captured instruction, the first is kept
for the issue step to take from the state before the unit, since neither member then has any effect (R28). -/
def State.raise (s : State) (b : Bad) : State :=
  if s.unit.defer_ then
    match b with
    | .trap c i => { s with unit := { s.unit with trap := some (BitVec.ofNat 8 c, i) } }
    | .stop e a => { s with unit := { s.unit with stop := some (e, a) } }
  else
    match b with
    | .trap c i => s.takeTrap s.cur.core s.cur.slot c i s.curLatch
    | .stop e a => s.takeStop s.cur.core s.cur.slot e a s.curLatch

/-- The home of a place, as a number: a vault, a scratchpad bank, or the register block of a tile (R168). -/
def homeOf (place : Nat) : Nat :=
  tileOfPlace place * 64 +
    (if spaceOfPlace place = 0 then 0 else if spaceOfPlace place = 1 then 1 + place / 8 % 16 else 40)

/-- The writes that fall in one 8-byte word. -/
def writesIn (ws : List PWrite) (word : Nat) : List PWrite := ws.filter fun w => w.addr / 8 = word

/-- A posted store gets its number and goes out. -/
def State.sendPosted (s : State) (p : Posted) : State :=
  { s with posted := s.posted ++ [{ p with seq := s.nextUid }], nextUid := s.nextUid + 1 }

/-- Posts writes to one space: whole to a vault, word by word elsewhere (R231). `p` says who posts them. -/
def State.postFor (s : State) (p : Posted) (ws : List PWrite) : State :=
  match ws with
  | [] => s
  | w :: _ =>
    let mk := fun l : List PWrite => { p with home := homeOf (l.headD w).addr, bytes := l }
    if spaceOfPlace w.addr = 0 then s.sendPosted (mk ws)
    else ((ws.map fun w : PWrite => w.addr / 8).eraseDups).foldl (fun s k => s.sendPosted (mk (writesIn ws k))) s

/-- The writes that bring a record in the vault from one context to another, byte by byte where they differ. -/
def recordPatch (place stamp : Nat) (x y : Thread) : List PWrite :=
  (((x.record (w64 stamp)).zip (y.record (w64 stamp))).zipIdx.filter fun e => e.1.1 ≠ e.1.2).map
    fun e => ⟨place + e.2, e.1.2.1, 0xFF, e.1.2.2⟩

/-- The slot number that stands for the spill engine of a core in its posted stores (R384). -/
def spillSlot : Nat := 49

/-- A reply to a context whose record lies in the vault goes into the record as a store of the spill engine (R384). -/
def State.syncAway (s : State) (core slot : Nat) (old : Thread) : State :=
  if slot < 32 then s
  else
    let a := (s.core core).awayAt (slot - 32)
    let post : Posted := { seq := 0, core := core, slot := spillSlot, uid := 0, entry := 32, head := false, home := 0,
                           kind := .plain, hint := .dflt, bytes := [] }
    s.postFor post (recordPatch a.place a.stamp.toNat old a.ctx)

/-- A waiting member completes, wherever its thread's context lies: `f` writes its results (R22, R384). -/
def State.endWait (s : State) (core slot : Nat) (p : Wait → Bool) (f : Thread → Thread) : State :=
  (s.finishWait core slot p f).syncAway core slot (s.thread core slot)

/-- A trap raised by an instruction that waits: the unit has no effect, and the other member's writes, which are held,
are discarded (R28, R39, R225). -/
def State.trapWait (s : State) (core slot cause : Nat) (info : W64) (member : Bool) : State :=
  let t := s.thread core slot
  let l := { t.latch.getD ⟨t.pc, 0, none, 0, false, true⟩ with mem := member }
  (s.takeTrap core slot cause info l).syncAway core slot t

/-- The outcome of a form whose checks and effect are `r`. -/
def State.finish (s : State) (r : Chk Fin) : Host.Outcome State Fault Refusal :=
  match r with
  | .ok (.done s') => .next s'.advance
  | .ok (.go s') => .next s'
  | .error b => .next (s.raise b)

/-- A form whose guard tests bit 0 of its predicate: off, it only advances pc (R23, R41). -/
def State.guardBit (s : State) (g : Guard) : Bool :=
  (((match s.unit.snap with
      | some r => r
      | none => s.cth.regs).getP g.p.toNat).getLsbD 0) != g.neg

def complete (g : Guard) (s : State) (f : State → Chk Fin) : Host.Outcome State Fault Refusal :=
  if s.guardBit g then s.finish (f s) else .next s.advance

/-- A head-only form in task mode traps as privileged (R15). Its guard is tested first: with it off the form only
advances pc (R23; log 10, DEDUCED). -/
def headOnly (op fn : Nat) (s : State) (r : Chk Fin) : Chk Fin :=
  if s.isHead then r else .error (.trap 0x04 (w64 (op * 256 + fn)))

/-! Posted stores (R26, R199). -/

/-- Posts writes of the executing thread. -/
def State.postAs (s : State) (kind : PostKind) (entry : Nat) (hint : Hint) (ws : List PWrite) : State :=
  s.postFor { seq := 0, core := s.cur.core, slot := s.cur.slot, uid := s.cth.uid, entry := entry, head := s.isHead,
              home := 0, kind := kind, hint := hint, bytes := [] } ws

def State.post (s : State) (entry : Nat) (hint : Hint) (ws : List PWrite) : State :=
  s.postAs .plain entry hint ws

/-- Whether a posted store is a thread's, wherever its context lies. Number 0 is no thread's: an engine's stores carry
its core and its slot number alone. -/
def Posted.isOf (p : Posted) (core slot uid : Nat) : Bool :=
  p.uid = uid && (uid != 0 || (p.core = core && p.slot = slot))

/-- A store proper; a row form orders nothing (R237). -/
def Posted.isStore (p : Posted) : Bool :=
  match p.kind with
  | .row _ => false
  | _ => true

/-- Whether every posted store of a thread has been performed (R201). -/
def State.drained (s : State) (core slot uid : Nat) : Bool :=
  s.posted.all fun p => !(p.isStore && p.isOf core slot uid)

/-- The homes of `n` bytes. -/
def homesOf (place n : Nat) : List Nat := ((List.range n).map fun i => homeOf (place + i)).eraseDups

/-- Whether no posted store of a thread is still on its way to a home of these bytes (R199): a load of the thread
waits for them. -/
def State.homesClear (s : State) (core slot uid place n : Nat) : Bool :=
  s.posted.all fun p =>
    !(p.isStore && p.isOf core slot uid && (homesOf place n).contains p.home)

/-- A waiting member changes what it awaits. -/
def Thread.modWait (t : Thread) (p : Wait → Bool) (f : Wait → Wait) : Thread :=
  { t with waits := t.waits.map fun w => if p w.op then { w with op := f w.op } else w }

/-- A wait is withdrawn: the unit issues again when its thread is back, and the writes of a pair's other member are
discarded (R322, R384). -/
def Thread.withdraw (t : Thread) : Thread :=
  { t with waits := [], reissue := true, saved := .ready, resv := [], held := RegFile.reset }

/-- One more published store in the innermost coffer (R365). -/
def bumpCount (l : List Coffer) : List Coffer :=
  match l.getLast? with
  | none => []
  | some c => l.dropLast ++ [{ c with count := satInc c.count }]

def Thread.bump (t : Thread) : Thread := { t with coffers := bumpCount t.coffers }

/-- %cofdepth (R362). -/
def Thread.cofdepth (t : Thread) : Nat := t.coffers.length

/-- The slot numbers under which contexts of a core stand: both banks and the vault (R384). -/
def Core.contexts (c : Core) : List Nat := List.range 32 ++ c.away.map fun e => e.1 + 32

/-- The slot number under which the context of a thread stands now: its own slot, the shadow bank, another slot that a
fill brought it to, or the vault (R384). -/
def State.locate (s : State) (core slot uid : Nat) : Nat :=
  let all := [slot, slot + 16] ++ List.range 32 ++ (s.core core).away.map fun e => e.1 + 32
  (all.find? fun k =>
    let t := s.thread core k
    t.uid = uid && t.state ≠ .idle).getD slot

/-! The end of a thread (R101, R223, R367). -/

/-- The weave indices of a thread, level 0 first. -/
def Thread.indices (t : Thread) : List Nat := (List.range 8).map fun i => (SMap.get 0 t.weaveIdx i).toNat

/-- A launch's member with these indices has ended. -/
def Launch.endMember (l : Launch) (idx : List Nat) : Launch :=
  { l with members := l.members.map fun m => if m.idx = idx then { m with ended := true } else m }

def State.modLaunch (s : State) (handle : W64) (f : Launch → Launch) : State :=
  { s with launches := s.launches.map fun l => if l.handle = handle then f l else l }

/-- End notices go to the head slot and to the dispatcher of the thread's launch (R101). -/
def State.sendEnd (s : State) (core slot manner : Nat) (t : Thread) : State :=
  let s := s.notify core ⟨2, slot % 16, manner, [t.task, t.handle]⟩
  if t.handle = 0 then s
  else { s with net := s.net ++ [Packet.ended t.handle core t.indices (manner = 1)] }.modLaunch t.handle
    fun l => l.endMember t.indices

/-- A slot becomes idle; one whose thread ends in the 24 cycles of a swap stays swapped until it takes effect, under the
thread's tag (R380, R394, R409). -/
def State.vacate (s : State) (core slot : Nat) : State :=
  if (s.core core).swapRun.any fun cmd => cmd.mask.getLsbD slot then
    s.setThread core slot { Thread.reset with state := .swapped, saved := .idle, task := (s.thread core slot).task }
  else (s.enterState core slot .idle 0).setThread core slot { Thread.reset with idleAt := s.cycle + 1 }

/-- The slot of an ended thread becomes idle. A thread that TKILL ends discards its open versions. -/
def State.finishEnd (s : State) (core slot manner : Nat) : State :=
  let t := s.thread core slot
  let s := if manner = 1 then s.discardVersions t.uid (fun _ => true) else s
  let s := if (s.core core).seqOwner = some slot then s.modCore core fun c => { c with seqOwner := none } else s
  (s.vacate core slot).sendEnd core slot manner t

/-- Whether a thread that ends in a manner awaits nothing: its posted stores have been performed and, unless it is
killed, it has no open version (R101, R223). The handler of an agent ends by an event of its own. -/
def State.endsNow (s : State) (core slot manner : Nat) : Bool :=
  let uid := (s.thread core slot).uid
  !isAgent core slot && s.drained core slot uid && (manner = 1 || (s.openedBy uid fun _ => true).isEmpty)

/-- An event of an asynchronous agent that is not due leaves the state as it is (log 1, DESIGN CHOICE). -/
def notDue (s : State) : Host.Outcome State Fault Refusal := .next s

end Sys2Proof.Machine
end

