-- ==== Sys2Proof/Machine/Operands.lean ====
section
/-! DEFINITION. Operands.lean: the operand forms: registers as a member of an issue unit reads and writes
them (R39), the poison that a form consumes or passes on (R359, R360), and computed addresses (R44). -/

namespace Sys2Proof.Machine

/-- The registers that operands are read from: of a pair, those at its issue (R39). -/
def State.regs0 (s : State) : RegFile :=
  match s.unit.snap with
  | some r => r
  | none => s.cth.regs

def State.rS (s : State) (n : Nat) : SVal := s.regs0.getS n
def State.rV (s : State) (n : Nat) : VVal := s.regs0.getV n
def State.rP (s : State) (n : Nat) : W64 := s.regs0.getP n
def State.rB (s : State) (n : Nat) : BitVec 40 := s.regs0.getB n

def State.wS (s : State) (n : Nat) (v : SVal) : State := s.modCur fun t => t.setS n v
def State.wV (s : State) (n : Nat) (v : VVal) : State := s.modCur fun t => t.setV n v
def State.wP (s : State) (n : Nat) (v : W64) : State := s.modCur fun t => { t with regs := t.regs.setP n v }
def State.wB (s : State) (n : Nat) (v : BitVec 40) : State :=
  s.modCur fun t => { t with regs := t.regs.setB n v }

/-- A clean scalar result. -/
def State.wClean (s : State) (n : Nat) (w : W64) : State := s.wS n ⟨w, false⟩

/-- The information word of consumed poison: register, file, word or row (R360) (log 48, DEDUCED). -/
def poisonInfo (reg file word : Nat) : W64 := w64 (reg + file * 2 ^ 8 + word * 2 ^ 16)

/-- A scalar operand that steers control, names memory or is written to a register without a mark: poison
traps (Table 15.3) (log 8, DEDUCED). -/
def State.useS (s : State) (n : Nat) : Chk W64 :=
  let v := s.rS n
  if v.poison then .error (.trap 0x08 (poisonInfo n 0 0)) else .ok v.bits

/-- A vector operand of which the words in `words` are consumed. -/
def State.useV (s : State) (n : Nat) (words : List Nat) : Chk VVal :=
  let v := s.rV n
  match words.find? fun k => v.poison.getLsbD k with
  | some k => .error (.trap 0x08 (poisonInfo n 1 k))
  | none => .ok v

/-- Every word of a vector register. -/
def allWords : List Nat := List.range 32

/-- The refusal of an operand value (R228). -/
def badOperand : Bad := .trap 0x01 0x0A

/-- A check that must hold. -/
def need (b : Bool) (e : Bad) : Chk Unit := if b then .ok () else .error e

/-- sext(off, 44) of format M. -/
def off44 (off : BitVec 44) : W64 := off.signExtend 64

/-- va := s[a] + s[b] × n + sext(off, 44) (R44). -/
def State.vaIndexed (s : State) (a b n : Nat) (off : BitVec 44) : Chk W64 := do
  let x ← s.useS a
  let y ← s.useS b
  return x + y * w64 n + off44 off

/-- va := s[a] + sext(off, 44). -/
def State.vaBase (s : State) (a : Nat) (off : BitVec 44) : Chk W64 := do
  let x ← s.useS a
  return x + off44 off

/-- The alignment check (R24, R229 step 1). -/
def aligned (va : W64) (n : Nat) : Chk Unit := need (va.toNat % n = 0) (.trap 0x05 va)

/-- A result computed from two scalars: poisoned when either is (R359). -/
def State.alu (s : State) (d a b : Nat) (f : W64 → W64 → W64) : Chk Fin :=
  let x := s.rS a
  let y := s.rS b
  .ok (.done (s.wS d ⟨f x.bits y.bits, x.poison || y.poison⟩))

/-- A result computed from one scalar. -/
def State.alu1 (s : State) (d a : Nat) (f : W64 → W64) : Chk Fin :=
  let x := s.rS a
  .ok (.done (s.wS d ⟨f x.bits, x.poison⟩))

end Sys2Proof.Machine
end

