-- ==== Sys2Proof/Machine/Flags.lean ====
section
/-! DEFINITION. Flags.lean: predicates: the conditions of compares and branches (Table 3.3), the lanes that
a guard turns on (R143), what a compare writes (R150), and the marks of lane results (R359). -/

namespace Sys2Proof.Machine

/-- Conditions of Table 3.3. -/
inductive Cond where
  | eq | ne | lt | le | ge | ltu | leu | geu
  deriving DecidableEq, Repr

/-- A condition on two 64-bit words. -/
def Cond.holds (c : Cond) (x y : W64) : Bool :=
  match c with
  | .eq => x = y
  | .ne => x ≠ y
  | .lt => x.slt y
  | .le => x.sle y
  | .ge => y.sle x
  | .ltu => x.ult y
  | .leu => x.ule y
  | .geu => y.ule x

/-- A condition on two exact values, as a lane compare reads them (R150). -/
def Cond.holdsInt (c : Cond) (x y : Int) : Bool :=
  match c with
  | .eq => x = y
  | .ne => x ≠ y
  | .lt | .ltu => x < y
  | .le | .leu => x ≤ y
  | .ge | .geu => y ≤ x

/-- A predicate that is all ones or zero (R67). -/
def predWord (b : Bool) : W64 := if b then BitVec.allOnes 64 else 0

/-- The predicate bit that governs lane `i` (R143). -/
def gbit (ty : ElemTy) (i : Nat) : Nat :=
  if ty = .c32 then 2 * i else if ty.bits = 8 then i / 2 else i

/-- lane_on(i) of R143. -/
def State.laneOn (s : State) (g : Guard) (ty : ElemTy) (i : Nat) : Bool :=
  (s.rP g.p.toNat).getLsbD (gbit ty i) != g.neg

/-- The lanes that are on, ascending. -/
def State.lanesOn (s : State) (g : Guard) (ty : ElemTy) : List Nat :=
  (List.range ty.lanes).filter (s.laneOn g ty)

/-- The 32-bit words that lane `i` of width `w` lies in. -/
def laneWords (w i : Nat) : List Nat := if w = 64 then [2 * i, 2 * i + 1] else [w * i / 32]

/-- Whether lane `i` of width `w` holds poison. -/
def VVal.lanePoison (v : VVal) (w i : Nat) : Bool := (laneWords w i).any fun k => v.poison.getLsbD k

/-- The words of the given lanes. -/
def wordsOf (w : Nat) (lanes : List Nat) : List Nat := lanes.flatMap (laneWords w)

/-- A vector register in which the lanes of `on` take new values and marks: a word is poisoned when a new
lane of it is, clean when every lane of it is new and clean, and else keeps its mark (R359). -/
def mergeLanes (w : Nat) (old : VVal) (new : List (Option (Nat × Bool))) : VVal :=
  let bits := (List.range (1024 / w)).map fun i =>
    match new[i]?.join with
    | some x => x.1
    | none => laneOf old.bits w i
  let mark := fun k =>
    let mine := (List.range (1024 / w)).filter fun i => (laneWords w i).contains k
    if mine.any fun i => match new[i]?.join with
        | some x => x.2
        | none => false then true
    else if mine.all fun i => (new[i]?.join).isSome then false
    else old.poison.getLsbD k
  ⟨packLanes w bits, BitVec.ofNat 32 (packNat 1 ((List.range 32).map fun k => bit01 (mark k)))⟩

/-- What a compare writes: the bits that govern no lane are 0, a bit of an off lane keeps its value, and any
other bit is set when the condition holds in every lane that it governs (R150). -/
def comparePred (ty : ElemTy) (old : W64) (on cond : Nat → Bool) : W64 :=
  let bit := fun k =>
    let mine := (List.range ty.lanes).filter fun i => gbit ty i = k
    if mine = [] then false
    else if mine.all on then mine.all cond
    else old.getLsbD k
  w64 (packNat 1 ((List.range 64).map fun k => bit01 (bit k)))

end Sys2Proof.Machine
end

