-- ==== Sys2Proof/Machine/Rings.lean ====
section
/-! DEFINITION. Rings.lean: the ring unit of a tile (R292, R293) and its semaphore unit (R267, R269). -/

namespace Sys2Proof.Machine

/-- Word `w` of ring `n` of a tile (Table 11.5): control, widx, ridx, resv and nseq. -/
def ringReg (tile n w : Nat) : Nat := spaceBase tile 2 + 0x400 + 32 * n + 8 * w

def State.ringOn (s : State) (tile n : Nat) : Bool := bitOf (s.reg (ringReg tile n 0)) 63
def State.ringRoom (s : State) (tile n : Nat) : Nat := 2 ^ bitsOf (s.reg (ringReg tile n 0)) 3 0
def State.ringWidx (s : State) (tile n : Nat) : Nat := bitsOf (s.reg (ringReg tile n 1)) 31 0
def State.ringRidx (s : State) (tile n : Nat) : Nat := bitsOf (s.reg (ringReg tile n 2)) 31 0
def State.ringResv (s : State) (tile n : Nat) : Nat := bitsOf (s.reg (ringReg tile n 3)) 44 32
def State.ringSeq (s : State) (tile n : Nat) : Nat := bitsOf (s.reg (ringReg tile n 3)) 31 0

/-- A ring as a unit whose operations of one cycle have an order: head-mode stores to ridx and ringsets by core and slot,
reservations behind them (R337). -/
def ringUnit (tile n : Nat) : Nat := 2 ^ 41 + tile * 16 + n
def ringKey (core slot : Nat) : Nat := core * 16 + slot % 16
def reserveKey : Nat := 2 ^ 40

/-- The semaphore unit of a tile as a unit whose operations of one cycle have an order: signals and sets of the cores at
0, release signals of the engine at 1, grants and stalls at 2 (R346). -/
def semUnit (tile : Nat) : Nat := 2 ^ 40 + tile

/-- No core of the tile issues any more in this cycle. -/
def State.closeIssues (s : State) (tile : Nat) : State :=
  if s.inOrder (semUnit tile) 1 then s.ordered (semUnit tile) 1 else s

/-- The ring whose ridx lies at a place. -/
def ridxOf (place : Nat) : Option (Nat × Nat) :=
  let o := offsetOfPlace place
  if spaceOfPlace place = 2 ∧ 0x400 ≤ o ∧ o < 0x600 ∧ o % 32 / 8 = 2 then some (tileOfPlace place, (o - 0x400) / 32)
  else none

/-- The difference of two 32-bit counts. -/
def sub32 (x y : Nat) : Nat := (x + 2 ^ 32 - y % 2 ^ 32) % 2 ^ 32

/-- A reservation of one record at one instant: its sequence number (R293). It comes behind the issues of its cycle
(R337). -/
def State.reserveRing (s : State) (tile n : Nat) : Option (Nat × State) :=
  let used := sub32 (s.ringWidx tile n) (s.ringRidx tile n) + s.ringResv tile n
  if s.ringRoom tile n ≤ used then none
  else
    let q := s.ringSeq tile n
    let s := (s.closeIssues tile).ordered (ringUnit tile n) reserveKey
    some (q, s.setReg (ringReg tile n 3) (w64 ((s.ringResv tile n + 1) % 2 ^ 13 * 2 ^ 32 + (q + 1) % 2 ^ 32)))

/-- A reservation ends. -/
def State.releaseRing (s : State) (tile n : Nat) : State :=
  s.setReg (ringReg tile n 3) (w64 ((s.ringResv tile n - 1) * 2 ^ 32 + s.ringSeq tile n))

/-- The 32 bytes of a completion record (Table 11.4). -/
def completionRecord (status ring done fault seq : Nat) (task : W64) (fb : Bool) : List Byte :=
  bytesOf 8 (status + ring * 2 ^ 8 + bit01 fb * 2 ^ 15 + done % 2 ^ 32 * 2 ^ 32) ++ bytesOf 8 fault
    ++ bytesOf 8 (seq % 2 ^ 32) ++ bytesOf 8 task.toNat

/-- A record is written at widx, its words ascending, and then widx advances (R292). -/
def State.writeRecord (s : State) (tile n : Nat) (bytes : List Byte) : State :=
  let widx := s.ringWidx tile n
  let base := spaceBase tile 1 + bitsOf (s.reg (ringReg tile n 0)) 21 6 * 64
  let p := base + 32 * (widx % s.ringRoom tile n)
  let s := (List.range 4).foldl (fun s i => s.perform (cleanWrites (p + 8 * i) ((bytes.drop (8 * i)).take 8)) none) s
  (s.setReg (ringReg tile n 1) (w64 ((widx + 1) % 2 ^ 32))).releaseRing tile n

/-! Semaphores. -/

def semReg (tile n : Nat) : Nat := spaceBase tile 2 + 0x300 + 8 * n

def State.semCount (s : State) (tile n : Nat) : Nat := bitsOf (s.reg (semReg tile n)) 15 0

/-- A signal of k (R267). -/
def State.semSignal (s : State) (tile n k : Nat) : State :=
  let w := s.reg (semReg tile n)
  let c := bitsOf w 15 0 + k
  let w := setBits w 15 0 (Nat.min c 0xFFFF)
  s.setReg (semReg tile n) (if 0xFFFF < c then setBit w 16 true else w)

/-- A grant that is undone: w is added back (R269, R322) (log 53, DEDUCED). -/
def State.semAddBack (s : State) (tile n k : Nat) : State :=
  let w := s.reg (semReg tile n)
  s.setReg (semReg tile n) (setBits w 15 0 (Nat.min (bitsOf w 15 0 + k) 0xFFFF))

/-- A waiter arrives: behind earlier cycles and, within a cycle, the staging core first, then by slot (R269). -/
def insertWaiter (x : SemWaiter) : List SemWaiter → List SemWaiter
  | [] => [x]
  | y :: r =>
    if x.at0 = y.at0 ∧ (x.core < y.core ∨ x.core = y.core ∧ x.slot < y.slot) then x :: y :: r
    else y :: insertWaiter x r

/-- The head slot of a core whose waiters leave a tile's lists: semaphores and monitors (R270, R322). -/
def State.leaveLists (s : State) (core slot : Nat) : State :=
  s.modTile (tileOfCore core) fun t =>
    { t with semQ := t.semQ.filter fun w => !(w.core = core && w.slot = slot),
             monitors := t.monitors.filter fun m => !(m.core = core && m.slot = slot) }

end Sys2Proof.Machine
end

