-- ==== Sys2Proof/Machine/Scalar.lean ====
section
/-! DEFINITION. Scalar.lean: major opcodes 0x01 to 0x0B: integer arithmetic and logic, multiply and divide,
compares, predicates, bit counting and bit fields (R63 to R74). -/

namespace Sys2Proof.Machine

/-- Shifts and rotates by n below 64 (Table 3.2). -/
def shl64 (x : W64) (n : Nat) : W64 := x <<< n
def shr64 (x : W64) (n : Nat) : W64 := x >>> n
def sar64 (x : W64) (n : Nat) : W64 := x.sshiftRight n
def rol64 (x : W64) (n : Nat) : W64 := if n = 0 then x else (x <<< n) ||| (x >>> (64 - n))

/-- The lesser and the greater of two words, signed and unsigned. -/
def minS (x y : W64) : W64 := if y.slt x then y else x
def maxS (x y : W64) : W64 := if x.slt y then y else x
def minU (x y : W64) : W64 := if y.ult x then y else x
def maxU (x y : W64) : W64 := if x.ult y then y else x

/-- The count of a register shift (R63). -/
def count6 (y : W64) : Nat := bitsOf y 5 0

def regOp (o : SSS) (s : State) (f : W64 → W64 → W64) : Host.Outcome State Fault Refusal :=
  complete o.g s fun s => s.alu o.d.toNat o.a.toNat o.b.toNat f
def immOp (o : SSI) (s : State) (f : W64 → W64 → W64) : Host.Outcome State Fault Refusal :=
  complete o.g s fun s => s.alu1 o.d.toNat o.a.toNat fun x => f x o.imm
def shiftOp (o : SSN) (s : State) (f : W64 → Nat → W64) : Host.Outcome State Fault Refusal :=
  complete o.g s fun s => s.alu1 o.d.toNat o.a.toNat fun x => f x o.n.toNat
def unOp (o : SS) (s : State) (f : W64 → W64) : Host.Outcome State Fault Refusal :=
  complete o.g s fun s => s.alu1 o.d.toNat o.a.toNat f

def execAdd (o : SSS) (s : State) := regOp o s fun x y => x + y
def execSub (o : SSS) (s : State) := regOp o s fun x y => x - y
def execAnd (o : SSS) (s : State) := regOp o s fun x y => x &&& y
def execOr (o : SSS) (s : State) := regOp o s fun x y => x ||| y
def execXor (o : SSS) (s : State) := regOp o s fun x y => x ^^^ y
def execAndn (o : SSS) (s : State) := regOp o s fun x y => x &&& ~~~y
def execSll (o : SSS) (s : State) := regOp o s fun x y => shl64 x (count6 y)
def execSrl (o : SSS) (s : State) := regOp o s fun x y => shr64 x (count6 y)
def execSra (o : SSS) (s : State) := regOp o s fun x y => sar64 x (count6 y)
def execRol (o : SSS) (s : State) := regOp o s fun x y => rol64 x (count6 y)
def execMin (o : SSS) (s : State) := regOp o s minS
def execMax (o : SSS) (s : State) := regOp o s maxS
def execMinu (o : SSS) (s : State) := regOp o s minU
def execMaxu (o : SSS) (s : State) := regOp o s maxU
def execAddi (o : SSI) (s : State) := immOp o s fun x y => x + y
def execAndi (o : SSI) (s : State) := immOp o s fun x y => x &&& y
def execOri (o : SSI) (s : State) := immOp o s fun x y => x ||| y
def execXori (o : SSI) (s : State) := immOp o s fun x y => x ^^^ y
def execSlli (o : SSN) (s : State) := shiftOp o s shl64
def execSrli (o : SSN) (s : State) := shiftOp o s shr64
def execSrai (o : SSN) (s : State) := shiftOp o s sar64
def execRoli (o : SSN) (s : State) := shiftOp o s rol64

/-- li (R64). -/
def execLi (o : SI) (s : State) := complete o.g s fun s => .ok (.done (s.wClean o.d.toNat o.imm))
/-- lpc (R64): the address of the lpc itself, as a second member too. -/
def execLpc (o : SI) (s : State) := complete o.g s fun s => .ok (.done (s.wClean o.d.toNat (s.memberPc + o.imm)))

/-- mul, mulh, mulhu (R65). -/
def mulHigh (x y : W64) : W64 := ((x.signExtend 128 * y.signExtend 128).extractLsb' 64 64)
def mulHighU (x y : W64) : W64 := ((x.setWidth 128 * y.setWidth 128).extractLsb' 64 64)
def execMul (o : SSS) (s : State) := regOp o s fun x y => x * y
def execMulh (o : SSS) (s : State) := regOp o s mulHigh
def execMulhu (o : SSS) (s : State) := regOp o s mulHighU

/-- Quotient and remainder of R66, with dzt off. -/
def divide (signed : Bool) (x y : W64) : W64 × W64 :=
  if y = 0 then (BitVec.allOnes 64, x)
  else if signed then
    (if x = BitVec.intMin 64 ∧ y = BitVec.allOnes 64 then (BitVec.intMin 64, 0)
     else (w64i (x.toInt.tdiv y.toInt), w64i (x.toInt.tmod y.toInt)))
  else (x / y, x % y)

/-- A divide form: it traps on a zero divisor with dzt set, else waits 40 cycles for its result (R62, R66). -/
def divOp (o : SSS) (s : State) (signed : Bool) (pick : W64 × W64 → W64) :
    Host.Outcome State Fault Refusal :=
  complete o.g s fun s =>
    let x := s.rS o.a.toNat
    let y := s.rS o.b.toNat
    if y.bits = 0 ∧ s.cth.dzt then .error (.trap 0x06 0)
    else
      let v : SVal := ⟨pick (divide signed x.bits y.bits), x.poison || y.poison⟩
      .ok (.go (s.waitOn .waitingMemory (.divide o.d.toNat v (s.cycle + 40))))

def execDiv (o : SSS) (s : State) := divOp o s true Prod.fst
def execDivu (o : SSS) (s : State) := divOp o s false Prod.fst
def execRem (o : SSS) (s : State) := divOp o s true Prod.snd
def execRemu (o : SSS) (s : State) := divOp o s false Prod.snd

def isDivide : Wait → Bool
  | .divide .. => true
  | _ => false

/-- DIVIDE_RESULT: the core delivers the result 40 cycles after issue (R62). -/
def execDivideResult (core slot : Nat) (s : State) : Host.Outcome State Fault Refusal :=
  match (s.thread core slot).findWait isDivide with
  | some ⟨_, _, .divide d v due⟩ =>
    if due ≤ s.cycle then .next (s.endWait core slot isDivide fun t => t.setS d v) else notDue s
  | _ => notDue s

/-- Scalar compares (R67); their operands are written to a predicate, so poison traps (Table 15.3). -/
def cmpOp (o : PSS) (s : State) (c : Cond) : Host.Outcome State Fault Refusal :=
  complete o.g s fun s => do
    let x ← s.useS o.a.toNat
    let y ← s.useS o.b.toNat
    return .done (s.wP o.d.toNat (predWord (c.holds x y)))

def execCmpeq (o : PSS) (s : State) := cmpOp o s .eq
def execCmpne (o : PSS) (s : State) := cmpOp o s .ne
def execCmplt (o : PSS) (s : State) := cmpOp o s .lt
def execCmple (o : PSS) (s : State) := cmpOp o s .le
def execCmpltu (o : PSS) (s : State) := cmpOp o s .ltu
def execCmpleu (o : PSS) (s : State) := cmpOp o s .leu

/-- sel takes the mark of the source it chooses only (R68, R359). -/
def execSel (o : SSSP) (s : State) : Host.Outcome State Fault Refusal :=
  complete o.g s fun s =>
    let v := if (s.rP o.c.toNat).getLsbD 0 then s.rS o.a.toNat else s.rS o.b.toNat
    .ok (.done (s.wS o.d.toNat v))

def execSlt (o : SSS) (s : State) := regOp o s fun x y => w64 (bit01 (x.slt y))
def execSltu (o : SSS) (s : State) := regOp o s fun x y => w64 (bit01 (x.ult y))

/-- Bit counts and reversals (R70). -/
def clz64 (x : W64) : W64 := if x = 0 then 64 else w64 (63 - Nat.log2 x.toNat)
def ctz64 (x : W64) : W64 := w64 ((lowestBit 64 x.toNat).getD 64)
def popc64 (x : W64) : W64 := w64 (popCount 64 x.toNat)
def bswap64 (x : W64) : W64 := w64 (natOfBytes (bytesOf 8 x.toNat).reverse)
def brev64 (x : W64) : W64 := w64 (reverseBits 64 x.toNat)
def execClz (o : SS) (s : State) := unOp o s clz64
def execCtz (o : SS) (s : State) := unOp o s ctz64
def execPopc (o : SS) (s : State) := unOp o s popc64
def execBswap (o : SS) (s : State) := unOp o s bswap64
def execBrev (o : SS) (s : State) := unOp o s brev64

/-- Bit fields (R71). -/
def fieldOf (x : W64) (pos w : Nat) : Nat := bitsOf x (pos + w - 1) pos
def execBfx (o : BfxF) (s : State) : Host.Outcome State Fault Refusal :=
  complete o.g s fun s => s.alu1 o.d.toNat o.a.toNat fun x => sext64 o.w.toNat (fieldOf x o.pos.toNat o.w.toNat)
def execBfxu (o : BfxF) (s : State) : Host.Outcome State Fault Refusal :=
  complete o.g s fun s => s.alu1 o.d.toNat o.a.toNat fun x => w64 (fieldOf x o.pos.toNat o.w.toNat)
def insertField (x y : W64) (pos w : Nat) : W64 := setBits x (pos + w - 1) pos y.toNat
def execBfi (o : BfiF) (s : State) : Host.Outcome State Fault Refusal :=
  complete o.g s fun s => s.alu o.d.toNat o.a.toNat o.b.toNat fun x y => insertField x y o.pos.toNat o.w.toNat

/-- Masked bit fields on words of `w` bits, as numbers (R72 to R74, Table 9.4). -/
def binsNat (w old v mask : Nat) : Nat := (old &&& (2 ^ w - 1 - mask)) ||| (v &&& mask)

/-- The lowest bit set in `mask` and clear in `x`, if any, set in `x`. -/
def bffcsNat (w x mask : Nat) : Option Nat :=
  (lowestBit w ((2 ^ w - 1 - x) &&& mask)).map fun i => x ||| 2 ^ i

/-- Bits of `mask` set from bit `i` upward until the population reaches `lim`. -/
def bplimFrom : Nat → Nat → Nat → Nat → Nat → Nat → Nat
  | 0, _, _, x, _, _ => x
  | fuel + 1, w, i, x, mask, lim =>
    if lim ≤ popCount w x then x
    else bplimFrom fuel w (i + 1) (if mask.testBit i && !x.testBit i then x + 2 ^ i else x) mask lim
def bplimNat (w x mask lim : Nat) : Nat := bplimFrom w w 0 x mask (min lim w)

/-- A result computed from three scalars. -/
def triOp (o : SSSS) (s : State) (f : W64 → W64 → W64 → W64) : Host.Outcome State Fault Refusal :=
  complete o.g s fun s =>
    let x := s.rS o.a.toNat
    let y := s.rS o.b.toNat
    let z := s.rS o.c.toNat
    .ok (.done (s.wS o.d.toNat ⟨f x.bits y.bits z.bits, x.poison || y.poison || z.poison⟩))

def execBins (o : SSSS) (s : State) := triOp o s fun x y z => (x &&& ~~~z) ||| (y &&& z)
def execBplim (o : SSSS) (s : State) := triOp o s fun x y z => w64 (bplimNat 64 x.toNat y.toNat z.toNat)

/-- bffcs writes a predicate, so its operands are consumed (R73, Table 15.3). -/
def execBffcs (o : SSSP) (s : State) : Host.Outcome State Fault Refusal :=
  complete o.g s fun s => do
    let x ← s.useS o.a.toNat
    let m ← s.useS o.b.toNat
    match bffcsNat 64 x.toNat m.toNat with
    | some y => return .done ((s.wClean o.d.toNat (w64 y)).wP o.c.toNat (predWord true))
    | none => return .done ((s.wClean o.d.toNat x).wP o.c.toNat (predWord false))

/-- Predicate forms (R69). -/
def predOp (o : PPP) (s : State) (f : W64 → W64 → W64) : Host.Outcome State Fault Refusal :=
  complete o.g s fun s => .ok (.done (s.wP o.d.toNat (f (s.rP o.a.toNat) (s.rP o.b.toNat))))

def execPand (o : PPP) (s : State) := predOp o s fun x y => x &&& y
def execPor (o : PPP) (s : State) := predOp o s fun x y => x ||| y
def execPxor (o : PPP) (s : State) := predOp o s fun x y => x ^^^ y
def execPandn (o : PPP) (s : State) := predOp o s fun x y => x &&& ~~~y
def execPnot (o : PP) (s : State) : Host.Outcome State Fault Refusal :=
  complete o.g s fun s => .ok (.done (s.wP o.d.toNat (~~~(s.rP o.a.toNat))))

end Sys2Proof.Machine
end

