-- ==== Sys2Proof/Machine/Fetch.lean ====
section
/-! DEFINITION. Fetch.lean: fetch lines, the instruction line buffer and branch targets (R17 to R19, R33 to
R36, R101). -/

namespace Sys2Proof.Machine

/-- The line of an address. -/
def lineOf (pc : W64) : W64 := w64 (pc.toNat / 64 * 64)

/-- Instruction and line word of a line (R33, Table 2.1). -/
def wordAt (line : BitVec 512) (j : Nat) : Word96 := line.extractLsb' (96 * j) 96
def linewordOf (line : BitVec 512) : BitVec 32 := line.extractLsb' 480 32

/-- The position of a legal PC within its line (R16). -/
def posOf (pc : W64) : Nat := bitsOf pc 5 0 / 12

/-- The low six bits of a legal PC (R19). -/
def legalPc (pc : W64) : Bool := [0, 12, 24, 36, 48].contains (bitsOf pc 5 0)

/-- A line word obeys R35 for itself and for the instruction at position j. -/
def wordParity (lw : BitVec 32) (j : Nat) (w : Word96) : Bool :=
  lw.getLsbD (17 + j) == parityOf 96 w.toNat
    && lw.getLsbD 22 == (parityOf 9 (lw.toNat / 2 ^ 23) != parityOf 17 (lw.toNat % 2 ^ 17))

/-- The line word of a line obeys R35 for itself and for position j. -/
def parityOk (line : BitVec 512) (j : Nat) : Bool := wordParity (linewordOf line) j (wordAt line j)

/-- The checks of a line for one of its instructions, in their order (R19 steps 1 and 2). -/
def lineCheck (pc : W64) (lw : BitVec 32) (j : Nat) (w : Word96) : Chk Unit :=
  if !wordParity lw j w then .error (.trap 0x0C (lineOf pc))
  else if lw.setWidth 17 ≠ 0 then .error (.trap 0x02 (lw.setWidth 64))
  else .ok ()

/-- A line whose buffered copy has failed leaves the buffer (R357). -/
def State.dropLine (s : State) (core : Nat) (va : W64) : State :=
  s.modCore core fun c => { c with lines := c.lines.filter fun l => l.va ≠ va }

/-- The buffered line that a thread of this tag meets at a line address. -/
def Core.findLine (c : Core) (task : W64) (va : W64) : Option BufLine :=
  c.lines.find? fun l => l.va = va && (l.tag = 0 || l.tag.toNat = bitsOf task 15 0)

/-- The buffer holds 1,024 lines; the oldest makes room (log 13, DESIGN CHOICE). -/
def Core.addLine (c : Core) (l : BufLine) : Core :=
  let rest := c.lines.filter fun x => !(x.va = l.va && x.tag = l.tag)
  { c with lines := (rest ++ [l]).drop ((rest.length + 1) - 1024) }

/-- The thread waits for the line of its pc and issues its unit when the line is there (R17). -/
def State.waitFetch (s : State) (va : W64) (x : Xlat) : State :=
  let t := s.cth
  let t := { t with waits := [⟨false, s.cycle, .fetch va x.entry x.place⟩], pc := s.unit.pc, nextPc := s.unit.pc,
                    latch := none, retry := false, reissue := false, skipBreak := s.unit.skip }
  (s.setThread s.cur.core s.cur.slot t).enterState s.cur.core s.cur.slot .waitingMemory 0

/-- The executing unit waits for a line that it needs, and issues again when the line is there: a retry from its latch,
any other unit from its line (R19, R314). The latch holds the unit meanwhile, for a trap that names it (R31). -/
def State.waitLine (s : State) (va : W64) (x : Xlat) : State :=
  let t := s.cth
  let t := { t with waits := [⟨s.unit.member, s.cycle, .fetch va x.entry x.place⟩], pc := s.unit.pc,
                    nextPc := s.unit.pc, latch := some { s.curLatch with fetch := !s.unit.retry },
                    retry := s.unit.retry, reissue := s.unit.retry, skipBreak := s.unit.skip }
  (s.setThread s.cur.core s.cur.slot t).enterState s.cur.core s.cur.slot .waitingMemory 0

def isFetch : Wait → Bool
  | .fetch .. => true
  | _ => false

/-- A row under repair at the issue of a load or a fetch traps (R174, R175). -/
def State.repairCheck (s : State) (place : Nat) : Chk Unit :=
  if s.rowRepairing place then .error (.trap 0x15 (w64 (rowPlace place))) else .ok ()

/-- The checks of the fetch of a line: those of its address, then of its row (Table 7.5). -/
def State.fetchCheck (s : State) (va : W64) : Chk Xlat := do
  let x ← s.access .fetch va 64
  s.repairCheck x.place
  return x

/-- What the check of a branch target finds (R19). -/
inductive Target where
  | good
  | bad
  | absent (x : Xlat)
  deriving DecidableEq, Repr

/-- The check of a branch target: a legal position whose branch-target bit is set. The line is fetched for
it when the buffer does not hold it, with the checks of a fetch (log 11, DEDUCED). -/
def State.checkTarget (s : State) (t : W64) : Chk Target :=
  if !legalPc t then .ok .bad
  else match (s.core s.cur.core).findLine s.cth.task (lineOf t) with
    | some l => if (linewordOf l.data).getLsbD (27 + posOf t) then .ok .good else .ok .bad
    | none => match s.fetchCheck (lineOf t) with
      | .ok x => .ok (.absent x)
      | .error b => .error b

/-- Whether a target ends the thread: its exit address, for a thread that is not the head (R101, log 14, DEDUCED). -/
def State.endsAt (s : State) (t : W64) : Bool := !s.isHead && t == s.cth.exit

/-- A thread with an active run. -/
def Thread.runActive (t : Thread) : Bool :=
  match t.run with
  | some r => r.active
  | none => false

/-- The control record of a thread's taken transfer (R394): type 0 jump, 1 return, 2 call, and the target; a branch
leaves none. -/
def State.traceControl (s : State) (core slot : Nat) (ctl : Option (Nat × W64)) : State :=
  match ctl with
  | some (type, t) =>
    if s.tracing core (s.thread core slot).task ∧ bitOf (s.reg (traceReg core 0)) 61 then
      s.tracePush core s.cycle (traceWord 2 slot (type * 2 ^ 38 + bitsOf t 39 2))
    else s
  | none => s

/-- The executing thread ends in a manner once its posted stores have reached their homes (R101); halt and
an ending branch wait for its run first (R316), and the branch is taken when it goes on. With nothing to wait for, the
slot is idle at once (Table 4.1). -/
def State.beginEnd (s : State) (manner : Nat) (ctl : Option (Nat × W64)) : State :=
  if s.cth.runActive then s.waitOn .waitingMemory (.endAfterRun manner ctl)
  else
    let s := s.traceControl s.cur.core s.cur.slot ctl
    if s.endsNow s.cur.core s.cur.slot manner then s.finishEnd s.cur.core s.cur.slot manner
    else s.waitOn .waitingMemory (.release (.ending manner))

/-- A transfer of control that is taken: the exit address ends the thread; else the target is checked, the
link written and pc set (R75 to R77, R101). `kind` is the type of its control record (R394). -/
def State.transfer (s : State) (t : W64) (link : Option Nat) (kind : Option Nat) : Chk Fin :=
  let ctl := kind.map fun k => (k, t)
  if s.endsAt t then .ok (.go (s.beginEnd 2 ctl))
  else match s.checkTarget t with
    | .error b => .error b
    | .ok .bad => .error (.trap 0x03 t)
    | .ok (.absent x) => .ok (.go (s.waitLine (lineOf t) x))
    | .ok .good =>
      let s := match link with
        | some d => s.wClean d (seqNext s.memberPc)
        | none => s
      .ok (.go ((s.traceControl s.cur.core s.cur.slot ctl).modCur fun th => { th with pc := t }))

end Sys2Proof.Machine
end

