-- ==== Sys2Proof/Machine/ScalarMem.lean ====
section
/-! DEFINITION. ScalarMem.lean: major opcodes 0x30 to 0x33: scalar loads and stores and bit-granular access
(R85 to R92). -/

namespace Sys2Proof.Machine

/-- The checks of a load of `n` bytes at `va`, in order. -/
def State.loadCheck (s : State) (va : W64) (n : Nat) : Chk Xlat := do
  aligned va n
  let x ← s.access .load va n
  s.dataStop [(va.toNat, n)] true false
  s.repairCheck x.place
  return x

/-- The checks of a store. -/
def State.storeCheck (s : State) (va : W64) (n : Nat) : Chk Xlat := do
  aligned va n
  let x ← s.access .store va n
  s.dataStop [(va.toNat, n)] false true
  return x

/-- ld and ldu (R86): the thread waits for the reply. -/
def loadOp (o : LdF) (s : State) (signed : Bool) : Host.Outcome State Fault Refusal :=
  complete o.g s fun s => do
    let n := o.size.bytes
    let va ← s.vaIndexed o.a.toNat o.b.toNat n o.off
    let x ← s.loadCheck va n
    return .go (s.waitOn .waitingMemory (.load (.scalar o.d.toNat n signed x.place) x.entry o.hint))

def execLd (o : LdF) (s : State) := loadOp o s true
def execLdu (o : LdF) (s : State) := loadOp o s false

/-- st (R86): posted; a poisoned scalar marks every word it writes (R359). -/
def execSt (o : StF) (s : State) : Host.Outcome State Fault Refusal :=
  complete o.g s fun s => do
    let n := o.size.bytes
    let va ← s.vaIndexed o.a.toNat o.b.toNat n o.off
    let x ← s.storeCheck va n
    let v := s.rS o.c.toNat
    let bytes := (bytesOf n v.bits.toNat).map fun b => (b, v.poison)
    return .done ((s.post x.entry o.hint (markedWrites x.place bytes)).modCur Thread.bump)

/-- The entry whose place range covers `n` bytes of the own scratchpad from `p` for a bit-granular access
(R90): any entry of the thread that covers them; one that grants the access when there is one. An entry with z set, whose
place is that of an offset table, covers none (log 131, DESIGN CHOICE). -/
def State.bitAccess (s : State) (p n : Nat) (nd : Need) : Chk Nat :=
  let info := w64 (2 ^ 63 + p)
  let covers := fun i =>
    let e := s.reach s.cur.core i
    e.valid && e.matchesTag s.cth.task && !e.z && e.place ≤ p && p + n ≤ e.place + (e.limit - e.base)
  if 2 ^ 22 < offsetOfPlace p + n then .error (.trap 0x10 info)
  else match (List.range 32).find? fun i => covers i && (s.reach s.cur.core i).grants nd s.isHead with
    | some i => .ok i
    | none => if (List.range 32).any covers then .error (.trap 0x11 info) else .error (.trap 0x10 info)

/-- The first place and the number of bytes of a field of `w` bits at bit address x (R90). -/
def State.bitRange (s : State) (x : BitVec 40) (w : Nat) : Nat × Nat :=
  (spaceBase s.curTile 1 + x.toNat / 8, (x.toNat + w - 1) / 8 - x.toNat / 8 + 1)

/-- inc writes b[a] := (x + w) mod 2^40 (R90). -/
def State.bitInc (s : State) (a : Nat) (x : BitVec 40) (w : Nat) (inc : Bool) : State :=
  if inc then s.wB a (x + BitVec.ofNat 40 w) else s

/-- The executing instruction waits; what it has written since `old` takes effect when it completes (R7). -/
def State.waitHolding (s : State) (old : RegFile) (st : SlotState) (w : Wait) : State :=
  (s.waitOn st w).modCur (Thread.holdSince old)

/-- ldbf and ldbfs (R90) (log 17, DEDUCED). -/
def bitLoad (o : LdbfF) (s : State) (signed : Bool) : Host.Outcome State Fault Refusal :=
  complete o.g s fun s => do
    let w := o.w.toNat
    let x := s.rB o.a.toNat
    let r := s.bitRange x w
    let e ← s.bitAccess r.1 r.2 .load
    let op := LoadOp.bits o.d.toNat w signed r.1 (x.toNat % 8) r.2 []
    return .go ((s.bitInc o.a.toNat x w o.inc).waitHolding s.cth.regs .waitingMemory (.load op e .dflt))

def execLdbf (o : LdbfF) (s : State) := bitLoad o s false
def execLdbfs (o : LdbfF) (s : State) := bitLoad o s true

/-- Byte `i` of a bit-granular store: data and mask (R91). -/
def bitWrite (p shift w v : Nat) (poison : Bool) (i : Nat) : PWrite :=
  ⟨p + i, BitVec.ofNat 8 (v * 2 ^ shift / 256 ^ i), BitVec.ofNat 8 ((2 ^ w - 1) * 2 ^ shift / 256 ^ i), poison⟩

/-- stbf: one masked write, posted (R90, R91). -/
def execStbf (o : StbfF) (s : State) : Host.Outcome State Fault Refusal :=
  complete o.g s fun s => do
    let w := o.w.toNat
    let x := s.rB o.a.toNat
    let r := s.bitRange x w
    let e ← s.bitAccess r.1 r.2 .store
    let v := s.rS o.b.toNat
    let ws := (List.range r.2).map (bitWrite r.1 (x.toNat % 8) w (v.bits.toNat % 2 ^ w) v.poison)
    return .done (((s.post e .dflt ws).bitInc o.a.toNat x w o.inc).modCur Thread.bump)

/-- bset: the value goes to a register without a mark, so poison traps (R88, Table 15.3). -/
def execBset (o : BsetF) (s : State) : Host.Outcome State Fault Refusal :=
  complete o.g s fun s => do
    let v ← s.useS o.a.toNat
    return .done (s.wB o.d.toNat (v.setWidth 40))

def execBget (o : BgetF) (s : State) : Host.Outcome State Fault Refusal :=
  complete o.g s fun s => .ok (.done (s.wClean o.d.toNat ((s.rB o.a.toNat).setWidth 64)))

/-- badd (R88). -/
def execBadd (o : BaddF) (s : State) : Host.Outcome State Fault Refusal :=
  complete o.g s fun s => do
    let v ← s.useS o.b.toNat
    return .done (s.wB o.d.toNat (s.rB o.a.toNat + v.setWidth 40 + o.imm))

end Sys2Proof.Machine
end

