-- ==== Sys2Proof/Machine/Atomics.lean ====
section
/-! DEFINITION. Atomics.lean: major opcodes 0x75 to 0x77: atomics, reservations and waits on memory (R203, R205,
R243 to R247). -/

namespace Sys2Proof.Machine

/-- f(old, v, q) of Table 9.4 on words of `w` bits, as numbers. -/
def amoNew (fn w old v q : Nat) : Nat :=
  match fn with
  | 0x00 => (old + v) % 2 ^ w
  | 0x01 => old &&& v
  | 0x02 => old ||| v
  | 0x03 => old ^^^ v
  | 0x04 => if signedOf w old ≤ signedOf w v then old else v
  | 0x05 => if signedOf w old ≤ signedOf w v then v else old
  | 0x06 => Nat.min old v
  | 0x07 => Nat.max old v
  | 0x08 => v
  | 0x09 => if old = q then v else old
  | 0x0A => binsNat w old v q
  | 0x0B => (bffcsNat w old v).getD old
  | _ => bplimNat w old v q

/-- Functions that read q (Table 9.4) (log 61, DEDUCED). -/
def amoReadsQ (fn : Nat) : Bool := fn = 0x09 || fn = 0x0A || fn = 0x0C

/-- Whether the new value is computed from old, and so takes its mark (R359). -/
def amoReadsOld (fn : Nat) : Bool := fn != 0x08

/-- The low `8n` bits of a register. -/
def lowOf (n : Nat) (w : W64) : Nat := w.toNat % 2 ^ (8 * n)

/-- The message that takes a vault atomic to the own agent (R244). -/
def State.amoMessage (s : State) (core slot : Nat) (op : AmoOp) : Msg :=
  let t := s.thread core slot
  { src := core, slot := slot, uid := t.uid, op := .amo op.fn op.n op.v op.q, ty := 0, len := op.n, place := op.place,
    task := t.task, arg := 0, data := ⟨0, 0⟩ }

/-- An atomic goes to its home: to a vault by a message, elsewhere at once (R244). -/
def State.sendAmo (s : State) (core slot : Nat) (op : AmoOp) : State :=
  if spaceOfPlace op.place = 0 then
    { s with net := s.net ++ [.message (tileOfPlace op.place) (s.amoMessage core slot op)] }
  else s

/-- The checks of an atomic, and its operands; the data is consumed (R243, R360). -/
def State.amoOperands (s : State) (o : AmoF) (fn : Nat) : Chk AmoOp := do
  let n := o.size.bytes
  let va ← s.vaIndexed o.a.toNat o.b.toNat n o.off
  let v ← s.useS o.c.toNat
  let q ← if amoReadsQ fn then s.useS o.d.toNat else pure (s.rS o.d.toNat).bits
  aligned va n
  let x ← s.access .both va n
  s.dataStop [(va.toNat, n)] true true
  return ⟨o.d.toNat, fn, n, x.place, x.entry, ⟨v, false⟩, ⟨q, false⟩, false, none⟩

/-- amo: with a scope other than none a release precedes it (R203). -/
def amoOp (o : AmoF) (s : State) (fn : Nat) : Host.Outcome State Fault Refusal :=
  complete o.g s fun s => do
    let op ← s.amoOperands o fn
    if o.scope = .none then
      return .go ((s.sendAmo s.cur.core s.cur.slot op).waitOn .waitingMemory (.amo op))
    else return .go (s.waitOn .waitingMemory (.release (.amo op)))

def execAmoAdd (o : AmoF) (s : State) := amoOp o s 0x00
def execAmoAnd (o : AmoF) (s : State) := amoOp o s 0x01
def execAmoOr (o : AmoF) (s : State) := amoOp o s 0x02
def execAmoXor (o : AmoF) (s : State) := amoOp o s 0x03
def execAmoMin (o : AmoF) (s : State) := amoOp o s 0x04
def execAmoMax (o : AmoF) (s : State) := amoOp o s 0x05
def execAmoMinu (o : AmoF) (s : State) := amoOp o s 0x06
def execAmoMaxu (o : AmoF) (s : State) := amoOp o s 0x07
def execAmoSwap (o : AmoF) (s : State) := amoOp o s 0x08
def execAmoCas (o : AmoF) (s : State) := amoOp o s 0x09
def execAmoBins (o : AmoF) (s : State) := amoOp o s 0x0A
def execAmoBffcs (o : AmoF) (s : State) := amoOp o s 0x0B
def execAmoBplim (o : AmoF) (s : State) := amoOp o s 0x0C

/-- lr and sc need a scratchpad place (R245). -/
def inScratchpad (va : W64) (x : Xlat) : Chk Unit := need (spaceOfPlace x.place = 1) (.trap 0x11 va)

/-- lr (R245): a load that its reply adds to the reservation set. -/
def execLr (o : LrF) (s : State) : Host.Outcome State Fault Refusal :=
  complete o.g s fun s => do
    let n := o.size.bytes
    let va ← s.vaIndexed o.a.toNat o.b.toNat n o.off
    aligned va n
    let x ← s.access .both va n
    s.dataStop [(va.toNat, n)] true false
    inScratchpad va x
    return .go (s.waitOn .waitingMemory (.load (.reserve o.d.toNat n x.place) x.entry .dflt))

/-- sc (R245): performed at the bank. -/
def execSc (o : ScF) (s : State) : Host.Outcome State Fault Refusal :=
  complete o.g s fun s => do
    let n := o.size.bytes
    let va ← s.vaIndexed o.a.toNat o.b.toNat n o.off
    let v ← s.useS o.c.toNat
    aligned va n
    let x ← s.access .both va n
    s.dataStop [(va.toNat, n)] true true
    inScratchpad va x
    let op : AmoOp := ⟨o.d.toNat, 0, n, x.place, x.entry, ⟨v, false⟩, ⟨0, false⟩, true, none⟩
    return .go (s.waitOn .waitingMemory (.amo op))

/-- waitres (R246): the thread waits; a set that is empty or holds an invalid entry lets it return at once. -/
def execWaitres (o : SS) (s : State) : Host.Outcome State Fault Refusal :=
  complete o.g s fun s =>
    .ok (.go (s.waitOn .waitingMessage (.waitres o.d.toNat (s.rS o.a.toNat).bits.toNat)))

/-- waitaddr (R247): checked, then compared at the home. -/
def execWaitaddr (o : ScF) (s : State) : Host.Outcome State Fault Refusal :=
  complete o.g s fun s => do
    let n := o.size.bytes
    let va ← s.vaBase o.a.toNat o.off
    aligned va n
    let x ← s.access .load va n
    s.dataStop [(va.toNat, n)] true false
    need (spaceOfPlace x.place < 2) (.trap 0x11 va)
    s.repairCheck x.place
    let w := Wait.waitaddr o.d.toNat x.place n (lowOf n (s.rS o.c.toNat).bits) (s.rS o.b.toNat).bits.toNat x.entry
    return .go (s.waitOn .waitingMessage w)

/-- Whether a thread's wait is armed in its tile's monitor table. -/
def State.armed (s : State) (core slot : Nat) : Bool :=
  (s.tile (tileOfCore core)).monitors.any fun m => m.core = core && m.slot = slot

/-- The comparison of a waitaddr at one instant at its home, when that can perform it: a full table, another value,
or an armed entry (R247) (log 62, DEDUCED). -/
def State.waitaddrRead (s : State) (core slot d place n v : Nat) : State :=
  let t := s.thread core slot
  if s.armed core slot || s.bankBusy place || !s.homesClear core slot t.uid place n then s
  else if 32 ≤ (s.tile (tileOfCore core)).monitors.length then s.endWait core slot isWaitaddr fun t => t.setClean d 3
  else
    let r := s.readBytes place n
    let s := r.1.touchRow place .dflt
    if numberOf r.2 ≠ v then s.endWait core slot isWaitaddr fun t => t.setClean d 1
    else
      let m : Monitor := ⟨core, slot, place, n⟩
      s.modTile (tileOfCore core) fun t => { t with monitors := t.monitors ++ [m] }

/-- The return of a waitres whose set is empty or holds an invalid entry (R246). -/
def State.waitresReturn (s : State) (core slot d : Nat) : State :=
  let t := s.thread core slot
  if t.resv.isEmpty || t.resv.any fun e => !e.valid then
    s.endWait core slot isWaitres fun t => t.setClean d (resvFlags t.resv false)
  else s

/-- WAIT_BOUND_EXPIRY: a waitaddr or waitres whose bound has passed returns; a waitres that could return before tells of
no bound (R246, R247). -/
def execWaitBoundExpiry (core slot : Nat) (s : State) : Host.Outcome State Fault Refusal :=
  let t := s.thread core slot
  match t.waits.find? fun w => isWaitres w.op || isWaitaddr w.op with
  | some ⟨_, at0, .waitres d bound⟩ =>
    if bound = 0 ∨ s.cycle < at0 + bound then notDue s
    else .next (s.endWait core slot isWaitres fun t =>
      t.setClean d (resvFlags t.resv (!t.resv.isEmpty && t.resv.all Resv.valid)))
  | some ⟨_, at0, .waitaddr d _ _ _ bound _⟩ =>
    if bound = 0 ∨ s.cycle < at0 + bound || !s.armed core slot then notDue s
    else .next ((s.leaveLists core slot).endWait core slot isWaitaddr fun t => t.setClean d 2)
  | _ => notDue s

/-- The reservation set after an lr of a word (R245). -/
def reserveWord (word : Nat) (l : List Resv) : List Resv :=
  if l.any fun e => e.word = word then l.map fun e => if e.word = word then { e with valid := true } else e
  else
    let l := l ++ [⟨word, true⟩]
    l.drop (l.length - 4)

def isAmo : Wait → Bool
  | .amo _ => true
  | _ => false

/-- An sc at its bank, one instant: the write when the word's entry is valid, and every sc empties the set. -/
def State.performSc (s : State) (core slot : Nat) (op : AmoOp) : State :=
  let t := s.thread core slot
  let ok := t.resv.any fun e => e.word = op.place / 8 * 8 && e.valid
  let s := s.modThread core slot fun t => { t with resv := [] }
  if ok then
    let s := s.perform (cleanWrites op.place (bytesOf op.n op.v.bits.toNat)) (some (core, slot))
    s.endWait core slot isAmo fun t => (t.setClean op.d 0).bump
  else s.endWait core slot isAmo fun t => t.setClean op.d 1

/-- The read-modify-write of an atomic at one instant: the old value with its mark (R197, R359). -/
def State.performAmo (s : State) (place fn n : Nat) (v q : W64) : State × SVal :=
  let r := s.readBytes place n
  let old := numberOf r.2
  let mark := poisoned r.2
  let new := amoNew fn (8 * n) old (lowOf n v) (lowOf n q)
  let ws := markedWrites place ((bytesOf n new).map fun b => (b, mark && amoReadsOld fn))
  ((r.1.perform ws none).touchRow place .dflt, ⟨w64 old, mark⟩)

/-- AMO_RESEND: a vault atomic that found the backwater full goes out again after 256 cycles (R244). -/
def execAmoResend (core slot : Nat) (s : State) : Host.Outcome State Fault Refusal :=
  match (s.thread core slot).findWait isAmo with
  | some ⟨_, _, .amo op⟩ =>
    match op.refused with
    | some c =>
      if s.cycle < c + 256 then notDue s
      else
        let op := { op with refused := none }
        .next ((s.modThread core slot fun t => t.modWait isAmo fun _ => .amo op).sendAmo core slot op)
    | none => notDue s
  | _ => notDue s

end Sys2Proof.Machine
end

