-- ==== Sys2Proof/Machine/Coffers.lean ====
section
/-! DEFINITION. Coffers.lean: coffers (R362 to R367), and the acknowledgement of a trap by track (R354, R355,
R399). -/

namespace Sys2Proof.Machine

/-- cfopen (R364): the handler's address is checked as a branch target (log 32, DEDUCED). -/
def execCfopen (o : A1) (s : State) : Host.Outcome State Fault Refusal :=
  complete o.g s fun s => do
    need (s.cth.cofdepth < 4) (.trap 0x01 0x0C)
    let h ← s.useS o.a.toNat
    match ← s.checkTarget h with
    | .bad => .error (.trap 0x03 h)
    | .absent x => return .go (s.waitLine (lineOf h) x)
    | .good =>
      let lv : Coffer := ⟨h, s.rS 2, 0, false⟩
      return .done (s.modCur fun t => { t with coffers := t.coffers ++ [lv] })

/-- The sum of two counts, saturating. -/
def addCount (x y : BitVec 32) : BitVec 32 := BitVec.ofNat 32 (Nat.min 0xFFFFFFFF (x.toNat + y.toNat))

/-- The innermost level folds into the one around it. -/
def foldCoffer : List Coffer → List Coffer
  | [] => []
  | [_] => []
  | [x, y] => [{ x with count := addCount x.count y.count, deferred := x.deferred || y.deferred }]
  | x :: r => x :: foldCoffer r

/-- Versions that a thread opened at level `k` now belong to level `k - 1` (R366). -/
def State.refileVersions (s : State) (uid k : Nat) : State :=
  (s.openedBy uid fun v => v.level = k).foldl (fun s line =>
    match (s.line line).opened with
    | some v => s.setLine line { s.line line with opened := some { v with level := k - 1 } }
    | none => s) s

/-- cfclose (R366): the outermost level waits for its deferred seals; else the level folds into what is around it, and
its versions belong there (R368). -/
def execCfclose (o : G0) (s : State) : Host.Outcome State Fault Refusal :=
  complete o.g s fun s => do
    let t := s.cth
    need (t.cofdepth ≠ 0) (.trap 0x01 0x0D)
    if t.cofdepth = 1 && t.coffers.any Coffer.deferred then
      return .go (s.waitOn .waitingMemory (.release .cfclose))
    else return .done ((s.refileVersions t.uid t.cofdepth).modCur fun t => { t with coffers := foldCoffer t.coffers })

/-- The first failing status of track and tkill (Table 15.1). -/
def State.ackStatus (s : State) (core : Nat) (slot task : W64) : Nat :=
  if 15 < slot.toNat ∨ slot = 0 then 1
  else if (s.thread core slot.toNat).state ≠ .trapped then 2
  else if (s.thread core slot.toNat).task ≠ task then 3
  else 0

/-- Whether the latch holds a swtrap as its instruction. -/
def Latch.isSwtrap (l : Latch) : Bool :=
  match decode l.first with
  | some (.swtrap _) => true
  | _ => false

/-- track of a slot (R355, R399): the held unit is issued again. A held swtrap resumes past itself (R84); a
repetition fault resumes its run and its thread (R317); a line whose storage failed is fetched again (R357).
An engine fault's unit and a stopped unit had not issued, so they are no retries but what they were
(log 34, DEDUCED). -/
def State.trackSlot (s : State) (core slot : Nat) : State :=
  let t := s.thread core slot
  let t := if t.stopHeld then { t with skipBreak := true, stopHeld := false, reissue := t.latch.isSome }
    else
      let t := { t with lastcause := t.trapCause }
      match t.latch with
      | none => t
      | some l =>
        if t.trapCause = 0x07 ∧ l.isSwtrap then { t with latch := none, pc := seqNext l.pc, nextPc := seqNext l.pc }
        else if t.trapCause = 0x20 then
          { t with latch := none, run := t.run.map fun r => { r with fault := none, active := true } }
        else if l.fetch then { t with latch := none }
        else if t.trapCause = 0x21 then { t with reissue := true }
        else { t with reissue := true, retry := true }
  (s.setThread core slot t).enterState core slot .ready 0

/-- track (R354) (log 33, DEDUCED). -/
def execTrack (o : SSS) (s : State) : Host.Outcome State Fault Refusal :=
  complete o.g s fun s => headOnly 0x25 0 s (
    let slot := (s.rS o.a.toNat).bits
    let core := s.cur.core
    let st := s.ackStatus core slot (s.rS o.b.toNat).bits
    let s := if st = 0 then s.trackSlot core slot.toNat else s
    .ok (.done (s.wClean o.d.toNat (w64 st))))

end Sys2Proof.Machine
end

