-- ==== Sys2Proof/Machine/Float.lean ====
section
/-! DEFINITION. Float.lean: the floating formats and their exact arithmetic (R125 to R142). A value is
exact until one rounding; no sum or product passes through a narrower format. -/

namespace Sys2Proof.Machine

/-- A binary format: exponent and significand bits (Table 5.2). -/
structure Fmt where
  eb : Nat
  sb : Nat
  deriving DecidableEq, Repr

def Fmt.f16 : Fmt := ⟨5, 10⟩
def Fmt.bf16 : Fmt := ⟨8, 7⟩
def Fmt.f32 : Fmt := ⟨8, 23⟩
def Fmt.f64 : Fmt := ⟨11, 52⟩

/-- The format of a floating element type. -/
def fmtOf : ElemTy → Fmt
  | .f16 => .f16
  | .bf16 => .bf16
  | .f64 => .f64
  | _ => .f32

def Fmt.bits (f : Fmt) : Nat := 1 + f.eb + f.sb

/-- The exponent of the unit of the subnormal range. -/
def Fmt.minExp (f : Fmt) : Int := 2 - (2 ^ (f.eb - 1) : Nat) - (f.sb : Int)

def Fmt.infBits (f : Fmt) : Nat := (2 ^ f.eb - 1) * 2 ^ f.sb
def Fmt.signBit (f : Fmt) : Nat := 2 ^ (f.eb + f.sb)
/-- The canonical NaN: quiet bit set (Table 5.2). -/
def Fmt.nanBits (f : Fmt) : Nat := f.infBits + 2 ^ (f.sb - 1)

/-- An exact value: NaN, an infinity, a signed zero, or m × 2^e with m nonzero. -/
inductive FVal where
  | nan
  | inf (neg : Bool)
  | zero (neg : Bool)
  | fin (m : Int) (e : Int)
  deriving DecidableEq, Repr

/-- The value of an encoding (R125). -/
def Fmt.decode (f : Fmt) (x : Nat) : FVal :=
  let neg := x / f.signBit % 2 = 1
  let ex := x / 2 ^ f.sb % 2 ^ f.eb
  let fr := x % 2 ^ f.sb
  let sgn : Int := if neg then -1 else 1
  if ex = 2 ^ f.eb - 1 then (if fr = 0 then .inf neg else .nan)
  else if ex = 0 then (if fr = 0 then .zero neg else .fin (sgn * fr) f.minExp)
  else .fin (sgn * ((2 ^ f.sb + fr : Nat) : Int)) (f.minExp + ex - 1)

def FVal.isNan : FVal → Bool
  | .nan => true
  | _ => false

def FVal.isNeg : FVal → Bool
  | .inf n => n
  | .zero n => n
  | .fin m _ => m < 0
  | .nan => false

/-- The sign flipped. -/
def FVal.negate : FVal → FVal
  | .nan => .nan
  | .inf n => .inf !n
  | .zero n => .zero !n
  | .fin m e => .fin (-m) e

/-- Exact product with its zero and infinity outcome (Table 5.4). -/
def FVal.mul : FVal → FVal → FVal
  | .nan, _ => .nan
  | _, .nan => .nan
  | .inf a, y => match y with
    | .zero _ => .nan
    | y => .inf (a != y.isNeg)
  | .zero a, y => match y with
    | .inf _ => .nan
    | y => .zero (a != y.isNeg)
  | .fin m _, .inf b => .inf (decide (m < 0) != b)
  | .fin m _, .zero b => .zero (decide (m < 0) != b)
  | .fin m e, .fin n k => .fin (m * n) (e + k)

/-- An exact value scaled by a power of two. -/
def FVal.scale (k : Int) : FVal → FVal
  | .fin m e => .fin m (e + k)
  | x => x

/-- m × 2^e added exactly. -/
def addDyadic (x y : Int × Int) : Int × Int :=
  if x.2 ≤ y.2 then (x.1 + y.1 * ((2 ^ (y.2 - x.2).toNat : Nat) : Int), x.2)
  else (x.1 * ((2 ^ (x.2 - y.2).toNat : Nat) : Int) + y.1, y.2)

/-- The finite part of a list of terms. -/
def sumFinite : List FVal → Int × Int
  | [] => (0, 0)
  | .fin m e :: r => addDyadic (m, e) (sumFinite r)
  | _ :: r => sumFinite r

/-- Exact sum of the terms of one expression: NaN and infinity outcomes of Table 5.4, sign of an exact
zero by R129. -/
def FVal.sum (l : List FVal) : FVal :=
  let pos := l.contains (.inf false)
  let neg := l.contains (.inf true)
  if l.any FVal.isNan then .nan
  else if pos && neg then .nan
  else if pos then .inf false
  else if neg then .inf true
  else
    let s := sumFinite l
    if s.1 = 0 then .zero (l.all fun t => t = .zero true) else .fin s.1 s.2

/-- Whether rounding goes away from zero: `n` the kept part, `rem / den` the rest. -/
def roundsUp (mode : Rnd) (neg : Bool) (n rem den : Nat) : Bool :=
  match mode with
  | .rn | .sat => den < 2 * rem || (2 * rem = den && n % 2 = 1)
  | .rz => false
  | .ru => rem != 0 && !neg
  | .rd => rem != 0 && neg

/-- The magnitude that a finite result beyond the largest finite value takes (Table 5.3). -/
def overflowBits (f : Fmt) (mode : Rnd) (neg : Bool) : Nat :=
  match mode with
  | .rn => f.infBits
  | .rz => f.infBits - 1
  | .ru => if neg then f.infBits - 1 else f.infBits
  | .rd => if neg then f.infBits else f.infBits - 1
  | .sat => f.infBits - 1

/-- The floor of log2 of num / den × 2^e, for num and den nonzero. -/
def floorLog2 (num den : Nat) (e : Int) : Int :=
  let k : Int := (Nat.log2 num : Int) - Nat.log2 den
  let ge : Bool := if 0 ≤ k then den * 2 ^ k.toNat ≤ num else den ≤ num * 2 ^ (-k).toNat
  (if ge then k else k - 1) + e

/-- num / den × 2^e as a quotient of integers in units of 2^q. -/
def inUnits (num den : Nat) (e q : Int) : Nat × Nat :=
  if q ≤ e then (num * 2 ^ (e - q).toNat, den) else (num, den * 2 ^ (q - e).toNat)

/-- The encoding of ± num / den × 2^e, num nonzero, rounded once (R128, Table 5.3). -/
def Fmt.roundRat (f : Fmt) (mode : Rnd) (neg : Bool) (num den : Nat) (e : Int) : Nat :=
  let q := max (floorLog2 num den e - f.sb) f.minExp
  let u := inUnits num den e q
  let n := u.1 / u.2
  let n := if roundsUp mode neg n (u.1 % u.2) u.2 then n + 1 else n
  let mag := (q - f.minExp).toNat * 2 ^ f.sb + n
  let mag := if f.infBits ≤ mag then overflowBits f mode neg else mag
  (if neg then f.signBit else 0) + mag

/-- The encoding of an exact value under a rounding code (R126, R128, Table 5.3). -/
def Fmt.round (f : Fmt) (mode : Rnd) : FVal → Nat
  | .nan => f.nanBits
  | .inf n => (if n then f.signBit else 0) + (if mode = .sat then f.infBits - 1 else f.infBits)
  | .zero n => if n then f.signBit else 0
  | .fin m e => if m = 0 then 0 else f.roundRat mode (m < 0) m.natAbs 1 e

/-- rne into the format (R128). -/
def Fmt.rne (f : Fmt) (x : FVal) : Nat := f.round .rn x

/-- Rounded sum, difference, product and fused multiply-add (R145, Table 5.4). -/
def Fmt.add (f : Fmt) (x y : Nat) : Nat := f.rne (.sum [f.decode x, f.decode y])
def Fmt.sub (f : Fmt) (x y : Nat) : Nat := f.rne (.sum [f.decode x, (f.decode y).negate])
def Fmt.mul (f : Fmt) (x y : Nat) : Nat := f.rne ((f.decode x).mul (f.decode y))
def Fmt.fma (f : Fmt) (x y z : Nat) : Nat := f.rne (.sum [(f.decode x).mul (f.decode y), f.decode z])

/-- The quotient, correctly rounded (R141, Table 5.4). -/
def Fmt.div (f : Fmt) (x y : Nat) : Nat :=
  let a := f.decode x
  let b := f.decode y
  let neg := a.isNeg != b.isNeg
  match a, b with
  | .nan, _ => f.nanBits
  | _, .nan => f.nanBits
  | .inf _, .inf _ => f.nanBits
  | .zero _, .zero _ => f.nanBits
  | .inf _, _ => f.rne (.inf neg)
  | _, .inf _ => f.rne (.zero neg)
  | .zero _, _ => f.rne (.zero neg)
  | _, .zero _ => f.rne (.inf neg)
  | .fin m e, .fin n k => f.roundRat .rn neg m.natAbs n.natAbs (e - k)

/-- The integer square root, bit by bit from bit `k`. -/
def isqrtFrom : Nat → Nat → Nat → Nat
  | 0, _, r => r
  | k + 1, n, r =>
    let t := r + 2 ^ k
    isqrtFrom k n (if t * t ≤ n then t else r)

def isqrt (n : Nat) : Nat := isqrtFrom (Nat.log2 n / 2 + 1) n 0

/-- m × 2^e with an even exponent. -/
def evenExp (m : Nat) (e : Int) : Nat × Int := if e % 2 = 0 then (m, e) else (2 * m, e - 1)

/-- √x, correctly rounded: 128 more bits of root, and a last bit that says whether anything is left. -/
def Fmt.sqrt (f : Fmt) (x : Nat) : Nat :=
  match f.decode x with
  | .nan => f.nanBits
  | .inf n => if n then f.nanBits else f.infBits
  | .zero n => f.rne (.zero n)
  | .fin m e =>
    if m < 0 then f.nanBits
    else
      let p := evenExp m.natAbs e
      let n := p.1 * 2 ^ 256
      let r := isqrt n
      f.roundRat .rn false (2 * r + bit (r * r ≠ n)) 1 (p.2 / 2 - 129)
where bit (b : Bool) : Nat := if b then 1 else 0

/-- 1 / x (Table 5.12). -/
def Fmt.rcp (f : Fmt) (x : Nat) : Nat := f.div (f.rne (.fin 1 0)) x

/-- 1 / √x (Table 5.12). -/
def Fmt.rsqrt (f : Fmt) (x : Nat) : Nat :=
  match f.decode x with
  | .nan => f.nanBits
  | .inf n => if n then f.nanBits else 0
  | .zero n => f.rne (.inf n)
  | .fin m e =>
    if m < 0 then f.nanBits
    else
      let p := evenExp m.natAbs e
      let r := isqrt (2 ^ 384 / p.1)
      f.roundRat .rn false (2 * r + bit (r * r * p.1 ≠ 2 ^ 384)) 1 (-(p.2 / 2) - 193)
where bit (b : Bool) : Nat := if b then 1 else 0

/-- ln 2 and π in units of 2^-320. -/
def ln2Fix : Nat := 0xb17217f7d1cf79abc9e3b39803f2f6af40f343267298b62d8a0d175b8baafa2be7b876206debac98
def piFix : Nat := 0x3243f6a8885a308d313198a2e03707344a4093822299f31d0082efa98ec4e6c89452821e638d01377

/-- Terms t^k / k! from k on, in units of 2^-320. -/
def expTerms : Nat → Nat → Nat → Nat → Nat
  | 0, _, _, _ => 0
  | fuel + 1, t, k, term => term + expTerms fuel t (k + 1) (term * t / 2 ^ 320 / k)

/-- 2^(p / 2^320), in units of 2^-320, for p below 2^320. -/
def exp2Frac (p : Nat) : Nat := expTerms 80 (p * ln2Fix / 2 ^ 320) 1 (2 ^ 320)

/-- 2^x, correctly rounded (R141, R142): exact for an integer; else 320 fractional bits and an odd
last bit, the value being no midpoint and no value of the format (log 7, DESIGN CHOICE). -/
def Fmt.exp2 (f : Fmt) (x : Nat) : Nat :=
  match f.decode x with
  | .nan => f.nanBits
  | .inf n => if n then 0 else f.infBits
  | .zero _ => f.rne (.fin 1 0)
  | .fin m e =>
    if 0 ≤ e then
      let v := m * ((2 ^ (min e 20).toNat : Nat) : Int)
      f.rne (.fin 1 (max (-3000) (min 3000 v)))
    else
      let d : Int := ((2 ^ (-e).toNat : Nat) : Int)
      let n := m / d
      let r := (m % d).toNat
      if r = 0 then f.rne (.fin 1 (max (-3000) (min 3000 n)))
      else
        let p := if e < -320 then 1 else r * 2 ^ (320 + e).toNat
        f.roundRat .rn false (2 * exp2Frac p + 1) 1 (max (-3000) (min 3000 n) - 321)

/-- Terms z^(2k+1) / (2k+1) from index k on, in units of 2^-320. -/
def atanhTerms : Nat → Nat → Nat → Nat → Nat
  | 0, _, _, _ => 0
  | fuel + 1, z2, k, pw => pw / (2 * k + 1) + atanhTerms fuel z2 (k + 1) (pw * z2 / 2 ^ 320)

/-- log2 of num / den in [1, 2), in units of 2^-320. -/
def log2Frac (num den : Nat) : Nat :=
  let z := (num - den) * 2 ^ 320 / (num + den)
  2 * atanhTerms 110 (z * z / 2 ^ 320) 0 z * 2 ^ 320 / ln2Fix

/-- log2 x, correctly rounded (R141, R142). -/
def Fmt.log2 (f : Fmt) (x : Nat) : Nat :=
  match f.decode x with
  | .nan => f.nanBits
  | .inf n => if n then f.nanBits else f.infBits
  | .zero _ => f.rne (.inf true)
  | .fin m e =>
    if m < 0 then f.nanBits
    else
      let n := m.natAbs
      let k := Nat.log2 n
      let ex : Int := (k : Int) + e
      if n = 2 ^ k then (if ex = 0 then 0 else f.rne (.fin ex 0))
      else
        let t : Int := ex * ((2 ^ 320 : Nat) : Int) + log2Frac n (2 ^ k)
        f.rne (.fin (2 * t + 1) (-321))

/-- Whether x < y as extended reals; no relation holds with a NaN. -/
def FVal.lt (x y : FVal) : Bool :=
  match x, y with
  | .nan, _ => false
  | _, .nan => false
  | .inf a, .inf b => a && !b
  | .inf a, _ => a
  | _, .inf b => !b
  | x, y => (sumFinite [x, y.negate]).1 < 0

/-- Whether x = y; −0 equals +0. -/
def FVal.eq (x y : FVal) : Bool := !x.isNan && !y.isNan && !x.lt y && !y.lt x

/-- Whether x stands below y for min and max: −0 is less than +0. -/
def FVal.below (x y : FVal) : Bool := x.lt y || (x = .zero true && y = .zero false)

/-- min and max (Table 5.4). -/
def Fmt.min (f : Fmt) (x y : Nat) : Nat :=
  let a := f.decode x
  let b := f.decode y
  if a.isNan || b.isNan then f.nanBits else if b.below a then y else x
def Fmt.max (f : Fmt) (x y : Nat) : Nat :=
  let a := f.decode x
  let b := f.decode y
  if a.isNan || b.isNan then f.nanBits else if a.below b then y else x

/-- |m × 2^e| rounded to an integer under a code, by its sign. -/
def roundToInt (mode : Rnd) (m e : Int) : Int :=
  let u := inUnits m.natAbs 1 (max e (-2200)) 0
  let n := u.1 / u.2
  let n := if roundsUp mode (m < 0) n (u.1 % u.2) u.2 then n + 1 else n
  if m < 0 then -(n : Int) else n

/-- A value clamped to a range. -/
def clampInt (lo hi x : Int) : Int := if x < lo then lo else if hi < x then hi else x

/-- The range of an integer type of `w` bits. -/
def intMin (w : Nat) (signed : Bool) : Int := if signed then -((2 ^ (w - 1) : Nat) : Int) else 0
def intMax (w : Nat) (signed : Bool) : Int :=
  if signed then ((2 ^ (w - 1) : Nat) : Int) - 1 else ((2 ^ w : Nat) : Int) - 1

/-- Float to integer: rounds, saturates, and gives 0 for a NaN (R131). -/
def FVal.toInt (mode : Rnd) (lo hi : Int) : FVal → Int
  | .nan => 0
  | .inf n => if n then lo else hi
  | .zero _ => 0
  | .fin m e => clampInt lo hi (roundToInt mode m (min e 200))

/-- Integer to float: rounds once; 0 gives +0 (R131). -/
def Fmt.ofInt (f : Fmt) (mode : Rnd) (x : Int) : Nat :=
  if x = 0 then 0 else f.round mode (.fin x 0)

/-- Pairs of a list, combined: one level of the tree of R138. -/
def treeLevel {α : Type} (g : α → α → α) : List α → List α
  | x :: y :: r => g x y :: treeLevel g r
  | r => r

/-- The tree of R138 over a list whose length is a power of two at most 2^fuel. -/
def treeSum {α : Type} (g : α → α → α) (dflt : α) : Nat → List α → α
  | 0, l => l.headD dflt
  | fuel + 1, l => treeSum g dflt fuel (treeLevel g l)

/-- FP32 addition as a tree node. -/
def add32 (x y : Nat) : Nat := Fmt.f32.add x y

/-- A sum of 32 rounded products by the tree. -/
def tree32 (l : List Nat) : Nat := treeSum add32 0 5 l

/-- −0 in FP32. -/
def negZero32 : Nat := 0x80000000

/-- Complex FP32 multiply, each part one rounding (R132): exact terms of the real and imaginary parts. -/
def cmulTerms (a b c d : FVal) : List FVal × List FVal :=
  ([a.mul c, (b.mul d).negate], [a.mul d, b.mul c])

def cmul32 (x y : Nat × Nat) : Nat × Nat :=
  let f := Fmt.f32
  let t := cmulTerms (f.decode x.1) (f.decode x.2) (f.decode y.1) (f.decode y.2)
  (f.rne (.sum t.1), f.rne (.sum t.2))

/-- The sum of the two terms of a TSW8 byte in units of 2^-6 (R133). -/
def tswSum (b : Nat) : Int := term (b / 16) + term b
where term (x : Nat) : Int :=
  if x % 8 = 7 then 0 else (if x / 8 % 2 = 1 then -1 else 1) * ((2 ^ (6 - x % 8) : Nat) : Int)

/-- The exact product of a value with a TSW8 weight at scale 2^e (R134). -/
def tswProduct (x : FVal) (b : Nat) (e : Int) : FVal :=
  let w := tswSum b
  match x with
  | .nan => .nan
  | x => if w = 0 then x.mul (.zero false) else x.mul (.fin w (e - 6))

end Sys2Proof.Machine
end

