-- ==== Sys2Proof/Machine/Footprint.lean ====
section
/-! DEFINITION. Footprint.lean: the registers that an instruction names by its fields (Tables 2.4, 3.1, 6.1, 6.6,
9.1, 12.1, 15.4, 16.1), those of a run's iterations, and the hold of its thread (R315, R316). -/

namespace Sys2Proof.Machine

/-- Register files a field can name; `no` for a field that names none. -/
inductive File where
  | no | s | v | p | b | t | acc | sem | q | i | h
  deriving DecidableEq, Repr

/-- The number of registers of a file. -/
def File.size : File → Nat
  | .s => 64
  | .v => 32
  | .sem => 16
  | .b | .acc | .i => 4
  | .no => 64
  | _ => 8

/-- The files of the fields d, a, b and c. -/
structure Fields where
  d : File
  a : File
  b : File
  c : File
  deriving DecidableEq, Repr

def scalarFields (op fn : Nat) : Fields :=
  match op, fn with
  | 0x02, _ => ⟨.s, .s, .no, .no⟩
  | 0x03, _ => ⟨.s, .no, .no, .no⟩
  | 0x06, _ => ⟨.p, .s, .s, .no⟩
  | 0x07, 0 => ⟨.s, .s, .s, .p⟩
  | 0x08, _ | 0x09, 0 | 0x09, 1 => ⟨.s, .s, .no, .no⟩
  | 0x0A, 1 => ⟨.s, .s, .s, .p⟩
  | 0x0A, _ => ⟨.s, .s, .s, .s⟩
  | 0x0B, 4 => ⟨.p, .p, .no, .no⟩
  | 0x0B, _ => ⟨.p, .p, .p, .no⟩
  | _, _ => ⟨.s, .s, .s, .no⟩

def controlFields (op fn : Nat) : Fields :=
  match op, fn with
  | 0x20, 0 | 0x24, 0 => ⟨.no, .no, .no, .no⟩
  | 0x20, _ | 0x24, 1 => ⟨.no, .s, .s, .no⟩
  | 0x21, _ => ⟨.s, .no, .no, .no⟩
  | 0x22, 1 => ⟨.s, .s, .no, .no⟩
  | 0x22, _ | 0x23, 1 | 0x24, _ => ⟨.no, .s, .no, .no⟩
  | 0x23, _ => ⟨.s, .no, .no, .no⟩
  | 0x31, _ => ⟨.no, .s, .s, .s⟩
  | 0x32, 2 => ⟨.no, .b, .s, .no⟩
  | 0x32, _ => ⟨.s, .b, .no, .no⟩
  | 0x33, 0 => ⟨.b, .s, .no, .no⟩
  | 0x33, 1 => ⟨.s, .b, .no, .no⟩
  | 0x33, _ => ⟨.b, .b, .s, .no⟩
  | _, _ => ⟨.s, .s, .s, .no⟩

def vectorFields (op fn : Nat) : Fields :=
  match op, fn with
  | 0x41, 3 => ⟨.v, .v, .v, .v⟩
  | 0x41, 6 | 0x41, 7 | 0x46, _ | 0x48, 2 => ⟨.v, .v, .no, .no⟩
  | 0x42, _ => ⟨.p, .v, .v, .no⟩
  | 0x43, 1 => ⟨.v, .s, .no, .no⟩
  | 0x43, 2 => ⟨.s, .v, .s, .no⟩
  | 0x43, 3 => ⟨.v, .s, .s, .no⟩
  | 0x43, 4 => ⟨.v, .v, .s, .no⟩
  | 0x43, 5 => ⟨.v, .v, .v, .p⟩
  | 0x45, 4 => ⟨.s, .v, .v, .s⟩
  | 0x45, _ => ⟨.s, .v, .no, .no⟩
  | 0x47, _ => ⟨.v, .no, .no, .no⟩
  | _, _ => ⟨.v, .v, .v, .no⟩

def memoryFields (op fn : Nat) : Fields :=
  match op, fn with
  | 0x60, 0 | 0x79, 0 => ⟨.s, .v, .s, .no⟩
  | 0x60, 1 => ⟨.v, .no, .no, .no⟩
  | 0x60, 2 | 0x72, _ => ⟨.no, .s, .no, .no⟩
  | 0x60, 3 | 0x61, 1 | 0x63, _ | 0x74, _ => ⟨.no, .no, .no, .no⟩
  | 0x62, _ | 0x77, 0 | 0x79, 1 => ⟨.s, .s, .no, .no⟩
  | 0x70, 0 => ⟨.v, .s, .s, .no⟩
  | 0x70, 1 => ⟨.no, .s, .s, .v⟩
  | 0x70, 2 => ⟨.v, .s, .v, .no⟩
  | 0x70, _ => ⟨.no, .s, .v, .v⟩
  | 0x71, _ => ⟨.t, .s, .s, .no⟩
  | 0x73, 0 => ⟨.v, .s, .s, .s⟩
  | 0x73, 1 => ⟨.v, .s, .no, .s⟩
  | 0x73, 2 => ⟨.no, .s, .s, .v⟩
  | 0x73, _ => ⟨.no, .s, .no, .s⟩
  | 0x75, _ | 0x76, 1 | 0x77, _ => ⟨.s, .s, .s, .s⟩
  | 0x78, 2 | 0x78, 4 => ⟨.s, .s, .s, .v⟩
  | 0x78, _ => ⟨.s, .s, .no, .v⟩
  | 0x79, 4 => ⟨.v, .s, .no, .no⟩
  | _, _ => ⟨.s, .s, .s, .no⟩

def engineFields (op fn : Nat) : Fields :=
  match op, fn with
  | 0x90, _ => ⟨.acc, .t, .t, .no⟩
  | 0x91, 0 => ⟨.no, .s, .v, .no⟩
  | 0x91, _ => ⟨.t, .t, .no, .no⟩
  | 0x92, 2 => ⟨.no, .s, .no, .no⟩
  | 0x92, 3 => ⟨.acc, .s, .s, .no⟩
  | 0x92, _ | 0x93, 0 => ⟨.acc, .no, .no, .no⟩
  | 0x93, 1 => ⟨.t, .acc, .no, .no⟩
  | 0x93, 2 => ⟨.s, .s, .no, .acc⟩
  | 0x93, _ => ⟨.acc, .s, .no, .no⟩
  | 0x94, 0 => ⟨.s, .v, .no, .no⟩
  | 0x94, 1 => ⟨.s, .s, .no, .no⟩
  | 0x94, _ => ⟨.s, .s, .s, .no⟩
  | 0x95, _ => ⟨.i, .no, .no, .no⟩
  | 0x96, 0 => ⟨.q, .v, .no, .no⟩
  | 0x96, _ => ⟨.s, .q, .no, .no⟩
  | 0x97, _ => ⟨.no, .v, .no, .no⟩
  | 0x98, 2 => ⟨.sem, .s, .no, .no⟩
  | 0x98, _ => ⟨.sem, .no, .no, .no⟩
  | _, _ => ⟨.no, .no, .no, .no⟩

def observeFields (op fn : Nat) : Fields :=
  match op, fn with
  | 0xB1, 0 => ⟨.h, .s, .s, .no⟩
  | 0xB1, _ => ⟨.s, .h, .no, .no⟩
  | 0xB2, 1 => ⟨.s, .v, .s, .no⟩
  | 0xB2, 3 => ⟨.s, .no, .no, .no⟩
  | 0xB2, 4 => ⟨.v, .s, .no, .no⟩
  | 0xB0, 1 => ⟨.no, .no, .no, .no⟩
  | _, _ => ⟨.no, .s, .no, .no⟩

/-- The files that the fields of a word name. -/
def fieldsOf (r : Raw) : Fields :=
  let op := r.op.toNat
  let fn := r.fn.toNat
  if op < 0x20 then scalarFields op fn
  else if op < 0x40 then controlFields op fn
  else if op = 0x44 then (if cvtFile r.m = 64 then ⟨.s, .s, .no, .no⟩ else ⟨.v, .v, .no, .no⟩)
  else if op < 0x60 then vectorFields op fn
  else if op < 0x90 then memoryFields op fn
  else if op = 0x90 ∧ r.m.getLsbD 1 then ⟨.acc, .no, .t, .no⟩
  else if op = 0x93 ∧ fn = 2 ∧ r.m.getLsbD 36 = false then ⟨.no, .s, .no, .acc⟩
  else if op = 0x96 ∧ fn = 1 then
    match (r.m.extractLsb' 0 2).toNat with
    | 1 => ⟨.s, .i, .no, .no⟩
    | 2 => ⟨.v, .i, .no, .no⟩
    | _ => ⟨.v, .q, .no, .no⟩
  else if op < 0xB0 then engineFields op fn
  else observeFields op fn

/-- A register by file and number; tile register 8 is the operand latch. -/
structure RegRef where
  file : File
  n : Nat
  deriving DecidableEq, Repr

/-- The registers that a word names: its fields, the upper half of a pair, the triple of share and slice, the
latch, and the guard predicate when it is not p0 (log 38, DEDUCED). -/
def namesOf (w : Word96) : List RegRef :=
  let r := Raw.unpack w
  let f := fieldsOf r
  let op := r.op.toNat
  let fn := r.fn.toNat
  let one := fun (k : File) (x : BitVec 6) => if k = .no then [] else [(⟨k, x.toNat⟩ : RegRef)]
  let extra : List RegRef :=
    if op = 0x62 then [⟨.s, r.d.toNat + 1⟩, ⟨.s, r.d.toNat + 2⟩]
    else if op = 0x90 ∧ r.m.getLsbD 1 then [⟨.t, 8⟩]
    else if op = 0x90 ∧ fn = 4 then [⟨.t, r.b.toNat + 1⟩]
    else if op = 0x90 ∧ fn = 3 ∨ op = 0x91 ∧ fn = 1 then [⟨.t, r.a.toNat + 1⟩]
    else if op = 0x91 then [⟨.t, 8⟩]
    else []
  one f.d r.d ++ one f.a r.a ++ one f.b r.b ++ one f.c r.c ++ extra
    ++ (if r.g.p = 0 then [] else [⟨.p, r.g.p.toNat⟩])

/-- A field in iteration j: stepped modulo the size of its file when it names a register (R315). -/
def stepField (k : File) (x : BitVec 6) (stride j : Nat) : BitVec 6 :=
  if k = .no then x else BitVec.ofNat 6 ((x.toNat + j * stride) % k.size)

/-- A captured word as iteration j issues it. -/
def stepWord (r : Run) (w : Word96) (j : Nat) : Word96 :=
  let x := Raw.unpack w
  let f := fieldsOf x
  Raw.pack { x with d := stepField f.d x.d r.strD j, a := stepField f.a x.a r.strA j,
                    b := stepField f.b x.b r.strB j, c := stepField f.c x.c r.strC j }

/-- The footprint of a run: strides repeat after at most 64 iterations. -/
def Run.footprint (r : Run) : List RegRef :=
  ((List.range (Nat.min r.count 64)).flatMap fun j => r.words.flatMap fun w => namesOf (stepWord r w j)).eraseDups

/-- The words of the unit at a pc of a buffered line. -/
def unitWords (line : BitVec 512) (pc : W64) : List Word96 :=
  let k := posOf pc
  if k ≤ 3 ∧ (linewordOf line).getLsbD (23 + k) then [wordAt line k, wordAt line (k + 1)] else [wordAt line k]

/-- A latch that holds a unit to be issued again. -/
def Thread.heldUnit (t : Thread) : Option Latch :=
  match t.latch with
  | some l => if t.reissue && !l.fetch then some l else none
  | none => none

/-- The words of the unit that a thread issues next: those of its latch, else those at its pc in the line buffer. -/
def State.nextWords (s : State) (core slot : Nat) : List Word96 :=
  let t := s.thread core slot
  match t.heldUnit with
  | some l => l.first :: l.second.toList
  | none =>
    match (s.core core).findLine t.task (lineOf t.pc) with
    | some l => unitWords l.data t.pc
    | none => []

/-- Whether an active run holds its thread: the next issue unit names a register of the footprint (R316). -/
def State.footHeld (s : State) (core slot : Nat) : Bool :=
  match (s.thread core slot).run with
  | some r =>
    r.active && r.fault.isNone &&
      (s.nextWords core slot).any fun w => (namesOf w).any fun x => r.footprint.contains x
  | none => false

end Sys2Proof.Machine
end

