-- ==== Sys2Proof/Machine/Rotation.lean ====
section
/-! DEFINITION. Rotation.lean: the issue rotation of a core, the turn of its vault agent, and what the semaphore unit has
to do before a cycle passes (R96, R98, R189, R269, R270, R346). -/

namespace Sys2Proof.Machine

/-- The bytes that a message names: a length, or elements of the type's width (R248 to R252). -/
def Msg.bytes (m : Msg) : Nat :=
  match m.op with
  | .radd => m.len * (if m.ty = 4 then 8 else 4)
  | .rcall => 1
  | _ => m.len

/-- Whether two messages touch a common 64-byte line. -/
def Msg.sharesLine (m n : Msg) : Bool :=
  decide (m.place / 64 ≤ (n.place + n.bytes - 1) / 64) && decide (n.place / 64 ≤ (m.place + m.bytes - 1) / 64)

/-- Whether the oldest message of the agent's inbox can start (R189): fewer than 8 in flight, none of them to
a line that it touches, and no handler running or about to run. -/
def State.canStart (s : State) (tile : Nat) : Bool :=
  let t := s.tile tile
  match t.inbox with
  | [] => false
  | m :: _ => t.inflight.length < 8 && t.handler.isNone
    && t.inflight.all fun f => f.msg.op ≠ .rcall && !f.msg.sharesLine m

/-- The state of the agent's slot while it runs no handler: ready whenever the oldest message of its inbox can start, and
otherwise waiting for a message (R94, R189; log 27, DEDUCED). -/
def State.agentRest (s : State) (tile : Nat) : SlotState := if s.canStart tile then .ready else .waitingMessage

/-- The agent's slot, while it runs no handler, follows what the agent has to do. -/
def State.agentState (s : State) (tile : Nat) : State :=
  let core := stagingOf tile
  let st := (s.thread core 15).state
  if (s.tile tile).handler.isSome || !(st = .ready || st = .waitingMessage) || st = s.agentRest tile then s
  else s.enterState core 15 (s.agentRest tile) 0

/-- A change to what the agent of a tile has to do, with the state that it puts its slot in. -/
def State.modAgent (s : State) (tile : Nat) (f : Tile → Tile) : State := (s.modTile tile f).agentState tile

/-- Whether a slot leaves with a pending swap that begins in this cycle (R380, R381). -/
def State.leaving (s : State) (core slot : Nat) : Bool :=
  let c := s.core core
  c.swapAt.any (fun n => decide (n ≤ s.cycle)) && c.swapPend.any fun cmd => cmd.mask.getLsbD slot

/-- Whether a slot has a unit to issue, its time apart: it is ready, and no swap takes it; the agent's turn starts a message or, at its first
without one, begins to wait (R189); a thread waits while a run names a register of its next unit (R316) (log 27,
DEDUCED). -/
def State.wantsIssue (s : State) (core slot : Nat) : Bool :=
  (s.thread core slot).state = .ready && !s.leaving core slot
    && ((isAgent core slot && (s.tile (tileOfCore core)).handler.isNone) || !s.footHeld core slot)

/-- The first cycle in which a ready thread can issue: 16 cycles after its last issue, and not before it is ready (R22,
R96). -/
def Thread.issueFrom (t : Thread) : Nat :=
  match t.lastIssue with
  | none => t.readyAt
  | some c => max t.readyAt (c + 16)

/-- Whether a slot can issue in this cycle (R96). -/
def State.eligible (s : State) (core slot : Nat) : Bool :=
  s.wantsIssue core slot && (s.thread core slot).issueFrom ≤ s.cycle

/-- A core issues at most one unit per cycle (R98), and none once the semaphore unit of its tile has gone past the signals
and sets of the cycle (R346). -/
def State.issuedNow (s : State) (core : Nat) : Bool :=
  !s.inOrder (semUnit (tileOfCore core)) 0 ||
    (match (s.core core).lastUnit with
     | some (c, _, _) => c = s.cycle
     | none => false)

/-- A core that issues: not stopped, its die powered, its device out of reset. -/
def State.running (s : State) (core : Nat) : Bool :=
  let d := s.device (deviceOfCore core)
  !(s.core core).stopped && s.gateState core < 2 && !d.held && !d.inReset

/-- The slot that the rotation of a core gives this cycle (R96). -/
def State.turnOf (s : State) (core : Nat) : Option Nat :=
  if s.issuedNow core || !s.running core then none
  else
    let k := s.now (deviceOfCore core) % 16
    ((List.range 16).map fun j => (k + j) % 16).find? (s.eligible core)

/-- The devices of the domain as a device's DOMCFG lays it out, that device among them (R423). -/
def State.domainDevices (s : State) (own : Nat) : List Nat :=
  let w := s.reg3 (own * 512) 0x370000
  if bitOf w 63 then
    insertNat own ((List.range (bitsOf w 49 43 * 16)).filter fun d => d % 16 < bitsOf w 42 38)
  else [own]

/-- The cores of a device (R103). -/
def coresOf (dev : Nat) : List Nat := (List.range 1024).map (dev * 1024 + ·)

/-- The cores whose rotations the cycles follow: every core of the domain of the core in focus, and every core that the
state lists (R96, R423). -/
def State.ticking (s : State) : List Nat :=
  s.focus :: s.cores.map Prod.fst ++ (s.domainDevices (deviceOfCore s.focus)).flatMap coresOf

/-- The slot that issues in this cycle (R96). Within a cycle the staging core of a tile issues before its compute core
(log 113, DESIGN CHOICE). -/
def State.pick (s : State) (core : Nat) : Option Nat :=
  if isCompute core && (s.turnOf (stagingOf (tileOfCore core))).isSome then none else s.turnOf core

/-- The first cycle from now on in which a core issues as it stands (R96, R97). -/
def State.nextIssue (s : State) (core : Nat) : Option Nat :=
  if !s.running core then none
  else
    let now := if s.issuedNow core then s.cycle + 1 else s.cycle
    lowest (((List.range 16).filter (s.wantsIssue core)).map fun k => max now (s.thread core k).issueFrom)

/-! The semaphore unit (R269, R270, R346). -/

def isSem : Wait → Bool
  | .sem .. => true
  | _ => false

/-- An xfer that has not asked for its record. -/
def isUnreserved : Wait → Bool
  | .release (.xfer _ false) => true
  | _ => false

/-- SEMLIM of a tile. -/
def State.semLimit (s : State) (tile : Nat) : Nat := bitsOf (s.reg2 tile 0x380) 31 0

/-- Whether a semaphore has its count for the waiter of a slot: it is the oldest, and w is there (R269). -/
def State.semReady (s : State) (core slot n w : Nat) : Bool :=
  let tile := tileOfCore core
  decide (w ≤ s.semCount tile n) &&
    (match (s.tile tile).semQ.find? fun x => x.sem = n with
     | some x => x.core = core && x.slot = slot
     | none => false)

/-- Whether the cores of a tile have made their issues of this cycle. -/
def State.issuesDone (s : State) (tile : Nat) : Bool :=
  (s.pick (stagingOf tile)).isNone && (s.pick (computeOf tile)).isNone

/-- Whether the semaphore unit of a tile has come to a place of its order: the cores have made their signals and sets. -/
def State.semPhase (s : State) (tile key : Nat) : Bool := s.inOrder (semUnit tile) key && s.issuesDone tile

/-- The slot's issue is recorded (R96). -/
def State.markIssue (s : State) (core slot : Nat) : State :=
  let s := s.modThread core slot fun t => { t with lastIssue := some s.cycle }
  s.modCore core fun c => { c with lastUnit := some (s.cycle, slot, (s.thread core slot).pc) }

/-! The samples of the level sources (R402). -/

/-- An enabled gauge with a level source. -/
def Gauge.isLevel (g : Gauge) : Bool := bitOf g.cfg 0 && decide (8 ≤ bitsOf g.cfg 15 8)

def levelTimer (core : Nat) : Nat := 2 ^ 80 + core

/-- The next cycle in which a core samples its level sources: each cycle, once. -/
def State.levelNext (s : State) (core : Nat) : Option Nat :=
  if (List.range 4).any fun i => ((s.core core).gauge i).isLevel then
    some (if SMap.get 0 s.timers (levelTimer core) = s.cycle + 1 then s.cycle + 1 else s.cycle)
  else none

/-- Whether a core has still to sample its level sources in this cycle. -/
def State.levelDue (s : State) (core : Nat) : Bool := s.levelNext core = some s.cycle

end Sys2Proof.Machine
end

