-- ==== Sys2Proof/Machine/Tiles.lean ====
section
/-! DEFINITION. Tiles.lean: the engine state of a compute core as its forms read and write it (R256, R257), and
compressed objects (R308, R309, R311). -/

namespace Sys2Proof.Machine

/-! Engine registers. Register 8 is the operand latch. -/

def EngineRegs.row (e : EngineRegs) (t i : Nat) : BitVec 512 := SMap.get 0 e.rows (32 * t + i)
def EngineRegs.fill (e : EngineRegs) (t : Nat) : BitVec 32 := SMap.get 0 e.mask t
def EngineRegs.rowPoison (e : EngineRegs) (t : Nat) : BitVec 32 := SMap.get 0 e.pois t
def EngineRegs.index (e : EngineRegs) (t i : Nat) : W64 := SMap.get 0 e.idx (32 * t + i)
def EngineRegs.accWord (e : EngineRegs) (a w : Nat) : Nat := (SMap.get 0 e.acc (1024 * a + w)).toNat

def EngineRegs.setFill (e : EngineRegs) (t : Nat) (m : BitVec 32) : EngineRegs :=
  { e with mask := SMap.set e.mask t m }
def EngineRegs.setPoison (e : EngineRegs) (t : Nat) (m : BitVec 32) : EngineRegs :=
  { e with pois := SMap.set e.pois t m }
def EngineRegs.setValid (e : EngineRegs) (t : Nat) (v : Bool) : EngineRegs :=
  { e with ivalid := BitVec.ofNat 8 ((e.ivalid.toNat &&& (255 - 2 ^ t)) + bit01 v * 2 ^ t) }
def EngineRegs.setRow (e : EngineRegs) (t i : Nat) (r : BitVec 512) : EngineRegs :=
  { e with rows := SMap.set e.rows (32 * t + i) r }
def EngineRegs.setAcc (e : EngineRegs) (a w x : Nat) : EngineRegs :=
  { e with acc := SMap.set e.acc (1024 * a + w) (BitVec.ofNat 32 x) }

/-- The words of an accumulator, word 0 first. -/
def EngineRegs.accWords (e : EngineRegs) (a : Nat) : List Nat := (List.range 1024).map (e.accWord a)

def EngineRegs.setAccWords (e : EngineRegs) (a : Nat) (l : List Nat) : EngineRegs :=
  l.zipIdx.foldl (fun e p => e.setAcc a p.2 p.1) e

/-- One bit of a row mask. -/
def setMaskBit (m : BitVec 32) (i : Nat) (b : Bool) : BitVec 32 :=
  BitVec.ofNat 32 ((m.toNat &&& (2 ^ 32 - 1 - 2 ^ i)) + bit01 b * 2 ^ i)

/-- A row is delivered: bytes, mask bit and poison bit; the index-valid bit clears (R257). -/
def EngineRegs.deliver (e : EngineRegs) (t i : Nat) (l : List PByte) : EngineRegs :=
  let e := e.setRow t i (BitVec.ofNat 512 (numberOf l))
  let e := (e.setFill t (setMaskBit (e.fill t) i true)).setPoison t (setMaskBit (e.rowPoison t) i (poisoned l))
  if t < 8 then e.setValid t false else e

/-- 16-bit element `k` and byte `k` of a row. -/
def half (r : BitVec 512) (k : Nat) : Nat := r.toNat / 2 ^ (16 * k) % 2 ^ 16
def rowByte (r : BitVec 512) (k : Nat) : Nat := r.toNat / 2 ^ (8 * k) % 256

/-- The bank of tile state that work issued under `gen` keeps to (R384). -/
def State.engRegs (s : State) (tile gen : Nat) : EngineRegs :=
  if gen = (s.tile tile).engGen then (s.tile tile).eng
  else ((s.core (computeOf tile)).shadowTile.regs).getD EngineRegs.reset

def State.setEng (s : State) (tile gen : Nat) (e : EngineRegs) : State :=
  if gen = (s.tile tile).engGen then s.modTile tile fun t => { t with eng := e }
  else s.modCore (computeOf tile) fun c => { c with shadowTile := { c.shadowTile with regs := some e } }

/-- The registers that a queued instruction reads (R260). -/
def EngineForm.reads : EngineForm → List Nat
  | .product fn o =>
    let a := o.a.toNat
    let b := o.b.toNat
    (if o.lat then [8] else if fn = 3 then [a, a + 1] else [a]) ++ (if fn = 4 then [b, b + 1] else [b])
  | .sparsify o => [o.a.toNat, o.a.toNat + 1]
  | _ => []

/-- Whether a queued instruction accepted below a number still reads a register (R260). -/
def State.engReads (s : State) (tile t fence : Nat) : Bool :=
  (s.tile tile).engineQ.any fun q => decide (q.fence < fence) && q.form.reads.contains t

/-! Compressed objects. -/

/-- An offset table entry (Table 11.11). -/
structure OffEntry where
  valid : Bool
  used : Nat
  rsv : Nat
  off : Nat
  deriving DecidableEq, Repr

def OffEntry.ofWord (w : W64) : OffEntry := ⟨bitOf w 63, bitsOf w 55 48, bitsOf w 47 40, bitsOf w 31 0⟩
def OffEntry.word (e : OffEntry) : W64 := w64 (bit01 e.valid * 2 ^ 63 + e.used * 2 ^ 48 + e.rsv * 2 ^ 40 + e.off)

/-- A reserved field nonzero or rsv outside 1 to 37 (R309). -/
def entryBroken (w : W64) : Bool :=
  bitsOf w 62 56 ≠ 0 || bitsOf w 39 32 ≠ 0 || bitsOf w 5 0 ≠ 0 || bitsOf w 47 40 = 0 || 37 < bitsOf w 47 40

/-- The types of a compressed object: 8, 16 or 32 bits. -/
def objectType (code : Nat) : Option ElemTy :=
  match ElemTy.ofCode (BitVec.ofNat 4 code) with
  | some ty => if code < 16 ∧ (ty.bits = 8 ∨ ty.bits = 16 ∨ ty.bits = 32) then some ty else none
  | none => none

/-- An object read back: its type, and its elements with their poison. -/
structure Object where
  ty : ElemTy
  elems : List (Nat × Bool)
  deriving DecidableEq, Repr

/-- Consecutive groups of `n`, at most `fuel` of them. -/
def chunks {α : Type} (n : Nat) : Nat → List α → List (List α)
  | 0, _ => []
  | fuel + 1, l => if l.isEmpty then [] else l.take n :: chunks n fuel (l.drop n)

/-- The elements of an object: the kept ones in order where the mask has a bit, else zero. -/
def placeKept (mask : Nat) (bad : Bool) : Nat → Nat → List (Nat × Bool) → List (Nat × Bool)
  | _, 0, _ => []
  | i, n + 1, kept =>
    if mask.testBit i then
      match kept with
      | x :: r => (x.1, x.2 || bad) :: placeKept mask bad (i + 1) n r
      | [] => (0, bad) :: placeKept mask bad (i + 1) n []
    else (0, bad) :: placeKept mask bad (i + 1) n kept

/-- An object from the bytes of its reservation, when it is well formed (Table 11.10, R312 reason 0x03). A poisoned
word of header or mask poisons every element. -/
def parseObject (bytes : List PByte) : Option Object :=
  let num := fun (at0 n : Nat) => numberOf ((bytes.drop at0).take n)
  match objectType (num 0 1) with
  | none => none
  | some ty =>
    let w := ty.bits / 8
    let n := num 2 2
    let nz := num 4 2
    let len := num 6 2
    let mask := num 8 (n / 8)
    if num 1 1 ≠ 1 ∨ n % 64 ≠ 0 ∨ 2048 < n * w ∨ popCount n mask ≠ nz ∨ len ≠ 8 + n / 8 + nz * w
        ∨ bytes.length < len then none
    else
      let bad := poisoned (bytes.take (8 + n / 8))
      let vals := (chunks w nz ((bytes.drop (8 + n / 8)).take (nz * w))).map fun l => (numberOf l, poisoned l)
      some ⟨ty, placeKept mask bad 0 n vals⟩

/-- The bytes of an object that holds elements of a type, in whole chunks of 64 (R308). A word computed from a
poisoned element is poisoned: the element's own, its mask word, and the word of nz and length (R359)
(log 39, DEDUCED). -/
def buildObject (ty : ElemTy) (elems : List (Nat × Bool)) : List PByte :=
  let w := ty.bits / 8
  let n := elems.length
  let kept := elems.filter fun e => e.1 ≠ 0
  let len := 8 + n / 8 + kept.length * w
  let bytes := fun (k x : Nat) (p : Bool) => (bytesOf k x).map fun b => (b, p)
  let mask := (chunks 32 n elems).flatMap fun l =>
    bytes 4 (packNat 1 (l.map fun e => bit01 (e.1 ≠ 0))) (l.any Prod.snd)
  let body := bytes 1 ty.code.toNat false ++ bytes 1 1 false ++ bytes 2 n false
    ++ bytes 2 kept.length (elems.any Prod.snd) ++ bytes 2 len (elems.any Prod.snd) ++ mask
    ++ kept.flatMap fun e => bytes w e.1 e.2
  body ++ List.replicate ((64 - body.length % 64) % 64) (0, false)

end Sys2Proof.Machine
end

