-- ==== Sys2Proof/Machine/Vector.lean ====
section
/-! DEFINITION. Vector.lean: major opcodes 0x40 to 0x48: lane arithmetic, compares, permutes, conversions,
reductions and the long vector forms (R143 to R154). -/

namespace Sys2Proof.Machine

/-- Whether a lane is read as signed (R144). -/
def signedTy (ty : ElemTy) (uns : Bool) : Bool := !(uns || ty = .u8)

/-- The integer that a lane holds under the reading of R144. -/
def laneInt (ty : ElemTy) (uns : Bool) (x : Nat) : Int :=
  if signedTy ty uns then signedOf ty.bits x else (x % 2 ^ ty.bits : Nat)

/-- A lane form: each lane that is on takes a new value and mark, any other keeps its own. -/
def State.laneResult (s : State) (g : Guard) (ty : ElemTy) (d : Nat) (f : Nat → Nat × Bool) : VVal :=
  mergeLanes ty.bits (s.cth.regs.getV d)
    ((List.range ty.lanes).map fun i => if s.laneOn g ty i then some (f i) else none)

def State.laneForm (s : State) (g : Guard) (ty : ElemTy) (d : Nat) (f : Nat → Nat × Bool) :
    Host.Outcome State Fault Refusal :=
  .next (s.wV d (s.laneResult g ty d f)).advance

/-- A function of two lanes. -/
def State.binLane (s : State) (ty : ElemTy) (a b : Nat) (f : Nat → Nat → Nat) (i : Nat) : Nat × Bool :=
  let x := s.rV a
  let y := s.rV b
  (f (laneOf x.bits ty.bits i) (laneOf y.bits ty.bits i), x.lanePoison ty.bits i || y.lanePoison ty.bits i)

def vecOp (o : VVV) (s : State) (f : Nat → Nat → Nat) : Host.Outcome State Fault Refusal :=
  s.laneForm o.g o.ty o.d.toNat (s.binLane o.ty o.a.toNat o.b.toNat f)

/-- An integer function under the reading of R144, wrapped (R148). -/
def intOp (o : VVV) (s : State) (f : Int → Int → Int) : Host.Outcome State Fault Refusal :=
  vecOp o s fun x y => wrapTo o.ty.bits (f (laneInt o.ty o.uns x) (laneInt o.ty o.uns y))

def execVadd (o : VVV) (s : State) := intOp o s fun x y => x + y
def execVsub (o : VVV) (s : State) := intOp o s fun x y => x - y
def execVmul (o : VVV) (s : State) := intOp o s fun x y => x * y
def execVmin (o : VVV) (s : State) := intOp o s fun x y => if y < x then y else x
def execVmax (o : VVV) (s : State) := intOp o s fun x y => if x < y then y else x
def execVand (o : VVV) (s : State) := vecOp o s fun x y => x &&& y
def execVor (o : VVV) (s : State) := vecOp o s fun x y => x ||| y
def execVxor (o : VVV) (s : State) := vecOp o s fun x y => x ^^^ y
def execVsll (o : VVV) (s : State) := vecOp o s fun x y => x * 2 ^ (y % o.ty.bits) % 2 ^ o.ty.bits
def execVsrl (o : VVV) (s : State) := vecOp o s fun x y => x / 2 ^ (y % o.ty.bits)
def execVsra (o : VVV) (s : State) :=
  vecOp o s fun x y => wrapTo o.ty.bits (signedOf o.ty.bits x / ((2 ^ (y % o.ty.bits) : Nat) : Int))
def execVadds (o : VVV) (s : State) :=
  intOp o s fun x y =>
    let sg := signedTy o.ty o.uns
    clampInt (intMin o.ty.bits sg) (intMax o.ty.bits sg) (x + y)

/-- A floating lane function; CF32 takes pairs, the real part low (R132, R145). -/
def fpLane (ty : ElemTy) (f : Fmt → Nat → Nat → Nat) (fc : Nat × Nat → Nat × Nat → Nat × Nat) (x y : Nat) : Nat :=
  if ty = .c32 then
    let r := fc (x % 2 ^ 32, x / 2 ^ 32) (y % 2 ^ 32, y / 2 ^ 32)
    r.1 + r.2 * 2 ^ 32
  else f (fmtOf ty) x y

def fpOp (o : VVV) (s : State) (f : Fmt → Nat → Nat → Nat) (fc : Nat × Nat → Nat × Nat → Nat × Nat) :
    Host.Outcome State Fault Refusal :=
  vecOp o s (fpLane o.ty f fc)

/-- A function of each part. -/
def onParts (f : Nat → Nat → Nat) (x y : Nat × Nat) : Nat × Nat := (f x.1 y.1, f x.2 y.2)

/-- The words of the CF32 lanes that are on, each part computed, and marked, by itself (R132, R359). -/
def State.partsResult (s : State) (g : Guard) (d a b : Nat) (f : Nat → Nat → Nat) : VVal :=
  mergeLanes 32 (s.cth.regs.getV d)
    ((List.range 32).map fun k => if s.laneOn g .c32 (k / 2) then some (s.binLane .f32 a b f k) else none)

/-- A sum or difference: CF32 acts on each part. -/
def sumOp (o : VVV) (s : State) (f : Fmt → Nat → Nat → Nat) : Host.Outcome State Fault Refusal :=
  if o.ty = .c32 then .next (s.wV o.d.toNat (s.partsResult o.g o.d.toNat o.a.toNat o.b.toNat (f Fmt.f32))).advance
  else vecOp o s (f (fmtOf o.ty))

def execVfadd (o : VVV) (s : State) := sumOp o s Fmt.add
def execVfsub (o : VVV) (s : State) := sumOp o s Fmt.sub
def execVfmul (o : VVV) (s : State) := fpOp o s Fmt.mul cmul32
def execVfmin (o : VVV) (s : State) := fpOp o s Fmt.min (onParts Fmt.f32.min)
def execVfmax (o : VVV) (s : State) := fpOp o s Fmt.max (onParts Fmt.f32.max)

/-- vfma: one rounding of the exact x × y + z (R148). -/
def execVfma (o : VVVV) (s : State) : Host.Outcome State Fault Refusal :=
  let w := o.ty.bits
  let x := s.rV o.a.toNat
  let y := s.rV o.b.toNat
  let z := s.rV o.c.toNat
  s.laneForm o.g o.ty o.d.toNat fun i =>
    ((fmtOf o.ty).fma (laneOf x.bits w i) (laneOf y.bits w i) (laneOf z.bits w i),
      x.lanePoison w i || y.lanePoison w i || z.lanePoison w i)

/-- A function of one lane. -/
def State.unLane (s : State) (ty : ElemTy) (a : Nat) (f : Nat → Nat) (i : Nat) : Nat × Bool :=
  let x := s.rV a
  (f (laneOf x.bits ty.bits i), x.lanePoison ty.bits i)

def vecUn (o : VV) (s : State) (f : Nat → Nat) : Host.Outcome State Fault Refusal :=
  s.laneForm o.g o.ty o.d.toNat (s.unLane o.ty o.a.toNat f)

/-- vfabs and vfneg change the sign bit only (R129). -/
def execVfabs (o : VV) (s : State) := vecUn o s fun x => x % (fmtOf o.ty).signBit
def execVfneg (o : VV) (s : State) :=
  vecUn o s fun x =>
    let m := (fmtOf o.ty).signBit
    if x / m % 2 = 1 then x - m else x + m

/-- A vector compare: the lanes that are on are consumed, and the predicate is written by R150. -/
def vcmpOp (o : PVV) (s : State) (cond : Nat → Nat → Bool) : Host.Outcome State Fault Refusal :=
  s.finish (do
    let w := o.ty.bits
    let on := s.lanesOn o.g o.ty
    let x ← s.useV o.a.toNat (wordsOf w on)
    let y ← s.useV o.b.toNat (wordsOf w on)
    let p := comparePred o.ty (s.cth.regs.getP o.d.toNat) (s.laneOn o.g o.ty)
      fun i => cond (laneOf x.bits w i) (laneOf y.bits w i)
    return .done (s.wP o.d.toNat p))

def vcmpInt (o : PVV) (s : State) (c : Cond) : Host.Outcome State Fault Refusal :=
  vcmpOp o s fun x y => c.holdsInt (laneInt o.ty o.uns x) (laneInt o.ty o.uns y)

def execVcmpeq (o : PVV) (s : State) := vcmpInt o s .eq
def execVcmpne (o : PVV) (s : State) := vcmpInt o s .ne
def execVcmplt (o : PVV) (s : State) := vcmpInt o s .lt
def execVcmple (o : PVV) (s : State) := vcmpInt o s .le

def vcmpFp (o : PVV) (s : State) (c : FVal → FVal → Bool) : Host.Outcome State Fault Refusal :=
  vcmpOp o s fun x y => c ((fmtOf o.ty).decode x) ((fmtOf o.ty).decode y)

def execVfcmpeq (o : PVV) (s : State) := vcmpFp o s FVal.eq
def execVfcmplt (o : PVV) (s : State) := vcmpFp o s FVal.lt
def execVfcmple (o : PVV) (s : State) := vcmpFp o s fun x y => x.lt y || x.eq y
def execVfcmpun (o : PVV) (s : State) := vcmpFp o s fun x y => x.isNan || y.isNan

/-! Permutes (R151). -/

def execVperm (o : VVV) (s : State) : Host.Outcome State Fault Refusal :=
  let w := o.ty.bits
  let x := s.rV o.a.toNat
  let y := s.rV o.b.toNat
  s.laneForm o.g o.ty o.d.toNat fun i =>
    let j := laneOf y.bits w i % o.ty.lanes
    (laneOf x.bits w j, x.lanePoison w j || y.lanePoison w i)

def execVbcast (o : VST) (s : State) : Host.Outcome State Fault Refusal :=
  let x := s.rS o.a.toNat
  s.laneForm o.g o.ty o.d.toNat fun _ => (x.bits.toNat % 2 ^ o.ty.bits, x.poison)

def execVrot (o : VVST) (s : State) : Host.Outcome State Fault Refusal :=
  let w := o.ty.bits
  let x := s.rV o.a.toNat
  let k := s.rS o.b.toNat
  s.laneForm o.g o.ty o.d.toNat fun i =>
    let j := (i + k.bits.toNat) % o.ty.lanes
    (laneOf x.bits w j, x.lanePoison w j || k.poison)

/-- vsel takes each lane, and its mark, from the source it chooses (R151, R359). -/
def execVsel (o : VVVP) (s : State) : Host.Outcome State Fault Refusal :=
  let w := o.ty.bits
  let x := s.rV o.a.toNat
  let y := s.rV o.b.toNat
  let p := s.rP o.c.toNat
  s.laneForm o.g o.ty o.d.toNat fun i =>
    let v := if p.getLsbD (gbit o.ty i) then x else y
    (laneOf v.bits w i, v.lanePoison w i)

/-- A lane as a scalar result: sign-extended for a signed integer type, zero-extended otherwise. -/
def extendLane (ty : ElemTy) (uns : Bool) (x : Nat) : W64 :=
  if ty.isInt && signedTy ty uns then sext64 ty.bits x else w64 x

def execVextr (o : SVST) (s : State) : Host.Outcome State Fault Refusal :=
  let w := o.ty.bits
  let x := s.rV o.a.toNat
  let k := s.rS o.b.toNat
  let j := k.bits.toNat % o.ty.lanes
  if s.laneOn o.g o.ty j then
    .next (s.wS o.d.toNat ⟨extendLane o.ty false (laneOf x.bits w j), x.lanePoison w j || k.poison⟩).advance
  else .next s.advance

def execVins (o : VSST) (s : State) : Host.Outcome State Fault Refusal :=
  let w := o.ty.bits
  let x := s.rS o.a.toNat
  let k := s.rS o.b.toNat
  let j := k.bits.toNat % o.ty.lanes
  let new := (List.range o.ty.lanes).map fun i =>
    if i = j ∧ s.laneOn o.g o.ty j then some (x.bits.toNat % 2 ^ w, x.poison || k.poison) else none
  .next (s.wV o.d.toNat (mergeLanes w (s.cth.regs.getV o.d.toNat) new)).advance

/-! Conversions (R130, R131, R152). -/

/-- One element converted. -/
def cvtElem (dst src : ElemTy) (rnd : Rnd) (x : Nat) : Nat :=
  let sd := signedTy dst false
  let lo := intMin dst.bits sd
  let hi := intMax dst.bits sd
  if src.isInt then
    let v := laneInt src false x
    if dst.isInt then wrapTo dst.bits (if rnd = .sat then clampInt lo hi v else v)
    else (fmtOf dst).ofInt rnd v
  else
    let v := (fmtOf src).decode x
    if dst.isInt then wrapTo dst.bits (v.toInt rnd lo hi) else (fmtOf dst).round rnd v

/-- vcvt with FP64 on either side names scalar registers. -/
def cvtScalar (o : CvtF) (s : State) : Host.Outcome State Fault Refusal :=
  complete o.g s fun s =>
    let x := s.rS o.a.toNat
    let r := cvtElem o.dst o.src o.rnd (x.bits.toNat % 2 ^ o.src.bits)
    .ok (.done (s.wS o.d.toNat ⟨extendLane o.dst false r, x.poison⟩))

/-- The lane conversion: `part` picks the destination lanes of a narrowing, the source lanes of a widening. -/
def cvtVector (o : CvtF) (s : State) : Host.Outcome State Fault Refusal :=
  let ns := o.src.lanes
  let nd := o.dst.lanes
  let x := s.rV o.a.toNat
  let p := o.part.toNat
  let elem := fun i => (cvtElem o.dst o.src o.rnd (laneOf x.bits o.src.bits i), x.lanePoison o.src.bits i)
  let new := (List.range nd).map fun j =>
    if !s.laneOn o.g o.dst j then none
    else if ns < nd then (if p * ns ≤ j ∧ j < p * ns + ns then some (elem (j - p * ns)) else none)
    else some (elem (p * nd + j))
  .next (s.wV o.d.toNat (mergeLanes o.dst.bits (s.cth.regs.getV o.d.toNat) new)).advance

def execVcvt (o : CvtF) (s : State) : Host.Outcome State Fault Refusal :=
  if o.dst = .f64 ∨ o.src = .f64 then cvtScalar o s else cvtVector o s

/-! Reductions and dot products (R138 to R140, R153). -/

/-- A scalar made from the lanes that are on. -/
def reduceOp (o : SVT) (s : State) (f : List Nat → W64) : Host.Outcome State Fault Refusal :=
  let w := o.ty.bits
  let x := s.rV o.a.toNat
  let on := s.lanesOn o.g o.ty
  .next (s.wS o.d.toNat ⟨f (on.map (laneOf x.bits w)), on.any (x.lanePoison w)⟩).advance

def execVredadd (o : SVT) (s : State) :=
  reduceOp o s fun l => w64i ((l.map (laneInt o.ty o.uns)).foldl (· + ·) 0)

/-- A lane as FP32, exactly. -/
def toF32 (ty : ElemTy) (x : Nat) : Nat := Fmt.f32.rne ((fmtOf ty).decode x)

def execVfredadd (o : SVT) (s : State) : Host.Outcome State Fault Refusal :=
  let w := o.ty.bits
  let x := s.rV o.a.toNat
  let lane := fun i => if s.laneOn o.g o.ty i then toF32 o.ty (laneOf x.bits w i) else negZero32
  let r := treeSum add32 0 6 ((List.range o.ty.lanes).map lane)
  .next (s.wS o.d.toNat ⟨w64 r, (s.lanesOn o.g o.ty).any (x.lanePoison w)⟩).advance

/-- The least or greatest included lane. -/
def reduceBy (pick : Nat → Nat → Nat) (dflt : Nat) : List Nat → Nat
  | [] => dflt
  | x :: r => r.foldl pick x

def pickInt (ty : ElemTy) (uns less : Bool) (x y : Nat) : Nat :=
  let b := laneInt ty uns y < laneInt ty uns x
  if less = b then y else x

def execVredmin (o : SVT) (s : State) : Host.Outcome State Fault Refusal :=
  reduceOp o s fun l =>
    if o.ty.isInt then
      extendLane o.ty o.uns
        (reduceBy (pickInt o.ty o.uns true) (wrapTo o.ty.bits (intMax o.ty.bits (signedTy o.ty o.uns))) l)
    else
      let f := fmtOf o.ty
      w64 (f.min f.infBits (reduceBy f.min f.infBits l))

def execVredmax (o : SVT) (s : State) : Host.Outcome State Fault Refusal :=
  reduceOp o s fun l =>
    if o.ty.isInt then
      extendLane o.ty o.uns
        (reduceBy (pickInt o.ty o.uns false) (wrapTo o.ty.bits (intMin o.ty.bits (signedTy o.ty o.uns))) l)
    else
      let f := fmtOf o.ty
      let lo := f.signBit + f.infBits
      w64 (f.max lo (reduceBy f.max lo l))

/-- Blocks of 32 products summed by the tree and added in ascending order (R138). -/
def dotBlocks : Nat → Nat → List Nat → Nat
  | 0, acc, _ => acc
  | fuel + 1, acc, l => if l = [] then acc else dotBlocks fuel (add32 acc (tree32 (l.take 32))) (l.drop 32)

def execVfdot (o : DotF) (s : State) : Host.Outcome State Fault Refusal :=
  let w := o.ty.bits
  let f := fmtOf o.ty
  let x := s.rV o.a.toNat
  let y := s.rV o.b.toNat
  let acc := s.rS o.c.toNat
  let prod := fun i =>
    if s.laneOn o.g o.ty i then
      Fmt.f32.rne ((f.decode (laneOf x.bits w i)).mul (f.decode (laneOf y.bits w i)))
    else negZero32
  let r := dotBlocks 4 (acc.bits.toNat % 2 ^ 32) ((List.range o.ty.lanes).map prod)
  let p := acc.poison || (s.lanesOn o.g o.ty).any fun i => x.lanePoison w i || y.lanePoison w i
  .next (s.wS o.d.toNat ⟨w64 r, p⟩).advance

/-! Long vector forms (R141, R142, R154). -/

/-- The thread waits for a result that the core delivers after `cycles`; with no lane on there is none to deliver, and it
only goes on (R39, R41, R154; log 132, DESIGN CHOICE). -/
def State.longVector (s : State) (g : Guard) (ty : ElemTy) (d : Nat) (v : VVal) (cycles : Nat) : State :=
  if s.lanesOn g ty = [] then s.advance else s.waitOn .waitingMemory (.vector d v (s.cycle + cycles))

def longUn (o : VV) (s : State) (f : Fmt → Nat → Nat) : Host.Outcome State Fault Refusal :=
  .next (s.longVector o.g o.ty o.d.toNat
    (s.laneResult o.g o.ty o.d.toNat (s.unLane o.ty o.a.toNat (f (fmtOf o.ty)))) 32)

def execVrcp (o : VV) (s : State) := longUn o s Fmt.rcp
def execVrsq (o : VV) (s : State) := longUn o s Fmt.rsqrt
def execVexp2 (o : VV) (s : State) := longUn o s Fmt.exp2
def execVlog2 (o : VV) (s : State) := longUn o s Fmt.log2
def execVfsqrt (o : VV) (s : State) := longUn o s Fmt.sqrt

def execVfdiv (o : VVV) (s : State) : Host.Outcome State Fault Refusal :=
  .next (s.longVector o.g o.ty o.d.toNat
    (s.laneResult o.g o.ty o.d.toNat (s.binLane o.ty o.a.toNat o.b.toNat ((fmtOf o.ty).div))) 32)

/-- The quotient of a vdiv lane (R154). -/
def laneDiv (ty : ElemTy) (uns : Bool) (x y : Nat) : Nat :=
  let w := ty.bits
  let a := laneInt ty uns x
  let b := laneInt ty uns y
  if b = 0 then 2 ^ w - 1 else wrapTo w (a.tdiv b)

/-- vdiv: with dzt set, a zero divisor in a lane that is on traps before any lane is written. -/
def execVdiv (o : VVV) (s : State) : Host.Outcome State Fault Refusal :=
  let y := s.rV o.b.toNat
  if s.cth.dzt ∧ (s.lanesOn o.g o.ty).any fun i => laneOf y.bits o.ty.bits i = 0 then
    .next (s.raise (.trap 0x06 0))
  else
    .next (s.longVector o.g o.ty o.d.toNat
      (s.laneResult o.g o.ty o.d.toNat (s.binLane o.ty o.a.toNat o.b.toNat (laneDiv o.ty o.uns))) 40)

def isVector : Wait → Bool
  | .vector .. => true
  | _ => false

/-- VECTOR_LONG_RESULT (R154). -/
def execVectorLongResult (core slot : Nat) (s : State) : Host.Outcome State Fault Refusal :=
  match (s.thread core slot).findWait isVector with
  | some ⟨_, _, .vector d v due⟩ =>
    if due ≤ s.cycle then .next (s.endWait core slot isVector fun t => t.setV d v) else notDue s
  | _ => notDue s

/-- vmovi fills every 64-bit lane that is on (R149). -/
def execVmovi (o : VI) (s : State) : Host.Outcome State Fault Refusal :=
  s.laneForm o.g .i64 o.d.toNat fun _ => (o.imm.toNat, false)

end Sys2Proof.Machine
end

