-- ==== Sys2Proof/Machine/EngineMath.lean ====
section
/-! DEFINITION. EngineMath.lean: what the matrix engine computes: products (R262 to R264), sparsification (R265) and
the butterfly forms (R273 to R285). -/

namespace Sys2Proof.Machine

/-! Products. -/

/-- Element `k` of row `i` of a pair of 16-bit tile registers. -/
def EngineRegs.pairHalf (e : EngineRegs) (t i k : Nat) : Nat :=
  if k < 32 then half (e.row t i) k else half (e.row (t + 1) i) (k - 32)

def halfFmt (fh : Bool) : Fmt := if fh then .f16 else .bf16

/-- The 64 values of row `i` of a sparse operand, expanded (R264) (log 94, DEDUCED). -/
def EngineRegs.expandRow (e : EngineRegs) (t i : Nat) : List Nat :=
  (List.range 64).map fun k =>
    let g := k / 4
    let w := bitsOf (e.index t i) (4 * g + 3) (4 * g)
    if k % 4 = w / 4 then half (e.row t i) (2 * g + 1)
    else if k % 4 = w % 4 then half (e.row t i) (2 * g)
    else 0

/-- The rounded products of element (i, j) of a floating form. -/
def EngineRegs.products (e : EngineRegs) (fn : Nat) (o : MmaF) (i j : Nat) : List Nat :=
  let a := if o.lat then 8 else o.a.toNat
  let b := o.b.toNat
  let p := fun x y : FVal => Fmt.f32.rne (x.mul y)
  match fn with
  | 3 =>
    let f := halfFmt o.fh
    (List.range 64).map fun k => Fmt.f32.rne
      (tswProduct (f.decode (e.pairHalf a i k)) (rowByte (e.row b j) k) ((o.e.toNat : Int) - 127))
  | 4 =>
    let f := halfFmt o.fh
    (e.expandRow a i).zipIdx.map fun x => p (f.decode x.1) (f.decode (e.pairHalf b j x.2))
  | n =>
    let f := halfFmt (n = 1)
    (List.range 32).map fun k => p (f.decode (half (e.row a i) k)) (f.decode (half (e.row b j) k))

/-- The exact sum of 64 INT8 products (R139). -/
def EngineRegs.intDot (e : EngineRegs) (a b i j : Nat) : Int :=
  ((List.range 64).map fun k => signedOf 8 (rowByte (e.row a i) k) * signedOf 8 (rowByte (e.row b j) k)).sum

/-- A product form: ad := ad + A × Bᵀ (R262, R324). -/
def EngineRegs.product (e : EngineRegs) (fn : Nat) (o : MmaF) : EngineRegs :=
  let d := o.d.toNat
  let elem := fun w : Nat =>
    let i := w / 32
    let j := w % 32
    if fn = 2 then
      wrapTo 32 ((e.accWord d w : Int) + e.intDot (if o.lat then 8 else o.a.toNat) o.b.toNat i j)
    else dotBlocks 2 (e.accWord d w) (e.products fn o i j)
  e.setAccWords d ((List.range 1024).map elem)

/-! Sparsification. -/

/-- The rank of a magnitude: every NaN above infinity, and all of them equal. -/
def magRank (f : Fmt) (x : Nat) : Nat := Nat.min (x % f.signBit) (f.infBits + 1)

/-- The position of the greatest magnitude among `ps`, ties to the lower. -/
def greatest (rank : Nat → Nat) : List Nat → Nat
  | [] => 0
  | p :: r => r.foldl (fun m q => if rank m < rank q then q else m) p

/-- The kept positions of a group. -/
def keptPositions (rank : Nat → Nat) : Nat × Nat :=
  let p := greatest rank [0, 1, 2, 3]
  let q := greatest rank ([0, 1, 2, 3].filter (· ≠ p))
  (Nat.min p q, Nat.max p q)

/-- sparsify (R265): the source is read whole before the destination is written. -/
def EngineRegs.sparsify (e : EngineRegs) (o : SparF) : EngineRegs :=
  let f := halfFmt o.fh
  let d := o.d.toNat
  let row := fun i : Nat =>
    let groups := (List.range 16).map fun g =>
      let x := fun k : Nat => e.pairHalf o.a.toNat i (4 * g + k)
      let ps := keptPositions fun k => magRank f (x k)
      (ps.2 * 4 + ps.1, x ps.1, x ps.2)
    (BitVec.ofNat 512 (packNat 16 (groups.flatMap fun g => [g.2.1, g.2.2])), w64 (packNat 4 (groups.map Prod.fst)))
  let e' := ((List.range 32).map row).zipIdx.foldl (fun (r : EngineRegs) x =>
    { r.setRow d x.2 x.1.1 with idx := SMap.set r.idx (32 * d + x.2) x.1.2 }) e
  ((e'.setFill d (BitVec.allOnes 32)).setPoison d 0).setValid d true

/-! Butterfly mode: BFCTL (Table 10.8). -/

def bfN (bf : W64) : Nat := bitsOf bf 9 0
def bfNst (bf : W64) : Nat := bitsOf bf 49 46
def bfInv (bf : W64) : Bool := bitOf bf 50
def bfCode (bf : W64) (s : Nat) : Nat := bitsOf bf (21 + 3 * s) (19 + 3 * s)

/-- The radix of a code; 0 for an illegal one. -/
def radixOf (code : Nat) : Nat :=
  match code with
  | 1 => 2
  | 2 => 3
  | 3 => 4
  | 4 => 5
  | 5 => 8
  | _ => 0

def bfRad (bf : W64) (s : Nat) : Nat := radixOf (bfCode bf s)

/-- The product of the radices of stages `lo` to `hi - 1`. -/
def bfProd (bf : W64) (lo hi : Nat) : Nat := ((List.range (hi - lo)).map fun i => bfRad bf (lo + i)).prod

/-- What twset accepts (R273). -/
def bfOk (bf : W64) : Bool :=
  let nst := bfNst bf
  bitsOf bf 63 51 = 0 && bitsOf bf 18 10 = 0 && 1 ≤ nst && nst ≤ 9
    && ((List.range 9).all fun s => if s < nst then bfRad bf s ≠ 0 else bfCode bf s = 0)
    && bfProd bf 0 nst = bfN bf && 2 ≤ bfN bf && bfN bf ≤ 512

/-- A complex element of an accumulator, as bits. -/
def EngineRegs.elem (e : EngineRegs) (a k : Nat) : Nat × Nat := (e.accWord a (2 * k), e.accWord a (2 * k + 1))

def EngineRegs.setElem (e : EngineRegs) (a k : Nat) (x : Nat × Nat) : EngineRegs :=
  (e.setAcc a (2 * k) x.1).setAcc a (2 * k + 1) x.2

/-- The source of position `p` under drev: digits by m, weights by M (R275). -/
def drevSource (bf : W64) (p : Nat) : Nat :=
  let nst := bfNst bf
  ((List.range nst).map fun s => p / bfProd bf 0 s % bfRad bf s * bfProd bf (s + 1) nst).sum

/-- drev (R275). -/
def EngineRegs.drev (e : EngineRegs) (bf : W64) (d : Nat) : EngineRegs :=
  (List.range (bfN bf)).foldl (fun r p => r.setElem d p (e.elem d (drevSource bf p))) e

/-! Twiddles (R276): quarter-turn reduction, and a series of 320 fractional bits whose last bit stands for the rest
(log 7, DESIGN CHOICE). -/

/-- Σ (−1)^k y^(2k+1) / (2k+1)! from index k on, in units of 2^-320. -/
def sinTerms : Nat → Nat → Nat → Nat → Int
  | 0, _, _, _ => 0
  | fuel + 1, y2, k, term =>
    (if k % 2 = 0 then (term : Int) else -(term : Int))
      + sinTerms fuel y2 (k + 1) (term * y2 / 2 ^ 320 / ((2 * k + 2) * (2 * k + 3)))

/-- sin(x π / 2) for x = num / den in [0, 1], exact at 0, 1/3 and 1. -/
def sinQuarter (num den : Nat) : FVal :=
  if num = 0 then .zero false
  else if num = den then .fin 1 0
  else if 3 * num = den then .fin 1 (-1)
  else
    let y := num * piFix / (2 * den)
    .fin (2 * sinTerms 48 (y * y / 2 ^ 320) 0 y + 1) (-321)

/-- sin(2π e / T). -/
def sinTurn (e t : Nat) : FVal :=
  let q := 4 * e / t % 4
  let r := 4 * e % t
  match q with
  | 0 => sinQuarter r t
  | 1 => sinQuarter (t - r) t
  | 2 => (sinQuarter r t).negate
  | _ => (sinQuarter (t - r) t).negate

/-- cos(2π e / T). -/
def cosTurn (e t : Nat) : FVal :=
  let q := 4 * e / t % 4
  let r := 4 * e % t
  match q with
  | 0 => sinQuarter (t - r) t
  | 1 => (sinQuarter r t).negate
  | 2 => (sinQuarter (t - r) t).negate
  | _ => sinQuarter r t

/-- An exact zero rounds to +0. -/
def rneTurn (x : FVal) : Nat :=
  match x with
  | .zero _ => 0
  | x => Fmt.f32.rne x

/-- The twiddle of exponent e and length T. -/
def twiddle (inv : Bool) (e t : Nat) : Nat × Nat :=
  let s := rneTurn (sinTurn e t)
  (rneTurn (cosTurn e t), if inv then s else (s + 2 ^ 31) % 2 ^ 32)

/-! Kernels (R277 to R283), over complex values. -/

structure Cx where
  re : FVal
  im : FVal
  deriving DecidableEq, Repr

/-- One rounding of each part. -/
def Cx.rnd (x : Cx) : Cx := ⟨Fmt.f32.decode (Fmt.f32.rne x.re), Fmt.f32.decode (Fmt.f32.rne x.im)⟩
def Cx.neg (x : Cx) : Cx := ⟨x.re.negate, x.im.negate⟩
/-- The exact sum of the parts of some values. -/
def Cx.sum (l : List Cx) : Cx := ⟨.sum (l.map Cx.re), .sum (l.map Cx.im)⟩
/-- A real constant times a value, exact. -/
def Cx.times (c : Nat) (x : Cx) : Cx := ⟨(Fmt.f32.decode c).mul x.re, (Fmt.f32.decode c).mul x.im⟩
/-- x − i z and x + i z, exact; with inv they change places (R283). -/
def Cx.j (inv : Bool) (x z : Cx) : Cx :=
  if inv then ⟨.sum [x.re, z.im.negate], .sum [x.im, z.re]⟩ else ⟨.sum [x.re, z.im], .sum [x.im, z.re.negate]⟩
def Cx.k (inv : Bool) (x z : Cx) : Cx := Cx.j (!inv) x z

def Cx.ofBits (x : Nat × Nat) : Cx := ⟨Fmt.f32.decode x.1, Fmt.f32.decode x.2⟩

def cxAt (l : List Cx) (i : Nat) : Cx := l[i]?.getD ⟨.zero false, .zero false⟩

/-- Radix 4 (R279). -/
def kernel4 (inv : Bool) (t0 t1 t2 t3 : Cx) : List Cx :=
  let u0 := (Cx.sum [t0, t2]).rnd
  let u1 := (Cx.sum [t0, t2.neg]).rnd
  let u2 := (Cx.sum [t1, t3]).rnd
  let u3 := (Cx.sum [t1, t3.neg]).rnd
  [.sum [u0, u2], .j inv u1 u3, .sum [u0, u2.neg], .k inv u1 u3]

/-- Radix 3 (R280). -/
def kernel3 (inv : Bool) (t0 t1 t2 : Cx) : List Cx :=
  let a := (Cx.sum [t1, t2]).rnd
  let b := (Cx.sum [t1, t2.neg]).rnd
  let h := (Cx.sum [t0, ⟨a.re.negate.scale (-1), a.im.negate.scale (-1)⟩]).rnd
  let f := (Cx.times 0x3F5DB3D7 b).rnd
  [.sum [t0, a], .j inv h f, .k inv h f]

/-- Radix 5 (R281). -/
def kernel5 (inv : Bool) (t0 t1 t2 t3 t4 : Cx) : List Cx :=
  let c1 := 0x3E9E377A
  let c2 := 0xBF4F1BBD
  let s1 := 0x3F737871
  let s2 := 0x3F167918
  let a1 := (Cx.sum [t1, t4]).rnd
  let b1 := (Cx.sum [t1, t4.neg]).rnd
  let a2 := (Cx.sum [t2, t3]).rnd
  let b2 := (Cx.sum [t2, t3.neg]).rnd
  let p1 := (Cx.sum [t0, .times c1 a1, .times c2 a2]).rnd
  let p2 := (Cx.sum [t0, .times c2 a1, .times c1 a2]).rnd
  let q1 := (Cx.sum [.times s1 b1, .times s2 b2]).rnd
  let q2 := (Cx.sum [.times s2 b1, (Cx.times s1 b2).neg]).rnd
  [.sum [t0, a1, a2], .j inv p1 q1, .j inv p2 q2, .k inv p2 q2, .k inv p1 q1]

/-- H·a ± H·b of a value's parts, with signs, each part exact before its rounding (R282, R283). -/
def rotH (x : Cx) (sa sb ta tb : Bool) : Cx :=
  let h := fun (v : FVal) (n : Bool) =>
    let p := (Fmt.f32.decode 0x3F3504F3).mul v
    if n then p.negate else p
  (⟨.sum [h x.re sa, h x.im sb], .sum [h x.re ta, h x.im tb]⟩ : Cx).rnd

/-- Radix 8 (R282, R283). -/
def kernel8 (inv : Bool) (t : List Cx) : List Cx :=
  let u := fun q => (Cx.sum [cxAt t q, cxAt t (q + 4)]).rnd
  let v := fun q => (Cx.sum [cxAt t q, (cxAt t (q + 4)).neg]).rnd
  let v1 := if inv then rotH (v 1) false true false false else rotH (v 1) false false true false
  let v3 := if inv then rotH (v 3) true true false true else rotH (v 3) true false true true
  let v2 := if inv then (⟨(v 2).im.negate, (v 2).re⟩ : Cx) else ⟨(v 2).im, (v 2).re.negate⟩
  let x := kernel4 inv (u 0) (u 1) (u 2) (u 3)
  let y := kernel4 inv (v 0) v1 v2 v3
  (List.range 4).flatMap fun i => [cxAt x i, cxAt y i]

/-- The kernel of a radix: exact final expressions. -/
def kernel (rr : Nat) (inv : Bool) (t : List Cx) : List Cx :=
  match rr with
  | 2 => [.sum [cxAt t 0, cxAt t 1], .sum [cxAt t 0, (cxAt t 1).neg]]
  | 3 => kernel3 inv (cxAt t 0) (cxAt t 1) (cxAt t 2)
  | 4 => kernel4 inv (cxAt t 0) (cxAt t 1) (cxAt t 2) (cxAt t 3)
  | 5 => kernel5 inv (cxAt t 0) (cxAt t 1) (cxAt t 2) (cxAt t 3) (cxAt t 4)
  | _ => kernel8 inv t

/-- The exact final expressions of a stage with the elements they go to (R277). -/
def EngineRegs.stage (e : EngineRegs) (bf : W64) (d s : Nat) : List (Nat × Cx) :=
  let n := bfN bf
  let rr := bfRad bf s
  let m := bfProd bf 0 s
  let l := m * rr
  (List.range (n / l)).flatMap fun g => (List.range m).flatMap fun k1 =>
    let t := (List.range rr).map fun q =>
      let a := e.elem d (g * l + q * m + k1)
      let x := q * k1 * (n / l)
      Cx.ofBits (if x = 0 then a else cmul32 a (twiddle (bfInv bf) x n))
    (kernel rr (bfInv bf) t).zipIdx.map fun y => (g * l + k1 + m * y.2, y.1)

/-- Whether a finite expression, shifted by sh, stays below 2^(j − 127). -/
def belowBound (sh j : Nat) (x : FVal) : Bool :=
  match x with
  | .fin m e => (FVal.fin m.natAbs (e - sh)).lt (.fin 1 ((j : Int) - 127))
  | _ => true

/-- The shift of a stage, and whether no shift brings it below its bound (R284). -/
def stageShift (o : BflyF) (l : List (Nat × Cx)) : Nat × Bool :=
  match o.mode.toNat with
  | 0 => (0, false)
  | 1 => (o.j.toNat, false)
  | _ =>
    let fits := fun sh => l.all fun x => belowBound sh o.j.toNat x.2.re && belowBound sh o.j.toNat x.2.im
    match (List.range 8).find? fits with
    | some sh => (sh, false)
    | none => (7, true)

/-- bfly (R277, R284). -/
def EngineRegs.bfly (e : EngineRegs) (bf : W64) (o : BflyF) : EngineRegs :=
  let d := o.d.toNat
  let l := e.stage bf d o.stage.toNat
  let sh := stageShift o l
  let fin := fun x : FVal => Fmt.f32.rne (x.scale (-(sh.1 : Int)))
  let r := l.foldl (fun r x => EngineRegs.setElem r d x.1 (fin x.2.re, fin x.2.im)) e
  if o.mode = 2 then
    let old := SMap.get 0 e.aexp d
    let exp := (old.toNat % 2 ^ 32 + sh.1) % 2 ^ 32
    { r with aexp := SMap.set r.aexp d (BitVec.ofNat 33 (exp + bit01 (old.getLsbD 32 || sh.2) * 2 ^ 32)) }
  else r

/-- twmul (R285). -/
def EngineRegs.twmul (e : EngineRegs) (bf : W64) (d t u : Nat) : EngineRegs :=
  (List.range (bfN bf)).foldl (fun r k =>
    let x := k * u % t
    if x = 0 then r else r.setElem d k (cmul32 (e.elem d k) (twiddle (bfInv bf) x t))) e

/-! Accumulator forms. -/

/-- azero (R330). -/
def EngineRegs.azero (e : EngineRegs) (d : Nat) : EngineRegs :=
  { e.setAccWords d (List.replicate 1024 0) with aexp := SMap.set e.aexp d 0 }

/-- The converted elements of a row of an accumulator (R331). -/
def EngineRegs.accHalves (e : EngineRegs) (a i : Nat) (f : Fmt) (rnd : Rnd) : List Nat :=
  (List.range 32).map fun j => f.round rnd (Fmt.f32.decode (e.accWord a (32 * i + j)))

/-- amov (R331). -/
def EngineRegs.amov (e : EngineRegs) (o : AmovF) : EngineRegs :=
  let d := o.d.toNat
  let r := (List.range 32).foldl (fun (r : EngineRegs) i =>
    r.setRow d i (BitVec.ofNat 512 (packNat 16 (e.accHalves o.a.toNat i (halfFmt o.fh) o.rnd)))) e
  ((r.setFill d (BitVec.allOnes 32)).setPoison d 0).setValid d false

/-- The bytes that ast writes (R334). -/
def EngineRegs.astBytes (e : EngineRegs) (o : AstF) : List Byte :=
  if o.ty = 0 then (e.accWords o.c.toNat).flatMap (bytesOf 4)
  else (List.range 32).flatMap fun i => (e.accHalves o.c.toNat i (halfFmt (o.ty = 2)) o.rnd).flatMap (bytesOf 2)

end Sys2Proof.Machine
end

