-- ==== Sys2Proof/Machine/Shores.lean ====
section
/-! DEFINITION. Shores.lean: shore registers, their forms, and the check of a write (R369 to R374). -/

namespace Sys2Proof.Machine

def Thread.shore (t : Thread) (i : Nat) : Shore := SMap.get ⟨0, 0, 0⟩ t.shores i

/-- The fields of a shore control (Table 15.6). -/
def Shore.en (h : Shore) : Bool := h.ctl.getLsbD 6
def Shore.act (h : Shore) : Nat := h.ctl.toNat / 16 % 4
def Shore.ty (h : Shore) : ElemTy := (ElemTy.ofCode (h.ctl.setWidth 4)).getD .i32

/-- The types of a shore register. -/
def shoreType (code : Nat) : Bool := [0, 1, 2, 3, 8, 9, 10].contains code

/-- The integer of a bound: sign-extended to 32 bits, zero-extended for UINT8. -/
def boundInt (ty : ElemTy) (x : BitVec 32) : Int := if ty = .u8 then x.toNat else x.toInt

/-- Whether a bound is a value of the type (R370). -/
def boundOk (ty : ElemTy) (x : BitVec 32) : Bool :=
  if ty.isFloat then
    let v := Fmt.f32.decode x.toNat
    !v.isNan && (Fmt.f32.rne ((fmtOf ty).decode ((fmtOf ty).rne v)) = x.toNat)
  else
    let s := ty != .u8
    decide (intMin ty.bits s ≤ boundInt ty x) && decide (boundInt ty x ≤ intMax ty.bits s)

/-- Whether lo exceeds hi. -/
def boundsExceed (ty : ElemTy) (lo hi : BitVec 32) : Bool :=
  if ty.isFloat then (Fmt.f32.decode hi.toNat).lt (Fmt.f32.decode lo.toNat)
  else decide (boundInt ty hi < boundInt ty lo)

/-- What shset checks of its operands (R370). -/
def shoreOk (a b : W64) : Bool :=
  let ty := (ElemTy.ofCode (BitVec.ofNat 4 (bitsOf b 3 0))).getD .i32
  let lo := a.setWidth 32
  let hi := a.extractLsb' 32 32
  b.toNat < 2 ^ 7 && bitsOf b 5 4 ≠ 3 && shoreType (bitsOf b 3 0)
    && boundOk ty lo && boundOk ty hi && !boundsExceed ty lo hi

def execShset (o : ShsetF) (s : State) : Host.Outcome State Fault Refusal :=
  complete o.g s fun s => do
    let a ← s.useS o.a.toNat
    let b ← s.useS o.b.toNat
    need (shoreOk a b) badOperand
    let h : Shore := ⟨a.setWidth 32, a.extractLsb' 32 32, BitVec.ofNat 8 (bitsOf b 6 0)⟩
    return .done (s.modCur fun t => { t with shores := SMap.set t.shores o.d.toNat h })

/-- shrd.b gives the bounds, shrd.c the control (R370). -/
def execShrd (o : ShrdF) (s : State) : Host.Outcome State Fault Refusal :=
  complete o.g s fun s =>
    let h := s.cth.shore o.a.toNat
    let v : W64 := if o.ctl then h.ctl.setWidth 64 else h.hi ++ h.lo
    .ok (.done (s.wClean o.d.toNat v))

/-- A byte to be written, with its virtual address. -/
structure VByte where
  va : Nat
  data : PByte
  deriving DecidableEq, Repr

/-- What becomes of one element under its shore register (R372, R373). -/
inductive ShoreVerdict where
  | keep
  | flag
  | clamp (bits : Nat)
  | stop
  deriving DecidableEq, Repr

/-- The element's value against the bounds: whether it lies below, above, or is a NaN. -/
def shoreViolates (h : Shore) (x : Nat) : Bool × Bool × Bool :=
  if h.ty.isFloat then
    let v := (fmtOf h.ty).decode x
    (v.lt (Fmt.f32.decode h.lo.toNat), (Fmt.f32.decode h.hi.toNat).lt v, v.isNan)
  else
    let v : Int := if h.ty = .u8 then (x : Int) else signedOf h.ty.bits x
    (v < boundInt h.ty h.lo, boundInt h.ty h.hi < v, false)

/-- The pattern of a bound in the element's own type. -/
def boundBits (h : Shore) (b : BitVec 32) : Nat :=
  if h.ty.isFloat then (fmtOf h.ty).rne (Fmt.f32.decode b.toNat) else b.toNat % 2 ^ h.ty.bits

/-- The verdict on an element of which the bytes `cover` are written. -/
def shoreVerdict (h : Shore) (cover : List VByte) : ShoreVerdict :=
  if cover.any fun b => b.data.2 then .keep
  else if cover.length < h.ty.bits / 8 then (if h.act = 0 then .flag else .stop)
  else
    let v := shoreViolates h (numberOf (cover.map VByte.data))
    if !(v.1 || v.2.1 || v.2.2) then .keep
    else match h.act with
      | 0 => .flag
      | 1 => .clamp (boundBits h (if v.2.1 then h.hi else h.lo))
      | _ => .stop

/-- The writes of one access after the shore check: the bytes, and the shore registers whose flag is set; or
the address of the lowest element that ends the write (R371 to R374). `hs` are the shore registers. -/
def shoreWalk (hs : Nat → Shore) : Nat → List VByte → Except Nat (List VByte × List Nat)
  | 0, l => .ok (l, [])
  | _ + 1, [] => .ok ([], [])
  | fuel + 1, b :: r =>
    let tag := b.va / 2 ^ 61 % 8
    let h := hs tag
    if !h.en then
      match shoreWalk hs fuel r with
      | .ok (l, f) => .ok (b :: l, f)
      | .error e => .error e
    else
      let n := h.ty.bits / 8
      let u := b.va / n * n
      let mine := (b :: r).takeWhile fun x => decide (x.va < u + n)
      let rest := (b :: r).dropWhile fun x => decide (x.va < u + n)
      match shoreVerdict h mine with
      | .stop => .error u
      | v =>
        match shoreWalk hs fuel rest with
        | .error e => .error e
        | .ok (l, f) =>
          match v with
          | .flag => .ok (mine ++ l, tag :: f)
          | .clamp x =>
            .ok ((mine.zip (bytesOf n x)).map (fun p => { p.1 with data := (p.2, false) }) ++ l, tag :: f)
          | _ => .ok (mine ++ l, f)

/-- One access, its bytes in ascending order of address. -/
def shoreAccess (hs : Nat → Shore) (l : List VByte) : Except Nat (List VByte × List Nat) :=
  shoreWalk hs l.length l

/-- Several accesses in order; the first violation that ends the write wins (R374). -/
def shoreAll (hs : Nat → Shore) : List (List VByte) → Except Nat (List (List VByte) × List Nat)
  | [] => .ok ([], [])
  | l :: r =>
    match shoreAccess hs l with
    | .error e => .error e
    | .ok (l', f) =>
      match shoreAll hs r with
      | .error e => .error e
      | .ok (r', f') => .ok (l' :: r', f ++ f')

/-- Flags set in a thread's shore registers. -/
def Thread.flagShores (t : Thread) (tags : List Nat) : Thread :=
  tags.foldl (fun t k =>
    let h := t.shore k
    { t with shores := SMap.set t.shores k { h with ctl := h.ctl ||| 0x80 } }) t

/-- The shore check of a write by the executing thread: the bytes and the shore registers to flag, or trap 0x09 with the
element's address (R374). -/
def State.shoreWrites (s : State) (ls : List (List VByte)) : Chk (List (List VByte) × List Nat) :=
  match shoreAll s.cth.shore ls with
  | .error u => .error (.trap 0x09 (w64 u))
  | .ok r => .ok r

/-- The same, with the flags set: the check of a form that does not trap any more. -/
def State.shoreCheck (s : State) (ls : List (List VByte)) : Chk (List (List VByte) × State) :=
  match s.shoreWrites ls with
  | .error b => .error b
  | .ok (l, f) => .ok (l, s.modCur fun t => t.flagShores f)

end Sys2Proof.Machine
end

