-- ==== Sys2Proof/Machine/Versions.lean ====
section
/-! DEFINITION. Versions.lean: varved regions, the version directory and major opcode 0x73, with phase 0x74
(R202, R209 to R224, R238 to R242). A line is known by its number, its place divided by 64. -/

namespace Sys2Proof.Machine

/-! Region descriptors (Table 8.2). -/

def regionReg (tile i w : Nat) : Nat := spaceBase tile 2 + 0x100 + 32 * i + 8 * w

/-- A descriptor's fields: whether it is enabled, base and store as vault offsets, size, depth code and F. -/
structure Region where
  en : Bool
  base : Nat
  size : Nat
  depth : Nat
  store : Nat
  floor : Nat
  deriving DecidableEq, Repr

def State.region (s : State) (tile i : Nat) : Region :=
  let w := fun k => s.reg (regionReg tile i k)
  ⟨bitOf (w 0) 0, bitsOf (w 0) 30 6 * 64, bitsOf (w 1) 31 6 * 64, bitsOf (w 1) 1 0, bitsOf (w 2) 30 6 * 64,
    bitsOf (w 3) 31 0⟩

/-- Live sealed versions per line. -/
def Region.liveDepth (r : Region) : Nat := 2 ^ (r.depth + 1)

/-- The bytes of the version store (R210). -/
def Region.storeBytes (r : Region) : Nat := r.size / 64 * (r.liveDepth + 2) * 64

def Region.covers (r : Region) (off : Nat) : Bool := r.base ≤ off && off < r.base + r.size

/-- The enabled region of a place (R211). -/
def State.regionOf (s : State) (place : Nat) : Option Nat :=
  if spaceOfPlace place = 0 then
    (List.range 16).find? fun i =>
      let r := s.region (tileOfPlace place) i
      r.en && r.covers (offsetOfPlace place)
  else none

/-- Whether [a, a + n) and [b, b + m) overlap. -/
def overlaps (a n b m : Nat) : Bool := max a b < min (a + n) (b + m)

/-- The first failing condition of R210, 0 when there is none. -/
def State.regionError (s : State) (tile i : Nat) : Nat :=
  let r := s.region tile i
  let vcap := bitsOf (s.reg2 tile 0x08) 31 0
  let clash := fun j =>
    let q := s.region tile j
    j ≠ i && q.en &&
      (overlaps r.base r.size q.base q.size || overlaps r.base r.size q.store q.storeBytes
        || overlaps r.store r.storeBytes q.base q.size || overlaps r.store r.storeBytes q.store q.storeBytes)
  let pinned := fun off n => (granulesOf off n).all fun g => s.granule tile g = 3
  if r.depth = 3 ∨ r.size = 0 then 1
  else if vcap < r.base + r.size ∨ vcap < r.store + r.storeBytes then 2
  else if overlaps r.base r.size r.store r.storeBytes ∨ (List.range 16).any clash then 3
  else if !(pinned r.base r.size && pinned r.store r.storeBytes) then 4
  else 0

/-- Every line of a region is emptied; data writes on their way to it are performed without effect. -/
def State.emptyRegion (s : State) (tile i : Nat) : State :=
  let r := s.region tile i
  let mine := fun line : Nat =>
    tileOfPlace (line * 64) = tile && spaceOfPlace (line * 64) = 0 && r.covers (offsetOfPlace (line * 64))
  { s with lines := s.lines.filter fun e => !mine e.1,
           posted := s.posted.filter fun p =>
             match p.kind with
             | .version line _ => !mine line
             | _ => true }

/-! The directory's rules. -/

/-- Table 8.3: whether a vst is admitted to the open version, opens one, or its reason. -/
def Line.admitsWrite (l : Line) (f v : Nat) (task : W64) : Except Nat Bool :=
  if v < f then .error 1
  else if l.ns = some 0xFFFFFFFF then .error 5
  else if (match l.ns with
      | some n => decide (v ≤ n)
      | none => false) then .error 2
  else match l.opened with
    | some u => if u.number ≠ v then .error 4 else if u.owner ≠ task then .error 3 else .ok false
    | none => .ok true

/-- The sealed version with a number. -/
def Line.sealedAt (l : Line) (v : Nat) : Option Sealed := l.sealed.find? fun x => x.number = v

/-- The initial bytes of a version that opens (R215). -/
def Line.initial (l : Line) : BitVec 512 × BitVec 16 :=
  match l.ns with
  | some n => match l.sealedAt n with
    | some x => (x.data, x.poison)
    | none => (0, 0)
  | none => (0, 0)

/-- A version opens. -/
def Line.openAt (l : Line) (v : Nat) (task : W64) (opener level : Nat) : Line :=
  { l with opened := some ⟨v, l.initial.1, l.initial.2, task, opener, level⟩ }

/-- The seal of the open version (R216). -/
def Line.sealOpen (l : Line) (depth f : Nat) : Line :=
  match l.opened with
  | none => l
  | some v =>
    let l := { l with opened := none, sealed := l.sealed ++ [(⟨v.number, v.data, v.poison⟩ : Sealed)], ns := some v.number }
    let l := match l.sealed with
      | x :: r => if depth < l.sealed.length then { l with sealed := r, lost := some x.number } else l
      | [] => l
    if v.number < f then
      { l with sealed := l.sealed.filter fun x => x.number ≠ v.number, lost := some v.number }
    else l

/-- The floor rises to `f` (R220): sealed versions below it are reclaimed. -/
def Line.raise (l : Line) (f : Nat) : Line :=
  match (l.sealed.filter fun x => x.number < f).getLast? with
  | some x => { l with sealed := l.sealed.filter fun x => f ≤ x.number, lost := some x.number }
  | none => l

/-- What a version read finds on one line. -/
inductive LineRead where
  | value (data : BitVec 512) (poison : BitVec 16)
  | bad (cause reason : Nat)
  | block
  deriving DecidableEq, Repr

/-- Table 8.4 for an enabled region. -/
def Line.readExact (l : Line) (f v uid : Nat) : LineRead :=
  if v < f then .bad 0x19 1
  else if (match l.opened with
      | some u => u.number = v && u.opener = uid
      | none => false) then .bad 0x18 6
  else match l.sealedAt v with
    | some x => .value x.data x.poison
    | none =>
      let isOpen := match l.opened with
        | some u => u.number = v
        | none => false
      let below := match l.ns with
        | some n => decide (v ≤ n)
        | none => false
      if below && !isOpen then
        .bad 0x19 (match l.lost with
          | none => 2
          | some n => if n < v then 2 else 3)
      else .block

/-- R218. -/
def Line.readAtMost (l : Line) (f v : Nat) : LineRead :=
  if v < f then .bad 0x19 1
  else match (l.sealed.filter fun x => x.number ≤ v).getLast? with
    | some x => .value x.data x.poison
    | none => if l.lost.isSome then .bad 0x19 3 else .value 0 0

/-- The information word of a varve trap (R224). -/
def varveInfo (place reason : Nat) : W64 := w64 (place / 64 * 64 + reason)

/-- The header and the data slots of a line in the version store of its region, as a place and a length (R210). -/
def State.lineSpan (s : State) (line : Nat) : List (Nat × Nat) :=
  match s.regionOf (line * 64) with
  | some i =>
    let r := s.region (tileOfPlace (line * 64)) i
    let n := (r.liveDepth + 2) * 64
    [(spaceBase (tileOfPlace (line * 64)) 0 + r.store + (offsetOfPlace (line * 64) - r.base) / 64 * n, n)]
  | none => []

/-- Whether the vault holds a fetch from the version store of a line, whose directory operation then waits (R172,
R174, Table 15.8). -/
def State.lineHeld (s : State) (line : Nat) : Bool := (s.lineSpan line).any fun x => s.spanBusy x.1 x.2

/-- The codewords of a line's header (log 109, DESIGN CHOICE). -/
def State.headerWords (s : State) (line : Nat) : List Nat :=
  (s.lineSpan line).flatMap fun x =>
    let p := x.1 + 64 * (Config.headerSlot line % (x.2 / 64))
    [p, p + 32]

/-- The directory looks a line up. A miss, which nothing but the directory's own choice tells, fetches the header; one
that is uncorrectable is met and leaves the line damaged (R211, R361) (log 110, DESIGN CHOICE). -/
def State.fetchHeader (s : State) (line : Nat) : State :=
  match (s.headerWords line).find? fun p => s.ecc.contains p with
  | none => s
  | some p =>
    let f := s.takeFresh
    if bitOf f.1 0 then (f.2.meetCodeword p).setLine line { s.line line with damaged := some p } else f.2

/-- The words of a region descriptor that are uncorrectable (R361). -/
def State.regionBroken (s : State) (tile i : Nat) : Option Nat :=
  ((List.range 4).map (regionReg tile i)).find? fun p => s.ecc.contains p

/-- The checks that a varve access makes of its line at the directory, before its own table (R211, R361). -/
def State.lineRegion (s : State) (line : Nat) : Except (Nat × W64) Region :=
  let place := line * 64
  match s.regionOf place with
  | none => .error (0x19, varveInfo place 4)
  | some i =>
    match s.regionBroken (tileOfPlace place) i, (s.line line).damaged with
    | some p, _ => .error (0x0A, w64 p)
    | none, some p => .error (0x0A, w64 p)
    | none, none => .ok (s.region (tileOfPlace place) i)

/-! Waiting readers. -/

def isVld : Wait → Bool
  | .vld _ => true
  | _ => false

/-- One evaluation of a version read: a trap, the value of every line from the lower one, or nothing while a
line blocks (R217 to R219, R221) (log 36, DEDUCED). -/
def State.readLines (s : State) (op : VldOp) (uid : Nat) :
    Except (Nat × W64) (Option (List (BitVec 512 × BitVec 16))) :=
  op.lines.foldl (fun acc line =>
    match acc with
    | .error e => .error e
    | .ok got =>
      match s.lineRegion line with
      | .error e => .error e
      | .ok r =>
        let res := if op.exact then (s.line line).readExact r.floor op.v uid
                   else (s.line line).readAtMost r.floor op.v
        match res with
        | .bad c x => .error (c, varveInfo (line * 64) x)
        | .block => .ok none
        | .value d p => .ok (got.map fun l => l ++ [(d, p)])) (.ok (some []))

/-- The lowest line on which a version read blocks. -/
def State.blockingLine (s : State) (op : VldOp) (uid : Nat) : Option Nat :=
  op.lines.find? fun line =>
    match s.lineRegion line with
    | .error _ => false
    | .ok r => op.exact && (s.line line).readExact r.floor op.v uid == .block

/-- The register that a version read leaves (R239). -/
def versionVec (old : VVal) (l : List (BitVec 512 × BitVec 16)) : VVal :=
  match l with
  | [x] => ⟨old.bits.extractLsb' 512 512 ++ x.1, old.poison.extractLsb' 16 16 ++ x.2⟩
  | [x, y] => ⟨y.1 ++ x.1, y.2 ++ x.2⟩
  | _ => old

/-- The evaluation of a waiting reader: it goes on with its value or its trap; none while it blocks. -/
def State.evalReader (s : State) (core slot : Nat) : Option State :=
  let t := s.thread core slot
  match t.findWait isVld with
  | some ⟨m, at0, .vld op⟩ =>
    match s.readLines op t.uid with
    | .error (c, i) => some (s.trapWait core slot c i m)
    | .ok (some l) =>
      let s := s.gaugeLatency core slot 0x04 (s.cycle - at0)
      some (s.endWait core slot isVld fun t => t.setV op.d (versionVec (t.regs.getV op.d) l))
    | .ok none => none
  | _ => none

/-- Every blocked reader of a tile is evaluated again (R219). -/
def State.wakeReaders (s : State) (tile : Nat) : State :=
  [stagingOf tile, computeOf tile].foldl (fun s core =>
    (List.range 16).foldl (fun s slot =>
      if (s.thread core slot).state = .waitingMessage then (s.evalReader core slot).getD s else s) s) s

/-- The floor of a region rises (R209, R220). -/
def State.raiseFloor (s : State) (tile i f : Nat) : State :=
  let r := s.region tile i
  if f ≤ r.floor then s
  else
    let s := s.setReg (regionReg tile i 3) (w64 f)
    let mine := fun line : Nat =>
      tileOfPlace (line * 64) = tile ∧ spaceOfPlace (line * 64) = 0 ∧ r.covers (offsetOfPlace (line * 64))
    let lines := s.lines.map fun e => if mine e.1 then (e.1, e.2.raise f) else e
    State.wakeReaders { s with lines := lines } tile

/-- The seal of a line at its directory, one instant (R216). -/
def State.sealLine (s : State) (line : Nat) : State :=
  let tile := tileOfPlace (line * 64)
  match s.regionOf (line * 64) with
  | some i =>
    let r := s.region tile i
    (s.setLine line ((s.line line).sealOpen r.liveDepth r.floor)).wakeReaders tile
  | none => s

/-- The lines that a thread holds open (R202, R223). -/
def State.heldLines (s : State) (uid : Nat) : List Nat := s.openedBy uid fun _ => true

/-- Whether every data write admitted to the open version of a line has been performed. -/
def State.lineSettled (s : State) (line : Nat) : Bool :=
  match (s.line line).opened with
  | some v => s.posted.all fun p => p.kind ≠ .version line v.number
  | none => true

/-- A posted data write reaches the open version it was admitted to (R214). -/
def State.performVersion (s : State) (line number : Nat) (ws : List PWrite) : State :=
  match (s.line line).opened with
  | some v =>
    if v.number = number then
      let base := line * 64
      let byte := fun k : Nat => match ws.find? fun w => w.addr = base + k with
        | some w => w.data.toNat
        | none => v.data.toNat / 256 ^ k % 256
      let mark := fun k : Nat =>
        let mine := ws.filter fun w => w.addr / 4 = base / 4 + k
        if mine.any PWrite.poison then true
        else if mine.length = 4 then false
        else v.poison.getLsbD k
      let v := { v with data := BitVec.ofNat 512 (packNat 8 ((List.range 64).map byte)),
                        poison := BitVec.ofNat 16 (packNat 1 ((List.range 16).map fun k => bit01 (mark k))) }
      s.setLine line { s.line line with opened := some v }
    else s
  | none => s

/-! Forms. -/

/-- The lines that `n` bytes at a place touch. -/
def linesOf (place n : Nat) : List Nat :=
  let lo := place / 64
  (List.range ((place + n - 1) / 64 + 1 - lo)).map (lo + ·)

/-- vld.x and vld.a: checked and sent to the directory (R238). Poison of the version number and of the wait bound is no
consumption point of Table 15.3 (log 33, DEDUCED). -/
def versionLoad (g : Guard) (d a c : Nat) (bound : Option Nat) (size : MemSize) (off : BitVec 44) (s : State) :
    Host.Outcome State Fault Refusal :=
  complete g s fun s => do
    let n := size.bytes
    let va ← s.vaBase a off
    let v := (s.rS c).bits
    let b := (bound.map fun r => (s.rS r).bits.toNat).getD 0
    aligned va n
    let x ← s.access { Need.load with v := true } va n
    s.dataStop [(va.toNat, n)] true false
    let op : VldOp := { d := d, exact := bound.isSome, v := bitsOf v 31 0, size := n, lines := linesOf x.place n,
                        entry := x.entry, bound := b }
    return .go (s.waitOn .waitingMemory (.vld op))

def execVldx (o : VldxF) (s : State) : Host.Outcome State Fault Refusal :=
  versionLoad o.g o.d.toNat o.a.toNat o.c.toNat (some o.b.toNat) o.size o.off s

def execVlda (o : VldaF) (s : State) : Host.Outcome State Fault Refusal :=
  versionLoad o.g o.d.toNat o.a.toNat o.c.toNat none o.size o.off s

/-- Consecutive stored bytes with their virtual addresses. -/
def vbytes (va : Nat) (l : List PByte) : List VByte := l.zipIdx.map fun p => ⟨va + p.2, p.1⟩

/-- The low `n` bytes of a vector register with the marks of their words. -/
def VVal.bytes (v : VVal) (n : Nat) : List PByte :=
  ((vecBytes v.bits).take n).zipIdx.map fun p => (p.1, v.poison.getLsbD (p.2 / 4))

/-- vst: shore check, then admission at the directory (R214, R240, R371), with which its shore flags are set: a write
that traps sets none (R374). -/
def execVst (o : VstF) (s : State) : Host.Outcome State Fault Refusal :=
  complete o.g s fun s => do
    let n := o.size.bytes
    let va ← s.vaBase o.a.toNat o.off
    let v := (s.rS o.b.toNat).bits
    aligned va n
    let x ← s.access { Need.store with v := true } va n
    s.dataStop [(va.toNat, n)] false true
    let r ← s.shoreWrites [vbytes va.toNat ((s.rV o.c.toNat).bytes n)]
    let op : VstOp := { flags := r.2, v := bitsOf v 31 0, place := x.place, entry := x.entry,
                        data := (r.1.flatten).map VByte.data }
    return .go (s.waitOn .waitingMemory (.vst op))

def execVfloor (o : VfloorF) (s : State) : Host.Outcome State Fault Refusal :=
  complete o.g s fun s => do
    let va ← s.vaBase o.a.toNat o.off
    let f := (s.rS o.c.toNat).bits
    let x ← s.access { Need.store with v := true } va 1
    s.dataStop [(va.toNat, 1)] false true
    return .go (s.waitOn .waitingMemory (.vfloor x.place (bitsOf f 31 0) x.entry))

/-- phase waits for the thread's posted stores, then seals and counts; the trace records its scope as written (R202,
R242). -/
def execPhase (o : ScopeF) (s : State) : Host.Outcome State Fault Refusal :=
  complete o.g s fun s =>
    .ok (.go ((s.traceScope s.cur.core s.cur.slot (scopeCode o.scope)).waitOn .waitingMemory (.release .phase)))

/-! Events of the directory. -/

def isVst : Wait → Bool
  | .vst _ => true
  | _ => false

/-- The lines of a vst that open, or the first failure (Table 8.3, R221). -/
def State.admitLines (s : State) (op : VstOp) (task : W64) : Except (Nat × W64) (List Nat) :=
  (linesOf op.place op.data.length).foldl (fun acc line =>
    match acc with
    | .error e => .error e
    | .ok l =>
      match s.lineRegion line with
      | .error e => .error e
      | .ok r =>
        match (s.line line).admitsWrite r.floor op.v task with
        | .error x => .error (0x18, varveInfo (line * 64) x)
        | .ok opens => .ok (if opens then l ++ [line] else l)) (.ok [])

/-- An operation of a thread reaches the directory of its lines: none while the vault holds a fetch from their store, and
in the order of R212 among those of its cycle. The lines are looked up. -/
def State.reachDirectory (s : State) (core slot : Nat) (floor : Bool) (lines : List Nat) : Option State :=
  let unit := directoryUnit (tileOfPlace ((lines.headD 0) * 64))
  let key := directoryKey core slot floor
  if lines.any s.lineHeld || !s.inOrder unit key then none
  else some (lines.foldl State.fetchHeader (s.ordered unit key))

/-- The admitted data of a vst is posted, line by line. -/
def State.postVersion (s : State) (core slot uid : Nat) (op : VstOp) : State :=
  let ws := markedWrites op.place op.data
  (linesOf op.place op.data.length).foldl (fun s line =>
    s.sendPosted { seq := 0, core := core, slot := slot, uid := uid, entry := op.entry, head := slot = 0,
                   home := homeOf op.place, kind := .version line op.v, hint := .dflt,
                   bytes := ws.filter fun w => w.addr / 64 = line }) s

/-- DIRECTORY_ADMISSION: the directory admits a vst, which then posts its data, or refuses it (R214). -/
def execDirectoryAdmission (core slot : Nat) (s : State) : Host.Outcome State Fault Refusal :=
  let t := s.thread core slot
  match t.findWait isVst with
  | some ⟨m, _, .vst op⟩ =>
    match s.reachDirectory core slot false (linesOf op.place op.data.length) with
    | none => notDue s
    | some s =>
      match s.admitLines op t.task with
      | .error (c, i) => .next (s.trapWait core slot c i m)
      | .ok opens =>
        let s := opens.foldl (fun s line =>
          s.setLine line ((s.line line).openAt op.v t.task t.uid t.cofdepth)) s
        .next ((s.postVersion core slot t.uid op).endWait core slot isVst fun t => t.flagShores op.flags)
  | _ => notDue s

/-- VERSION_READ: the directory evaluates a version read; one that blocks waits for a message (R217 to R219). It does
not wait for data writes that the thread has posted before it (log 107, DESIGN CHOICE). -/
def execVersionRead (core slot : Nat) (s : State) : Host.Outcome State Fault Refusal :=
  match (s.thread core slot).findWait isVld with
  | some ⟨_, _, .vld op⟩ =>
    match s.reachDirectory core slot false op.lines with
    | none => notDue s
    | some s =>
      match s.evalReader core slot with
      | some s => .next s
      | none =>
        let t := s.thread core slot
        .next (if t.state = .swapped then s.setThread core slot t.withdraw
          else s.enterState core slot .waitingMessage 0)
  | _ => notDue s

def isVfloor : Wait → Bool
  | .vfloor .. => true
  | _ => false

/-- FLOOR_CHANGE: a vfloor takes effect at the directory (R220, R241). -/
def execFloorChange (core slot : Nat) (s : State) : Host.Outcome State Fault Refusal :=
  match (s.thread core slot).findWait isVfloor with
  | some ⟨m, _, .vfloor place f _⟩ =>
    match s.reachDirectory core slot true [place / 64] with
    | none => notDue s
    | some s =>
      match s.regionOf place with
      | none => .next (s.trapWait core slot 0x19 (varveInfo place 4) m)
      | some i =>
        match s.regionBroken (tileOfPlace place) i with
        | some p => .next (s.trapWait core slot 0x0A (w64 p) m)
        | none => .next ((s.raiseFloor (tileOfPlace place) i f).endWait core slot isVfloor id)
  | _ => notDue s

/-- VERSION_TIMEOUT: a vld.x is evaluated a last time when its bound expires (R219); the trap names the lowest line on
which it blocks (log 106, DEDUCED). -/
def execVersionTimeout (core slot : Nat) (s : State) : Host.Outcome State Fault Refusal :=
  match (s.thread core slot).findWait isVld with
  | some ⟨m, at0, .vld op⟩ =>
    if op.bound ≠ 0 ∧ at0 + op.bound ≤ s.cycle then
      match s.evalReader core slot with
      | some s => .next s
      | none =>
        let line := (s.blockingLine op (s.thread core slot).uid).getD (op.lines.headD 0)
        .next (s.trapWait core slot 0x1A (varveInfo (line * 64) 0) m)
    else notDue s
  | _ => notDue s

/-- A write of word 0 of a descriptor (R209, R210): base takes the write while en is 0. -/
def State.writeRegion (s : State) (tile i : Nat) (v : W64) : State :=
  let r0 := regionReg tile i 0
  let old := s.reg r0
  if bitOf old 0 then
    if bitOf v 0 then s
    else (s.emptyRegion tile i).setReg r0 (setBit old 0 false) |>.wakeReaders tile
  else
    let s := s.setReg r0 (setBits old 30 6 (bitsOf v 30 6))
    if bitOf v 0 then
      match s.regionError tile i with
      | 0 =>
        let s := s.emptyRegion tile i
        s.setReg r0 (setBit (setBits (s.reg r0) 3 1 0) 0 true)
      | e => s.setReg r0 (setBits (s.reg r0) 3 1 e)
    else s

/-- REGION_ENABLE: a write with en = 1 reaches word 0. -/
def execRegionEnable (tile i : Nat) (v : W64) (s : State) : Host.Outcome State Fault Refusal :=
  if i < 16 ∧ bitOf v 0 then .next (s.writeRegion tile i v) else notDue s

/-- REGION_DISABLE: a write with en = 0 reaches word 0 of an enabled region. -/
def execRegionDisable (tile i : Nat) (v : W64) (s : State) : Host.Outcome State Fault Refusal :=
  if i < 16 ∧ bitOf v 0 = false then .next (s.writeRegion tile i v) else notDue s

/-- A write of the floor field (R209). -/
def State.writeFloor (s : State) (tile i : Nat) (v : W64) (head : Bool) : State :=
  if (s.region tile i).en then (if head then s.raiseFloor tile i (bitsOf v 31 0) else s)
  else s.setReg (regionReg tile i 3) (w64 (bitsOf v 31 0))

/-- The tile whose directory the floor field at a place belongs to (Table 8.2). -/
def floorOf (place : Nat) : Option Nat :=
  let o := offsetOfPlace place
  if spaceOfPlace place = 2 ∧ 0x100 ≤ o ∧ o < 0x300 ∧ o % 32 / 8 = 3 then some (tileOfPlace place) else none

/-- The place in the order of a directory of a write of a floor field whose sender is not named: behind every other. -/
def lastFloorKey : Nat := 2 ^ 41

/-- VRFLOOR_WRITE: a head-mode write of the floor field, in the directory's order (R209, R212). -/
def execVrfloorWrite (tile i : Nat) (v : W64) (s : State) : Host.Outcome State Fault Refusal :=
  if i < 16 && s.inOrder (directoryUnit tile) lastFloorKey then
    .next ((s.ordered (directoryUnit tile) lastFloorKey).writeFloor tile i v true)
  else notDue s

end Sys2Proof.Machine
end

