-- ==== Sys2Proof/Machine/VectorMem.lean ====
section
/-! DEFINITION. VectorMem.lean: major opcodes 0x70 to 0x72: vector loads and stores, gathers and scatters, the
restartable tile load, and row control (R231 to R237). -/

namespace Sys2Proof.Machine

/-- The 32-bit lanes of an access of `n` bytes that are on (R232). -/
def State.wordLanes (s : State) (g : Guard) (n : Nat) : List Nat := (List.range (n / 4)).filter (s.laneOn g .i32)

/-- The address ranges of lanes of `n` bytes. -/
def laneRanges (va n : Nat) (on : List Nat) : List (Nat × Nat) := on.map fun i => (va + n * i, n)

/-- vmld (R232): with no lane on it only advances pc. -/
def execVmld (o : VmldF) (s : State) : Host.Outcome State Fault Refusal :=
  let n := o.size.bytes
  let on := s.wordLanes o.g n
  if on = [] then .next s.advance
  else s.finish (do
    let va ← s.vaIndexed o.a.toNat o.b.toNat n o.off
    aligned va 64
    let x ← s.access .load va n
    s.dataStop (laneRanges va.toNat 4 on) true false
    s.repairCheck x.place
    s.repairCheck (x.place + n - 1)
    return .go (s.waitOn .waitingMemory (.load (.vector o.d.toNat on x.place n []) x.entry o.hint)))

/-- The writes of checked bytes of an access that begins at `va` and at `place`. -/
def storedBytes (va place : Nat) (l : List VByte) : List PWrite :=
  l.map fun b => ⟨place + (b.va - va), b.data.1, 0xFF, b.data.2⟩

/-- vmst (R232): the bytes of the on lanes, after their shore check, as one posted access. With no lane on it completes
and so counts as a published store (R365; log 98, DEDUCED). -/
def execVmst (o : VmstF) (s : State) : Host.Outcome State Fault Refusal :=
  let n := o.size.bytes
  let on := s.wordLanes o.g n
  if on = [] then .next (s.modCur Thread.bump).advance
  else s.finish (do
    let va ← s.vaIndexed o.a.toNat o.b.toNat n o.off
    aligned va 64
    let x ← s.access .store va n
    s.dataStop (laneRanges va.toNat 4 on) false true
    let bytes := (vbytes va.toNat ((s.rV o.c.toNat).bytes n)).filter fun b => on.contains ((b.va - va.toNat) / 4)
    let r ← s.shoreCheck [bytes]
    let ws := storedBytes va.toNat x.place r.1.flatten
    return .done ((r.2.post x.entry o.hint ws).modCur Thread.bump))

/-- The type whose lanes have the width and the guard mapping of elements of `n` bytes. -/
def laneTy (n : Nat) : ElemTy :=
  match n with
  | 1 => .u8
  | 2 => .i16
  | 4 => .i32
  | _ => .i64

/-- The addresses of a gather or scatter, each checked in ascending lane order (R233): lane, va, translation. -/
def State.laneAccesses (s : State) (nd : Need) (base : W64) (idx : W1024) (n : Nat) (off : BitVec 44) :
    List Nat → Chk (List (Nat × W64 × Xlat))
  | [] => .ok []
  | i :: r => do
    let va := base + sext64 (8 * n) (laneOf idx (8 * n) i) * w64 n + off44 off
    aligned va n
    let x ← s.access nd va n
    let l ← s.laneAccesses nd base idx n off r
    return (i, va, x) :: l

/-- The check of row repair for every lane. -/
def State.repairAll (s : State) : List (Nat × W64 × Xlat) → Chk Unit
  | [] => .ok ()
  | (_, _, x) :: r => do
    s.repairCheck x.place
    s.repairAll r

/-- vmgat (R233). -/
def execVmgat (o : GatF) (s : State) : Host.Outcome State Fault Refusal :=
  let n := o.size.bytes
  let on := s.lanesOn o.g (laneTy n)
  if on = [] then .next s.advance
  else s.finish (do
    let base ← s.useS o.a.toNat
    let idx ← s.useV o.b.toNat (wordsOf (8 * n) on)
    let l ← s.laneAccesses .load base idx.bits n o.off on
    s.dataStop (l.map fun e => (e.2.1.toNat, n)) true false
    s.repairAll l
    let op := LoadOp.gather o.d.toNat n (l.map fun e => (e.1, e.2.2.place, e.2.2.entry)) []
    return .go (s.waitOn .waitingMemory (.load op ((l.map fun e => e.2.2.entry).headD 0) .dflt)))

/-- The posted stores of a scatter, in ascending lane order. -/
def State.postLanes (s : State) : List ((Nat × W64 × Xlat) × List VByte) → State
  | [] => s
  | ((_, va, x), l) :: r => (s.post x.entry .dflt (storedBytes va.toNat x.place l)).postLanes r

/-- vmsct (R233); with no lane on it counts as vmst does (log 98, DEDUCED). -/
def execVmsct (o : SctF) (s : State) : Host.Outcome State Fault Refusal :=
  let n := o.size.bytes
  let on := s.lanesOn o.g (laneTy n)
  if on = [] then .next (s.modCur Thread.bump).advance
  else s.finish (do
    let base ← s.useS o.a.toNat
    let idx ← s.useV o.b.toNat (wordsOf (8 * n) on)
    let l ← s.laneAccesses .store base idx.bits n o.off on
    s.dataStop (l.map fun e => (e.2.1.toNat, n)) false true
    let v := s.rV o.c.toNat
    let data := l.map fun e => vbytes e.2.1.toNat
      ((bytesOf n (laneOf v.bits (8 * n) e.1)).map fun b => (b, v.lanePoison (8 * n) e.1))
    let r ← s.shoreCheck data
    return .done ((r.2.postLanes (l.zip r.1)).modCur Thread.bump))

/-! The tile load. -/

/-- The checks of a tile load through a compressed region that precede its entry (R309). -/
def State.tileThroughZ (s : State) (i : Nat) (va : W64) : Chk Xlat :=
  let e := s.reach s.cur.core i
  let d := va.toNat - e.base
  let p := e.place + d / 2048 * 8
  if d % 2048 ≠ 0 then .error (.trap 0x05 va)
  else if !e.grants .load s.isHead then .error (.trap 0x11 va)
  else if s.spaceSize (tileOfPlace p) (spaceOfPlace p) false < offsetOfPlace p + 8 then .error (.trap 0x14 (w64 p))
  else s.resident ⟨i, p⟩ 8

/-- The place that a tile load reads: its rows, or its offset table entry through a compressed region. -/
def State.tileAccess (s : State) (va : W64) : Chk Xlat :=
  match s.findReach s.cur.core s.cth.task va.toNat with
  | some i => if (s.reach s.cur.core i).z then s.tileThroughZ i va else s.access .load va 2048
  | none => .error (.trap 0x10 va)

/-- The rows that a tile load has to read: all of them, but for a retry only those whose mask bits are clear (R234). -/
def State.rowsToRead (s : State) (tile gen t : Nat) : List Nat :=
  if s.unit.retry then (List.range 32).filter fun i => !((s.engRegs tile gen).fill t).getLsbD i else List.range 32

/-- The check of row repair for a 2,048-byte chunk of a tile load that holds rows to be read (R235; log 99, DEDUCED). -/
def State.chunkCheck (s : State) (place p : Nat) (rows : List Nat) : Chk Unit :=
  if rows.any fun i => (place + 64 * i) / 2048 = p / 2048 then s.repairCheck p else .ok ()

/-- tld (R234): a fresh load clears the fill mask: at once from the staging core; from the compute core once no queued
instruction reads the register (R260); and through a compressed region once its object has been read, since a broken
one traps without effect (R7, R312; log 99, DEDUCED). -/
def execTld (o : TldF) (s : State) : Host.Outcome State Fault Refusal :=
  complete o.g s fun s => do
    let va ← s.vaIndexed o.a.toNat o.b.toNat 2048 o.off
    aligned va 64
    let x ← s.tileAccess va
    s.dataStop [(va.toNat, 2048)] true false
    let tile := s.curTile
    let t := o.d.toNat
    let gen := (s.tile tile).engGen
    let z := (s.reach s.cur.core x.entry).z
    if !z then
      s.chunkCheck x.place x.place (s.rowsToRead tile gen t)
      s.chunkCheck x.place (x.place + 2047) (s.rowsToRead tile gen t)
    let later := z || (isCompute s.cur.core && s.engReads tile t s.nextUid)
    let s := if s.unit.retry || later then s else s.setEng tile gen ((s.engRegs tile gen).setFill t 0)
    let clear := later && !s.unit.retry
    return .go (s.waitOn .waitingMemory (.tileLoad t x.place va x.entry s.cycle gen s.nextUid clear [] o.hint))

def isTileLoad : Wait → Bool
  | .tileLoad .. => true
  | _ => false

/-- The information word of a transform fault (R312). -/
def transformInfo (reason low need place : Nat) : W64 :=
  w64 (reason + low * 2 ^ 8 + need * 2 ^ 16 + place % 2 ^ 22 * 2 ^ 32)

/-- An offset table entry as a unit reads it: uncorrectable or poisoned, it traps (R361). -/
def State.readEntry (s : State) (p : Nat) : State × Except (Nat × W64) W64 :=
  let r := s.readBytes p 8
  if poisoned r.2 then (r.1, .error (0x0A, w64 (codeword p).1)) else (r.1, .ok (w64 (numberOf r.2)))

/-- The reservation of an entry of a region of `len` bytes that begins at the place `base`: its first place (steps 2 and 4
of R179 under R309; `va` names the logical tile; log 119, DEDUCED). -/
def State.reservation (s : State) (base len : Nat) (va : W64) (e : OffEntry) : Except (Nat × W64) Nat :=
  let p := base + e.off
  if len < e.off + e.rsv * 64 then .error (0x12, va)
  else if s.spaceSize (tileOfPlace base) (spaceOfPlace base) false < offsetOfPlace base + e.off + e.rsv * 64 then
    .error (0x14, w64 p)
  else .ok p

/-- What the word of an entry at `p` names: the place of its reservation and its chunks (R309, R312). `open_` tells that
the unit itself is to write the object, so that valid does not count. -/
def State.entryNames (s : State) (base len : Nat) (va : W64) (p : Nat) (open_ : Bool) (w : W64) :
    Except (Nat × W64) (Nat × OffEntry) :=
  let e := OffEntry.ofWord w
  if entryBroken w || !(open_ || e.valid) then .error (0x1E, transformInfo 4 0 0 p)
  else (s.reservation base len va e).map fun q => (q, e)

/-- The object in the bytes of a reservation at `q`; `want` is the type and the count that it must have (R312). -/
def objectIn (q : Nat) (want : Option (ElemTy × Nat)) (bytes : List PByte) : Except (Nat × W64) Object :=
  match parseObject bytes with
  | some x =>
    if want.all fun y => x.ty = y.1 && x.elems.length = y.2 then .ok x else .error (0x1E, transformInfo 3 0 0 q)
  | none => .error (0x1E, transformInfo 3 0 0 q)

/-- The object of the entry at `p` of a region, as a tile load reads it. -/
def State.readObject (s : State) (base len : Nat) (va : W64) (p : Nat) : State × Except (Nat × W64) Object :=
  match s.readEntry p with
  | (s, .error e) => (s, .error e)
  | (s, .ok w) =>
    match s.entryNames base len va p false w with
    | .error b => (s, .error b)
    | .ok (q, e) =>
      let r := s.readBytes q (e.rsv * 64)
      (r.1, objectIn q none r.2)

/-- The rows that an object expands to: 2 KiB, zero beyond its count (R309). -/
def Object.rows (x : Object) : List (List PByte) :=
  let l := x.elems.flatMap fun e => (bytesOf (x.ty.bits / 8) e.1).map fun b => (b, e.2)
  chunks 64 32 (l ++ List.replicate (2048 - l.length) (0, false))

/-- One row reaches its register; the last one completes the load. -/
def State.deliverRow (s : State) (core slot : Nat) (t gen i : Nat) (at0 : Nat) (l : List PByte) : State :=
  let tile := tileOfCore core
  let e := (s.engRegs tile gen).deliver t i l
  let s := s.setEng tile gen e
  if e.fill t = BitVec.allOnes 32 then
    (s.gaugeLatency core slot 0x07 (s.cycle - at0)).endWait core slot isTileLoad id
  else s.modThread core slot fun th => th.modWait isTileLoad fun w =>
    match w with
    | .tileLoad t p va en _ g f c rows h => .tileLoad t p va en s.cycle g f c rows h
    | w => w

/-- The pending clear of the mask is done, or rows of a compressed tile are at hand. -/
def State.modTileLoad (s : State) (core slot : Nat) (clear : Bool) (rows : List (List PByte)) : State :=
  s.modThread core slot fun th => th.modWait isTileLoad fun w =>
    match w with
    | .tileLoad t p va en l g f _ _ h => .tileLoad t p va en l g f clear rows h
    | w => w

/-- TILE_ROW_DELIVERY: the next row of a tile load arrives, ascending, each row at its own instant (R231, R234);
a row under repair ends the load with its mask (R235). Through a compressed region the object is read whole
before its first row. -/
def execTileRowDelivery (core slot : Nat) (s : State) : Host.Outcome State Fault Refusal :=
  let th := s.thread core slot
  let tile := tileOfCore core
  match th.findWait isTileLoad with
  | some ⟨m, at0, .tileLoad t place va entry _ gen fence clear rows hint⟩ =>
    let reach := s.reach core entry
    let fresh := fun s : State => s.setEng tile gen ((s.engRegs tile gen).setFill t 0)
    if isCompute core && s.engReads tile t fence then notDue s
    else if clear && !reach.z then .next ((fresh s).modTileLoad core slot false rows)
    else
      match if clear then some 0 else (List.range 32).find? fun i => !((s.engRegs tile gen).fill t).getLsbD i with
      | none => .next (s.endWait core slot isTileLoad id)
      | some i =>
        if reach.z then
          if rows = [] then
            if s.bankBusy place || !s.homesClear core slot th.uid place 128 then notDue s
            else match s.readObject reach.place (reach.limit - reach.base) va place with
              | (s, .error (c, info)) => .next (s.trapWait core slot c info m)
              | (s, .ok x) => .next ((if clear then fresh s else s).modTileLoad core slot false x.rows)
          else .next (s.deliverRow core slot t gen i at0 (rows[i]?.getD []))
        else
          let p := place + 64 * i
          if s.rowRepairing p then .next (s.trapWait core slot 0x15 (w64 (rowPlace p)) m)
          else if s.bankBusy p || !s.homesClear core slot th.uid p 64 then notDue s
          else
            let r := s.readBytes p 64
            .next ((r.1.touchRow p hint).deliverRow core slot t gen i at0 r.2)
  | _ => notDue s

/-- TLD_STALL_TIMEOUT: delivery has stood still for more than 4,096 cycles under a hold or a throttle (R235)
(log 37, DEDUCED). -/
def execTldStallTimeout (core slot : Nat) (s : State) : Host.Outcome State Fault Refusal :=
  let th := s.thread core slot
  let tile := tileOfCore core
  match th.findWait isTileLoad with
  | some ⟨m, _, .tileLoad t place _ _ last gen _ clear _ _⟩ =>
    match if clear then some 0 else (List.range 32).find? fun i => !((s.engRegs tile gen).fill t).getLsbD i with
    | some i =>
      let p := place + 64 * i
      let b := (s.bankAt p).1
      if last + 4096 < s.cycle ∧ spaceOfPlace p = 0 ∧ (s.bankHeld tile b ∨ s.bankThrottled tile b) then
        .next (s.trapWait core slot 0x16 (w64 p) m)
      else notDue s
    | none => notDue s
  | _ => notDue s

/-! Row control. -/

/-- The checks of R237: steps 1, 3 and 4 of R179 for one byte. -/
def State.rowAccess (s : State) (va : W64) : Chk Xlat := s.translate s.cur.core s.cur.slot .load va 1

/-- Whether a row form has an effect: vault space, a granule that is present, a row not under repair. -/
def State.rowUsable (s : State) (place : Nat) : Bool :=
  spaceOfPlace place = 0 && s.granule (tileOfPlace place) (offsetOfPlace place / 2 ^ 21) ≠ 0
    && !s.rowRepairing place

/-- The effect of a row form (R173, R237): rowopen opens the row under the default policy, rowclose closes it if it is
open. -/
def State.rowEffect (s : State) (place : Nat) (opens : Bool) : State :=
  if !s.rowUsable place then s
  else if opens then s.touchRow place .dflt
  else
    let br := s.bankAt place
    let b := s.bank (tileOfPlace place) br.1
    if b.openRow = some br.2 then s.setBank (tileOfPlace place) br.1 { b with openRow := none, keepOpen := false } else s

/-- Whether a row form can be performed now: it has no effect, or its bank performs accesses (R174, R417). -/
def State.rowReady (s : State) (place : Nat) : Bool := !s.rowUsable place || !s.bankStops place

/-- Whether a thread's posted stores and row forms below number `seq` to the vault of a place have been performed (R237). -/
def State.vaultClear (s : State) (core slot uid place seq : Nat) : Bool :=
  s.posted.all fun p => !(p.isOf core slot uid && p.home = homeOf place && decide (p.seq < seq))

/-- A row form is performed behind the thread's earlier accesses to the vault and when its bank can, at once where nothing
stands in its way (R237). -/
def rowOp (o : RowF) (s : State) (opens : Bool) : Host.Outcome State Fault Refusal :=
  complete o.g s fun s => do
    let va ← s.vaBase o.a.toNat o.off
    let x ← s.rowAccess va
    s.dataStop [(va.toNat, 1)] true false
    if spaceOfPlace x.place = 0
        && !(s.vaultClear s.cur.core s.cur.slot s.cth.uid x.place s.nextUid && s.rowReady x.place) then
      return .done (s.postAs (.row opens) x.entry .dflt [⟨x.place, 0, 0, false⟩])
    else return .done (s.rowEffect x.place opens)

def execRowopen (o : RowF) (s : State) := rowOp o s true
def execRowclose (o : RowF) (s : State) := rowOp o s false

end Sys2Proof.Machine
end

