-- ==== Sys2Proof/Machine/Engine.lean ====
section
/-! DEFINITION. Engine.lean: major opcodes 0x90 to 0x93: the engine queue, acceptance, occupancies and engine faults
(R256 to R261, R266, R323 to R335). -/

namespace Sys2Proof.Machine

/-! Acceptance. -/

/-- The BFCTL value that the last twset accepted before will have written (R274). -/
def bfRefused (bf : W64) (form : EngineForm) : Bool :=
  match form with
  | .drev _ | .twmul .. => bfNst bf = 0
  | .bfly o => bfNst bf ≤ o.stage.toNat
  | _ => false

/-- The control state that a form requires and does not find (R261 step 1, R334). -/
def State.controlRefused (s : State) (tile : Nat) (op : EngineOp) : Bool :=
  bfRefused (s.tile tile).bfAccepted op.form
    || (match op.form with
        | .product 4 o => !(s.engRegs tile op.gen).ivalid.getLsbD o.a.toNat
        | .ast o .. => o.rg && !s.ringOn tile o.ring.toNat
        | _ => false)

/-- The checks of R261 in their order: control state, full operands, no poisoned row. -/
def State.engineRefusal (s : State) (tile : Nat) (op : EngineOp) : Option (Nat × W64) :=
  let e := s.engRegs tile op.gen
  if s.controlRefused tile op then some (0x01, 0x0B)
  else match op.form.reads.find? fun t => e.fill t ≠ BitVec.allOnes 32 with
    | some t => some (0x1C, w64 (t + (e.fill t).toNat * 2 ^ 8))
    | none =>
      match op.form.reads.find? fun t => e.rowPoison t ≠ 0 with
      | some t =>
        let row := (lowestBit 32 (e.rowPoison t).toNat).getD 0
        some (0x08, if t = 8 then poisonInfo 0 3 row else poisonInfo t 2 row)
      | none => none

/-- What acceptance gives a form: its queue entry, and the sequence number of an ast's record. -/
structure Accepted where
  s : State
  seq : Option Nat

/-- Acceptance (R258, R261, R334): none while all 8 entries are occupied or an ast finds no free record. -/
def State.accept (s : State) (tile : Nat) (op : EngineOp) : Except (Nat × W64) (Option Accepted) :=
  let t := s.tile tile
  if 8 ≤ t.engineQ.length then .ok none
  else match s.engineRefusal tile op with
    | some e => .error e
    | none =>
      let enter := fun (s : State) (form : EngineForm) (bf : W64) =>
        let op := { op with form := form, bf := bf, fence := s.nextUid }
        State.modTile { s with nextUid := s.nextUid + 1 } tile fun t =>
          { t with engineQ := t.engineQ ++ [op], bfAccepted := bf }
      match op.form with
      | .twset v => .ok (some ⟨enter s op.form v, none⟩)
      | .ast o va p en _ _ _ =>
        let th := s.thread op.core op.slot
        let hs := (List.range 8).map th.shore
        if o.rg then
          match s.reserveRing tile o.ring.toNat with
          | none => .ok none
          | some (q, s) => .ok (some ⟨enter s (.ast o va p en (some q) hs none) t.bfAccepted, some q⟩)
        else .ok (some ⟨enter s (.ast o va p en none hs none) t.bfAccepted, none⟩)
      | f => .ok (some ⟨enter s f t.bfAccepted, none⟩)

/-- The register that receives a record's sequence number. -/
def EngineForm.seqReg : EngineForm → Option Nat
  | .ast o .. => if o.rg then some o.d.toNat else none
  | _ => none

/-- What acceptance writes to the thread: the sequence number of an ast's record, and its count as a published store
(R334, R365). -/
def Thread.takeSeq (t : Thread) (form : EngineForm) (seq : Option Nat) : Thread :=
  let t := match form.seqReg, seq with
    | some d, some q => t.setClean d (w64 q)
    | _, _ => t
  match form with
  | .ast .. => t.bump
  | _ => t

/-- The queue entry of a form of the executing thread. -/
def State.engineOp (s : State) (form : EngineForm) : EngineOp :=
  { core := s.cur.core, slot := s.cur.slot, uid := s.cth.uid, task := s.cth.task, form := form, bf := 0,
    gen := (s.tile s.curTile).engGen, fence := 0 }

/-- The issue of a form without a semaphore wait: accepted, refused, or waiting for an entry (R258, R321). -/
def State.issueEngine (s : State) (form : EngineForm) : Chk Fin :=
  match s.accept s.curTile (s.engineOp form) with
  | .error (c, i) => .error (.trap c i)
  | .ok (some a) => .ok (.done (a.s.modCur fun t => t.takeSeq form a.seq))
  | .ok none => .ok (.go (s.waitOn .waitingMemory (.engineFull (s.engineOp form))))

/-- A wait of w on a semaphore: the thread joins its waiters (R269). -/
def State.waitSem (s : State) (sem w : Nat) (form : Option EngineOp) : State :=
  let x : SemWaiter := ⟨sem, s.cycle, s.cur.core, s.cur.slot⟩
  (s.waitOn .waitingMessage (.sem sem w form none)).modTile s.curTile fun t => { t with semQ := insertWaiter x t.semQ }

/-- A product form (R324). -/
def productOp (o : MmaF) (s : State) (fn : Nat) : Host.Outcome State Fault Refusal :=
  complete o.g s fun s =>
    let form := EngineForm.product fn o
    if o.ww = 0 then s.issueEngine form
    else .ok (.go (s.waitSem o.ws.toNat o.ww.toNat (some (s.engineOp form))))

def execMmabf (o : MmaF) (s : State) := productOp o s 0
def execMmafh (o : MmaF) (s : State) := productOp o s 1
def execMmai8 (o : MmaF) (s : State) := productOp o s 2
def execMmatw (o : MmaF) (s : State) := productOp o s 3
def execMmasp (o : MmaF) (s : State) := productOp o s 4

def execSparsify (o : SparF) (s : State) : Host.Outcome State Fault Refusal :=
  complete o.g s fun s => s.issueEngine (.sparsify o)
def execDrev (o : Acc1) (s : State) : Host.Outcome State Fault Refusal :=
  complete o.g s fun s => s.issueEngine (.drev o)
def execBfly (o : BflyF) (s : State) : Host.Outcome State Fault Refusal :=
  complete o.g s fun s => s.issueEngine (.bfly o)

/-- twset (R273, R327). -/
def execTwset (o : A1) (s : State) : Host.Outcome State Fault Refusal :=
  complete o.g s fun s => do
    let v ← s.useS o.a.toNat
    need (bfOk v) badOperand
    s.issueEngine (.twset v)

/-- twmul (R329). -/
def execTwmul (o : TwmulF) (s : State) : Host.Outcome State Fault Refusal :=
  complete o.g s fun s => do
    let t ← s.useS o.a.toNat
    let u ← s.useS o.b.toNat
    need (t ≠ 0 && t.toNat ≤ 2 ^ 24) badOperand
    s.issueEngine (.twmul o t.toNat u.toNat)

def execAzero (o : Acc1) (s : State) : Host.Outcome State Fault Refusal :=
  complete o.g s fun s => s.issueEngine (.azero o)
def execAmov (o : AmovF) (s : State) : Host.Outcome State Fault Refusal :=
  complete o.g s fun s => s.issueEngine (.amov o)

/-- The checks of R332 at issue: alignment, reach, own tile. -/
def State.engineAccess (s : State) (nd : Need) (va : W64) (n : Nat) : Chk Xlat := do
  aligned va 64
  let x ← s.access nd va n
  s.dataStop [(va.toNat, n)] nd.r nd.w
  need (spaceOfPlace x.place < 2 && tileOfPlace x.place = s.curTile) (.trap 0x11 va)
  return x

/-- s[a] + sext(off, 32). -/
def State.vaEngine (s : State) (a : Nat) (off : BitVec 32) : Chk W64 := do
  let x ← s.useS a
  return x + off.signExtend 64

/-- ast (R332, R334). -/
def execAst (o : AstF) (s : State) : Host.Outcome State Fault Refusal :=
  complete o.g s fun s => do
    let va ← s.vaEngine o.a.toNat o.off
    let x ← s.engineAccess .store va (if o.ty = 0 then 4096 else 2048)
    s.issueEngine (.ast o va x.place x.entry none [] none)

/-- ald (R332, R333). -/
def execAld (o : AldF) (s : State) : Host.Outcome State Fault Refusal :=
  complete o.g s fun s => do
    let va ← s.vaEngine o.a.toNat o.off
    let x ← s.engineAccess .load va 4096
    s.issueEngine (.ald o va x.place x.entry [] [])

/-! Waiting for an entry. -/

def isEngineFull : Wait → Bool
  | .engineFull _ => true
  | _ => false

/-- A product's wait that has been granted and is undone (R261, R269, R322). -/
def State.undoGrant (s : State) (tile : Nat) (op : EngineOp) : State :=
  match op.form with
  | .product _ o => if o.ww = 0 then s else s.semAddBack tile o.ws.toNat o.ww.toNat
  | _ => s

/-- A waiting form is accepted now, traps, or goes on waiting. -/
def State.admitOne (s : State) (core slot : Nat) : State :=
  match (s.thread core slot).findWait isEngineFull with
  | some ⟨m, _, .engineFull op⟩ =>
    let tile := tileOfCore core
    match s.accept tile op with
    | .error (c, i) => (s.undoGrant tile op).trapWait core slot c i m
    | .ok (some a) => a.s.endWait core slot isEngineFull fun t => t.takeSeq op.form a.seq
    | .ok none => s
  | _ => s

/-- The threads of a compute core that wait for an entry, the longest first; of two that have waited as long, the lower
slot (R258, R321; log 128, DESIGN CHOICE). -/
def State.engineWaiters (s : State) (core : Nat) : List Nat :=
  let l := (List.range 16).filterMap fun k =>
    ((s.thread core k).findWait isEngineFull).map fun w => (w.at0, k)
  (l.mergeSort fun x y => x.1 < y.1 || (x.1 = y.1 && x.2 ≤ y.2)).map Prod.snd

/-- A waiting form that reserves a record of a ring. -/
def Wait.wantsRecord : Wait → Bool
  | .engineFull op => op.form.seqReg.isSome
  | _ => false

/-- Waiting forms enter the queue as entries and records allow (R258, R321). While one of them is to reserve a record, none
enters before the cores of the tile have made their issues of the cycle (R337). -/
def State.admitEngine (s : State) (tile : Nat) : State :=
  let core := computeOf tile
  let l := s.engineWaiters core
  if !s.issuesDone tile && l.any fun k => ((s.thread core k).findWait Wait.wantsRecord).isSome then s
  else l.foldl (fun s k => s.admitOne core k) s

/-- Whether a form goes on waiting for an entry or a record. -/
def State.stillFull (s : State) (tile : Nat) (op : EngineOp) : Bool :=
  match s.accept tile op with
  | .ok none => true
  | _ => false

/-- Whether a waiting form can be admitted now that the cores have made their issues of the cycle. -/
def State.admittable (s : State) (tile : Nat) : Bool :=
  let core := computeOf tile
  s.issuesDone tile && (s.engineWaiters core).any fun k =>
    match (s.thread core k).findWait isEngineFull with
    | some ⟨_, _, .engineFull op⟩ => !s.stillFull tile op
    | _ => false

/-! Occupancy. -/

/-- The engine fault of an accepted form (R335): in the issuing thread before its next issue; else a record of the
slot with no thread held, whose pc, insn and lineword the manual does not state: they are 0 (R31; log 127, DESIGN
CHOICE). -/
def State.engineFault (s : State) (op : EngineOp) (cause fn place : Nat) : State :=
  let info := w64 (cause + fn * 2 ^ 8 + place % 2 ^ 38 * 2 ^ 16)
  let t := s.thread op.core op.slot
  if t.uid = op.uid ∧ t.task = op.task ∧ t.state ≠ .idle ∧ t.state ≠ .swapped then
    s.setThread op.core op.slot { t with engFault := t.engFault ++ [(0x21, info)] }
  else match s.trapRing op.core with
    | some ring => s.recordFor op.core op.slot 0x21 info op.task ⟨0, 0, none, 0, false, false⟩ ring
    | none => s.stopCore op.core 0x21 info

/-- Whether the stores that precede a form have been performed (R332), and those of the engine itself, whose accesses
follow each other. -/
def State.fenceClear (s : State) (op : EngineOp) : Bool :=
  s.posted.all fun p =>
    !((p.isOf op.core op.slot op.uid && p.seq < op.fence) || (p.core = op.core && p.slot = 48))

/-- The oldest entry leaves the queue, and a waiting form takes its place. -/
def State.retire (s : State) (tile : Nat) : State :=
  (s.modTile tile fun t => { t with engineQ := t.engineQ.tail }).admitEngine tile

/-- The bytes of an accumulator from a loaded range. -/
def EngineRegs.loadAcc (e : EngineRegs) (d : Nat) (l : List PByte) : EngineRegs :=
  e.setAccWords d ((chunks 4 1024 l).map numberOf)

/-- The oldest entry of the queue has moved on. -/
def State.setOldest (s : State) (tile : Nat) (op : EngineOp) : State :=
  s.modTile tile fun t => { t with engineQ := op :: t.engineQ.tail }

/-- An instant of an ald, whose 64-byte accesses follow each other, or its end (R231, R332, R333); a throttle holds them
until it ends. -/
def State.runAld (s : State) (tile : Nat) (op : EngineOp) (o : AldF) (va : W64) (place entry : Nat)
    (got : List PByte) (part : SMap (List PByte)) : State :=
  if got.length < 4096 then
    let p := place + got.length
    let r := s.readNext p 64 (fun a => !s.bankBusy a && !s.throttled a) part
    if r.2.length = part.length then s
    else
      let s := r.1.touchRow p .dflt
      if wordsLeft 64 r.2 = [] then s.setOldest tile { op with form := .ald o va place entry (got ++ wordBytes 64 r.2) [] }
      else s.setOldest tile { op with form := .ald o va place entry got r.2 }
  else match got.findIdx? Prod.snd with
    | some k => (s.engineFault op 0x08 3 (place + k)).retire tile
    | none => (s.setEng tile op.gen ((s.engRegs tile op.gen).loadAcc o.d.toNat got)).retire tile

/-- The completion record of an ast that has one stands behind those of the asts before it (R334). -/
def State.recordAst (s : State) (tile : Nat) (op : EngineOp) (o : AstF) (seq : Option Nat) (status done fault : Nat) :
    State :=
  match seq with
  | some q => s.modTile tile fun t =>
      { t with astRecords := t.astRecords ++ [(⟨o.ring.toNat, q, status, done, fault, op.task, s.nextUid⟩ : AstRecord)] }
  | none => s

/-- The data of an ast, checked against the shores before any byte is written: its 64-byte accesses in ascending order,
or its end (R334, R371). -/
def State.checkAst (s : State) (tile : Nat) (op : EngineOp) (o : AstF) (va : W64) (place entry : Nat)
    (seq : Option Nat) (hs : List Shore) : State :=
  let bytes := ((s.engRegs tile op.gen).astBytes o).map fun b => (b, false)
  match shoreAll (fun i => hs[i]?.getD ⟨0, 0, 0⟩) [vbytes va.toNat bytes] with
  | .error u =>
    let p := place + (u - va.toNat)
    ((s.engineFault op 0x09 2 p).recordAst tile op o seq 8 0 p).retire tile
  | .ok (l, flags) =>
    let t := s.thread op.core op.slot
    let s := if t.uid = op.uid ∧ t.task = op.task then s.setThread op.core op.slot (t.flagShores flags) else s
    s.setOldest tile
      { op with form := .ast o va place entry seq hs (some (chunks 64 64 (storedBytes va.toNat place l.flatten))) }

/-- The next access of an ast goes out; with the last one its occupancy ends (R332, R334). -/
def State.runAst (s : State) (tile : Nat) (op : EngineOp) (o : AstF) (va : W64) (place entry : Nat)
    (seq : Option Nat) (hs : List Shore) (todo : List (List PWrite)) : State :=
  let post : Posted := { seq := 0, core := op.core, slot := 48, uid := 0, entry := entry, head := false, home := 0,
                         kind := .plain, hint := .dflt, bytes := [] }
  let s := s.postFor post (todo.headD [])
  if todo.tail = [] then (s.recordAst tile op o seq 0 (if o.ty = 0 then 4096 else 2048) 0).retire tile
  else s.setOldest tile { op with form := .ast o va place entry seq hs (some todo.tail) }

/-- What a form without memory accesses leaves of the engine's registers (R259). -/
def EngineOp.apply (op : EngineOp) (e : EngineRegs) : EngineRegs :=
  match op.form with
  | .product fn o => e.product fn o
  | .sparsify o => e.sparsify o
  | .drev o => e.drev op.bf o.d.toNat
  | .bfly o => e.bfly op.bf o
  | .twset v => { e with bfctl := v }
  | .twmul o t u => e.twmul op.bf o.d.toNat t u
  | .azero o => e.azero o.d.toNat
  | .amov o => e.amov o
  | .ast .. | .ald .. => e

/-- The count of a form's release signal, 0 for none (R268). -/
def EngineForm.signals : EngineForm → Nat
  | .product _ o => o.rk.toNat
  | _ => 0

/-- The release signal of a product (R268). -/
def State.releaseSignal (s : State) (tile : Nat) (form : EngineForm) : State :=
  match form with
  | .product _ o => if o.rk = 0 then s else s.semSignal tile o.rs.toNat o.rk.toNat
  | _ => s

/-- ENGINE_OPERATION_END: the occupancy of the oldest entry ends (R259, R268), a release signal behind the signals and
sets of the cores in its cycle (R346); an ald or ast makes its accesses one by one before that (log 49, DESIGN CHOICE).
Forms that have waited only for the cores' issues of the cycle enter first (R337). -/
def execEngineOperationEnd (tile : Nat) (s : State) : Host.Outcome State Fault Refusal :=
  if s.admittable tile then .next (s.admitEngine tile)
  else match (s.tile tile).engineQ with
  | [] => notDue s
  | op :: _ =>
    match op.form with
    | .ald o va p en got part => if s.fenceClear op then .next (s.runAld tile op o va p en got part) else notDue s
    | .ast o va p en q hs todo =>
      if s.fenceClear op then
        .next (match todo with
          | none => s.checkAst tile op o va p en q hs
          | some l => s.runAst tile op o va p en q hs l)
      else notDue s
    | f =>
      let ended := fun s : State => s.setEng tile op.gen (op.apply (s.engRegs tile op.gen))
      if f.signals = 0 then .next ((ended s).retire tile)
      else if s.semPhase tile 1 then .next (((ended (s.ordered (semUnit tile) 1)).releaseSignal tile f).retire tile)
      else notDue s

/-- AST_RECORD_WRITE: the oldest record of the engine, once every byte of its ast and of those before it has been
performed (R334). -/
def execAstRecordWrite (tile : Nat) (s : State) : Host.Outcome State Fault Refusal :=
  match (s.tile tile).astRecords with
  | [] => notDue s
  | r :: rest =>
    if s.posted.any fun p => p.core = computeOf tile && p.slot = 48 && p.seq < r.fence then notDue s
    else
      let s := s.modTile tile fun t => { t with astRecords := rest }
      .next (s.writeRecord tile r.ring (completionRecord r.status r.ring r.done r.fault r.seq r.task false))

/-! The gather unit (R266, R325). -/

/-- The address of row `i` of a gath. -/
def gatherVa (va : W64) (idx : W1024) (i : Nat) : W64 := va + w64 64 * sext64 32 (laneOf idx 32 i)

/-- The rows of a gath, each checked in ascending order. -/
def State.gatherRows (s : State) (va : W64) (idx : W1024) : List Nat → Chk (List (Nat × Xlat))
  | [] => .ok []
  | i :: r => do
    let e := gatherVa va idx i
    let x ← s.access .load e 64
    need (spaceOfPlace x.place = 1 && tileOfPlace x.place = s.curTile) (.trap 0x11 e)
    let l ← s.gatherRows va idx r
    return (e.toNat, x) :: l

/-- The stop of a gath comes once its rows have passed R179, before their places are looked at (R266, R398). -/
def State.gatherStop (s : State) (va : W64) (idx : W1024) (rows : List Nat) : Chk Unit :=
  if rows.all fun i => (s.access .load (gatherVa va idx i) 64).isOk then
    s.dataStop (rows.map fun i => ((gatherVa va idx i).toNat, 64)) true false
  else .ok ()

/-- gath: every row is checked before the latch changes; on a compute core the clearing of the mask waits for the
queued readers of the latch (R260). -/
def execGath (o : GathF) (s : State) : Host.Outcome State Fault Refusal :=
  complete o.g s fun s => do
    let va ← s.useS o.a.toNat
    let n := o.n.toNat
    let idx ← s.useV o.b.toNat (List.range n)
    aligned va 64
    s.gatherStop va idx.bits (List.range n)
    let l ← s.gatherRows va idx.bits (List.range n)
    let tile := s.curTile
    let gen := (s.tile tile).engGen
    let later := isCompute s.cur.core && s.engReads tile 8 s.nextUid
    let s := if later then s else s.setEng tile gen ((s.engRegs tile gen).setFill 8 0)
    return .go (s.waitOn .waitingMemory
      (.gather (l.map fun e => e.2.place) (l.map fun e => e.2.entry) gen s.nextUid later []))

def isGather : Wait → Bool
  | .gather .. => true
  | _ => false

/-- What a gather has still to read: words of its rows, and word 0 of a row of zeros. -/
def gatherLeft (places : List Nat) (got : SMap (List PByte)) : List Nat :=
  ((List.range 32).flatMap fun i => if i < places.length then (List.range 8).map (8 * i + ·) else [8 * i]).filter
    fun j => got.all fun e => e.1 ≠ j

/-- Some bytes of row `i` of a gather are at hand; the whole row goes to the latch. -/
def State.gatherWord (s : State) (tile gen : Nat) (places : List Nat) (got : SMap (List PByte)) (i : Nat) : State :=
  if (gatherLeft places got).any fun j => j / 8 = i then s
  else
    let l := if i < places.length then (List.range 8).flatMap fun k => SMap.get [] got (8 * i + k)
      else List.replicate 64 (0, false)
    s.setEng tile gen ((s.engRegs tile gen).deliver 8 i l)

/-- GATHER_COMPLETE: the next word of a row is read, any of those whose home can, and the row that it makes whole reaches
the latch (R231, R266; log 21, DESIGN CHOICE); when the latch is full the gath completes (R325). -/
def execGatherComplete (core slot : Nat) (s : State) : Host.Outcome State Fault Refusal :=
  let th := s.thread core slot
  let tile := tileOfCore core
  match th.findWait isGather with
  | some ⟨_, _, .gather places entries gen fence clear got⟩ =>
    let e := s.engRegs tile gen
    if isCompute core && s.engReads tile 8 fence then notDue s
    else if clear then
      .next ((s.setEng tile gen (e.setFill 8 0)).modThread core slot fun t =>
        t.modWait isGather fun _ => .gather places entries gen fence false got)
    else
      let left := gatherLeft places got
      let wordAt := fun j => places.getD (j / 8) 0 + 8 * (j % 8)
      let l := left.filter fun j => places.length ≤ j / 8 || s.homesClear core slot th.uid (wordAt j) 8
      match l[(Config.freeWord s.fresh).toNat % l.length]? with
      | none =>
        if left = [] ∧ e.fill 8 = BitVec.allOnes 32 then .next (s.endWait core slot isGather id) else notDue s
      | some j =>
        let s := { s with fresh := s.fresh + 1 }
        let r := if j / 8 < places.length then s.readBytes (wordAt j) 8 else (s, [])
        let got := SMap.set got j r.2
        let s := (r.1.modThread core slot fun t =>
          t.modWait isGather fun _ => .gather places entries gen fence false got).gatherWord tile gen places got (j / 8)
        .next (if gatherLeft places got = [] ∧ (s.engRegs tile gen).fill 8 = BitVec.allOnes 32 then
          s.endWait core slot isGather id else s)
  | _ => notDue s

end Sys2Proof.Machine
end

