-- ==== Sys2Proof/Machine/Semaphores.lean ====
section
/-! DEFINITION. Semaphores.lean: major opcode 0x98 and the grants and stalls of the semaphore unit (R267 to R271,
R344 to R346). -/

namespace Sys2Proof.Machine

/-- semsig (R344). -/
def execSemsig (o : SemF) (s : State) : Host.Outcome State Fault Refusal :=
  complete o.g s fun s => .ok (.done (s.semSignal s.curTile o.d.toNat o.k.toNat))

/-- semwait (R345). -/
def execSemwait (o : SemF) (s : State) : Host.Outcome State Fault Refusal :=
  complete o.g s fun s => .ok (.go (s.waitSem o.d.toNat o.k.toNat none))

/-- semset (R346). -/
def execSemset (o : SemsetF) (s : State) : Host.Outcome State Fault Refusal :=
  complete o.g s fun s => do
    let v ← s.useS o.a.toNat
    need (bitsOf v 63 16 = 0) badOperand
    let r := semReg s.curTile o.d.toNat
    return .done (s.setReg r (setBits (s.reg r) 15 0 (bitsOf v 15 0)))

/-- A granted product is accepted, traps and gives its grant back, or waits for an entry (R258, R261, R269). -/
def State.grantProduct (s : State) (core slot : Nat) (m : Bool) (op : EngineOp) : State :=
  let tile := tileOfCore core
  match s.accept tile op with
  | .error (c, i) => (s.undoGrant tile op).trapWait core slot c i m
  | .ok (some a) => a.s.endWait core slot isSem id
  | .ok none =>
    (s.modThread core slot fun t => t.modWait isSem fun _ => .engineFull op).enterState core slot .waitingMemory 0

/-- A thread of a tile whose wait on a semaphore was granted in an earlier cycle. -/
def State.granted (s : State) (tile sem : Nat) : Option (Nat × Nat) :=
  ([stagingOf tile, computeOf tile].flatMap fun core => (List.range 16).map fun k => (core, k)).find? fun x =>
    match (s.thread x.1 x.2).findWait isSem with
    | some ⟨_, _, .sem n _ _ (some c)⟩ => n = sem && decide (c < s.cycle)
    | _ => false

/-- In the cycle after its grant a semwait completes, and a product is accepted (R258, R345). -/
def State.afterGrant (s : State) (core slot : Nat) : State :=
  match (s.thread core slot).findWait isSem with
  | some ⟨m, _, .sem _ _ form _⟩ =>
    match form with
    | none => s.endWait core slot isSem id
    | some op => s.grantProduct core slot m op
  | _ => s

/-- A waiter takes its w and leaves the queue (R269). -/
def State.takeGrant (s : State) (x : SemWaiter) (n w at0 : Nat) : State :=
  let tile := tileOfCore x.core
  let r := semReg tile n
  let s := s.setReg r (setBits (s.reg r) 15 0 (s.semCount tile n - w))
  let s := s.modTile tile fun t => { t with semQ := t.semQ.filter fun y => !(y.core = x.core && y.slot = x.slot) }
  (s.gaugeLatency x.core x.slot 0x05 (s.cycle - at0)).modThread x.core x.slot fun t =>
    t.modWait isSem fun op =>
      match op with
      | .sem n w form _ => .sem n w form (some s.cycle)
      | op => op

/-- Whether a wait that is not granted has outlived SEMLIM (R270). -/
def semExpired (lim at0 cycle : Nat) : Bool := lim ≠ 0 && decide (at0 + lim < cycle)

/-- SEMAPHORE_GRANT: the oldest waiter of a semaphore takes its w, behind the signals and sets of the cycle (R269, R346),
and in the cycle after its issue at the earliest (log 129, DESIGN CHOICE); in the next cycle its form completes or is
accepted (R258). -/
def execSemaphoreGrant (tile sem : Nat) (s : State) : Host.Outcome State Fault Refusal :=
  match s.granted tile sem with
  | some (core, slot) => .next (s.afterGrant core slot)
  | none =>
    match (s.tile tile).semQ.find? fun x => x.sem = sem with
    | none => notDue s
    | some x =>
      match (s.thread x.core x.slot).findWait isSem with
      | some ⟨_, at0, .sem n w _ none⟩ =>
        if !s.semReady x.core x.slot n w || s.cycle ≤ at0 || semExpired (s.semLimit tile) at0 s.cycle
            || !s.semPhase tile 2 then notDue s
        else .next ((s.ordered (semUnit tile) 2).takeGrant x n w at0)
      | _ => notDue s

/-- SEMAPHORE_STALL: a waiter that has not been granted after SEMLIM cycles traps and leaves the queue, behind the signals
and sets of the cycle (R270, R346). -/
def execSemaphoreStall (core slot : Nat) (s : State) : Host.Outcome State Fault Refusal :=
  let tile := tileOfCore core
  let lim := s.semLimit tile
  match (s.thread core slot).findWait isSem with
  | some ⟨m, at0, .sem n w _ none⟩ =>
    if lim = 0 || s.cycle < at0 + lim || (s.semReady core slot n w && !semExpired lim at0 s.cycle)
        || !s.semPhase tile 2 then notDue s
    else .next (((s.ordered (semUnit tile) 2).leaveLists core slot).trapWait core slot 0x1D (w64 (n + w * 2 ^ 16)) m)
  | _ => notDue s

end Sys2Proof.Machine
end

