-- ==== Sys2Proof/Machine/Repetition.lean ====
section
/-! DEFINITION. Repetition.lean: major opcode 0x99, the repetition buffer and its sequencer (R314 to R317, R347,
R348). -/

namespace Sys2Proof.Machine

/-- Whether a word is an instance of a form that repb captures (R314, R347): an encoding that is not legal in other
ways traps when the sequencer issues it (log 55, DEDUCED). -/
def repeatable (w : Word96) : Bool :=
  let r := Raw.unpack w
  let op := r.op.toNat
  let fn := r.fn.toNat
  opAllocated op && fnAllocated op fn
    && ((1 ≤ op && op ≤ 4) || (6 ≤ op && op ≤ 0xB) || (0x40 ≤ op && op ≤ 0x45) || op = 0x47
        || (op = 0x90 && r.m.extractLsb' 32 16 = 0) || (op = 0x91 && fn = 1) || (op = 0x92 && fn ≠ 2)
        || (op = 0x93 && fn ≤ 1) || (op = 0x98 && fn = 0))

/-- What a captured instruction does when the sequencer issues it. -/
def runCaptured (i : Instr) (s : State) : Option (Host.Outcome State Fault Refusal) :=
  match i with
  | .add o => some (execAdd o s)
  | .sub o => some (execSub o s)
  | .and o => some (execAnd o s)
  | .or o => some (execOr o s)
  | .xor o => some (execXor o s)
  | .andn o => some (execAndn o s)
  | .sll o => some (execSll o s)
  | .srl o => some (execSrl o s)
  | .sra o => some (execSra o s)
  | .rol o => some (execRol o s)
  | .min o => some (execMin o s)
  | .max o => some (execMax o s)
  | .minu o => some (execMinu o s)
  | .maxu o => some (execMaxu o s)
  | .addi o => some (execAddi o s)
  | .andi o => some (execAndi o s)
  | .ori o => some (execOri o s)
  | .xori o => some (execXori o s)
  | .slli o => some (execSlli o s)
  | .srli o => some (execSrli o s)
  | .srai o => some (execSrai o s)
  | .roli o => some (execRoli o s)
  | .li o => some (execLi o s)
  | .lpc o => some (execLpc o s)
  | .mul o => some (execMul o s)
  | .mulh o => some (execMulh o s)
  | .mulhu o => some (execMulhu o s)
  | .cmpeq o => some (execCmpeq o s)
  | .cmpne o => some (execCmpne o s)
  | .cmplt o => some (execCmplt o s)
  | .cmple o => some (execCmple o s)
  | .cmpltu o => some (execCmpltu o s)
  | .cmpleu o => some (execCmpleu o s)
  | .sel o => some (execSel o s)
  | .slt o => some (execSlt o s)
  | .sltu o => some (execSltu o s)
  | .clz o => some (execClz o s)
  | .ctz o => some (execCtz o s)
  | .popc o => some (execPopc o s)
  | .bswap o => some (execBswap o s)
  | .brev o => some (execBrev o s)
  | .bfx o => some (execBfx o s)
  | .bfxu o => some (execBfxu o s)
  | .bfi o => some (execBfi o s)
  | .bins o => some (execBins o s)
  | .bffcs o => some (execBffcs o s)
  | .bplim o => some (execBplim o s)
  | .pand o => some (execPand o s)
  | .por o => some (execPor o s)
  | .pxor o => some (execPxor o s)
  | .pandn o => some (execPandn o s)
  | .pnot o => some (execPnot o s)
  | .vadd o => some (execVadd o s)
  | .vsub o => some (execVsub o s)
  | .vmul o => some (execVmul o s)
  | .vmin o => some (execVmin o s)
  | .vmax o => some (execVmax o s)
  | .vand o => some (execVand o s)
  | .vor o => some (execVor o s)
  | .vxor o => some (execVxor o s)
  | .vsll o => some (execVsll o s)
  | .vsrl o => some (execVsrl o s)
  | .vsra o => some (execVsra o s)
  | .vadds o => some (execVadds o s)
  | .vfadd o => some (execVfadd o s)
  | .vfsub o => some (execVfsub o s)
  | .vfmul o => some (execVfmul o s)
  | .vfmin o => some (execVfmin o s)
  | .vfmax o => some (execVfmax o s)
  | .vfma o => some (execVfma o s)
  | .vfabs o => some (execVfabs o s)
  | .vfneg o => some (execVfneg o s)
  | .vcmpeq o => some (execVcmpeq o s)
  | .vcmpne o => some (execVcmpne o s)
  | .vcmplt o => some (execVcmplt o s)
  | .vcmple o => some (execVcmple o s)
  | .vfcmpeq o => some (execVfcmpeq o s)
  | .vfcmplt o => some (execVfcmplt o s)
  | .vfcmple o => some (execVfcmple o s)
  | .vfcmpun o => some (execVfcmpun o s)
  | .vperm o => some (execVperm o s)
  | .vbcast o => some (execVbcast o s)
  | .vextr o => some (execVextr o s)
  | .vins o => some (execVins o s)
  | .vrot o => some (execVrot o s)
  | .vsel o => some (execVsel o s)
  | .vcvt o => some (execVcvt o s)
  | .vredadd o => some (execVredadd o s)
  | .vfredadd o => some (execVfredadd o s)
  | .vredmin o => some (execVredmin o s)
  | .vredmax o => some (execVredmax o s)
  | .vfdot o => some (execVfdot o s)
  | .vmovi o => some (execVmovi o s)
  | .mmabf o => some (execMmabf o s)
  | .mmafh o => some (execMmafh o s)
  | .mmai8 o => some (execMmai8 o s)
  | .mmatw o => some (execMmatw o s)
  | .mmasp o => some (execMmasp o s)
  | .sparsify o => some (execSparsify o s)
  | .drev o => some (execDrev o s)
  | .bfly o => some (execBfly o s)
  | .twmul o => some (execTwmul o s)
  | .azero o => some (execAzero o s)
  | .amov o => some (execAmov o s)
  | .semsig o => some (execSemsig o s)
  | _ => none

/-- A run as the fields of repb describe it. -/
def runOf (o : RepbF) (pc start : W64) (words : List Word96) : Run :=
  { repbPc := pc, start := start, words := words, strD := o.strD.toNat, strA := o.strA.toNat, strB := o.strB.toNat,
    strC := o.strC.toNat, count := o.cm1.toNat + 1, iter := 0, pos := 0, active := true, stopping := false,
    fault := none }

/-- What repb finds at the positions it captures: words, a line that the buffer does not hold, or a line that fails
its parity, or is illegal with its line word. -/
inductive Capture where
  | words (l : List Word96)
  | absent (va : W64)
  | broken (va : W64)
  | illegal (lw : BitVec 32)
  deriving DecidableEq, Repr

/-- The words of `n` positions from a pc on (R314), each checked as its line is read (R19, R34; log 123, DEDUCED). -/
def State.capture (s : State) (core : Nat) (task : W64) : Nat → W64 → Capture
  | 0, _ => .words []
  | n + 1, pc =>
    match (s.core core).findLine task (lineOf pc) with
    | none => .absent (lineOf pc)
    | some l =>
      if !parityOk l.data (posOf pc) then .broken (lineOf pc)
      else if (linewordOf l.data).setWidth 17 ≠ 0 then .illegal (linewordOf l.data)
      else match s.capture core task n (seqNext pc) with
        | .words r => .words (wordAt l.data (posOf pc) :: r)
        | x => x

/-- The position after the issue unit being executed. -/
def State.afterUnit (s : State) : W64 :=
  if s.unit.second.isSome then seqNext (seqNext s.unit.pc) else seqNext s.unit.pc

/-- The sequencer takes the run of a thread. -/
def State.startRun (s : State) (core slot : Nat) (r : Run) : State :=
  (s.modThread core slot fun t => { t with run := some r }).modCore core fun c => { c with seqOwner := some slot }

/-- Whether the sequencer carries on with a run of a slot: a swapped thread's run stops, but a migr waits for it (R316). -/
def Thread.runGoes (t : Thread) : Bool :=
  t.runActive && (t.state != .swapped || t.waits.any fun w => match w.op with | .migrating .. => true | _ => false)

/-- The slot whose run the sequencer carries: its owner, or the lowest slot whose run was restored. -/
def State.runSlot (s : State) (core : Nat) : Option Nat :=
  match (s.core core).seqOwner with
  | some k => some k
  | none => (List.range 16).find? fun k => (s.thread core k).runGoes

/-- repb (R314, R315): the positions are captured from their lines, which are fetched like a unit's own; the thread
goes on behind them. A run that a swap restored keeps the sequencer busy until it ends (R316, R348). -/
def execRepb (o : RepbF) (s : State) : Host.Outcome State Fault Refusal :=
  complete o.g s fun s =>
    let core := s.cur.core
    let n := o.nm1.toNat + 1
    match s.capture core s.cth.task n s.afterUnit with
    | .absent va => do
      let x ← s.fetchCheck va
      return .go (s.waitLine va x)
    | .broken va => .ok (.go ((s.dropLine core va).raise (.trap 0x0C va)))
    | .illegal lw => .error (.trap 0x02 (lw.setWidth 64))
    | .words l => do
      need (l.all repeatable) badOperand
      let r := runOf o s.memberPc s.afterUnit l
      let s := { s with unit := { s.unit with past := n } }
      match s.runSlot core with
      | none => return .done (s.startRun core s.cur.slot r)
      | some _ => return .go (s.waitOn .waitingMemory (.seqBusy r))

def isSeqBusy : Wait → Bool
  | .seqBusy _ => true
  | _ => false

def isRunWait : Wait → Bool
  | .repstop | .endAfterRun .. => true
  | _ => false

/-- The oldest repb that waits for the sequencer; of two that have waited as long, the lower slot (R348; log 128, DESIGN
CHOICE). -/
def State.nextRun (s : State) (core : Nat) : Option (Nat × Run) :=
  let l := (List.range 16).filterMap fun k =>
    match (s.thread core k).findWait isSeqBusy with
    | some ⟨_, at0, .seqBusy r⟩ => some (at0, k, r)
    | _ => none
  (l.foldl (fun (best : Option (Nat × Nat × Run)) x =>
    match best with
    | some b => if x.1 < b.1 then some x else some b
    | none => some x) none).map Prod.snd

/-- A free sequencer takes the oldest waiting run, whose repb completes. -/
def State.admitRun (s : State) (core : Nat) : State :=
  match s.runSlot core, s.nextRun core with
  | none, some (slot, r) => (s.startRun core slot r).endWait core slot isSeqBusy id
  | _, _ => s

/-- A run ends (R316, R348): a repstop of its thread completes, a halt or an ending branch goes on. -/
def State.endRun (s : State) (core slot : Nat) : State :=
  let s := s.modThread core slot fun t => { t with run := none }
  let s := s.modCore core fun c => { c with seqOwner := none }
  let s := match (s.thread core slot).findWait isRunWait with
    | some ⟨_, _, .endAfterRun m ctl⟩ =>
      (s.traceControl core slot ctl).modThread core slot fun t => t.modWait isRunWait fun _ => .release (.ending m)
    | some _ => s.endWait core slot isRunWait id
    | none => s
  s.admitRun core

/-- repstop (R316): a run that stands between two iterations ends at once (log 56, DEDUCED). -/
def execRepstop (o : G0) (s : State) : Host.Outcome State Fault Refusal :=
  complete o.g s fun s =>
    match s.cth.run with
    | some r =>
      if r.active then
        let s := s.modCur fun t => { t with run := some { r with stopping := true } }
        let s := s.waitOn .waitingMemory .repstop
        .ok (.go (if r.pos = 0 ∧ r.fault = none then s.endRun s.cur.core s.cur.slot else s))
      else .ok (.done s)
    | none => .ok (.done s)

/-- A captured instruction traps: the run stops there, and its thread is to trap before its next issue (R317). A thread
that waits for the run's end leaves that wait, which its instruction takes up again after the trap. -/
def State.faultRun (s : State) (core slot : Nat) (r : Run) (cause : Byte) (info : W64) : State :=
  let t := s.thread core slot
  let t := { t with run := some { r with fault := some (cause, info) } }
  match t.findWait isRunWait with
  | some _ =>
    (s.setThread core slot { t with waits := dropWait isRunWait t.waits, nextPc := t.pc }).settle core slot
  | none => s.setThread core slot t

/-- The information word of a repetition fault. -/
def Run.faultInfo (r : Run) (cause : Byte) : W64 :=
  w64 (cause.toNat + r.pos % 8 * 2 ^ 8 + r.iter % 2 ^ 16 * 2 ^ 16)

/-- The run one instruction further, none behind its last or a stopping iteration. -/
def Run.next (r : Run) : Option Run :=
  if r.pos + 1 < r.words.length then some { r with pos := r.pos + 1 }
  else if r.stopping ∨ r.count ≤ r.iter + 1 then none
  else some { r with pos := 0, iter := r.iter + 1 }

/-- The word of one position, from the line buffer or through the fetch reach, and whether a pair begins there; its line
is checked as at a capture (R19). A poisoned line fails with bit 0 set (R357). -/
def State.wordOf (s : State) (core slot : Nat) (pc : W64) : Chk (Word96 × Bool) := do
  let line ← match (s.core core).findLine (s.thread core slot).task (lineOf pc) with
    | some l => .ok l.data
    | none => match s.checkVa core slot .fetch (lineOf pc) 64 with
      | .ok x =>
        let l := s.peek x.place 64
        if poisoned l then .error (.trap 0x0C (lineOf pc + 1)) else .ok (BitVec.ofNat 512 (numberOf l))
      | .error b => .error b
  let j := posOf pc
  lineCheck pc (linewordOf line) j (wordAt line j)
  return (wordAt line j, j ≤ 3 && (linewordOf line).getLsbD (23 + j))

/-- The words of `n` positions. -/
def State.wordsFrom (s : State) (core slot : Nat) : Nat → W64 → Chk (List Word96)
  | 0, _ => .ok []
  | n + 1, pc => do
    let w ← s.wordOf core slot pc
    let r ← s.wordsFrom core slot n (seqNext pc)
    return w.1 :: r

/-- A run that a record restored is captured anew from its repb (R316, R383); none when there is no repb. -/
def State.recapture (s : State) (core slot : Nat) (r : Run) : Chk (Option Run) := do
  let w ← s.wordOf core slot r.repbPc
  match decode w.1 with
  | some (.repb o) =>
    let from_ := if w.2 then seqNext (seqNext r.repbPc) else seqNext r.repbPc
    let l ← s.wordsFrom core slot (o.nm1.toNat + 1) from_
    return some { runOf o r.repbPc from_ l with iter := r.iter, pos := r.pos }
  | _ => return none

/-- The address of a run's next instruction, where it was captured (R64, R315). -/
def Run.pc (r : Run) : W64 := skipPos r.pos r.start

/-- The unit under which the sequencer issues the word of an address. -/
def capturedUnit (pc : W64) (w : Word96) : IssueUnit :=
  { IssueUnit.reset with pc := pc, first := w, byRun := true, defer_ := true }

/-- The sequencer has used the core's issue of this cycle for the instruction at an address (R315, R401). -/
def State.markRun (s : State) (core slot : Nat) (pc : W64) : State :=
  s.modCore core fun c => { c with lastUnit := some (s.cycle, slot, pc) }

/-- A run that cannot be captured anew stops with the trap of its line (R19, R317); a line whose buffered copy failed
leaves the buffer (R357). -/
def State.faultCapture (s : State) (core slot : Nat) (r : Run) (b : Bad) : State :=
  match b with
  | .trap c x =>
    ((if c = 0x0C then s.dropLine core x else s).faultRun core slot r (BitVec.ofNat 8 c) x).markRun core slot r.repbPc
  | .stop .. => s

/-- One issue of the sequencer, for the thread in `slot` with its run (R315, R317). -/
def State.issueCaptured (s : State) (core slot : Nat) (r : Run) : Host.Outcome State Fault Refusal :=
  let t := s.thread core slot
  let w := stepWord r (r.words[r.pos]?.getD 0) r.iter
  let mark := fun s : State => s.markRun core slot r.pc
  match decodeChecked (isCompute core) w with
  | .error x => .next (mark (s.faultRun core slot r 0x01 (w64 x)))
  | .ok i =>
    match runCaptured i { s with cur := ⟨core, slot⟩, unit := capturedUnit r.pc w } with
    | some (.next s1) =>
      match s1.unit.trap with
      | some (c, x) => .next (mark (s.faultRun core slot r c x))
      | none =>
        if (s1.thread core slot).waits ≠ t.waits then notDue s
        else
          let s1 := s1.modThread core slot fun x => { x with pc := t.pc, nextPc := t.nextPc, run := r.next }
          let s1 := mark { s1 with unit := s.unit, cur := s.cur }
          .next (if r.next.isNone then s1.endRun core slot else s1)
    | some o => o
    | none => notDue s

/-- Whether the position is idle for the sequencer of a core: its rotation gives no slot, and the cores of the tile keep
their order within the cycle, the staging core first (R315, R346; log 113, DESIGN CHOICE). -/
def State.idlePosition (s : State) (core : Nat) : Bool :=
  let tile := tileOfCore core
  !s.issuedNow core && s.running core && (s.turnOf core).isNone
    && (if isCompute core then (s.turnOf (stagingOf tile)).isNone
        else (s.core (computeOf tile)).lastUnit.all fun u => u.1 ≠ s.cycle)

/-- SEQUENCER_ISSUE: in an idle position of the rotation, the sequencer issues the next instruction of its run
(R315, R348). -/
def execSequencerIssue (core : Nat) (s : State) : Host.Outcome State Fault Refusal :=
  if !s.idlePosition core then notDue s
  else match s.runSlot core with
    | none => notDue s
    | some slot =>
      let t := s.thread core slot
      match t.run with
      | none => notDue s
      | some r =>
        if !t.runGoes || r.fault.isSome then notDue s
        else
          let s := s.modCore core fun c => { c with seqOwner := some slot }
          if r.stopping ∧ r.pos = 0 then .next (s.endRun core slot)
          else if r.words ≠ [] then s.issueCaptured core slot r
          else match s.recapture core slot r with
            | .ok (some r) => s.issueCaptured core slot r
            | .ok none => .next (s.endRun core slot)
            | .error b => .next (s.faultCapture core slot r b)

end Sys2Proof.Machine
end

