-- ==== Sys2Proof/Machine/Threads.lean ====
section
/-! DEFINITION. Threads.lean: major opcodes 0x60 to 0x63, the life of a thread, the head slot's inbox, migration,
shares and barriers (R99 to R106, R113, R155 to R164). -/

namespace Sys2Proof.Machine

/-- A slot that can hold a task thread (R95). -/
def isTaskSlot (core slot : Nat) : Bool := 1 ≤ slot && slot ≤ (if isCompute core then 15 else 14)

/-! spawn (R156). -/

/-- Level words packed two to a lane, the lower level low. -/
def unpackLevels (f : Nat → W64) (lane : Nat) : SMap (BitVec 32) :=
  (List.range 8).foldl (fun m i =>
    let w := f (lane + i / 2)
    SMap.set m i (if i % 2 = 0 then w.setWidth 32 else w.extractLsb' 32 32)) []

/-- A thread that starts with the values of a spawn vector (R11, R156). -/
def startedThread (l : Nat → W64) (uid : Nat) : Thread :=
  { Thread.reset with
    pc := l 0, exit := l 1, task := l 4, handle := l 5, shape := l 6, uid := uid,
    regs := ((RegFile.reset.setS 1 ⟨l 1, false⟩).setS 2 ⟨l 2, false⟩).setS 3 ⟨l 3, false⟩,
    weaveIdx := unpackLevels l 7, weaveExt := unpackLevels l 11 }

/-- The status of a spawn (R156). -/
def State.spawnStatus (s : State) (core : Nat) (slot : W64) (l : Nat → W64) : Nat :=
  if !isTaskSlot core slot.toNat then 1
  else if (s.thread core slot.toNat).state ≠ .idle then 2
  else if !legalPc (l 0) then 3
  else if l 15 ≠ 0 then 4
  else 0

/-- A thread starts in an idle slot; it is ready in the next cycle. -/
def State.startSlot (s : State) (core slot : Nat) (l : Nat → W64) : State :=
  let s := s.setThread core slot (startedThread l s.nextUid)
  ({ s with nextUid := s.nextUid + 1 }).enterState core slot .ready 0

/-- spawn (R156). -/
def execSpawn (o : SVS) (s : State) : Host.Outcome State Fault Refusal :=
  complete o.g s fun s => headOnly 0x60 0 s (do
    let v ← s.useV o.a.toNat allWords
    let slot ← s.useS o.b.toNat
    let l := lane64 v.bits
    let core := s.cur.core
    let st := s.spawnStatus core slot l
    let s := if st = 0 then s.startSlot core slot.toNat l else s
    return .done (s.wClean o.d.toNat (w64 st)))

/-- reap (R157). -/
def execReap (o : ReapF) (s : State) : Host.Outcome State Fault Refusal :=
  complete o.g s fun s => headOnly 0x60 1 s (
    match s.reapTake s.cur.core with
    | some (v, s) => .ok (.done (s.wV o.d.toNat v))
    | none =>
      if o.poll then .ok (.done (s.wV o.d.toNat (noticeVec 0 0 0 [])))
      else .ok (.go (s.waitOn .waitingMessage (.reap o.d.toNat))))

/-- HEAD_INBOX_MESSAGE: a notice reaches the head slot's inbox and readies a waiting reap (R99, R157). -/
def execHeadInboxMessage (n : Nat) (s : State) : Host.Outcome State Fault Refusal :=
  match s.net[n]? with
  | some (.notice core x) =>
    let s := { s with net := dropAt s.net n }
    .next ((s.modCore core fun c => { c with inbox := c.inbox ++ [x] }).wakeReap core)
  | _ => notDue s

/-- yield (R158). -/
def execYield (o : A1) (s : State) : Host.Outcome State Fault Refusal :=
  complete o.g s fun s =>
    let t := Nat.min (s.rS o.a.toNat).bits.toNat 0x100000
    .ok (.go (s.waitOn .waitingMemory (.yielding (s.cycle + t))))

def isYield : Wait → Bool
  | .yielding _ => true
  | _ => false

/-- YIELD_EXPIRY. -/
def execYieldExpiry (core slot : Nat) (s : State) : Host.Outcome State Fault Refusal :=
  match (s.thread core slot).findWait isYield with
  | some ⟨_, _, .yielding due⟩ => if due ≤ s.cycle then .next (s.endWait core slot isYield id) else notDue s
  | _ => notDue s

/-- halt (R159): a task thread ends; in head mode the core stops, recorded with subcode 0 and the pc. -/
def execHalt (o : G0) (s : State) : Host.Outcome State Fault Refusal :=
  complete o.g s fun s =>
    if s.isHead then .ok (.go (s.stopCore s.cur.core 0 s.memberPc)) else .ok (.go (s.beginEnd 0 none))

/-! The end of a thread (R101, R223, R367). -/

def isEnding : Wait → Bool
  | .release (.ending _) | .sealing (.ending _) => true
  | _ => false

/-- THREAD_END: once its posted stores have been performed, an ending thread seals its versions (by seals of
their own), and then its slot is idle (R101, R201, R223, R367). -/
def execThreadEnd (core slot : Nat) (s : State) : Host.Outcome State Fault Refusal :=
  let t := s.thread core slot
  let held := s.openedBy t.uid fun _ => true
  match t.findWait isEnding with
  | some ⟨_, _, .release (.ending manner)⟩ =>
    if !s.drained core slot t.uid then notDue s
    else if manner = 1 || held.isEmpty then .next (s.finishEnd core slot manner)
    else .next (s.setThread core slot
      ({ t with coffers := [] }.modWait isEnding fun _ => .sealing (.ending manner)))
  | some ⟨_, _, .sealing (.ending manner)⟩ =>
    if held.isEmpty then .next (s.finishEnd core slot manner) else notDue s
  | _ => notDue s

/-! Migration (R104, R105, R160). -/

/-- Devices of the domain (R423): the machine's own device, and those that DOMCFG of it lays out. -/
def State.inDomain (s : State) (own dev : Nat) : Bool :=
  let w := s.reg3 (own * 512) 0x370000
  dev = own || (bitOf w 63 && dev / 16 < bitsOf w 49 43 && dev % 16 < bitsOf w 42 38)

/-- The migr that a slot holds in its retry latch. -/
def Thread.heldMigr (t : Thread) : Option SSS :=
  if t.state ≠ .trapped then none
  else match t.latch with
    | some l => match decode l.first with
      | some (.migr o) => some o
      | _ => none
    | none => none

/-- The status of a head migr (R160). -/
def State.migrStatus (s : State) (core : Nat) (target slot : W64) : Nat :=
  let t := s.thread core slot.toNat
  if target.toNat / 1024 ≥ 2048 || !s.inDomain (deviceOfCore core) (target.toNat / 1024) then 1
  else if target.toNat = core then 2
  else if !isTaskSlot core slot.toNat || !(t.state = .ready || t.state = .trapped) then 3
  else if t.coffers ≠ [] then 4
  else if (List.range 4).any fun i => (SMap.get ⟨false, 0, 0, []⟩ t.inflows i).bound then 5
  else 0

/-- The named thread leaves rotation, or a held migr that is refused completes with its status (log 28, DEDUCED). -/
def State.migrApply (s : State) (core target : Nat) (slot st : Nat) : State :=
  let t := s.thread core slot
  let past := match t.heldMigr with
    | some _ => { t with pc := seqNext t.pc, nextPc := seqNext t.pc, latch := none, stopHeld := false }
    | none => t
  let dst := t.heldMigr.map fun o => o.d.toNat
  if st = 0 then
    (s.setThread core slot { past with waits := [⟨false, s.cycle, .migrating target dst⟩], resv := [] }).enterState
      core slot .swapped 0
  else match dst with
    | some d => (s.setThread core slot (past.setClean d (w64 st))).enterState core slot .ready 0
    | none => s

/-- migr (R160): privileged in task mode; the head slot acts for the thread it names. -/
def execMigr (o : SSS) (s : State) : Host.Outcome State Fault Refusal :=
  complete o.g s fun s => headOnly 0x60 4 s (do
    let a ← s.useS o.a.toNat
    let slot ← s.useS o.b.toNat
    let core := s.cur.core
    let t := s.thread core slot.toNat
    let target := match t.heldMigr with
      | some h => if a = BitVec.allOnes 64 ∧ isTaskSlot core slot.toNat then (t.regs.getS h.a.toNat).bits else a
      | none => a
    let st := s.migrStatus core target slot
    let s := if isTaskSlot core slot.toNat then s.migrApply core target.toNat slot.toNat st else s
    return .done (s.wClean o.d.toNat (w64 st)))

def isMigrating : Wait → Bool
  | .migrating .. => true
  | _ => false

/-- Whether a shadow slot is still to be written to the vault: held, or busy with its writing (R377). -/
def ShadowSlot.isHeld (x : ShadowSlot) : Bool := x.state = 1 || (x.state = 3 && x.ctx.isSome)
def ShadowTile.isHeld (x : ShadowTile) : Bool := x.state = 1 || (x.state = 3 && x.regs.isSome)

/-- Whether the bank has anything still to be written (R381). -/
def Core.anyHeld (c : Core) : Bool :=
  (List.range 16).any (fun k => (c.shadowSlot k).isHeld) || c.shadowTile.isHeld

/-- MIGRATION_SEND: with its stores performed and no run active, and with nothing held, which the spill engine takes first,
the context leaves its core (R105, R316, R381). -/
def execMigrationSend (core slot : Nat) (s : State) : Host.Outcome State Fault Refusal :=
  let t := s.thread core slot
  match t.findWait isMigrating with
  | some ⟨_, _, .migrating target dst⟩ =>
    if !s.drained core slot t.uid || t.runActive || (s.core core).anyHeld then notDue s
    else
      let ctx := { t with waits := [], resv := [] }
      let s := s.vacate core slot
      let s := s.notify core ⟨4, slot, 0, [t.task, w64 target]⟩
      .next { s with net := s.net ++ [.migrant target core ctx dst] }
  | _ => notDue s

/-- MIGRATION_ARRIVAL: the context waits at the target in the order of arrival (R105). -/
def execMigrationArrival (n : Nat) (s : State) : Host.Outcome State Fault Refusal :=
  match s.net[n]? with
  | some (.migrant target source ctx dst) =>
    let ctx := match dst with
      | some d => ctx.setClean d 0
      | none => ctx
    let s := { s with net := dropAt s.net n }
    .next (s.modCore target fun c => { c with arrivals := c.arrivals ++ [(ctx, source)] })
  | _ => notDue s

/-- MIGRATION_PLACEMENT: the oldest arrival takes the lowest task slot that is idle once the core's issue of this cycle, a
spawn perhaps, is past, and is ready in the next cycle (R105, R156). -/
def execMigrationPlacement (core : Nat) (s : State) : Host.Outcome State Fault Refusal :=
  match (s.core core).arrivals with
  | [] => notDue s
  | (ctx, source) :: rest =>
    match (List.range 16).find? fun k => isTaskSlot core k && (s.thread core k).state = .idle with
    | none => notDue s
    | some slot =>
      if !s.takesMessages core || (s.turnOf core).isSome then notDue s
      else
        let s := s.modCore core fun c => { c with arrivals := rest }
        let s := s.setThread core slot { ctx with state := .idle, lastIssue := none, nextPc := ctx.pc }
        let s := s.enterState core slot .ready 0
        .next (s.notify core ⟨3, slot, 0, [ctx.task, w64 source]⟩)

/-! share and slice (R113, R163). -/

/-- One stage of R113: start, count and stride of part j of P. -/
def partStage (x g p j : Nat) (cyclic : Bool) : Nat × Nat × Nat :=
  let nb := (x + g - 1) / g
  if cyclic then
    let count :=
      if nb ≤ j then 0
      else
        let c := ((nb - 1 - j) / p + 1) * g
        if (nb - 1 - j) % p = 0 then c - (nb * g - x) else c
    (j * g, count, p * g)
  else
    let c := (nb + p - 1) / p * g
    (j * c, Nat.min c (x - j * c), 1)

/-- Index and extent of a level for a thread: levels above the highest nonzero extent take 0 and 1
(log 30, DEDUCED). -/
def Thread.levelPart (t : Thread) (lev : Nat) : Nat × Nat :=
  let ext := fun i => (SMap.get 0 t.weaveExt i).toNat
  let nlev := (List.range 8).foldl (fun n i => if ext i ≠ 0 then i + 1 else n) 0
  if nlev ≤ lev then (0, 1) else ((SMap.get 0 t.weaveIdx lev).toNat, Nat.max 1 (ext lev))

/-- share or slice over the bytes of a shape record (R163). Bytes 0x90 and up describe no dimension: with ndims of 9 to
15, which nothing checks, a dimension of 8 or more takes three zeros (log 103, DESIGN CHOICE). -/
def Thread.partition (t : Thread) (bytes : List Byte) (dim : Nat) (slice : Bool) : Nat × Nat × Nat :=
  let num := fun at0 n => natOfBytes ((bytes.drop at0).take n)
  let ndims := num 0 1 % 16
  if ndims ≤ dim ∨ 8 ≤ dim then (0, 0, 0)
  else
    let x := num (0x10 + 16 * dim) 8
    let ctl := w64 (num (0x18 + 16 * dim) 8)
    let g := Nat.max 1 (bitsOf ctl 47 16)
    let sh := t.levelPart (bitsOf ctl 2 0)
    let share := partStage x g sh.2 sh.1 (bitOf ctl 8)
    if slice then
      let sl := t.levelPart (bitsOf ctl 6 4)
      partStage share.2.1 g sl.2 sl.1 (bitOf ctl 9)
    else share

/-- The shape window of a core (R114). -/
def shapeWindow (core : Nat) : Nat :=
  spaceBase (tileOfCore core) 1 + (if isCompute core then 0x3FF800 else 0x3FF000)

/-- Where share and slice read the record: the window's entry of the launch, else the thread's shape place, if it has
one (R163). -/
def State.shapeRecord (s : State) (core : Nat) (t : Thread) : Option Nat :=
  match (List.range 8).find? fun i => t.handle ≠ 0 && s.word (shapeWindow core + 256 * i + 0xF8) = t.handle with
  | some i => some (shapeWindow core + 256 * i)
  | none => if t.shape = 0 then none else some t.shape.toNat

/-- share and slice (R163): the thread waits for the record. -/
def shapeOp (o : SS) (s : State) (slice : Bool) : Host.Outcome State Fault Refusal :=
  complete o.g s fun s =>
    let v := s.rS o.a.toNat
    .ok (.go (s.waitOn .waitingMemory (.shape o.d.toNat v.bits.toNat slice v.poison none [])))

def execShare (o : SS) (s : State) := shapeOp o s false
def execSlice (o : SS) (s : State) := shapeOp o s true

def isShape : Wait → Bool
  | .shape .. => true
  | _ => false

/-- The three results of share or slice. -/
def Thread.setPart (t : Thread) (d : Nat) (r : Nat × Nat × Nat) (poison : Bool) : Thread :=
  ((t.setS d ⟨w64 r.1, poison⟩).setS (d + 1) ⟨w64 r.2.1, poison⟩).setS (d + 2) ⟨w64 r.2.2, poison⟩

/-- The next instant of the read of a shape record (R163, R231), and the reply after the last. -/
def State.shapeRead (s : State) (core slot d dim : Nat) (slice poison : Bool) (p : Nat) (got : SMap (List PByte)) :
    State :=
  let t := s.thread core slot
  let n := if spaceOfPlace p = 1 then 8 else 256
  let r := s.readNext p 256 (fun q => !s.bankBusy q && s.homesClear core slot t.uid q n) got
  let s := if spaceOfPlace p = 0 && wordsLeft 256 r.2 = [] then r.1.touchRow p .dflt else r.1
  if wordsLeft 256 r.2 = [] then
    let l := wordBytes 256 r.2
    s.endWait core slot isShape fun t => t.setPart d (t.partition (l.map Prod.fst) dim slice) (poison || poisoned l)
  else s.modThread core slot fun t => t.modWait isShape fun _ => .shape d dim slice poison (some p) r.2

/-- The reply of a share or slice: the record's place is settled when the read begins; with no record, all three results
are 0 (R163). -/
def State.shapeReply (s : State) (core slot d dim : Nat) (slice poison : Bool) (place : Option Nat)
    (got : SMap (List PByte)) : State :=
  match place.or (s.shapeRecord core (s.thread core slot)) with
  | none => s.endWait core slot isShape fun t => t.setPart d (0, 0, 0) poison
  | some p => s.shapeRead core slot d dim slice poison p got

/-! launch, trig and bar. -/

/-- launch (R161): checked, then it waits for the thread's posted stores. -/
def execLaunch (o : SSS) (s : State) : Host.Outcome State Fault Refusal :=
  complete o.g s fun s => do
    let q ← s.useS o.a.toNat
    let va ← s.useS o.b.toNat
    aligned va 256
    let x ← s.access .load va 256
    s.dataStop [(va.toNat, 256)] true false
    return .go (s.waitOn .waitingMemory (.release (.launch o.d.toNat q x.place x.entry [])))

/-- trig (R162): with launch handle 0 it completes at once, waiting for no store and with no effect (log 29, DEDUCED). -/
def execTrig (o : G0) (s : State) : Host.Outcome State Fault Refusal :=
  complete o.g s fun s =>
    if s.cth.handle = 0 then .ok (.done s) else .ok (.go (s.waitOn .waitingMessage (.release .trig)))

/-- bar (R164) begins with its release. -/
def execBar (o : ScopeF) (s : State) : Host.Outcome State Fault Refusal :=
  complete o.g s fun s => .ok (.go (s.waitOn .waitingMessage (.release (.bar (scopeCode o.scope)))))

/-- The unit of a scope domain that a core lies in. -/
def scopeUnit (scope core : Nat) : Nat :=
  match scope with
  | 1 => tileOfCore core
  | 2 => groupHead (tileOfCore core)
  | 3 => tileOfCore core / 128
  | 4 => deviceOfCore core
  | _ => 0

/-- Rank of weave indices: level 0 fastest. -/
def idxKey (l : List Nat) : Nat := packNat 32 l

def insertMember (m : Member) : List Member → List Member
  | [] => [m]
  | x :: r => if idxKey m.idx < idxKey x.idx then m :: x :: r else x :: insertMember m r

/-- The members of the group of a member, by rank (R164). -/
def barGroup (l : Launch) (scope : Nat) (me : Member) : List Member :=
  (l.members.filter fun m => scopeUnit scope m.core = scopeUnit scope me.core).foldl (fun r m => insertMember m r) []

/-- Rounds of a bar of n members: ⌈log2 n⌉. -/
def barRounds (n : Nat) : Nat := if n ≤ 1 then 0 else Nat.log2 (n - 1) + 1

/-- Episodes entered and rounds done of a member at a scope. -/
def Member.progress (m : Member) (scope : Nat) : Nat × Nat := SMap.get (0, 0) m.bar scope

/-- Whether the member of rank q has entered episode e and done k rounds of it; for an ended member, whether the
network interface has, acting at once (R164). -/
def barDone (g : List Member) (scope rounds : Nat) : Nat → Nat → Nat → Nat → Bool
  | 0, _, _, _ => false
  | fuel + 1, q, e, k =>
    match g[q]? with
    | none => false
    | some m =>
      let p := m.progress scope
      if e < p.1 ∨ (e = p.1 ∧ k ≤ p.2) then true
      else if !m.ended then false
      else if k = 0 then (if e ≤ 1 then true else barDone g scope rounds fuel q (e - 1) rounds)
      else
        barDone g scope rounds fuel q e (k - 1)
          && barDone g scope rounds fuel ((q + g.length - 2 ^ (k - 1) % g.length) % g.length) e (k - 1)

/-- The launch and the member of a thread. -/
def State.memberOf (s : State) (t : Thread) : Option (Launch × Member) :=
  if t.handle = 0 then none
  else match s.launches.find? fun l => l.handle = t.handle with
    | none => none
    | some l => (l.members.find? fun m => m.idx = t.indices).map fun m => (l, m)

def Launch.setProgress (l : Launch) (idx : List Nat) (scope : Nat) (p : Nat × Nat) : Launch :=
  { l with members := l.members.map fun m =>
      if m.idx = idx then { m with bar := SMap.set m.bar scope p } else m }

def isBar : Wait → Bool
  | .release (.bar _) | .barred .. => true
  | _ => false

/-- A thread whose stores have been performed enters its next episode (R164 step 2) (log 31, DEDUCED). -/
def State.enterBar (s : State) (core slot scope : Nat) : State :=
  let t := s.thread core slot
  match s.memberOf t with
  | none => s.endWait core slot isBar id
  | some (l, m) =>
    let e := (m.progress scope).1 + 1
    let s := s.modLaunch t.handle fun l => l.setProgress m.idx scope (e, 0)
    if (barGroup l scope m).length ≤ 1 then s.endWait core slot isBar id
    else s.modThread core slot fun t => t.modWait isBar fun _ => .barred scope e 0

/-- BAR_NOTIFICATION: the notification of the next round of a waiting member arrives (R164 steps 2 and 3). -/
def execBarNotification (core slot : Nat) (s : State) : Host.Outcome State Fault Refusal :=
  let t := s.thread core slot
  match t.findWait isBar with
  | some ⟨_, _, .barred scope e k⟩ =>
    match s.memberOf t with
    | none => .next (s.endWait core slot isBar id)
    | some (l, m) =>
      let g := barGroup l scope m
      let n := g.length
      let rounds := barRounds n
      let r := g.findIdx fun x => x.idx = m.idx
      let from_ := (r + n - 2 ^ k % n) % n
      if barDone g scope rounds ((e + 1) * (rounds + 2)) from_ e k then
        let s := s.modLaunch t.handle fun l => l.setProgress m.idx scope (e, k + 1)
        if rounds ≤ k + 1 then .next (s.endWait core slot isBar id)
        else .next (s.modThread core slot fun t => t.modWait isBar fun _ => .barred scope e (k + 1))
      else notDue s
  | _ => notDue s

end Sys2Proof.Machine
end

