-- ==== Sys2Proof/Machine/Streams.lean ====
section
/-! DEFINITION. Streams.lean: streamers and completion rings (R287 to R294, R336 to R338), inflows (R295 to R297,
R339), queues and the riser (R298 to R304, R340 to R342). -/

namespace Sys2Proof.Machine

/-! Handles (R288). -/

def handleReg (dev i w : Nat) : Nat := spaceBase (dev * 512) 3 + 0x400000 + 32 * i + 8 * w

/-- A handle's index and generation. -/
def handleIndex (h : W64) : Nat := bitsOf h 27 16
def handleGen (h : W64) : Nat := bitsOf h 15 0

/-- Whether a word of an entry takes a value (Table 11.2). -/
def State.handleTakes (s : State) (dev i w : Nat) (v : W64) : Bool :=
  let place := fun x : W64 => x.toNat
  let fits := fun p len : Nat =>
    len = 0 || decide (offsetOfPlace p + len ≤ s.spaceSize (tileOfPlace p) (spaceOfPlace p) false)
  match w with
  | 0 => bitsOf v 60 16 = 0
  | 1 => place v % 64 = 0 && spaceOfPlace (place v) < 2 && bitOf v 63 = false
      && fits (place v) (s.reg (handleReg dev i 2)).toNat
  | 2 => v.toNat % 64 = 0 && fits (s.reg (handleReg dev i 1)).toNat v.toNat
  | _ => false

/-- A write of a word of the table: a value that breaks its conditions is discarded. -/
def State.writeHandle (s : State) (dev i w : Nat) (v : W64) : State :=
  if s.handleTakes dev i w v then s.setReg (handleReg dev i w) v else s

/-- HANDLE_ENTRY_WRITE: a head-mode write reaches the table. -/
def execHandleEntryWrite (dev i w : Nat) (v : W64) (s : State) : Host.Outcome State Fault Refusal :=
  if i < 4096 then .next (s.writeHandle dev i w v) else notDue s

/-! Transfers. -/

/-- The request descriptor in the lanes of a vector register (Table 11.1) (log 51, DEDUCED). -/
def descOf (v : W1024) : XferDesc :=
  let l := lane64 v
  { srch := l 0, srco := l 1, dsth := l 2, dsto := l 3, len := (l 4).toNat, push := bitOf (l 5) 11,
    inflow := bitOf (l 5) 10, ring := bitsOf (l 5) 3 0, qtgt := l 6, user := l 7 }

/-- What R287 refuses of a descriptor. -/
def descRefused (v : W1024) : Bool :=
  let l := lane64 v
  let d := descOf v
  bitsOf (l 5) 63 12 ≠ 0 || bitsOf (l 5) 9 4 ≠ 0 || (List.range 8).any (fun i => l (8 + i) ≠ 0)
    || d.srco.toNat % 64 ≠ 0 || d.dsto.toNat % 64 ≠ 0 || (d.inflow && d.dsto ≠ 0)
    || d.len % 64 ≠ 0 || d.len = 0 || 0xFFFFFFC0 < d.len
    || (d.push && (bitsOf d.qtgt 63 53 ≠ 0 || bitsOf d.qtgt 31 31 ≠ 0 || bitsOf d.qtgt 27 0 ≠ 0))

/-- The transfer that the executing thread asks for. -/
def State.transferOf (s : State) (d : Nat) (desc : XferDesc) : Transfer :=
  { num := s.nextUid, core := s.cur.core, slot := s.cur.slot, uid := s.cth.uid, task := s.cth.task, handle := s.cth.handle,
    ringTile := s.curTile, seq := 0, d := d, desc := desc, srcPlace := 0, dstPlace := 0, todo := [], part := [], status := 0,
    fault := 0, done := 0, passed := false, ringDead := false }

/-- xfer (R289, R336): the thread waits for its record, which its ring gives at the end of the cycle (R337), and then for
its posted stores. -/
def execXfer (o : XferF) (s : State) : Host.Outcome State Fault Refusal :=
  complete o.g s fun s => do
    let v ← s.useV o.a.toNat allWords
    need (!descRefused v.bits && s.ringOn s.curTile (descOf v.bits).ring) badOperand
    let t := s.transferOf o.d.toNat (descOf v.bits)
    return .go ({ s with nextUid := s.nextUid + 1 }.waitOn .waitingMessage (.release (.xfer t false)))

/-- One handle of a request as its check reads it: the handle, its offset and the permission it needs. -/
structure HandleUse where
  h : W64
  off : Nat
  write : Bool
  deriving DecidableEq, Repr

def XferDesc.uses (d : XferDesc) : List HandleUse :=
  ⟨d.srch, d.srco.toNat, false⟩ :: (if d.inflow then [] else [⟨d.dsth, d.dsto.toNat, true⟩])

/-- The word of a handle's entry that is uncorrectable (R361). -/
def State.handleBroken (s : State) (dev : Nat) (h : W64) : Option Nat :=
  ((List.range 4).map (handleReg dev (handleIndex h))).find? fun p => s.ecc.contains p

/-- The record of an xfer is reserved behind the ringsets and stores of its cycle, or none is free and the xfer completes
at once, which counts as a completion (R289, R337, R365; log 117, DEDUCED). The core reads the handles' entries then, and
one that is uncorrectable makes the form trap with no record reserved (R7, R361; log 118, DEDUCED). -/
def State.reserveXfer (s : State) (core slot : Nat) (x : Transfer) (member : Bool) : State :=
  let tile := tileOfCore core
  match s.reserveRing tile x.desc.ring with
  | none => (s.closeIssues tile).endWait core slot isUnreserved fun t => (t.setClean x.d (w64 (2 ^ 63 + 2))).bump
  | some (q, s') =>
    match (x.desc.uses.filterMap fun u => s.handleBroken (deviceOfCore core) u.h).head? with
    | some p => (s.closeIssues tile).trapWait core slot 0x0A (w64 p) member
    | none => s'.modThread core slot fun t => t.modWait isUnreserved fun _ => .release (.xfer { x with seq := q } true)

/-- The tile whose streamer takes a request: that of the source, or the issuing tile when the source handle names
none (R289). -/
def State.streamerOf (s : State) (t : Transfer) : Nat :=
  let dev := deviceOfCore t.core
  let i := handleIndex t.desc.srch
  let tile := tileOfPlace (s.reg (handleReg dev i 1)).toNat
  if bitOf (s.reg (handleReg dev i 0)) 63 && s.inDomain dev (deviceOfTile tile) then tile else tileOfCore t.core

def isXferAccept : Wait → Bool
  | .xferAccept .. => true
  | _ => false

/-- STREAMER_REQUEST: a request reaches a streamer whose inbox has room, and xfer completes (R289). -/
def execStreamerRequest (n : Nat) (s : State) : Host.Outcome State Fault Refusal :=
  match s.net[n]? with
  | some (.request tile t) =>
    if 64 ≤ (s.tile tile).strInbox.length then notDue s
    else
      let s := { s with net := dropAt s.net n }
      let s := s.modTile tile fun x => { x with strInbox := x.strInbox ++ [t] }
      .next (s.endWait t.core (s.locate t.core t.slot t.uid) isXferAccept fun th => (th.setClean t.d (w64 t.seq)).bump)
  | _ => notDue s

/-- An inflow target's core, slot, inflow and binding (R296). -/
def inflowTarget (h : W64) : Nat × Nat × Nat × Nat :=
  (bitsOf h 52 32, bitsOf h 31 28, bitsOf h 25 24, bitsOf h 7 0)

def Thread.inflow (t : Thread) (i : Nat) : Inflow := SMap.get ⟨false, 0, 0, []⟩ t.inflows i

/-- The slot number of the context whose inflow a target names: the thread of the slot, or one that was swapped out
of it, keeps its binding (R296, R297). -/
def State.inflowSlot (s : State) (core slot i id : Nat) : Option Nat :=
  let c := s.core core
  let away := (c.away.filter fun e => e.2.slot = slot).map fun e => e.1 + 32
  ([slot, slot + 16] ++ away).find? fun k =>
    let t := s.thread core k
    t.state ≠ .idle && (t.inflow i).bound && (t.inflow i).id = id

/-- Whether an inflow target names a bound inflow. -/
def State.inflowBound (s : State) (h : W64) : Bool :=
  let t := inflowTarget h
  bitsOf h 63 53 = 0 && bitsOf h 27 26 = 0 && bitsOf h 23 8 = 0 && (s.inflowSlot t.1 t.2.1 t.2.2.1 t.2.2.2).isSome

/-- The place of a handle's entry and its length. -/
def State.handlePlace (s : State) (dev : Nat) (h : W64) : Nat := (s.reg (handleReg dev (handleIndex h) 1)).toNat
def State.handleLen (s : State) (dev : Nat) (h : W64) : Nat := (s.reg (handleReg dev (handleIndex h) 2)).toNat

/-- Step `k` of R290 for one handle: the fault word of its failure. -/
def State.handleCheck (s : State) (dev len : Nat) (k : Nat) (u : HandleUse) : Option Nat :=
  let w := s.reg (handleReg dev (handleIndex u.h) 0)
  let place := s.handlePlace dev u.h
  let size := s.handleLen dev u.h
  match k with
  | 1 => if bitOf w 63 && bitsOf w 15 0 = handleGen u.h && bitsOf u.h 63 28 = 0 then none else some u.h.toNat
  | 2 => if u.off + len ≤ size then none else some ((place + max u.off size) % 2 ^ 64)
  | 3 => if bitOf w (if u.write then 61 else 62) then none else some (place + u.off)
  | _ =>
    let p := place + u.off
    let tile := tileOfPlace p
    if spaceOfPlace p ≠ 0 then none
    else match (granulesOf p len).find? fun g => s.granule tile g < 2 with
      | some g => some (max p (spaceBase tile 0 + g * 2 ^ 21))
      | none => none

/-- The first failure of R290: status and fault. -/
def State.transferCheck (s : State) (t : Transfer) : Option (Nat × Nat) :=
  let dev := deviceOfCore t.core
  let fails := [(1, 1), (2, 2), (3, 3), (4, 5)].flatMap fun k =>
    t.desc.uses.filterMap fun u => (s.handleCheck dev t.desc.len k.1 u).map fun x => (k.2, x)
  match fails with
  | x :: _ => some x
  | [] => if t.desc.inflow && !s.inflowBound t.desc.dsth then some (7, 0) else none

/-- busy of the entries of a transfer, one more or one fewer. -/
def State.countBusy (s : State) (t : Transfer) (up : Bool) : State :=
  t.desc.uses.foldl (fun s u =>
    let r := handleReg (deviceOfCore t.core) (handleIndex u.h) 3
    let n := bitsOf (s.reg r) 15 0
    s.setReg r (w64 (if up then (n + 1) % 2 ^ 16 else n - 1))) s

/-- STREAMER_START: the oldest request starts when fewer than 4 are active; a failed check ends it with no byte moved
(R290). -/
def execStreamerStart (tile : Nat) (s : State) : Host.Outcome State Fault Refusal :=
  match (s.tile tile).strInbox with
  | [] => notDue s
  | t :: rest =>
    if 4 ≤ (s.tile tile).strActive.length then notDue s
    else
      let dev := deviceOfCore t.core
      let r := match s.transferCheck t with
        | some (st, x) => ({ t with status := st, fault := x }, s)
        | none =>
          ({ t with passed := true, todo := List.range (t.desc.len / 64),
                    srcPlace := s.handlePlace dev t.desc.srch + t.desc.srco.toNat,
                    dstPlace := s.handlePlace dev t.desc.dsth + t.desc.dsto.toNat }, s.countBusy t true)
      .next (r.2.modTile tile fun x => { x with strInbox := rest, strActive := x.strActive ++ [r.1] })

def State.setTransfer (s : State) (tile n : Nat) (t : Transfer) : State :=
  s.modTile tile fun x => { x with strActive := replaceAt x.strActive n t }

/-- Blocks of an inflow that are taken: held in its buffer, or on their way to it. -/
def State.inflowLoad (s : State) (core slot i id : Nat) : Nat :=
  let held := match s.inflowSlot core slot i id with
    | some k => (((s.thread core k).inflow i).buf.length + 63) / 64
    | none => 0
  held + (s.net.filter fun p =>
    match p with
    | .inflow c k j d _ _ _ => c = core && k = slot && j = i && d = id
    | _ => false).length

/-- A block that the source delivers, with poison recorded in the status (R291, R292) (log 52, DESIGN CHOICE). -/
def Transfer.moved (t : Transfer) (block : Nat) (data : List PByte) : Transfer :=
  let p := t.srcPlace + 64 * block
  let t := { t with todo := t.todo.filter (· ≠ block), part := SMap.erase t.part block, done := t.done + 64 }
  if poisoned data then
    { t with status := 4, fault := if t.status = 4 then min t.fault p else p }
  else t

/-- A block of a transfer that has been read whole goes to its destination. -/
def State.sendBlock (s : State) (tile n block : Nat) (t : Transfer) (data : List PByte) : State :=
  let s := s.setTransfer tile n (t.moved block data)
  if t.desc.inflow then
    let (core, slot, i, id) := inflowTarget t.desc.dsth
    { s with net := s.net ++ [Packet.inflow core slot i id data tile t.num] }
  else
    let post : Posted := { seq := 0, core := stagingOf tile, slot := 50, uid := t.num, entry := 99, head := false,
                           home := 0, kind := .plain, hint := .dflt, bytes := [] }
    s.postFor post (markedWrites (t.dstPlace + 64 * block) data)

/-- A source block is read at its home: whole from a vault, word by word from the scratchpad (R231, R291). -/
def State.readBlock (s : State) (tile n block : Nat) (t : Transfer) : State :=
  let p := t.srcPlace + 64 * block
  let old := SMap.get [] t.part block
  let r := s.readNext p 64 (fun a => !s.bankBusy a) old
  if r.2.length = old.length then s
  else
    let s := r.1.touchRow p .dflt
    if wordsLeft 64 r.2 = [] then s.sendBlock tile n block t (wordBytes 64 r.2)
    else s.setTransfer tile n { t with part := SMap.set t.part block r.2 }

/-- STREAMER_BLOCK: a block moves on: it is read at its home and then sent; to an inflow in ascending order, and only into
a free block (R291, R296, R297). -/
def execStreamerBlock (tile n block : Nat) (s : State) : Host.Outcome State Fault Refusal :=
  match (s.tile tile).strActive[n]? with
  | none => notDue s
  | some t =>
    if !t.todo.contains block then notDue s
    else if t.desc.inflow then
      let (core, slot, i, id) := inflowTarget t.desc.dsth
      if t.todo.head? ≠ some block then notDue s
      else if !s.inflowBound t.desc.dsth then .next (s.setTransfer tile n { t with status := 7, fault := 0, todo := [] })
      else if 32 ≤ s.inflowLoad core slot i id then notDue s
      else .next (s.readBlock tile n block t)
    else .next (s.readBlock tile n block t)

/-! Queues: endpoints (Table 11.6). -/

def queueReg (core ep w : Nat) : Nat :=
  spaceBase (tileOfCore core) 2 + (if isCompute core then 0x700 else 0x600) + 32 * ep + 8 * w

def State.qOn (s : State) (core ep : Nat) : Bool := bitOf (s.reg (queueReg core ep 0)) 63
def State.qRecv (s : State) (core ep : Nat) : Bool := bitOf (s.reg (queueReg core ep 0)) 62
def State.qPeer (s : State) (core ep : Nat) : Nat × Nat :=
  let w := s.reg (queueReg core ep 0)
  (bitsOf w 52 32, bitsOf w 30 28)
/-- The depth of an endpoint, as it was written (log 70, DEDUCED). -/
def State.qDepth (s : State) (core ep : Nat) : Nat := bitsOf (s.reg (queueReg core ep 0)) 5 0
def State.qCount (s : State) (core ep : Nat) : Nat := bitsOf (s.reg (queueReg core ep 2)) 5 0
def State.setQCount (s : State) (core ep n : Nat) : State := s.setReg (queueReg core ep 2) (w64 n)

/-- The key of an endpoint's buffer within its tile. -/
def queueKey (core ep : Nat) : Nat := (if isCompute core then 8 else 0) + ep

def QBuf.empty : QBuf := ⟨[], [], 0⟩

def State.qBuf (s : State) (core ep : Nat) : QBuf := SMap.get QBuf.empty (s.tile (tileOfCore core)).qbuf (queueKey core ep)

/-- An endpoint's buffer, with cnt counting what it holds. -/
def State.setQBuf (s : State) (core ep : Nat) (q : QBuf) : State :=
  (s.modTile (tileOfCore core) fun t => { t with qbuf := SMap.set t.qbuf (queueKey core ep) q }).setQCount core ep
    q.held.length

/-- An entry or a credit is dropped at an endpoint (R300). -/
def State.countDrop (s : State) (core ep : Nat) : State :=
  if s.qOn core ep then
    let r := queueReg core ep 3
    s.setReg r (w64 (Nat.min 0xFFFF (bitsOf (s.reg r) 15 0 + 1)))
  else s

/-- A credit on its way to a sender. -/
def State.sendCredit (s : State) (toCore toEp fromCore fromEp : Nat) : State :=
  { s with net := s.net ++ [.credit toCore toEp fromCore fromEp s.cycle] }

/-- The place of an endpoint's `k`-th entry since the enable: the entries go round its buffer in the scratchpad, which
software leaves alone (R298; log 115, DESIGN CHOICE). -/
def State.qPlace (s : State) (core ep k : Nat) : Nat :=
  spaceBase (tileOfCore core) 1
    + (bitsOf (s.reg (queueReg core ep 1)) 21 7 * 128 + 128 * (k % max 1 (s.qDepth core ep))) % 2 ^ 22

/-- An entry enters the buffer of its endpoint. -/
def State.bufferEntry (s : State) (core ep : Nat) (q : QBuf) (e : QEntry) : State :=
  (s.perform (markedWrites (s.qPlace core ep q.next) (e.data.bytes 128)) none).setQBuf core ep
    { q with held := q.held ++ [e], next := q.next + 1 }

/-- The oldest entry of a receive endpoint, its credit returned and an entry that waits for room taken in (R299,
R300). -/
def State.takeEntry (s : State) (core ep : Nat) : Option (VVal × State) :=
  let q := s.qBuf core ep
  match q.held with
  | [] => none
  | e :: r =>
    let s := match q.room with
      | x :: y =>
        if r.length + 1 ≤ s.qDepth core ep then s.bufferEntry core ep { q with held := r, room := y } x
        else s.setQBuf core ep { q with held := r }
      | [] => s.setQBuf core ep { q with held := r }
    let s := match e.credit with
      | some (c, k) => s.sendCredit c k core ep
      | none => s
    some (e.data, s)

/-- A push that finds a credit (R299). -/
def State.sendEntry (s : State) (core ep : Nat) (v : VVal) : State :=
  let p := s.qPeer core ep
  let s := s.setQCount core ep (s.qCount core ep - 1)
  { s with net := s.net ++ [.queueEntry core ep p.1 p.2 v s.cycle] }

/-! The riser (R301). -/

/-- The FIFO that a core pushes into: up for the staging core. -/
def riserReg (tile : Nat) (up : Bool) : Nat := spaceBase tile 2 + (if up then 0x800 else 0x808)
def Tile.riser (t : Tile) (up : Bool) : List RiserEntry := if up then t.riserUp else t.riserDown
def Tile.setRiser (t : Tile) (up : Bool) (l : List RiserEntry) : Tile :=
  if up then { t with riserUp := l } else { t with riserDown := l }

def State.riserFree (s : State) (tile : Nat) (up : Bool) : Nat := bitsOf (s.reg (riserReg tile up)) 4 0

/-- A FIFO with its free entries counted. -/
def State.setRiser (s : State) (tile : Nat) (up : Bool) (l : List RiserEntry) : State :=
  (s.modTile tile fun t => t.setRiser up l).setReg (riserReg tile up) (w64 (16 - l.length))

/-- A push on q0. -/
def State.riserPush (s : State) (core : Nat) (v : VVal) : Option State :=
  let tile := tileOfCore core
  let up := !isCompute core
  if s.riserFree tile up = 0 then none else some (s.setRiser tile up ((s.tile tile).riser up ++ [⟨v, false⟩]))

/-- A pop counts among those of its cycle. -/
def State.countPop (s : State) (tile : Nat) (up : Bool) : State :=
  s.modTile tile fun t =>
    let x := SMap.get (0, 0) t.riserPops (bit01 (!up))
    { t with riserPops := SMap.set t.riserPops (bit01 (!up)) (s.cycle + 1, if x.1 = s.cycle + 1 then x.2 + 1 else 1) }

/-- The pops of a FIFO in this cycle. -/
def State.popsNow (s : State) (tile : Nat) (up : Bool) : Nat :=
  let x := SMap.get (0, 0) (s.tile tile).riserPops (bit01 (!up))
  if x.1 = s.cycle + 1 then x.2 else 0

/-- A pop on q0: the oldest entry that has crossed. -/
def State.riserPop (s : State) (core : Nat) : Option (VVal × State) :=
  let tile := tileOfCore core
  let up := isCompute core
  match (s.tile tile).riser up with
  | e :: r => if e.arrived then some (e.data, (s.setRiser tile up r).countPop tile up) else none
  | [] => none

/-! Inflow reads. -/

/-- The bytes of a width code (Table 12.5). -/
def inflowWidth (wcode : Nat) : Nat := if wcode = 4 then 128 else 2 ^ wcode

/-- The vector register of 128 bytes with marks. -/
def vecOfMarked (l : List PByte) : VVal :=
  ⟨BitVec.ofNat 1024 (numberOf (l.take 128)),
    BitVec.ofNat 32 (packNat 1 ((List.range 32).map fun k => bit01 (poisoned ((l.drop (4 * k)).take 4))))⟩

/-- The next element of an inflow (R297). -/
def Thread.takeInflow (t : Thread) (i : Nat) (toVector : Bool) (d : Nat) : Option Thread :=
  let f := t.inflow i
  let w := inflowWidth f.wcode
  if f.buf.length < w then none
  else
    let x := f.buf.take w
    let t := { t with inflows := SMap.set t.inflows i { f with buf := f.buf.drop w } }
    some (if toVector then t.setV d (vecOfMarked x) else t.setS d ⟨w64 (numberOf x), poisoned x⟩)

/-! Waiters of queues. -/

def isPush (ep : Nat) : Wait → Bool
  | .queuePush e _ => e = ep
  | _ => false

def isPop (ep : Nat) : Wait → Bool
  | .queuePop e _ => e = ep
  | _ => false

def isInflow : Wait → Bool
  | .inflow .. => true
  | _ => false

/-- The slots of a core that wait in a way, the longest first; of two that have waited as long, the lower slot (R299, R341;
log 128, DESIGN CHOICE). -/
def State.waitersOf (s : State) (core : Nat) (p : Wait → Bool) : List Nat :=
  let l := (List.range 16).filterMap fun k => ((s.thread core k).findWait p).map fun w => (w.at0, k)
  (l.mergeSort fun x y => x.1 < y.1 || (x.1 = y.1 && x.2 ≤ y.2)).map Prod.snd

/-- QLIM of a core. -/
def State.queueLimit (s : State) (core : Nat) : Nat :=
  bitsOf (s.reg2 (tileOfCore core) (if isCompute core then 0x818 else 0x810)) 31 0

/-- Whether a wait on a queue or an inflow has lasted QLIM cycles: nothing ends it any more but its stall (R302). -/
def State.queueOut (s : State) (core at0 : Nat) : Bool :=
  s.queueLimit core ≠ 0 && decide (at0 + s.queueLimit core ≤ s.cycle)

/-- The push of a waiting thread is made when it can be, before QLIM (R302). -/
def State.servePush (s : State) (core ep slot : Nat) : State :=
  match (s.thread core slot).findWait (isPush ep) with
  | some ⟨_, at0, .queuePush _ v⟩ =>
    let r := if s.queueOut core at0 then none else if ep = 0 then s.riserPush core v
      else if s.qCount core ep = 0 then none else some (s.sendEntry core ep v)
    match r with
    | some s => (s.gaugeLatency core slot 0x06 (s.cycle - at0)).endWait core slot (isPush ep) id
    | none => s
  | _ => s

/-- The pop of a waiting thread. -/
def State.servePop (s : State) (core ep slot : Nat) : State :=
  match (s.thread core slot).findWait (isPop ep) with
  | some ⟨_, at0, .queuePop _ d⟩ =>
    match if s.queueOut core at0 then none else if ep = 0 then s.riserPop core else s.takeEntry core ep with
    | some (v, s) =>
      (s.gaugeLatency core slot 0x06 (s.cycle - at0)).endWait core slot (isPop ep) fun t => t.setV d v
    | none => s
  | _ => s

def State.servePushes (s : State) (core ep : Nat) : State :=
  (s.waitersOf core (isPush ep)).foldl (fun s k => s.servePush core ep k) s
def State.servePops (s : State) (core ep : Nat) : State :=
  (s.waitersOf core (isPop ep)).foldl (fun s k => s.servePop core ep k) s

/-- A pop on q0 frees an entry of the other core's outgoing FIFO. -/
def otherCore (core : Nat) : Nat := if isCompute core then core - 128 else core + 128

/-! Forms. -/

/-- Control state refused (R299, R341). -/
def controlBad : Bad := .trap 0x01 0x0B

/-- qpush (R299, R301, R340). -/
def execQpush (o : QpushF) (s : State) : Host.Outcome State Fault Refusal :=
  complete o.g s fun s => do
    let ep := o.d.toNat
    let core := s.cur.core
    let v ← s.useV o.a.toNat allWords
    need (ep = 0 || (s.qOn core ep && !s.qRecv core ep)) controlBad
    let wait := s.waitOn .waitingMessage (.queuePush ep v)
    if ep = 0 then
      return (match s.riserPush core v with
        | some s => .done s
        | none => .go wait)
    else if s.qCount core ep = 0 then return .go wait
    else return .done (s.sendEntry core ep v)

/-- A pop of a queue. -/
def State.popQueue (s : State) (ep d : Nat) : Chk Fin := do
  let core := s.cur.core
  need (ep = 0 || (s.qOn core ep && s.qRecv core ep)) controlBad
  match if ep = 0 then s.riserPop core else s.takeEntry core ep with
  | some (v, s) => return .done ((s.wV d v).servePushes (otherCore core) 0)
  | none => return .go (s.waitOn .waitingMessage (.queuePop ep d))

/-- A read of an inflow. -/
def State.popInflow (s : State) (i d : Nat) (toVector : Bool) : Chk Fin := do
  let f := s.cth.inflow i
  need (f.bound && (f.wcode = 4) == toVector) controlBad
  match s.cth.takeInflow i toVector d with
  | some t => return .done (s.setThread s.cur.core s.cur.slot t)
  | none => return .go (s.waitOn .waitingMessage (.inflow i toVector d))

/-- qpop (R341). -/
def execQpop (o : QpopF) (s : State) : Host.Outcome State Fault Refusal :=
  complete o.g s fun s =>
    match o.kind with
    | .queue => s.popQueue o.a.toNat o.d.toNat
    | .inflowScalar => s.popInflow (o.a.toNat % 4) o.d.toNat false
    | .inflowVector => s.popInflow (o.a.toNat % 4) o.d.toNat true

/-- qfree (R342): what the other core has popped in this cycle is not counted yet; on q1 to q7 credits arrive in a later
cycle than their pops. -/
def execQfree (o : QfreeF) (s : State) : Host.Outcome State Fault Refusal :=
  complete o.g s fun s =>
    let core := s.cur.core
    let ep := o.a.toNat
    let n := if ep = 0 then s.riserFree s.curTile (!isCompute core) - s.popsNow s.curTile (!isCompute core)
      else if s.qOn core ep then s.qCount core ep else 0
    .ok (.done (s.wClean o.d.toNat (w64 n)))

/-- ibind (R295, R339): an inflow that is bound is unbound first. -/
def execIbind (o : IbindF) (s : State) : Host.Outcome State Fault Refusal :=
  complete o.g s fun s =>
    let f : Inflow := ⟨true, o.wcode.toNat, o.id.toNat, []⟩
    .ok (.done (s.modCur fun t => { t with inflows := SMap.set t.inflows o.d.toNat f }))

def execIunbind (o : IunbindF) (s : State) : Host.Outcome State Fault Refusal :=
  complete o.g s fun s =>
    .ok (.done (s.modCur fun t => { t with inflows := SMap.set t.inflows o.d.toNat ⟨false, 0, 0, []⟩ }))

/-- ringset (R337). -/
def execRingset (o : RingsetF) (s : State) : Host.Outcome State Fault Refusal :=
  complete o.g s fun s => do
    let x ← s.useS o.a.toNat
    let tile := s.curTile
    let n := o.ring.toNat
    let v := bitsOf x 31 0
    let ridx := s.ringRidx tile n
    if !s.ringOn tile n then return .done (s.wClean o.d.toNat 1)
    else if sub32 (s.ringWidx tile n) ridx < sub32 v ridx then return .done (s.wClean o.d.toNat 2)
    else
      let s := s.ordered (ringUnit tile n) (ringKey s.cur.core s.cur.slot)
      return .done (((s.setReg (ringReg tile n 2) (w64 v)).admitEngine tile).wClean o.d.toNat 0)

/-- ringwait (R338). -/
def execRingwait (o : RingwaitF) (s : State) : Host.Outcome State Fault Refusal :=
  complete o.g s fun s => do
    let x ← s.useS o.a.toNat
    let b ← s.useS o.b.toNat
    return .go (s.waitOn .waitingMessage (.ringwait o.ring.toNat o.d.toNat (x.setWidth 32) b.toNat))

def isRingwait : Wait → Bool
  | .ringwait .. => true
  | _ => false

/-- RINGWAIT_WAKE: the ring is off, its widx differs, or the bound has expired (R338). -/
def execRingwaitWake (core slot : Nat) (s : State) : Host.Outcome State Fault Refusal :=
  let tile := tileOfCore core
  match (s.thread core slot).findWait isRingwait with
  | some ⟨_, at0, .ringwait n d seen bound⟩ =>
    let widx := s.ringWidx tile n
    let ret := fun x : Nat => s.endWait core slot isRingwait fun t => t.setClean d (w64 (widx + x))
    if !s.ringOn tile n then .next (ret (2 ^ 62))
    else if widx ≠ seen.toNat then .next (ret 0)
    else if bound ≠ 0 ∧ at0 + bound ≤ s.cycle then .next (ret (2 ^ 63))
    else notDue s
  | _ => notDue s

/-! Events of rings. -/

/-- A write of the control word of a ring (R293). -/
def State.writeRing (s : State) (tile n : Nat) (v : W64) : State :=
  let r := ringReg tile n 0
  let old := s.reg r
  if bitOf old 63 then
    if bitOf v 63 ∨ s.ringResv tile n ≠ 0 then s else s.setReg r (setBit old 63 false)
  else
    let ls := bitsOf v 3 0
    let new := setBits old 21 6 (bitsOf v 21 6)
    let new := if 4 ≤ ls ∧ ls ≤ 12 then setBits new 3 0 ls else new
    if bitOf v 63 then
      ((((s.setReg r (setBit new 63 true)).setReg (ringReg tile n 1) 0).setReg (ringReg tile n 2) 0).setReg
        (ringReg tile n 3) 0)
    else s.setReg r new

/-- RING_ENABLE: a write with en = 1 reaches a ring that is off. -/
def execRingEnable (tile n : Nat) (v : W64) (s : State) : Host.Outcome State Fault Refusal :=
  if n < 16 ∧ bitOf v 63 ∧ s.ringOn tile n = false then .next (s.writeRing tile n v) else notDue s

/-- RING_DISABLE: a write with en = 0 reaches a ring that is on. -/
def execRingDisable (tile n : Nat) (v : W64) (s : State) : Host.Outcome State Fault Refusal :=
  if n < 16 ∧ bitOf v 63 = false ∧ s.ringOn tile n then .next (s.writeRing tile n v) else notDue s

/-- A head-mode store of ridx at the ring unit. -/
def State.writeRidx (s : State) (tile n : Nat) (v : W64) : State :=
  (s.setReg (ringReg tile n 2) (w64 (bitsOf v 31 0))).admitEngine tile

/-- RIDX_STORE: no reservation of the cycle comes before it (R337). -/
def execRidxStore (tile n : Nat) (v : W64) (s : State) : Host.Outcome State Fault Refusal :=
  if n < 16 && s.inOrder (ringUnit tile n) (reserveKey - 1) then
    .next ((s.ordered (ringUnit tile n) (reserveKey - 1)).writeRidx tile n v)
  else notDue s

/-! Ends of transfers. -/

/-- The queue entry of a completion: the record, user, and zeros (R304). -/
def completionEntry (t : Transfer) : VVal :=
  ⟨vecOfBytes (completionRecord t.status t.desc.ring t.done t.fault t.seq t.task false ++ bytesOf 8 t.desc.user.toNat),
    0⟩

/-- Whether every block of a transfer has reached its destination. -/
def State.transferDone (s : State) (t : Transfer) : Bool :=
  t.todo.isEmpty && s.posted.all (fun p => !(p.slot = 50 && p.uid = t.num))
    && s.net.all fun p => match p with
      | .inflow _ _ _ _ _ _ num => num ≠ t.num
      | _ => true

/-- The record of a transfer in its ring. -/
def State.ringRecord (s : State) (t : Transfer) (fb : Bool) : State :=
  if t.ringDead then s
  else s.writeRecord t.ringTile t.desc.ring
    (completionRecord t.status t.desc.ring t.done t.fault t.seq t.task fb)

/-- TRANSFER_COMPLETE: the record goes to the ring, or the entry to its queue once there is a free entry (R292,
R304). -/
def execTransferComplete (tile n : Nat) (s : State) : Host.Outcome State Fault Refusal :=
  match (s.tile tile).strActive[n]? with
  | none => notDue s
  | some t =>
    if !s.transferDone t then notDue s
    else
      let core := bitsOf t.desc.qtgt 52 32
      let ep := bitsOf t.desc.qtgt 30 28
      let leave := fun s : State =>
        let s := s.modTile tile fun x => { x with strActive := dropAt x.strActive n }
        if t.passed then s.countBusy t false else s
      if !t.desc.push then .next ((leave s).ringRecord t false)
      else if ep = 0 || !s.qOn core ep || !s.qRecv core ep then .next ((leave s).ringRecord t true)
      else
        let q := s.qBuf core ep
        if s.qDepth core ep ≤ q.held.length || !q.room.isEmpty then notDue s
        else
          let s := (leave s).bufferEntry core ep q ⟨completionEntry t, none⟩
          let s := if t.ringDead then s else s.releaseRing t.ringTile t.desc.ring
          .next (s.servePops core ep)

/-- The transfer with a number, ended for want of its inflow, unless a reset has ended it (R294, R295). -/
def unboundTransfer (num : Nat) (t : Transfer) : Transfer :=
  if t.num = num then { t with status := if t.status = 6 then 6 else 7, fault := 0, todo := [], done := t.done - 64 } else t

/-- Whether an earlier packet of the same transfer, or of the same sender to the same endpoint, is still on its way: they
arrive in the order in which they were sent (R297, R299). -/
def Packet.sameRoute (p q : Packet) : Bool :=
  match p, q with
  | .inflow _ _ _ _ _ _ m, .inflow _ _ _ _ _ _ n => m = n
  | .queueEntry a b c d _ _, .queueEntry e f g h _ _ => a = e && b = f && c = g && d = h
  | _, _ => false

def State.overtakes (s : State) (n : Nat) (p : Packet) : Bool := (s.net.take n).any p.sameRoute

/-- A waiting inflow read is served. -/
def State.serveInflow (s : State) (core slot : Nat) : State :=
  match (s.thread core slot).findWait isInflow with
  | some ⟨_, at0, .inflow i v d⟩ =>
    match if s.queueOut core at0 then none else (s.thread core slot).takeInflow i v d with
    | some t =>
      ((s.setThread core slot t).gaugeLatency core slot 0x06 (s.cycle - at0)).endWait core slot isInflow id
    | none => s
  | _ => s

/-- INFLOW_BLOCK: a block reaches its inflow, or finds it unbound, which ends its transfer (R295, R297). -/
def execInflowBlock (n : Nat) (s : State) : Host.Outcome State Fault Refusal :=
  match s.net[n]? with
  | some (.inflow core slot i id data tile num) =>
    if s.overtakes n (.inflow core slot i id data tile num) then notDue s
    else
    let s := { s with net := dropAt s.net n }
    match s.inflowSlot core slot i id with
    | none => .next (s.modTile tile fun x => { x with strActive := x.strActive.map (unboundTransfer num) })
    | some k =>
      let s := s.modThread core k fun t =>
        let f := t.inflow i
        { t with inflows := SMap.set t.inflows i { f with buf := f.buf ++ data } }
      .next (s.serveInflow core k)
  | _ => notDue s

/-! Events of queues. -/

/-- QUEUE_ENTRY_ARRIVAL: accepted, held for room, or dropped with its credit returned (R300), in a later cycle than its
push (R299, R342). -/
def execQueueEntryArrival (n : Nat) (s : State) : Host.Outcome State Fault Refusal :=
  match s.net[n]? with
  | some (.queueEntry fc fe core ep data at0) =>
    let late := decide (s.cycle ≤ at0) || s.overtakes n (.queueEntry fc fe core ep data at0)
    let s := if late then s else { s with net := dropAt s.net n }
    if late then notDue s
    else if s.qOn core ep && s.qRecv core ep && s.qPeer core ep = (fc, fe) then
      let q := s.qBuf core ep
      let e : QEntry := ⟨data, some (fc, fe)⟩
      if s.qDepth core ep ≤ q.held.length || !q.room.isEmpty then
        .next (s.setQBuf core ep { q with room := q.room ++ [e] })
      else .next ((s.bufferEntry core ep q e).servePops core ep)
    else .next ((s.countDrop core ep).sendCredit fc fe core ep)
  | _ => notDue s

/-- QUEUE_CREDIT_ARRIVAL: a credit reaches its sender, or is dropped, in a later cycle than the pop or drop that returns
it (R299, R300, R342). -/
def execQueueCreditArrival (n : Nat) (s : State) : Host.Outcome State Fault Refusal :=
  match s.net[n]? with
  | some (.credit core ep fc fe at0) =>
    let late := decide (s.cycle ≤ at0)
    let s := if late then s else { s with net := dropAt s.net n }
    if late then notDue s
    else if s.qOn core ep && !s.qRecv core ep && s.qPeer core ep = (fc, fe) then
      .next ((s.setQCount core ep (s.qCount core ep + 1)).servePushes core ep)
    else .next (s.countDrop core ep)
  | _ => notDue s

/-- The first entry that has not crossed has crossed. -/
def crossFirst : List RiserEntry → List RiserEntry
  | [] => []
  | e :: r => if e.arrived then e :: crossFirst r else { e with arrived := true } :: r

/-- RISER_ARRIVAL: an entry becomes poppable at the other core (R301). -/
def execRiserArrival (tile : Nat) (up : Bool) (s : State) : Host.Outcome State Fault Refusal :=
  let l := (s.tile tile).riser up
  if l.all RiserEntry.arrived || s.busStopped tile true then notDue s
  else
    let core := if up then computeOf tile else stagingOf tile
    let s := (s.modTile tile fun t => t.setRiser up (crossFirst l)).servePops core 0
    .next (s.servePushes (otherCore core) 0)

/-- The endpoint or inflow that a wait stands at, as the information word of a queue stall names it. -/
def stallInfo : Wait → Option Nat
  | .queuePush ep _ => some ep
  | .queuePop ep _ => some (ep + 8)
  | .inflow i _ _ => some (i + 8 + 16)
  | _ => none

/-- QUEUE_STALL (R302). -/
def execQueueStall (core slot : Nat) (s : State) : Host.Outcome State Fault Refusal :=
  match (s.thread core slot).findWait fun w => (stallInfo w).isSome with
  | some ⟨m, at0, w⟩ =>
    if !s.queueOut core at0 then notDue s
    else .next (s.trapWait core slot 0x1F (w64 ((stallInfo w).getD 0)) m)
  | none => notDue s

/-- The waiters of an endpoint that is switched off leave their wait and trap (R300). -/
def State.endpointOff (s : State) (core ep : Nat) : State :=
  let here := fun w => isPush ep w || isPop ep w
  (s.waitersOf core here).foldl (fun s k =>
    match (s.thread core k).findWait here with
    | some w => s.trapWait core k 0x01 0x0B w.member
    | none => s) s

/-- An endpoint starts afresh: a send endpoint with its depth of credits, a receive endpoint with nothing held. -/
def State.startQueue (s : State) (core ep : Nat) (sends : Bool) (depth : Nat) : State :=
  let s := s.setQBuf core ep QBuf.empty
  if sends then (s.setQCount core ep depth).servePushes core ep else s

/-- A write of the control word of an endpoint (R298, R300). A write of en = 1 sets cnt whatever en was, and what a receive
endpoint held then is gone (log 116, DEDUCED). -/
def State.writeQueue (s : State) (core ep : Nat) (v : W64) : State :=
  let r := queueReg core ep 0
  let old := s.reg r
  if bitOf old 63 then
    if bitOf v 63 then s.startQueue core ep (!bitOf old 62) (bitsOf old 5 0)
    else
      let s := (s.setReg r (setBit old 63 false)).setQBuf core ep QBuf.empty
      s.endpointOff core ep
  else
    let new := v &&& 0x401FFFFF7000003F
    if bitOf v 63 then (s.setReg r (setBit new 63 true)).startQueue core ep (!bitOf v 62) (bitsOf v 5 0)
    else s.setReg r new

/-- QUEUE_ENABLE: a write with en = 1 reaches an endpoint that is off. -/
def execQueueEnable (core ep : Nat) (v : W64) (s : State) : Host.Outcome State Fault Refusal :=
  if 1 ≤ ep ∧ ep < 8 ∧ bitOf v 63 ∧ s.qOn core ep = false then .next (s.writeQueue core ep v) else notDue s

/-- QUEUE_DISABLE: a write with en = 0 reaches an endpoint that is on. -/
def execQueueDisable (core ep : Nat) (v : W64) (s : State) : Host.Outcome State Fault Refusal :=
  if 1 ≤ ep ∧ ep < 8 ∧ bitOf v 63 = false ∧ s.qOn core ep then .next (s.writeQueue core ep v) else notDue s

end Sys2Proof.Machine
end

