-- ==== Sys2Proof/Machine/Agent.lean ====
section
/-! DEFINITION. Agent.lean: major opcode 0x78, the row calls, the vault agent with its backwater and handlers (R188 to
R195, R248 to R252, R406), and tkill (R355). -/

namespace Sys2Proof.Machine

/-! The forms. -/

/-- A vector register cut to its low `n` bytes with the marks of their words. -/
def VVal.low (v : VVal) (n : Nat) : VVal := vecOfMarked (v.bytes n)

/-- The row call of the executing thread (Table 7.12). -/
def State.rowCallOp (s : State) (d c n va : Nat) (x : Xlat) (op : MsgOp) (ty len : Nat) (arg : W64) (data : VVal) : RcOp :=
  { d := d, c := c, n := n, va := w64 va, entry := x.entry,
    msg := { src := s.cur.core, slot := s.cur.slot, uid := s.cth.uid, op := op, ty := ty, len := len, place := x.place,
             task := s.cth.task, arg := arg, data := data } }

/-- A row call goes to the agent of its place's vault (R188). -/
def State.sendRowCall (s : State) (op : RcOp) : State :=
  { s with net := s.net ++ [.message (tileOfPlace op.msg.place) op.msg] }

/-- The checks of a row call at `va`, its sending, and the wait for its reply; a scope makes it a release (R204,
R248). -/
def State.issueRowCall (s : State) (scope : Scope) (d c : Nat) (va : W64) (n : Nat) (nd : Need) (op : MsgOp)
    (ty len : Nat) (arg : W64) (data : VVal) : Chk Fin := do
  let x ← s.access { nd with c := true } va n
  s.dataStop [(va.toNat, n)] nd.r nd.w
  let r := s.rowCallOp d c n va.toNat x op ty len arg data
  if scope = .none then return .go ((s.sendRowCall r).waitOn .waitingMessage (.rowCall r))
  else return .go (s.waitOn .waitingMessage (.release (.rowCall r)))

/-- rget (R249). -/
def execRget (o : RcF) (s : State) : Host.Outcome State Fault Refusal :=
  complete o.g s fun s => do
    let n := o.size.bytes
    let va ← s.vaBase o.a.toNat o.off
    aligned va n
    s.issueRowCall o.scope o.d.toNat o.c.toNat va n .load .rget 0 n 0 ⟨0, 0⟩

/-- rput (R249). -/
def execRput (o : RcF) (s : State) : Host.Outcome State Fault Refusal :=
  complete o.g s fun s => do
    let n := o.size.bytes
    let va ← s.vaBase o.a.toNat o.off
    aligned va n
    s.issueRowCall o.scope o.d.toNat o.c.toNat va n .store .rput 0 n 0 ((s.rV o.c.toNat).low n)

/-- The element width of an RADD type code. -/
def raddWidth (ty : Nat) : Nat := if ty = 4 then 8 else 4

/-- Whether s[b] of radd is refused (R250). -/
def raddRefused (v : W64) (size : Nat) : Bool :=
  let ty := bitsOf v 11 8
  let count := bitsOf v 4 0
  !(ty = 3 || ty = 4 || ty = 0xA) || count = 0 || 16 < count || bitsOf v 7 5 ≠ 0 || bitsOf v 63 12 ≠ 0
    || raddWidth ty ≠ size

/-- radd (R250). -/
def execRadd (o : RcbF) (s : State) : Host.Outcome State Fault Refusal :=
  complete o.g s fun s => do
    let va ← s.vaBase o.a.toNat o.off
    let v ← s.useS o.b.toNat
    need (!raddRefused v o.size.bytes) badOperand
    let ty := bitsOf v 11 8
    let count := bitsOf v 4 0
    let n := count * raddWidth ty
    need (va.toNat % raddWidth ty = 0 && va.toNat % 128 + n ≤ 128) (.trap 0x05 va)
    s.issueRowCall o.scope o.d.toNat o.c.toNat va n .both .radd ty count 0 ((s.rV o.c.toNat).low n)

/-- rcas (R251): the compare value is consumed. -/
def execRcas (o : RcF) (s : State) : Host.Outcome State Fault Refusal :=
  complete o.g s fun s => do
    let n := o.size.bytes
    let va ← s.vaBase o.a.toNat o.off
    let v ← s.useV o.c.toNat ((List.range (n / 4)).map (2 + ·))
    aligned va n
    let arg := w64 (lowOf n (lane64 v.bits 1))
    s.issueRowCall o.scope o.d.toNat o.c.toNat va n .both .rcas 0 n arg (v.low 16)

/-- rcall (R252). -/
def execRcall (o : RcbF) (s : State) : Host.Outcome State Fault Refusal :=
  complete o.g s fun s => do
    let va ← s.vaBase o.a.toNat o.off
    let h ← s.useS o.b.toNat
    need (h.toNat ≤ 63) badOperand
    s.issueRowCall o.scope o.d.toNat o.c.toNat va 1 .both .rcall 0 128 h (s.rV o.c.toNat)

/-! Arrival (R193 to R195). -/

/-- AGHEAP.gran and AGHSIZE.size (Table 7.14). -/
def State.heapGran (s : State) (tile : Nat) : Nat := bitsOf (s.reg2 tile 0x20) 30 21
def State.heapSize (s : State) (tile : Nat) : Nat := bitsOf (s.reg2 tile 0x28) 10 0

/-- Whether every granule of the heap lies below the capacity and is pinned (R195). -/
def State.heapUsable (s : State) (tile : Nat) : Bool :=
  (List.range (s.heapSize tile)).all fun i => s.granule tile (s.heapGran tile + i) = 3

/-- The messages that the heap has room for, in slots of 160 bytes (R194). -/
def State.heapRoom (s : State) (tile : Nat) : Nat := s.heapSize tile * 2 ^ 21 / 160

/-- The place of slot `k` of the ring that the heap is (R194). -/
def State.heapSlot (s : State) (tile k : Nat) : Nat :=
  spaceBase tile 0 + s.heapGran tile * 2 ^ 21 + 160 * (k % Nat.max 1 (s.heapRoom tile))

/-- Whether the vault holds an append to, or a replay from, slot `k` of the heap (R195, Table 15.8). -/
def State.heapHeld (s : State) (tile k : Nat) : Bool := s.spanBusy (s.heapSlot tile k) 160

/-- The function code of a message's operation under major opcode 0x78. The manual gives none for a vault atomic, whose
header's op is a free value (log 26, DESIGN CHOICE). -/
def MsgOp.code (free : W64) : MsgOp → Nat
  | .rget => 0
  | .rput => 1
  | .radd => 2
  | .rcas => 3
  | .rcall => 4
  | .amo .. => bitsOf free 7 0

/-- A message as its slot of the heap holds it (Table 7.12). -/
def Msg.image (m : Msg) (free : W64) : List PByte :=
  cleanBytes 8 (m.src * 2 ^ 32 + m.slot % 16 * 2 ^ 28 + m.ty * 2 ^ 20 + m.len * 2 ^ 8 + m.op.code free)
    ++ cleanBytes 8 m.place ++ cleanBytes 8 m.task.toNat ++ cleanBytes 8 m.arg.toNat ++ m.data.bytes 128

/-- A row call as its slot holds it when it is replayed; an atomic, whose layout is not given, is the one that was
appended. -/
def Msg.ofImage (m : Msg) (l : List PByte) : Msg :=
  let num := fun a n => natOfBytes (((l.drop a).take n).map Prod.fst)
  match m.op with
  | .amo .. => m
  | _ =>
    { m with src := num 4 4 % 2 ^ 21, slot := num 3 1 / 16, ty := num 2 1 / 16 % 16, len := num 1 2 % 2 ^ 12,
             op := match num 0 1 with
               | 0 => .rget
               | 1 => .rput
               | 2 => .radd
               | 3 => .rcas
               | _ => .rcall,
             place := num 8 8, task := w64 (num 16 8), arg := w64 (num 24 8), data := vecOfMarked (l.drop 32) }

/-- A reply on its way to the sender of a message. -/
def State.sendReply (s : State) (m : Msg) (status : Nat) (data : VVal) : State :=
  { s with net := s.net ++ [.reply ⟨m.src, m.slot, m.uid, status, m.place, data⟩] }

/-- AGSTAT.refused counts a message (R194). -/
def State.countRefused (s : State) (tile : Nat) : State :=
  let w := s.reg2 tile 0x18
  s.setReg2 tile 0x18 (setBits w 63 48 (Nat.min 0xFFFF (bitsOf w 63 48 + 1)))

/-- An arrival that the heap has no room for: a row call is refused; a vault atomic goes back to its core, which resends
it (R194, R244). -/
def State.refuseMessage (s : State) (tile : Nat) (m : Msg) : State :=
  match m.op with
  | .amo .. =>
    let slot := s.locate m.src m.slot m.uid
    s.modThread m.src slot fun t => t.modWait isAmo fun w =>
      match w with
      | .amo op => .amo { op with refused := some s.cycle }
      | w => w
  | _ => (s.countRefused tile).sendReply m 5 ⟨0, 0⟩

/-- Whether an earlier message of the same sender to the same agent is still on its way (R188). -/
def State.messageBehind (s : State) (n tile src : Nat) : Bool :=
  (s.net.take n).any fun p =>
    match p with
    | .message t m => t = tile && m.src = src
    | _ => false

/-- A message is appended to the heap (R193, R194). -/
def State.appendHeap (s : State) (tile : Nat) (m : Msg) : State :=
  let f := match m.op with
    | .amo .. => s.takeFresh
    | _ => (0, s)
  let p := s.heapSlot tile ((s.tile tile).heapHead + (s.tile tile).backwater.length)
  ((f.2.perform (markedWrites p (m.image f.1)) none).touchSpan p 160 .dflt).modTile tile fun t =>
    { t with backwater := t.backwater ++ [m] }

/-- ROW_CALL_MESSAGE: a message reaches the inbox, or the backwater when 56 or more wait or the backwater holds some
(R193). -/
def execRowCallMessage (n : Nat) (s : State) : Host.Outcome State Fault Refusal :=
  match s.net[n]? with
  | some (.message tile m) =>
    let t := s.tile tile
    let heap := 56 ≤ t.inbox.length || !t.backwater.isEmpty
    let room := s.heapUsable tile && t.backwater.length < s.heapRoom tile
    let next := t.heapHead + t.backwater.length
    if s.messageBehind n tile m.src then notDue s
    else if heap && room && s.heapHeld tile next then .next (s.callBanks [(s.heapSlot tile next, 160)])
    else
      let s := { s with net := dropAt s.net n }
      if !heap then .next (s.modAgent tile fun t => { t with inbox := t.inbox ++ [m] })
      else if room then .next (s.appendHeap tile m)
      else .next (s.refuseMessage tile m)
  | _ => notDue s

/-- BACKWATER_REPLAY: the oldest message of the heap enters an inbox of 32 or fewer; one whose slot is uncorrectable is
refused (R193, Table 15.8). -/
def execBackwaterReplay (tile : Nat) (s : State) : Host.Outcome State Fault Refusal :=
  let t := s.tile tile
  match t.backwater with
  | [] => notDue s
  | m :: r =>
    let p := s.heapSlot tile t.heapHead
    if 32 < t.inbox.length then notDue s
    else if s.heapHeld tile t.heapHead then .next (s.callBanks [(p, 160)])
    else
      let bad := (List.range 160).any fun i => s.ecc.contains (codeword (p + i)).1
      let x := s.readBytes p 160
      let s := (x.1.touchSpan p 160 .dflt).modTile tile fun t => { t with backwater := r, heapHead := t.heapHead + 1 }
      if bad then .next (s.refuseMessage tile m)
      else .next (s.modAgent tile fun t => { t with inbox := t.inbox ++ [m.ofImage x.2] })

/-! The start of a message (R189 to R191, R252). -/

/-- The first failing condition at the agent (R191). A vault atomic receives no status (R406). -/
def State.startStatus (s : State) (tile : Nat) (m : Msg) : Nat :=
  let off := offsetOfPlace m.place
  let g := s.granule tile (off / 2 ^ 21)
  match m.op with
  | .amo .. => 0
  | _ =>
    if bitsOf (s.reg2 tile 0x08) 31 0 ≤ off then 2
    else if g = 0 then 1
    else if g ≠ 2 && tileOfCore m.src ≠ tile then 3
    else if s.rowRepairing m.place then 4
    else 0

/-- The entry of the handler table at HTBASE for an index, in the agent's reaches: none when it is 0, cannot be read
or is no legal address (log 64, DEDUCED). -/
def State.handlerEntry (s : State) (tile : Nat) (arg : W64) : State × Option W64 :=
  let va := s.reg2 tile 0x30 + arg * 8
  match s.checkVa (stagingOf tile) 15 .load va 8 with
  | .error _ => (s, none)
  | .ok x =>
    let r := s.readBytes x.place 8
    let h := w64 (numberOf r.2)
    (r.1.touchRow x.place .dflt, if poisoned r.2 || h = 0 || !legalPc h then none else some h)

/-- The place of a handler entry, whose bank the agent waits for (R172, R174). -/
def State.handlerPlace (s : State) (tile : Nat) (arg : W64) : Option Nat :=
  match s.checkVa (stagingOf tile) 15 .load (s.reg2 tile 0x30 + arg * 8) 8 with
  | .ok x => some x.place
  | .error _ => none

/-- The registers at the entry of a handler; the return address in s1 is the agent's own, a free value (R252). -/
def handlerRegs (m : Msg) (back : W64) : RegFile :=
  ((((((RegFile.reset.setS 1 ⟨back, false⟩).setS 4 ⟨w64 m.place, false⟩).setS 5 ⟨w64 m.src, false⟩).setS 6
    ⟨m.task, false⟩).setS 7 ⟨w64 m.slot, false⟩)).setV 4 m.data

/-- The agent slot runs a handler. -/
def State.startHandler (s : State) (tile : Nat) (m : Msg) (h : W64) : State :=
  let core := stagingOf tile
  let f := s.takeFresh
  let s := f.2
  let t := s.thread core 15
  let s := s.modTile tile fun x => { x with handler := some m }
  let s := s.modCore core fun c => { c with agentSaved := some t, handlerIssues := 0 }
  let t := { t with regs := handlerRegs m f.1, exit := f.1, pc := h, nextPc := h, shores := [] }
  (s.setThread core 15 t).enterState core 15 .ready 0

/-- The agent reads the handler entry of a row call in flight, and runs the handler (R252). -/
def State.callHandler (s : State) (tile : Nat) (m : Msg) : State :=
  let s := s.modTile tile fun t => { t with inflight := t.inflight.filter fun f => f.msg ≠ m }
  match s.handlerEntry tile m.arg with
  | (s, none) => (s.sendReply m 6 ⟨0, 0⟩).agentState tile
  | (s, some h) => s.startHandler tile m h

/-- A message that leaves the inbox. -/
def State.startMessage (s : State) (tile : Nat) (m : Msg) (rest : List Msg) : State :=
  let s := s.modTile tile fun t => { t with inbox := rest }
  let st := s.startStatus tile m
  if st ≠ 0 then (s.sendReply m st ⟨0, 0⟩).agentState tile
  else s.modAgent tile fun t => { t with inflight := t.inflight ++ [⟨m⟩] }

/-- AGENT_MESSAGE_START: at its turn of the rotation the agent starts the oldest message of its inbox (R189). At a turn
without one that can start, its first after the core's start, it waits for a message (log 27, DEDUCED). -/
def execAgentMessageStart (tile : Nat) (s : State) : Host.Outcome State Fault Refusal :=
  let core := stagingOf tile
  if s.pick core ≠ some 15 ∨ (s.tile tile).handler.isSome then notDue s
  else match if s.canStart tile then (s.tile tile).inbox else [] with
    | [] => .next ((s.markIssue core 15).agentState tile)
    | m :: r => .next ((s.markIssue core 15).startMessage tile m r)

/-! The vault operation (R189, R249 to R251). -/

/-- Element `i` of `n` bytes of marked bytes. -/
def elemAt (l : List PByte) (n i : Nat) : Nat × Bool :=
  let x := (l.drop (n * i)).take n
  (numberOf x, poisoned x)

/-- The new elements of an RADD (R250): poisoned when the old one or the one sent is (R359). -/
def raddNew (m : Msg) (old : List PByte) : List PByte :=
  let w := raddWidth m.ty
  let add := fun x y => if m.ty = 0xA then Fmt.f32.add x y else (x + y) % 2 ^ (8 * w)
  let sent := m.data.bytes 128
  (List.range m.len).flatMap fun i =>
    let x := elemAt old w i
    let y := elemAt sent w i
    (bytesOf w (add x.1 y.1)).map fun b => (b, x.2 || y.2)

/-- The access of a message as one operation of the vault, at one instant, and the data of its reply. -/
def State.vaultOperation (s : State) (m : Msg) : State × VVal :=
  match m.op with
  | .rget =>
    let r := s.readBytes m.place m.len
    (r.1, vecOfMarked r.2)
  | .rput => (s.perform (markedWrites m.place (m.data.bytes m.len)) none, ⟨0, 0⟩)
  | .radd =>
    let r := s.readBytes m.place m.bytes
    (r.1.perform (markedWrites m.place (raddNew m r.2)) none, vecOfMarked r.2)
  | .rcas =>
    let r := s.readBytes m.place m.len
    let mark := poisoned r.2
    let new := (m.data.bytes 128).take m.len
    let ws := markedWrites m.place (new.map fun b => (b.1, b.2 || mark))
    (if numberOf r.2 = m.arg.toNat then r.1.perform ws none else r.1, vecOfMarked r.2)
  | .amo fn n v q =>
    let r := s.performAmo m.place fn n v.bits q.bits
    (r.1, ⟨BitVec.ofNat 1024 r.2.bits.toNat, if r.2.poison then 1 else 0⟩)
  | .rcall => (s, ⟨0, 0⟩)

/-- A row holds one more access (R407). -/
def State.holdAt (s : State) (place : Nat) (h : Held) : State :=
  let br := s.bankAt place
  let b := s.bank (tileOfPlace place) br.1
  s.setBank (tileOfPlace place) br.1 { b with held := b.held ++ [(br.2, h)] }

/-- Whether an atomic in flight at its agent arrives at a row under repair now, likewise (R406). -/
def State.arrivesAtomic (s : State) (m : Msg) : Bool :=
  let h := s.heldFor m.place
  match m.op with
  | .amo .. => s.rowRepairing m.place && !h.contains (.atomic m)
      && { s with posted := s.posted.filter fun q => !h.contains (.store q.seq) }.homesClear m.src m.slot m.uid m.place m.len
  | _ => false

/-- The access of a message at one instant; it leaves the agent with its reply (R189). -/
def State.operate (s : State) (tile : Nat) (m : Msg) : State :=
  let r := s.vaultOperation m
  let s := r.1.touchSpan m.place m.bytes .dflt
  (s.modAgent tile fun t => { t with inflight := t.inflight.filter fun f => f.msg ≠ m }).sendReply m 0 r.2

/-- AGENT_VAULT_OPERATION: message `n` in flight performs its access and its reply leaves. An atomic follows its
thread's earlier stores to the vault (R199), and one that arrives at a row under repair is held (R406). A row call of a
handler has its entry read, and the handler runs (R252). -/
def execAgentVaultOperation (tile n : Nat) (s : State) : Host.Outcome State Fault Refusal :=
  match (s.tile tile).inflight[n]? with
  | none => notDue s
  | some ⟨m⟩ =>
    let first := match m.op with
      | .amo .. => s.homesClear m.src m.slot m.uid m.place m.len
      | _ => true
    let turn := (s.heldFor m.place).head?.all fun h => h = .atomic m
    if m.op = .rcall then
      match s.handlerPlace tile m.arg with
      | some p => if s.bankBusy p then .next (s.callBanks [(p, 8)]) else .next (s.callHandler tile m)
      | none => .next (s.callHandler tile m)
    else if s.arrivesAtomic m then .next (s.holdAt m.place (.atomic m))
    else if (chunksOf m.place m.bytes).any s.bankStops || !turn || !first then notDue s
    else .next (s.operate tile m)

/-! Handlers (R190, R252). -/

/-- Whether an issue of this instruction ends a handler (R190) (log 65, DEDUCED). -/
def endsHandler : Instr → Bool
  | .rget _ | .rput _ | .radd _ | .rcas _ | .rcall _ | .waitres _ | .waitaddr _ | .semwait _ | .ringwait _ | .bar _
  | .migr _ | .launch _ | .spawn _ | .reap _ => true
  | _ => false

/-- The handler ends in a manner: 2 by its return, else under R190 or by tkill. Its posted stores are performed first
(R204). -/
def State.stopHandler (s : State) (core manner : Nat) : State :=
  let t := s.thread core 15
  (s.setThread core 15 { t with waits := [⟨false, s.cycle, .release (.ending manner)⟩], latch := none,
                                stopHeld := false, reissue := false, retry := false, run := none }).enterState
    core 15 .waitingMemory 0

/-- RCALL_HANDLER_END: the reply leaves with the data in v4, or with status 6, and the agent has its registers again
(R190, R252). -/
def execRcallHandlerEnd (tile : Nat) (s : State) : Host.Outcome State Fault Refusal :=
  let core := stagingOf tile
  let t := s.thread core 15
  match (s.tile tile).handler, t.findWait isEnding with
  | some m, some ⟨_, _, .release (.ending manner)⟩ =>
    if !s.drained core 15 t.uid then notDue s
    else
      let back := (s.core core).agentSaved.getD t
      let s := s.sendReply m (if manner = 2 then 0 else 6) (if manner = 2 then t.regs.getV 4 else ⟨0, 0⟩)
      let s := s.modTile tile fun x => { x with handler := none }
      let s := s.modCore core fun c => { c with agentSaved := none, handlerIssues := 0 }
      let s := s.setThread core 15 { back with state := t.state, readyAt := t.readyAt, lastIssue := t.lastIssue }
      .next (s.enterState core 15 (s.agentRest tile) 0)
  | _, _ => notDue s

/-! Replies (R191, R248). -/

def isRowCall : Wait → Bool
  | .rowCall _ => true
  | _ => false

/-- The lanes of an RADD or RCAS reply in v[c]: the lanes that the reply does not name keep theirs. -/
def replyLanes (old data : VVal) (w count : Nat) : VVal :=
  mergeLanes w old ((List.range count).map fun i => some (laneOf data.bits w i, data.lanePoison w i))

/-- v[c] after a call that has been performed (R248 to R252). -/
def replyVector (op : RcOp) (old data : VVal) : VVal :=
  match op.msg.op with
  | .rget => data
  | .radd => replyLanes old data (8 * raddWidth op.msg.ty) op.msg.len
  | .rcas =>
    mergeLanes 64 old [some (laneOf data.bits 64 0, poisoned (data.bytes op.n))]
  | .rcall => data
  | _ => old

/-- Whether the completion of a form counts as a published store (R365). -/
def MsgOp.publishes : MsgOp → Bool
  | .rget => false
  | _ => true

/-- A call completes with status 0, 5 or 6 (log 66, DEDUCED). -/
def Thread.takeReply (t : Thread) (op : RcOp) (r : Reply) : Thread :=
  let t := if r.status = 0 then t.setV op.c (replyVector op (t.regs.getV op.c) r.data) else t
  let t := t.setClean op.d (w64 r.status)
  if op.msg.op.publishes then t.bump else t

/-- The cause and information word of a status that makes the sender trap (Table 7.13). -/
def replyTrap (op : RcOp) (r : Reply) : Nat × W64 :=
  match r.status with
  | 1 => (0x13, w64 (r.place / 2 ^ 21 * 2 ^ 21))
  | 2 => (0x14, w64 r.place)
  | 3 => (0x11, op.va)
  | _ => (0x15, w64 (rowPlace r.place))

/-- ROW_CALL_REPLY: a reply reaches its sender, wherever its context stands (R191, R384). -/
def execRowCallReply (n : Nat) (s : State) : Host.Outcome State Fault Refusal :=
  match s.net[n]? with
  | some (.reply r) =>
    let slot := s.locate r.core r.slot r.uid
    let t := s.thread r.core slot
    let s1 := { s with net := dropAt s.net n }
    if t.uid ≠ r.uid then .next s1
    else match t.findWait isRowCall with
      | some ⟨m, at0, .rowCall op⟩ =>
        let s := s1.gaugeLatency r.core slot 0x03 (s.cycle - at0)
        if 1 ≤ r.status ∧ r.status ≤ 4 then
          let x := replyTrap op r
          .next (s.trapWait r.core slot x.1 x.2 m)
        else .next (s.endWait r.core slot isRowCall fun t => t.takeReply op r)
      | _ => notDue s
  | _ => notDue s

/-! tkill. -/

/-- An acknowledged thread ends in manner 1 once its stores have been performed; the handler of an agent ends with
status 6 (R101, R252, R355) (log 19, DEDUCED). -/
def State.killSlot (s : State) (core slot : Nat) : State :=
  if isAgent core slot then s.stopHandler core 1
  else
    let t := s.thread core slot
    let own := (s.core core).seqOwner = some slot
    let t := { t with waits := [⟨false, s.cycle, .release (.ending 1)⟩], latch := none, coffers := [], inflows := [],
                      resv := [], run := none, stopHeld := false, engFault := [], skipBreak := false }
    let s := s.setThread core slot t
    let s := if s.endsNow core slot 1 then s.finishEnd core slot 1 else s.enterState core slot .waitingMemory 0
    if own then (s.modCore core fun c => { c with seqOwner := none }).admitRun core else s

/-- tkill (R354, R355). -/
def execTkill (o : SSS) (s : State) : Host.Outcome State Fault Refusal :=
  complete o.g s fun s => headOnly 0x25 1 s (
    let slot := (s.rS o.a.toNat).bits
    let core := s.cur.core
    let st := s.ackStatus core slot (s.rS o.b.toNat).bits
    let s := if st = 0 then s.killSlot core slot.toNat else s
    .ok (.done (s.wClean o.d.toNat (w64 st))))

end Sys2Proof.Machine
end

