-- ==== Sys2Proof/Machine/Preempt.lean ====
section
/-! DEFINITION. Preempt.lean: the shadow banks and the spill engine (R377 to R385, R409), and the power gate of a compute
die (R386 to R388, R410). -/

namespace Sys2Proof.Machine

/-- A pre-emption register of a core (Table 15.9). -/
def preReg (core off : Nat) : Nat :=
  spaceBase (tileOfCore core) 3 + (if isCompute core then 0x201000 else 0x200000) + off

def State.savePlace (s : State) (core slot : Nat) : Nat := (s.reg (preReg core (0x100 + 8 * slot))).toNat
def State.tilePlace (s : State) (core : Nat) : Nat := (s.reg (preReg core 0x010)).toNat
def State.headPlace (s : State) (core : Nat) : Nat := (s.reg (preReg core 0x018)).toNat

/-- Whether `n` bytes at a save place are aligned, in the own vault and pinned (R378). -/
def State.placeOk (s : State) (core place n : Nat) : Bool :=
  place % 64 = 0 && tileOfPlace place = tileOfCore core && spaceOfPlace place = 0
    && (granulesOf place n).all fun g => s.granule (tileOfCore core) g = 3

/-- Bytes of a thread record and of the tile block (R383). -/
def recordSize : Nat := 5056
def blockSize : Nat := 36992

/-! The tile block (R383). -/

/-- The bytes of the tile block: a poisoned row has the marks of all its words. -/
def EngineRegs.block (e : EngineRegs) : List PByte :=
  let rows := fun t => (List.range 32).flatMap fun i =>
    markedBytes 64 (e.row t i).toNat ((e.rowPoison t).getLsbD i)
  (List.range 8).flatMap rows
    ++ (List.range 4096).flatMap (fun w => cleanBytes 4 (SMap.get 0 e.acc w).toNat)
    ++ rows 8
    ++ (List.range 256).flatMap (fun k => cleanBytes 8 (SMap.get 0 e.idx k).toNat)
    ++ (List.range 9).flatMap (fun t => cleanBytes 4 (e.fill t).toNat)
    ++ cleanBytes 4 e.ivalid.toNat ++ cleanBytes 8 e.bfctl.toNat
    ++ (List.range 4).flatMap (fun a => cleanBytes 8 (SMap.get 0 e.aexp a).toNat) ++ cleanBytes 48 0

/-- The tile state read back from its block. -/
def EngineRegs.ofBlock (l : List PByte) : EngineRegs :=
  let num := recordNum l
  let e := (List.range 9).foldl (fun (e : EngineRegs) t =>
    let base := if t = 8 then 0x8000 else 2048 * t
    let e := (List.range 32).foldl (fun (e : EngineRegs) i =>
      e.setRow t i (BitVec.ofNat 512 (num (base + 64 * i) 64))) e
    let bad := packNat 1 ((List.range 32).map fun i => bit01 (recordBad l (base + 64 * i) 64))
    (e.setPoison t (BitVec.ofNat 32 bad)).setFill t (BitVec.ofNat 32 (num (0x9000 + 4 * t) 4))) EngineRegs.reset
  let e := (List.range 4096).foldl (fun (e : EngineRegs) w =>
    { e with acc := SMap.set e.acc w (BitVec.ofNat 32 (num (0x4000 + 4 * w) 4)) }) e
  let e := (List.range 256).foldl (fun (e : EngineRegs) k =>
    { e with idx := SMap.set e.idx k (BitVec.ofNat 64 (num (0x8800 + 8 * k) 8)) }) e
  let e := (List.range 4).foldl (fun (e : EngineRegs) a =>
    { e with aexp := SMap.set e.aexp a (BitVec.ofNat 33 (num (0x9030 + 8 * a) 8)) }) e
  { e with ivalid := BitVec.ofNat 8 (num 0x9024 1), bfctl := BitVec.ofNat 64 (num 0x9028 8) }

/-! Commands. -/

def State.isMigrant (s : State) (core slot : Nat) : Bool := ((s.thread core slot).findWait isMigrating).isSome

/-- A slot of the active bank that holds a thread: an idle slot in the window of a swap holds none. -/
def State.slotLive (s : State) (core slot : Nat) : Bool :=
  let t := s.thread core slot
  t.state ≠ .idle && !(t.state = .swapped && t.saved = .idle)

/-- The place and size of what a command reads or writes (R379). -/
def State.cmdPlaces (s : State) (core op : Nat) (tile : Bool) (mask : List Nat) : List (Nat × Nat) :=
  ((mask.filter fun k => op = 2 || s.slotLive core k).map fun k => (s.savePlace core k, recordSize))
    ++ (if tile && isCompute core then [(s.tilePlace core, blockSize)] else [])

/-- SWSTAT.err of a command (R379). -/
def State.cmdError (s : State) (core op : Nat) (tile : Bool) (mask : List Nat) : Nat :=
  let c := s.core core
  if mask.any fun k => !isTaskSlot core k || s.isMigrant core k then 1
  else if (s.cmdPlaces core op tile mask).any fun p => !s.placeOk core p.1 p.2 then 2
  else if tile && !isCompute core then 3
  else if c.swapPend.isSome || (op = 2 && mask.any fun k => (c.shadowSlot k).state ≠ 0) then 4
  else if op = 1 && (mask.any (fun k => (c.shadowSlot k).state = 3 && (c.shadowSlot k).ctx.isNone)
      || (tile && c.fillRun.any BankCmd.tile)) then 5
  else 0

/-- Waits that a swap withdraws (R316, R384). -/
def Wait.withdrawn (blocked : Bool) : Wait → Bool
  | .sem .. | .engineFull _ | .queuePush .. | .queuePop .. | .inflow .. | .ringwait .. | .waitaddr .. | .waitres ..
  | .yielding _ | .seqBusy _ | .repstop | .endAfterRun .. => true
  | .vld _ => blocked
  | _ => false

/-- The grant of a wait that has it, or of a product that still waits for an entry, is given back (R261, R322). -/
def State.giveBack (s : State) (core slot : Nat) : State :=
  match (s.thread core slot).findWait fun w => isEngineFull w || isSem w with
  | some ⟨_, _, .engineFull op⟩ => s.undoGrant (tileOfCore core) op
  | some ⟨_, _, .sem n w _ (some _)⟩ => s.semAddBack (tileOfCore core) n w
  | _ => s

/-- A slot of the mask stops issuing: it is swapped from the first cycle (R380), its waits are withdrawn or go on
(R384), its run stops (R316), its reservation set is emptied (R245). -/
def State.leaveSlot (s : State) (core slot : Nat) : State :=
  let t := s.thread core slot
  let out := t.waits.any fun w => w.op.withdrawn (t.state = .waitingMessage)
  let s := if out then (s.giveBack core slot).leaveLists core slot else s
  let s := if (s.core core).seqOwner = some slot then s.modCore core fun c => { c with seqOwner := none } else s
  let s := s.setThread core slot
    (if out then { t.withdraw with resv := [] } else { t with saved := t.state, resv := [] })
  s.enterState core slot .swapped 0

/-- A swap begins, its 24 cycles counted from `at0`. -/
def State.beginSwap (s : State) (core : Nat) (cmd : BankCmd) (at0 : Nat) : State :=
  let s := (setBitsOf 16 cmd.mask.toNat).foldl (fun s k => s.leaveSlot core k) s
  (s.modCore core fun c => { c with swapPend := none, swapAt := none, swapRun := some { cmd with at0 := at0 } }).admitRun core

/-- A fill of the shadow bank begins: its shadow slots are busy, and the tile block unless it is still to be written, which
comes first, or a running swap takes it (R381). -/
def Core.beginFill (c : Core) (cmd : BankCmd) : Core :=
  let c := (setBitsOf 16 cmd.mask.toNat).foldl (fun (c : Core) k =>
    { c with shadow := SMap.set c.shadow k ⟨3, none, 0, 0⟩ }) c
  let c := if cmd.tile && !c.shadowTile.isHeld && !c.swapRun.any BankCmd.tile then { c with shadowTile := ⟨3, none, 0⟩ }
    else c
  { c with fillRun := c.fillRun ++ [cmd] }

/-- A write of SWCMD (R378 to R382). -/
def State.writeSwcmd (s : State) (core : Nat) (v : W64) : State :=
  let op := bitsOf v 63 62
  if op ≠ 1 ∧ op ≠ 2 then s
  else
    let cmd : BankCmd := ⟨v.setWidth 16, bitOf v 61, s.cycle⟩
    let err := s.cmdError core op cmd.tile (setBitsOf 16 cmd.mask.toNat)
    let s := s.modCore core fun c => { c with swapErr := err }
    if err ≠ 0 then s
    else if op = 2 then s.modCore core fun c => c.beginFill cmd
    else if (s.core core).anyHeld || (s.core core).swapRun.isSome then
      s.modCore core fun c => { c with swapPend := some cmd }
    else s.beginSwap core cmd s.cycle

/-- SWAP_COMMAND: a write of SWCMD with op 1. -/
def execSwapCommand (core : Nat) (v : W64) (s : State) : Host.Outcome State Fault Refusal :=
  if bitsOf v 63 62 = 1 then .next (s.writeSwcmd core v) else notDue s

/-- FILL_COMMAND: a write of SWCMD with op 2. -/
def execFillCommand (core : Nat) (v : W64) (s : State) : Host.Outcome State Fault Refusal :=
  if bitsOf v 63 62 = 2 then .next (s.writeSwcmd core v) else notDue s

/-! The effect of a swap. -/

/-- The codes of Table 15.2. -/
def trapCodes : List Nat :=
  [0x01, 0x02, 0x03, 0x04, 0x05, 0x06, 0x07, 0x08, 0x09, 0x0A, 0x0C, 0x10, 0x11, 0x12, 0x13, 0x14, 0x15, 0x16, 0x18, 0x19,
   0x1A, 0x1C, 0x1D, 0x1E, 0x1F, 0x20, 0x21]

/-- An incoming context takes its saved state; a trapped one is trapped again, with a fresh record (R382, R384). What
its record does not tell of its trap is free: any code of Table 15.2, and any information word (R356). -/
def State.enterSaved (s : State) (core slot : Nat) : State :=
  let t := s.thread core slot
  match t.saved with
  | .trapped =>
    if t.stopHeld then s.enterState core slot .trapped 0
    else
      let l := t.latch.getD ⟨t.pc, 0, none, 0, false, true⟩
      if t.trapCause = 0 then
        let c := s.takeFresh
        let i := c.2.takeFresh
        let cause : Byte := BitVec.ofNat 8 (trapCodes.getD (c.1.toNat % trapCodes.length) 0x01)
        (i.2.setThread core slot { t with trapCause := cause, trapInfo := i.1 }).holdTrap core slot cause.toNat i.1 l
      else s.holdTrap core slot t.trapCause.toNat t.trapInfo l
  | st => s.enterState core slot st 0

/-- One slot of the mask is exchanged (R380, R409). -/
def State.exchangeSlot (s : State) (core slot : Nat) : State :=
  let t := s.thread core slot
  let sh := (s.core core).shadowSlot slot
  let dev := deviceOfCore core
  let out : ShadowSlot := if t.saved = .idle then (if sh.state = 3 then sh else ⟨0, none, 0, 0⟩)
    else ⟨1, some { t with resv := [] }, s.savePlace core slot, w64 (s.now dev)⟩
  let s := s.modCore core fun c => { c with shadow := SMap.set c.shadow slot out }
  match sh.state, sh.ctx with
  | 2, some x => (s.setThread core slot { x with state := .swapped, lastIssue := none }).enterSaved core slot
  | _, _ => s.vacate core slot

/-- The tile block is exchanged: an empty shadow block comes in as after reset. -/
def State.exchangeTile (s : State) (core : Nat) : State :=
  let tile := tileOfCore core
  let sh := (s.core core).shadowTile
  let incoming := if sh.state = 2 then sh.regs.getD EngineRegs.reset else EngineRegs.reset
  let place := s.tilePlace core
  let old := (s.tile tile).eng
  let s := s.modCore core fun c => { c with shadowTile := ⟨1, some old, place⟩ }
  s.modTile tile fun t => { t with eng := incoming, engGen := t.engGen + 1, bfAccepted := incoming.bfctl }

/-- What the spill engine writes next is busy (R377): the lowest held slot, then the tile block. -/
def Core.markSpill (c : Core) : Core :=
  match (List.range 16).find? fun k => (c.shadowSlot k).isHeld with
  | some k => { c with shadow := SMap.set c.shadow k { c.shadowSlot k with state := 3 } }
  | none => if c.shadowTile.isHeld then { c with shadowTile := { c.shadowTile with state := 3 } } else c

/-- The records that a spill has to write, the tile block in bit 16. -/
def Core.heldMask (c : Core) : Nat :=
  packNat 1 ((List.range 16).map fun k => bit01 (c.shadowSlot k).isHeld) + bit01 c.shadowTile.isHeld * 2 ^ 16

/-- A spill is finished: kind 0x11, which a swap that leaves nothing to write sends too, with mask 0 (log 126, DESIGN
CHOICE); and a pending swap begins in the next cycle (R380, R381). -/
def State.spillDone (s : State) (core : Nat) : State :=
  let s := s.notify core ⟨0x11, 0, 0, [w64 (s.core core).spillMask]⟩
  s.modCore core fun c => { c with spillMask := 0, swapAt := c.swapPend.map fun _ => s.cycle + 1 }

/-- The pending swap that begins now (R381). -/
def State.swapDue (s : State) (core : Nat) : Option (BankCmd × Nat) :=
  match (s.core core).swapPend, (s.core core).swapAt with
  | some cmd, some n => if n ≤ s.cycle then some (cmd, n) else none
  | _, _ => none

/-- SWAP_TAKE_EFFECT: a swap takes effect after its 24 cycles (R380); a pending one begins in the cycle after the last held
record has been written (R381). -/
def execSwapTakeEffect (core : Nat) (s : State) : Host.Outcome State Fault Refusal :=
  match (s.core core).swapRun with
  | none =>
    match s.swapDue core with
    | some (cmd, n) => .next (s.beginSwap core cmd n)
    | none => notDue s
  | some cmd =>
    if s.cycle < cmd.at0 + 24 then notDue s
    else
      let s := s.modCore core fun c => { c with swapRun := none }
      let s := (setBitsOf 16 cmd.mask.toNat).foldl (fun s k => s.exchangeSlot core k) s
      let s := if cmd.tile then s.exchangeTile core else s
      let s := s.notify core ⟨0x10, 0, 0, [w64 (cmd.mask.toNat + bit01 cmd.tile * 2 ^ 16)]⟩
      let s := s.modCore core fun c => { c.markSpill with spillMask := c.heldMask }
      .next ((if (s.core core).anyHeld then s else s.spillDone core).admitRun core)

/-! The spill engine. -/

/-- Whether a wait still works on the tile state of a bank. -/
def Wait.usesGen (gen : Nat) : Wait → Bool
  | .tileLoad _ _ _ _ _ g .. => g = gen
  | .gather _ _ g .. => g = gen
  | .sem _ _ (some op) _ => op.gen = gen
  | .engineFull op => op.gen = gen
  | _ => false

/-- Whether every operation of the outgoing tile bank has ended (R384). -/
def State.tileQuiet (s : State) (tile : Nat) : Bool :=
  let old := (s.tile tile).engGen - 1
  (s.tile tile).engineQ.all (fun op => op.gen ≠ old)
    && [stagingOf tile, computeOf tile].all fun core =>
      (s.core core).contexts.all fun k => (s.thread core k).waits.all fun w => !w.op.usesGen old

/-- Whether no reply to a context whose record lies in a range of the vault is on its way there (R384). -/
def State.recordSettled (s : State) (place n : Nat) : Bool :=
  s.posted.all fun p => !(p.slot = spillSlot && p.bytes.any fun w => decide (place ≤ w.addr) && decide (w.addr < place + n))

/-- Whether the spill engine cannot write, or read, the bytes at a place now (Table 15.8). -/
def State.rangeBusy (s : State) (place n : Nat) : Bool := s.spanHeld place n || !s.recordSettled place n

/-- The next record is written, and the spill goes on or ends. -/
def State.spilled (s : State) (core : Nat) : State :=
  let s := s.modCore core Core.markSpill
  if (s.core core).anyHeld then s else s.spillDone core

/-- What a shadow slot, or the tile block, is once its record has been written: empty, or busy with a fill that has waited
for it (R377, R381). -/
def Core.afterSpill (c : Core) (k : Nat) : Nat :=
  if c.fillRun.any fun cmd => if k = 16 then cmd.tile else cmd.mask.getLsbD k then 3 else 0

/-- SPILL_RECORD_WRITTEN: the records in ascending slot order, then the tile block (R380, R384). -/
def execSpillRecordWritten (core : Nat) (s : State) : Host.Outcome State Fault Refusal :=
  let c := s.core core
  match (List.range 16).find? fun k => (c.shadowSlot k).isHeld with
  | some k =>
    let x := c.shadowSlot k
    match x.ctx with
    | none => notDue s
    | some t =>
      if s.rangeBusy x.place recordSize then notDue s
      else
        let s := (s.perform (markedWrites x.place (t.record x.stamp)) none).touchSpan x.place recordSize .dflt
        let s := s.modCore core fun c =>
          { c with shadow := SMap.set c.shadow k ⟨c.afterSpill k, none, 0, 0⟩,
                   away := SMap.set c.away (x.place / 64) ⟨t, k, x.place, x.stamp⟩ }
        .next (s.spilled core)
  | none =>
    if !c.shadowTile.isHeld then notDue s
    else match c.shadowTile.regs with
      | none => notDue s
      | some e =>
        let p := c.shadowTile.place
        if s.rangeBusy p blockSize || !s.tileQuiet (tileOfCore core) then notDue s
        else
          let s := (s.perform (markedWrites p e.block) none).touchSpan p blockSize .dflt
          .next ((s.modCore core fun c => { c with shadowTile := ⟨c.afterSpill 16, none, 0⟩ }).spilled core)

/-! Fills. -/

/-- The words of a record that may be poisoned without damage behind its registers: the saved s2 of each coffer
(R364, R383). -/
def savedS2Word (off : Nat) : Bool := (List.range 4).any fun i => off / 8 * 8 = 0x1328 + 24 * i

/-- Whether a record is damaged: an uncorrectable word in its bytes 0x1200 to 0x13BF (R385). -/
def State.recordDamaged (s : State) (place : Nat) : Bool :=
  (List.range 112).any fun i =>
    let off := 0x1200 + 4 * i
    s.ecc.contains (codeword (place + off)).1 || (s.marked (place + off) && !savedS2Word off)

/-- The core of the tile whose context left its record at a place. -/
def State.awayCore (s : State) (core place : Nat) : Option Nat :=
  [core, otherCore core].find? fun c => (s.core c).away.any fun e => e.1 = place / 64

/-- The thread of the record at a place, read as `l`, and its stamp: what the machine still knows of it, with the record's
bytes, or a thread of those bytes alone. -/
def State.takeRecord (s : State) (core place : Nat) (l : List PByte) : State × Thread × W64 :=
  match s.awayCore core place with
  | some c0 =>
    let a := (s.core c0).awayAt (place / 64)
    (s.modCore c0 fun c => { c with away := SMap.erase c.away (place / 64) }, Thread.ofRecord a.ctx l, a.stamp)
  | none =>
    ({ s with nextUid := s.nextUid + 1 }, { Thread.ofRecord Thread.reset l with uid := s.nextUid },
      w64 (recordNum l 0x1390 8))

/-- The end of a thread whose record is damaged, which its head slot reports to its launch as by tkill (R385): its open
versions are discarded, and the dispatcher gets its end (log 125, DEDUCED). -/
def State.endDamaged (s : State) (core : Nat) (t : Thread) : State :=
  let s := s.discardVersions t.uid fun _ => true
  if t.handle = 0 then s
  else { s with net := s.net ++ [Packet.ended t.handle core t.indices true] }.modLaunch t.handle fun l =>
    l.endMember t.indices

/-- One record is read back: its shadow slot is loaded, or stays empty when it is damaged (R382, R385). -/
def State.fillSlot (s : State) (core slot : Nat) : State × Bool :=
  let place := s.savePlace core slot
  let bad := s.recordDamaged place
  let r := s.readBytes place recordSize
  let x := (r.1.touchSpan place recordSize .dflt).takeRecord core place r.2
  let put := fun (s : State) (y : ShadowSlot) => s.modCore core fun c => { c with shadow := SMap.set c.shadow slot y }
  if bad then ((put x.1 ⟨0, none, 0, 0⟩).endDamaged core x.2.1, false) else (put x.1 ⟨2, some x.2.1, place, x.2.2⟩, true)

/-- FILL_COMPLETE: the oldest fill, behind every held record (R381, R382, R385). -/
def execFillComplete (core : Nat) (s : State) : Host.Outcome State Fault Refusal :=
  let c := s.core core
  match c.fillRun with
  | [] => notDue s
  | cmd :: rest =>
    let slots := (setBitsOf 16 cmd.mask.toNat).filter fun k =>
      (c.shadowSlot k).state = 3 && (c.shadowSlot k).ctx.isNone
    let places := slots.map (fun k => (s.savePlace core k, recordSize))
      ++ (if cmd.tile then [(s.tilePlace core, blockSize)] else [])
    if c.anyHeld || c.swapRun.isSome || places.any fun p => s.rangeBusy p.1 p.2 then notDue s
    else
      let s := s.modCore core fun c => { c with fillRun := rest }
      let r := slots.foldl (fun (a : State × Nat × Nat) k =>
        let f := a.1.fillSlot core k
        if f.2 then (f.1, a.2.1 + 2 ^ k, a.2.2) else (f.1, a.2.1, a.2.2 + 2 ^ k)) (s, 0, 0)
      let s := if cmd.tile then
          let p := r.1.tilePlace core
          let b := r.1.readBytes p blockSize
          (b.1.touchSpan p blockSize .dflt).modCore core fun c =>
            { c with shadowTile := ⟨2, some (EngineRegs.ofBlock b.2), p⟩ }
        else r.1
      .next (s.notify core ⟨0x12, 0, 0, [w64 (r.2.1 + bit01 cmd.tile * 2 ^ 16), w64 r.2.2]⟩)

/-! The power gate of a compute die. -/

def State.setGateState (s : State) (core n : Nat) : State :=
  s.setReg (gateReg core) (setBits (s.reg (gateReg core)) 61 60 n)

def State.gateRequested (s : State) (core : Nat) : Bool := bitOf (s.reg (gateReg core)) 63

/-- Whether a compute die takes a request for a gate. -/
def State.takesGate (s : State) (core : Nat) : Bool :=
  isCompute core && !s.gateRequested core && s.gateState core = 0

/-- The management complex asks for a gate (R386); a request that the die does not take has no effect. -/
def State.requestGate (s : State) (core dl : Nat) : State :=
  if !s.takesGate core then s
  else
    let s := s.setReg (gateReg core) (setBit (s.reg (gateReg core)) 63 true)
    let s := s.modCore core fun c => { c with gateDue := s.cycle + dl }
    s.notify core ⟨0x17, 0, 0, [w64 dl]⟩

/-- GATE_REQUEST: the management complex asks for a gate (R386) (log 57, DEDUCED). -/
def execGateRequest (core dl : Nat) (s : State) : Host.Outcome State Fault Refusal :=
  if s.takesGate core then .next (s.requestGate core dl) else notDue s

/-- GATE_REQUEST_LAPSE: dl ran out without ack; req clears, and basin is told (R386). -/
def execGateRequestLapse (core : Nat) (s : State) : Host.Outcome State Fault Refusal :=
  if s.gateRequested core && decide ((s.core core).gateDue ≤ s.cycle) then
    .next ((s.setReg (gateReg core) (setBit (s.reg (gateReg core)) 63 false)).modDevice (deviceOfCore core) fun d =>
      { d with lapsed := d.lapsed ++ [core] })
  else notDue s

/-- A write of PGCTL with ack set, before dl has run out. -/
def State.ackGate (s : State) (core : Nat) : State :=
  if s.gateRequested core && decide (s.cycle < (s.core core).gateDue) then
    (s.setReg (gateReg core) (setBit (s.reg (gateReg core)) 63 false)).setGateState core 1
  else s

/-- GATE_ACK. -/
def execGateAck (core : Nat) (s : State) : Host.Outcome State Fault Refusal :=
  if s.gateRequested core && decide (s.cycle < (s.core core).gateDue) then .next (s.ackGate core) else notDue s

/-- The slots whose thread a gate ends: task slots of the active bank, and loaded shadow slots. -/
def State.gateSlots (s : State) (core : Nat) : List Nat :=
  (List.range 32).filter fun k =>
    k % 16 ≠ 0 && (if k < 16 then s.slotLive core k else ((s.core core).shadowSlot (k - 16)).state = 2)

/-- The record of a head slot: bit 0 of its %tsw is set (Table 1.3). -/
def Thread.headRecord (t : Thread) (stamp : W64) : List PByte :=
  let l := { t with saved := t.state }.record stamp
  l.zipIdx.map fun b => if b.2 = 0x12F0 then (b.1.1 ||| 1, b.1.2) else b.1

/-- Whether the head record of a core has a usable save place (R378) (log 57, DEDUCED). -/
def State.headSaveOk (s : State) (core : Nat) : Bool := s.placeOk core (s.headPlace core) recordSize

/-- Whether the vault holds back the writing or the reading of a core's head record. -/
def State.headSaveHeld (s : State) (core : Nat) : Bool :=
  s.headSaveOk core && s.spanHeld (s.headPlace core) recordSize

/-- The head record of a core is written to its save place, when that is usable. -/
def State.saveHead (s : State) (core : Nat) : State :=
  let p := s.headPlace core
  if s.headSaveOk core then
    (s.perform (markedWrites p ((s.thread core 0).headRecord (w64 (s.now (deviceOfCore core))))) none).touchSpan p
      recordSize .dflt
  else s

/-- What the die holds as it loses its power (R388). -/
def Core.gated (c : Core) (head : Thread) (cycle : Nat) : Core :=
  { c with headSaved := some head, gateAt := cycle, swapPend := none, swapAt := none, swapRun := none, fillRun := [],
           shadow := [], shadowTile := ⟨0, none, 0⟩ }

/-- Whether a die that saves has come to the point at which it is gated: its engine queue empty, nothing held, and the
stores of the threads that end performed (R388). -/
def State.gateReady (s : State) (core : Nat) : Bool :=
  s.gateState core = 1 && (s.tile (tileOfCore core)).engineQ.isEmpty && !(s.core core).anyHeld
    && (s.gateSlots core).all fun k => s.drained core k (s.thread core k).uid

/-- DIE_GATED: the remaining threads end, the head record is written, and the die is gated (R388). A bank of the save place
that sleeps is woken first. -/
def execDieGated (core : Nat) (s : State) : Host.Outcome State Fault Refusal :=
  if !s.gateReady core then notDue s
  else if s.headSaveHeld core then .next (s.callBanks [(s.headPlace core, recordSize)])
  else
    let s := (s.gateSlots core).foldl (fun s k => (s.leaveLists core k).finishEnd core k 1) s
    let s := (s.saveHead core).modCore core fun c => c.gated (s.thread core 0) s.cycle
    .next ((s.setGateState core 2).silt (deviceOfCore core) 0x07 0 (core % 1024) 0)

/-- The compute core after a gate (R410): what its die held is lost. -/
def Core.ungated (c : Core) : Core :=
  { c with threads := c.threads.filter fun e => e.1 = 0, lines := [], shadow := [], shadowTile := ⟨0, none, 0⟩,
           gauges := [], gaugeOld := [], gaugeAt := [], seqOwner := none, lastUnit := none, arrivals := c.arrivals }

/-- DIE_UNGATE (R388, R410). -/
def execDieUngate (core : Nat) (s : State) : Host.Outcome State Fault Refusal :=
  if s.gateState core ≠ 2 then notDue s
  else
    let s := s.modCore core fun c => { c.ungated with gateAt := s.cycle - c.gateAt }
    let s := s.modTile (tileOfCore core) fun t =>
      { t with eng := EngineRegs.reset, engGen := t.engGen + 1, bfAccepted := 0 }
    .next (s.setGateState core 3)

/-- The head record of a core is read back into the head thread that the die lost, when it has a save place (R388). -/
def State.restoreHead (s : State) (core : Nat) (head : Thread) : State :=
  let p := s.headPlace core
  if s.headSaveOk core then
    let b := s.readBytes p recordSize
    (b.1.touchSpan p recordSize .dflt).setThread core 0
      { Thread.ofRecord head b.2 with state := head.state, saved := head.saved }
  else s.setThread core 0 head

/-- The head slot resumes in its reap, which returns kind 0x18 with the cycles gated (R388). -/
def State.resumeHead (s : State) (core : Nat) (cycles : Nat) : State :=
  match (s.thread core 0).findWait isReap with
  | some ⟨_, _, .reap d⟩ => s.endWait core 0 isReap fun t => t.setV d (noticeVec 0x18 0 0 [w64 cycles])
  | _ => s.modCore core fun c => { c with inbox := (⟨0x18, 0, 0, [w64 cycles]⟩ : Notice) :: c.inbox }

/-- GATE_RESTORE_COMPLETE: the head record has been read back, the die is on, and the head slot resumes (R388). A bank of
the save place that sleeps is woken first. -/
def execGateRestoreComplete (core : Nat) (s : State) : Host.Outcome State Fault Refusal :=
  match s.gateState core, (s.core core).headSaved with
  | 3, some head =>
    if s.headSaveHeld core then .next (s.callBanks [(s.headPlace core, recordSize)])
    else
      let cycles := (s.core core).gateAt
      let s := (s.restoreHead core head).modCore core fun c => { c with headSaved := none }
      let s := (s.setGateState core 0).silt (deviceOfCore core) 0x07 1 (core % 1024) (w64 cycles)
      .next (s.resumeHead core cycles)
  | _, _ => notDue s

end Sys2Proof.Machine
end

