-- ==== Sys2Proof/Machine/Dram.lean ====
section
/-! DEFINITION. Dram.lean: the banks of a vault: rows, refresh, sleep, repair, temperature and retirement (R171 to R175,
R406, R407, R416 to R419), and the dredger with the granule map (R172, R180, R185, R389, R390). -/

namespace Sys2Proof.Machine

/-! Accesses in flight. -/

/-- Places and lengths that a pending load reads. -/
def LoadOp.places : LoadOp → List (Nat × Nat)
  | .scalar _ n _ place => [(place, n)]
  | .bits _ _ _ place _ n _ => [(place, n)]
  | .vector _ _ place n _ => [(place, n)]
  | .gather _ n elems _ => elems.map fun e => (e.2.1, n)
  | .reserve _ n place => [(place, n)]

/-- Places and lengths that an engine form's access has translated to. -/
def EngineForm.places : EngineForm → List (Nat × Nat)
  | .ast o _ place .. => [(place, if o.ty = 0 then 4096 else 2048)]
  | .ald _ _ place .. => [(place, 4096)]
  | _ => []

/-- Places and lengths that a waiting thread's access has translated to. -/
def Wait.places : Wait → List (Nat × Nat)
  | .fetch _ _ place => [(place, 64)]
  | .load op _ _ => op.places
  | .tileLoad _ place .. => [(place, 2048)]
  | .gather places .. => places.map fun p => (p, 64)
  | .release (.amo op) => [(op.place, op.n)]
  | .release (.launch _ _ record ..) => [(record, 256)]
  | .amo op => [(op.place, op.n)]
  | .vld op => op.lines.map fun p => (p, 64)
  | .vst op => [(op.place, op.data.length)]
  | .vfloor place _ _ => [(place, 1)]
  | .waitaddr _ place n _ _ _ => [(place, n)]
  | .bxf op _ => op.srcPlaces.map fun p => (p, 64)
  | .shape _ _ _ _ (some place) _ => [(place, 256)]
  | .engineFull op => op.form.places
  | .sem _ _ (some op) _ => op.form.places
  | _ => []

/-- Places and lengths of the accesses in flight at a tile: posted stores, waiting threads, the agent and the engine. -/
def State.placesInFlight (s : State) (tile : Nat) : List (Nat × Nat) :=
  (s.posted.flatMap fun p => p.bytes.map fun w => (w.addr, 1))
    ++ ([stagingOf tile, computeOf tile].flatMap fun core =>
      (s.core core).contexts.flatMap fun k => (s.thread core k).waits.flatMap fun w => w.op.places)
    ++ ((s.tile tile).inflight.map fun f => (f.msg.place, f.msg.bytes))
    ++ ((s.tile tile).engineQ.flatMap fun op => op.form.places)
    ++ ((s.tile tile).strActive.flatMap fun t => [(t.srcPlace, t.desc.len), (t.dstPlace, t.desc.len)])

/-- Whether an access in flight touches a granule of a tile. -/
def State.granuleBusy (s : State) (tile g : Nat) : Bool :=
  (s.placesInFlight tile).any fun a =>
    tileOfPlace a.1 = tile && spaceOfPlace a.1 = 0 && (granulesOf a.1 a.2).contains g

/-- Whether an access in flight wants a bank; engines that move data of the tile want every bank. The shape record of a
share or slice that has not begun to read is wanted too. -/
def State.bankWanted (s : State) (tile bank : Nat) : Bool :=
  let shapes := [stagingOf tile, computeOf tile].flatMap fun core =>
    (List.range 16).flatMap fun k =>
      let t := s.thread core k
      if (t.findWait isShape).isSome then (s.shapeRecord core t).toList.map fun p => (p, 256) else []
  let versions := ((s.posted.filterMap fun p =>
      match p.kind with
      | .version line _ => some line
      | _ => none)
    ++ s.cores.flatMap fun e => e.2.contexts.flatMap fun k => (e.2.thread e.1 k).waits.flatMap fun w =>
      match w.op with
      | .vld op => op.lines
      | .vst op => linesOf op.place op.data.length
      | .vfloor place _ _ => [place / 64]
      | _ => []).flatMap s.lineSpan
  ((s.placesInFlight tile ++ shapes ++ versions).any fun a =>
    tileOfPlace a.1 = tile && spaceOfPlace a.1 = 0 && (chunksOf a.1 a.2).any fun p => (s.bankAt p).1 = bank)
    || (s.bank tile bank).wanted
    || (s.tile tile).dredge.isSome || !(s.tile tile).strActive.isEmpty
    || ([stagingOf tile, computeOf tile].any fun core => (s.core core).anyHeld || !(s.core core).fillRun.isEmpty)

/-! Rows, refresh and sleep. -/

def State.vbank (s : State) (tile : Nat) : Nat := bitsOf (s.reg2 tile 0) 31 0
def State.bankLive (s : State) (tile bank : Nat) : Bool := bank < 32 && (s.vbank tile).testBit bank

/-- The refresh factor of a bank (R416). -/
def State.refreshFactor (s : State) (tile bank : Nat) : Nat := 2 ^ bitsOf (s.reg (sensorReg tile bank)) 17 16

/-- RFLOSS of a tile (R416): a sleeping bank adds nothing (R419). -/
def State.updateLoss (s : State) (tile : Nat) : State :=
  let live := (List.range 32).filter (s.bankLive tile)
  let sum := ((live.filter fun b => !(s.bank tile b).asleep).map fun b => s.refreshFactor tile b * 480).sum
  s.setReg3 tile 0x350108 (w64 (65536 * sum / (6240 * live.length)))

/-- A bank with its row closed; the idle time counts from there (R419). -/
def Bank.closed (b : Bank) (cycle : Nat) : Bank :=
  if b.openRow.isSome then { b with openRow := none, keepOpen := false, last := cycle } else b

/-- ROW_IDLE_CLOSE (R173). -/
def execRowIdleClose (tile bank : Nat) (s : State) : Host.Outcome State Fault Refusal :=
  let b := s.bank tile bank
  if b.openRow.isSome && !b.keepOpen && b.last + 1024 ≤ s.cycle then .next (s.setBank tile bank (b.closed s.cycle))
  else notDue s

/-- REFRESH_START: the schedule of R416, keyed to %cycle. -/
def execRefreshStart (tile bank : Nat) (s : State) : Host.Outcome State Fault Refusal :=
  let b := s.bank tile bank
  let period := 6240 / s.refreshFactor tile bank
  let phase := (s.now (deviceOfTile tile) + 6240 * 32 - 195 * bank) % period
  if !s.bankLive tile bank || b.asleep || b.refreshEnd.isSome || phase ≠ 0 then notDue s
  else .next (s.setBank tile bank { b.closed s.cycle with refreshEnd := some (s.cycle + 480) })

/-- REFRESH_END (R174). -/
def execRefreshEnd (tile bank : Nat) (s : State) : Host.Outcome State Fault Refusal :=
  let b := s.bank tile bank
  match b.refreshEnd with
  | some e => if e ≤ s.cycle then .next (s.setBank tile bank { b with refreshEnd := none }) else notDue s
  | none => notDue s

/-- A bank falls asleep or wakes, with TBANK.slp and RFLOSS. -/
def State.setAsleep (s : State) (tile bank : Nat) (on : Bool) : State :=
  let b := s.bank tile bank
  let s := s.setBank tile bank { b with asleep := on, wanted := false, last := s.cycle }
  (s.setReg (sensorReg tile bank) (setBit (s.reg (sensorReg tile bank)) 14 on)).updateLoss tile

/-- BANK_SLEEP (R419). -/
def execBankSleep (tile bank : Nat) (s : State) : Host.Outcome State Fault Refusal :=
  let b := s.bank tile bank
  let slp := s.reg3 tile 0x350110
  let from_ := Nat.max b.last (s.device (deviceOfTile tile)).resetAt
  if bitOf slp 63 && s.bankLive tile bank && !b.asleep && b.openRow.isNone && b.repairs.isEmpty && b.refreshEnd.isNone
      && from_ + bitsOf slp 31 0 ≤ s.cycle then .next (s.setAsleep tile bank true)
  else notDue s

/-- BANK_WAKE_COMPLETE: the bank is awake for the access that wakes it; messages in flight to it go back to the head of
the inbox, through the loop-back port (R174, R194). -/
def execBankWakeComplete (tile bank : Nat) (s : State) : Host.Outcome State Fault Refusal :=
  if !(s.bank tile bank).asleep || !s.bankWanted tile bank then notDue s
  else
    let mine := fun f : Started => (s.bankAt f.msg.place).1 = bank
    let s := s.modAgent tile fun t =>
      { t with inbox := (t.inflight.filter mine).map Started.msg ++ t.inbox,
               inflight := t.inflight.filter fun f => !mine f }
    .next (s.setAsleep tile bank false)

/-! Row repair (R174, R175, R406, R407). -/

/-- The vault offset of the first byte of a row. -/
def rowOffset (live bank row : Nat) : Nat := (row * popCount 32 live + popCount bank live) * 2048

/-- The place of a row under the map that holds for it. -/
def State.rowAt (s : State) (tile bank row : Nat) : Nat :=
  let base := spaceBase tile 0
  let p := base + rowOffset (s.vbank tile) bank row
  match (s.tile tile).oldLive with
  | some old => if s.bankAt p = (bank, row) then p else base + rowOffset old.toNat bank row
  | none => p

/-- ROW_REPAIR_START: not while the agent works on the row (R406) (log 93, DEDUCED). -/
def execRowRepairStart (tile bank row : Nat) (s : State) : Host.Outcome State Fault Refusal :=
  let b := s.bank tile bank
  let busy := (s.tile tile).inflight.any fun f => s.bankAt f.msg.place = (bank, row)
  if !s.bankLive tile bank || b.repairs.contains row || 32768 ≤ row || busy then notDue s
  else .next (s.setBank tile bank { b with repairs := b.repairs ++ [row] })

/-- A posted write to memory is performed at its home (R197). -/
def State.landMemory (s : State) (p : Posted) : State :=
  ((p.bytes.map fun w => w.addr / 2048 * 2048).eraseDups).foldl (fun s a => s.touchRow a p.hint) (s.perform p.bytes none)

/-- Whether a store stands behind another of its thread to the same home (R199). -/
def behindIn (l : List Posted) (p : Posted) : Bool :=
  l.any fun q => q.isStore && q.seq < p.seq && q.home = p.home && q.isOf p.core p.slot p.uid

/-- The rows under repair that a posted store meets, each as the place of its first byte. -/
def State.repairPlaces (s : State) (p : Posted) : List Nat :=
  ((p.bytes.map fun w => rowPlace w.addr).eraseDups).filter s.rowRepairing

/-- Whether a posted store arrives at rows under repair now: one of them does not hold it yet, and no earlier store of its
thread is on its way to the vault except those that the rows hold (R199, R407). -/
def State.arrivesHeld (s : State) (p : Posted) : Bool :=
  let l := s.repairPlaces p
  let h := l.flatMap s.heldFor
  p.kind = .plain && l.any (fun a => !(s.heldFor a).contains (.store p.seq))
    && !behindIn (s.posted.filter fun q => !h.contains (.store q.seq)) p

/-- Every row under repair that a store meets holds it (R407). -/
def State.holdStore (s : State) (p : Posted) : State :=
  (s.repairPlaces p).foldl (fun s a => if (s.heldFor a).contains (.store p.seq) then s else s.holdAt a (.store p.seq)) s

/-- Whether the vault holds back a byte of a posted store now; a throttle holds a store of the matrix engine until it ends
(R332). -/
def State.byteStops (s : State) (p : Posted) (w : PWrite) : Bool :=
  s.bankStops w.addr || (p.slot = 48 && s.throttled w.addr)

/-- Whether a held store can be performed: its banks can, none of its thread's earlier stores stands before its home, and
it is the first that is held for any of its rows. -/
def State.canLandHeld (s : State) (p : Posted) : Bool :=
  !behindIn s.posted p && p.bytes.all fun w => !s.byteStops p w
    && (s.heldFor w.addr).head?.all fun h => h = .store p.seq

/-- What is held for a row is performed in the order of arrival, as far as the vault performs accesses (R407). -/
def State.landHeld (s : State) (place : Nat) : List Held → State
  | [] => s
  | h :: r =>
    if s.bankStops place then s
    else match h with
      | .store q =>
        match s.posted.find? fun p => p.seq = q with
        | some p =>
          if s.canLandHeld p then
            ({ s with posted := s.posted.filter fun x => x.seq ≠ q }.landMemory p).landHeld place r
          else s
        | none => s.landHeld place r
      | .atomic m =>
        if s.homesClear m.src m.slot m.uid m.place m.len then (s.operate (tileOfPlace place) m).landHeld place r else s

/-- ROW_REPAIR_COMPLETE: the row stands on its spare, with what was held for it (R407). What the bank cannot perform yet
stays held in front of every later access (log 79, DEDUCED). -/
def execRowRepairComplete (tile bank row : Nat) (s : State) : Host.Outcome State Fault Refusal :=
  let b := s.bank tile bank
  if !b.repairs.contains row then notDue s
  else
    let s := s.setBank tile bank { b with repairs := b.repairs.filter (· ≠ row) }
    let p := s.rowAt tile bank row
    let s := s.silt (deviceOfTile tile) 0x06 bank bank (w64 p)
    .next (s.landHeld p (s.heldFor p))

/-! Temperature (R416 to R418). Readings are in units of 0.25 °C. -/

/-- The last reading of a sensor. -/
def State.reading (s : State) (tile sensor : Nat) : Int :=
  signedOf 12 (bitsOf (s.reg (sensorReg tile sensor)) 11 0)

def State.sensorFailed (s : State) (tile sensor : Nat) : Bool := bitOf (s.reg (sensorReg tile sensor)) 63

/-- The neighbours of a bank: the rest of its layer, its position in the adjacent layers, the column sensor (32). -/
def neighbours (bank : Nat) : List Nat :=
  let layer := bank / 4
  ((List.range 4).map (layer * 4 + ·)).filter (· ≠ bank)
    ++ (if 0 < layer then [bank - 4] else []) ++ (if layer < 7 then [bank + 4] else []) ++ [32]

def insertInt (x : Int) : List Int → List Int
  | [] => [x]
  | y :: r => if x ≤ y then x :: y :: r else y :: insertInt x r

/-- Twice the median of a list of readings. -/
def twiceMedian (l : List Int) : Option Int :=
  let r := l.foldl (fun r x => insertInt x r) []
  let n := r.length
  if n = 0 then none else some (r.getD ((n - 1) / 2) 0 + r.getD (n / 2) 0)

/-- Twice the median of a bank's neighbours: failed sensors, and those that have not reported, are left out
(log 75, DEDUCED). -/
def State.neighbourMedian (s : State) (tile bank : Nat) : Option Int :=
  twiceMedian (((neighbours bank).filter fun k => (s.bank tile k).reported && !s.sensorFailed tile k).map
    (s.reading tile))

/-- The refresh step after a reading: it falls only 3 °C below the threshold of the step (R416) (log 76, DEDUCED). -/
def nextStep (old : Nat) (t : Int) : Nat :=
  if 380 ≤ t ∨ (old = 2 ∧ 368 < t) then 2 else if 340 ≤ t ∨ (1 ≤ old ∧ 328 < t) then 1 else 0

/-- Throttle and hold after a temperature, in units of 0.125 °C (R417). -/
def nextHold (old : Bool) (t : Int) : Bool := 880 ≤ t || (old && 840 ≤ t)
def nextThrottle (old hold : Bool) (t : Int) : Bool := hold || 840 ≤ t || (old && 800 ≤ t)

/-- Whether a sensor's reading stands still: unchanged for 10 s, while the row activations of its tile in some 1 s
window of that time differ by at least 10 % from those in another (R418; log 102, DESIGN CHOICE). -/
def State.sensorStill (s : State) (tile sensor : Nat) (reading : Int) : Bool :=
  let b := s.bank tile sensor
  let reset := (s.device (deviceOfTile tile)).resetAt
  let first := (b.readAt - reset + actWindow - 1) / actWindow
  let last := (s.cycle - reset) / actWindow
  let acts := (List.range (Nat.min 10 (last - first))).map fun i => SMap.get 0 (s.tile tile).acts (last - 1 - i)
  b.reported && s.reading tile sensor = reading && decide (b.readAt + 10 * actWindow ≤ s.cycle)
    && acts.any fun x => acts.any fun y => decide (x < y) && decide (10 * x ≤ 9 * y)

/-- Whether a report shows a failed sensor (R418). -/
def State.judgeFailed (s : State) (tile sensor : Nat) (reading : Int) : Bool :=
  s.sensorFailed tile sensor || reading < -160 || 600 < reading || s.sensorStill tile sensor reading
    || (match if sensor < 32 then s.neighbourMedian tile sensor else none with
        | some m => 120 < (2 * reading - m).natAbs
        | none => false)

/-- A sensor turns out failed: seep event and silt entry (log 78, DEDUCED). -/
def State.sensorFails (s : State) (tile sensor : Nat) (reading : Int) : State :=
  let s := if sensor < 32 then s.seepFire (bankSeep tile sensor) else s
  s.silt (deviceOfTile tile) 0x08 sensor (stagingOf tile % 1024) (w64i reading)

/-- SENSOR_REPORT: sensor 0 to 31 of a bank, 32 of the column, reports whole degrees and quarters of one (R416 to R418)
(log 77, DEDUCED). -/
def execSensorReport (tile sensor : Nat) (degrees : Int) (quarters : BitVec 2) (s : State) :
    Host.Outcome State Fault Refusal :=
  if 33 ≤ sensor then notDue s
  else
    let reading := 4 * degrees + quarters.toNat
    let r := sensorReg tile sensor
    let was := s.sensorFailed tile sensor
    let failed := s.judgeFailed tile sensor reading
    let median := s.neighbourMedian tile sensor
    let b := s.bank tile sensor
    let moved := !b.reported || s.reading tile sensor ≠ reading
    let s := s.setBank tile sensor { b with reported := true, readAt := if moved then s.cycle else b.readAt }
    let w := setBit (setBits (s.reg r) 11 0 (wrapTo 12 reading)) 63 failed
    let s := if failed && !was then s.sensorFails tile sensor reading else s
    if 32 ≤ sensor then .next (s.setReg r w)
    else
      let t := if failed then (median.map (· + 80)) else some (2 * reading)
      let hold := match t with
        | some t => nextHold (bitOf w 13) t
        | none => bitOf w 13
      let thr := match t with
        | some t => nextThrottle (bitOf w 15) hold t
        | none => bitOf w 15
      let step := if failed then 2 else nextStep (bitsOf w 17 16) reading
      let w := setBits (setBit (setBit w 13 hold) 15 thr) 17 16 step
      .next ((s.setReg r w).updateLoss tile)

/-! Bank retirement and the dredger (R172, R389, R390). -/

/-- BANK_RETIREMENT: step 2 of R172, once every granule above the new capacity is absent. -/
def execBankRetirement (tile bank : Nat) (s : State) : Host.Outcome State Fault Refusal :=
  let live := s.vbank tile
  let n := popCount 32 live
  let cap := (n - 1) * 2 ^ 26
  let empty := (List.range 32).all fun i => s.granule tile (cap / 2 ^ 21 + i) = 0
  if !s.bankLive tile bank || n ≤ 1 || !empty || bitOf (s.reg2 tile 0x10) 63 then notDue s
  else
    let dev := deviceOfTile tile
    let now := w64 (live - 2 ^ bank)
    let s := ((s.setReg2 tile 0 now).setReg2 tile 0x08 (w64 cap)).setReg2 tile 0x10 (w64 (2 ^ 63))
    let s := s.modTile tile fun t => { t with oldLive := some (BitVec.ofNat 32 live) }
    let msg : Notice := ⟨0x16, 0, 0, [w64 bank, now, w64 cap]⟩
    let s := (s.notify (stagingOf tile) msg).notify (computeOf tile) msg
    let s := s.silt dev 0x05 bank bank now
    let s := if n - 1 < 28 then s.silt dev 0x0C 1 (stagingOf tile % 1024) (w64 (spaceBase tile 0)) else s
    .next (s.updateLoss tile)

/-- Registers of a tile's dredger (Table 15.14): DRGCMD and DRGSTAT. -/
def drgStat (tile : Nat) : Nat := spaceBase tile 3 + 0x310008

/-- The granule map of a tile with one granule changed. -/
def State.setGranule (s : State) (tile g st : Nat) : State :=
  let r := spaceBase tile 3 + 8 * (g / 32)
  let i := g % 32 * 2
  s.setReg r (setBits (s.reg r) (i + 1) i st)

/-- DRGSTAT.err of a command, 0 when it is accepted. -/
def State.dredgeError (s : State) (tile op src dst : Nat) : Nat :=
  let cap := bitsOf (s.reg2 tile 0x08) 31 0
  let busy := (s.tile tile).dredge.isSome
  if op = 1 then
    if s.granule tile src ≠ 1 then 1
    else if s.granule tile dst ≠ 0 then 2
    else if cap ≤ src * 2 ^ 21 ∨ cap ≤ dst * 2 ^ 21 then 3
    else if busy then 4
    else 0
  else if busy then 4
  else if bitOf (s.reg2 tile 0x10) 63 then 0 else 5

/-- busy and step of DRGSTAT; err, which reports the last command written, stays (R389). -/
def State.setDrgStat (s : State) (tile : Nat) (busy : Bool) (step : Nat) : State :=
  s.setReg (drgStat tile) (setBits (setBit (s.reg (drgStat tile)) 63 busy) 62 60 step)

/-- err of DRGSTAT. -/
def State.setDrgErr (s : State) (tile err : Nat) : State :=
  s.setReg (drgStat tile) (setBits (s.reg (drgStat tile)) 59 56 err)

/-- A write of DRGCMD (R389): a refusal changes err alone. -/
def State.writeDrgcmd (s : State) (tile : Nat) (v : W64) : State :=
  let op := bitsOf v 63 62
  let src := bitsOf v 9 0
  let dst := bitsOf v 19 10
  if op = 0 ∨ op = 3 then s
  else
    let err := s.dredgeError tile op src dst
    let s := s.setDrgErr tile err
    if err ≠ 0 then s
    else if op = 1 then
      let s := (s.setGranule tile src 0).setDrgStat tile true 2
      s.modTile tile fun t => { t with dredge := some ⟨true, src, dst, 2, 0⟩ }
    else
      (s.setDrgStat tile true 0).modTile tile fun t => { t with dredge := some ⟨false, 0, 0, 3, 0⟩ }

/-- DREDGER_MOVE: a move command (steps 1 and 2 of R185). -/
def execDredgerMove (tile src dst : Nat) (s : State) : Host.Outcome State Fault Refusal :=
  if src < 1024 ∧ dst < 1024 then .next (s.writeDrgcmd tile (w64 (2 ^ 62 + dst * 2 ^ 10 + src))) else notDue s

/-- DREDGER_REINTERLEAVE: a reinterleave command. -/
def execDredgerReinterleave (tile : Nat) (s : State) : Host.Outcome State Fault Refusal :=
  .next (s.writeDrgcmd tile (w64 (2 ^ 63)))

/-- The end of a command: kind 0x15 with DRGSTAT (log 68, DEDUCED). -/
def State.endDredge (s : State) (tile : Nat) : State :=
  let s := (s.setDrgStat tile false 0).modTile tile fun t => { t with dredge := none }
  let msg : Notice := ⟨0x15, 0, 0, [s.reg (drgStat tile)]⟩
  (s.notify (stagingOf tile) msg).notify (computeOf tile) msg

/-- REINTERLEAVE_GRANULE_DONE: wmark passes the granule that was being rewritten. -/
def execReinterleaveGranuleDone (tile : Nat) (s : State) : Host.Outcome State Fault Refusal :=
  let w := s.reg2 tile 0x10
  match (s.tile tile).dredge with
  | some ⟨false, _, _, _, _⟩ =>
    if bitsOf (s.reg2 tile 0x08) 31 0 ≤ bitsOf w 9 0 * 2 ^ 21 then notDue s
    else .next (s.setReg2 tile 0x10 (setBits w 9 0 (bitsOf w 9 0 + 1)))
  | _ => notDue s

/-- REINTERLEAVE_COMPLETE: step 4 of R172. -/
def execReinterleaveComplete (tile : Nat) (s : State) : Host.Outcome State Fault Refusal :=
  let w := s.reg2 tile 0x10
  match (s.tile tile).dredge with
  | some ⟨false, _, _, _, _⟩ =>
    if bitsOf w 9 0 * 2 ^ 21 < bitsOf (s.reg2 tile 0x08) 31 0 then notDue s
    else
      let s := (s.setReg2 tile 0x10 0).modTile tile fun t => { t with oldLive := none }
      .next (s.endDredge tile)
  | _ => notDue s

/-- Memory in which `n` bytes from `dst` are those from `src`. -/
def copyCells (m : List Host.Cell) (src dst n : Nat) : List Host.Cell :=
  let moved := (m.filter fun c => decide (src ≤ c.1) && decide (c.1 < src + n)).map fun c => (c.1 - src + dst, c.2)
  let kept := m.filter fun c => !(decide (dst ≤ c.1) && decide (c.1 < dst + n))
  moved.foldl (fun m c => memWrite m c.1 c.2) kept

/-- Marks of `n` bytes copied likewise, by words. -/
def copyMarks (l : List Nat) (src dst n : Nat) : List Nat :=
  let moved := (l.filter fun w => decide (src / 4 ≤ w) && decide (w < (src + n) / 4)).map fun w => w - src / 4 + dst / 4
  insertAll moved (l.filter fun w => !(decide (dst / 4 ≤ w) && decide (w < (dst + n) / 4)))

/-- A range copied to another, row by row: the codewords with an error are met, a correctable one corrected, uncorrectable
data copied as poison (R375, Table 15.8); the codewords of the destination become good. -/
def State.copyRange (s : State) (src dst n : Nat) : State :=
  let bad := (insertAll s.soft s.ecc).filter fun c => decide (src ≤ c) && decide (c < src + n)
  let s := bad.foldl State.meetCodeword s
  let keep := fun c => !(decide (dst ≤ c) && decide (c < dst + n))
  let s := { s with mem := copyCells s.mem src dst n, marks := copyMarks s.marks src dst n,
                    ecc := s.ecc.filter keep, soft := s.soft.filter keep }
  (List.range (n / 2048)).foldl (fun s i => (s.touchRow (src + 2048 * i) .dflt).touchRow (dst + 2048 * i) .dflt) s

/-- MOVE_COPIED: with the accesses to the source complete, the granule has been copied, and both head slots are asked to
rewrite their entries (steps 2 to 4 of R185). A refresh in the course of the copy only delays it (Table 15.8; log 124,
DEDUCED). -/
def execMoveCopied (tile : Nat) (s : State) : Host.Outcome State Fault Refusal :=
  match (s.tile tile).dredge with
  | some ⟨true, src, dst, 2, _⟩ =>
    let base := spaceBase tile 0
    let stopped := s.spanHeld (base + src * 2 ^ 21) (2 ^ 21) || s.spanHeld (base + dst * 2 ^ 21) (2 ^ 21)
    let repairing := (List.range 32).any fun b => !(s.bank tile b).repairs.isEmpty
    if s.granuleBusy tile src || repairing || stopped then notDue s
    else
      let s := s.copyRange (base + src * 2 ^ 21) (base + dst * 2 ^ 21) (2 ^ 21)
      let s := (s.modTile tile fun t => { t with dredge := some ⟨true, src, dst, 4, 0⟩ }).setDrgStat tile true 4
      let msg : Notice := ⟨0x14, 0, 0, [w64 src, w64 dst]⟩
      .next ((s.notify (stagingOf tile) msg).notify (computeOf tile) msg)
  | _ => notDue s

/-- A write of DRGACK: with both bits the destination is resident and the command ends (step 5 of R185)
(log 80, DEDUCED). -/
def State.writeDrgack (s : State) (tile : Nat) (v : W64) : State :=
  match (s.tile tile).dredge with
  | some ⟨true, src, dst, 4, acks⟩ =>
    let acks := acks ||| v.setWidth 2
    if acks = 3 then (s.setGranule tile dst 1).endDredge tile
    else s.modTile tile fun t => { t with dredge := some ⟨true, src, dst, 4, acks⟩ }
  | _ => s

/-- DRGACK_WRITE (R390). -/
def execDrgackWrite (tile : Nat) (v : W64) (s : State) : Host.Outcome State Fault Refusal :=
  .next (s.writeDrgack tile v)

/-- Whether a store of a GMAP word is discarded (R180): exported or pinned to absent, or a heap granule away from pinned
while the backwater is not empty. -/
def State.gmapRefused (s : State) (tile word : Nat) (v : W64) : Bool :=
  let t := s.tile tile
  (List.range 32).any fun i =>
    let g := word * 32 + i
    let a := s.granule tile g
    let b := bitsOf v (2 * i + 1) (2 * i)
    let heap := s.heapGran tile ≤ g && decide (g < s.heapGran tile + s.heapSize tile)
    (2 ≤ a && b = 0) || (heap && !t.backwater.isEmpty && a = 3 && b ≠ 3)

/-- A store of a GMAP word: granules at or above the capacity stay absent (R180). -/
def State.writeGmap (s : State) (tile word : Nat) (v : W64) : State :=
  if s.gmapRefused tile word v then s
  else
    let s := s.setReg3 tile (8 * word) v
    s.setReg3 tile (8 * word) (s.gmapWord tile word)

/-- GMAP_WRITE (R180). -/
def execGmapWrite (tile word : Nat) (v : W64) (s : State) : Host.Outcome State Fault Refusal :=
  if word < 32 then .next (s.writeGmap tile word v) else notDue s

end Sys2Proof.Machine
end

