-- ==== Sys2Proof/Machine/Reaches.lean ====
section
/-! DEFINITION. Reaches.lean: major opcode 0x79: the reach instructions, their checks (R176, R177, Table 9.5), and
accesses in flight through an entry (R181 to R184, R253 to R255). -/

namespace Sys2Proof.Machine

/-! Accesses in flight (R183). -/

/-- The entries through which the pending load translated. -/
def LoadOp.entries (l : LoadOp) (entry : Nat) : List Nat :=
  match l with
  | .gather _ _ elems _ => elems.map fun e => e.2.2
  | _ => [entry]

/-- The entries of a queued engine form. -/
def EngineForm.entries : EngineForm → List Nat
  | .ast _ _ _ entry .. => [entry]
  | .ald _ _ _ entry .. => [entry]
  | _ => []

/-- The entries through which a release point's effect has translated. -/
def ReleaseOp.entries : ReleaseOp → List Nat
  | .amo op => [op.entry]
  | .rowCall op => [op.entry]
  | .launch _ _ _ entry _ => [entry]
  | _ => []

/-- The entries of the accesses that a waiting thread has in flight. A waitaddr whose entry is armed has been
performed. -/
def Wait.entries (armed : Bool) : Wait → List Nat
  | .fetch _ entry _ => [entry]
  | .load op entry _ => op.entries entry
  | .tileLoad _ _ _ entry .. => [entry]
  | .gather _ entries .. => entries
  | .release op => op.entries
  | .sealing op => op.entries
  | .amo op => [op.entry]
  | .vld op => [op.entry]
  | .vst op => [op.entry]
  | .vfloor _ _ entry => [entry]
  | .waitaddr _ _ _ _ _ entry => if armed then [] else [entry]
  | .rowCall op => [op.entry]
  | .engineFull op => op.form.entries
  | .bxf op _ => op.dstEntry :: op.srcEntries
  | _ => []

/-- Whether an access through an entry of a core has not completed. -/
def State.entryBusy (s : State) (core i : Nat) : Bool :=
  (s.posted.any fun p => p.core = core && p.entry = i)
    || ((s.core core).contexts.any fun k => (s.thread core k).waits.any fun w =>
      (w.op.entries ((s.tile (tileOfCore core)).monitors.any fun m => m.core = core && m.slot = k)).contains i)
    || ((s.tile (tileOfCore core)).engineQ.any fun op => op.core = core && op.form.entries.contains i)

/-! Checks. -/

/-- A nonzero reserved field (Table 7.6). -/
def Reach.reserved (e : Reach) : Bool :=
  bitsOf e.w0 5 1 ≠ 0 || bitsOf e.w1 5 0 ≠ 0 || bitOf e.w2 63 || bitsOf e.w2 5 0 ≠ 0 || bitsOf e.w3 47 16 ≠ 0
    || bitsOf e.w3 12 6 ≠ 0

/-- R176 and the spaces of Table 7.7. -/
def Reach.legal (e : Reach) (core : Nat) : Bool :=
  let len := e.limit - e.base
  let space := spaceOfPlace e.place
  let own := tileOfPlace e.place = tileOfCore core
  e.base < e.limit && len ≤ 2 ^ 40 && (e.place + len - 1) / 2 ^ 40 = e.place / 2 ^ 40
    && (own || (e.c && e.kind = 5 && space = 0)) && (!e.c || (e.kind = 5 && space = 0)) && (e.kind ≠ 5 || e.c)
    && e.kind ≠ 7 && (e.kind ≠ 4 || space = 1) && (e.kind ≠ 6 || (own && (space = 2 || space = 3)))

/-- Two entries that could match one access. -/
def Reach.clashes (e f : Reach) : Bool :=
  e.valid && f.valid && decide (Nat.max e.base f.base < Nat.min e.limit f.limit)
    && (e.tagsel = 0 || f.tagsel = 0 || e.tagsel = f.tagsel)

/-- The status of an install at an index (Table 9.5). -/
def State.installStatus (s : State) (core i : Nat) (e : Reach) : Nat :=
  if 31 < i then 1
  else if (s.reach core i).valid then 2
  else if e.reserved then 4
  else if !(e.legal core && e.valid) then 5
  else if (List.range 32).any fun j => j ≠ i && e.clashes (s.reach core j) then 6
  else 0

/-! The forms. -/

def isRchWait : Wait → Bool
  | .rchinv .. | .rchins .. => true
  | _ => false

/-- rchins (R255): it waits while accesses through an earlier entry at the index are in flight. -/
def execRchins (o : SVS) (s : State) : Host.Outcome State Fault Refusal :=
  complete o.g s fun s => headOnly 0x79 0 s (do
    let v ← s.useV o.a.toNat (List.range 8)
    let i ← s.useS o.b.toNat
    let core := s.cur.core
    let l := lane64 v.bits
    let e : Reach := ⟨l 0, l 1, l 2, l 3⟩
    let st := s.installStatus core i.toNat e
    if st ≠ 0 then return .done (s.wClean o.d.toNat (w64 st))
    else if s.entryBusy core i.toNat then
      return .go (s.waitOn .waitingMemory (.rchins o.d.toNat i.toNat e.w0 e.w1 e.w2 e.w3))
    else return .done ((s.setReach core i.toNat e).wClean o.d.toNat 0))

/-- rchinv (R254): the entry matches no translation from the next cycle, its valid 0 with it, and the form completes
when the accesses through it have. -/
def execRchinv (o : SS) (s : State) : Host.Outcome State Fault Refusal :=
  complete o.g s fun s => headOnly 0x79 1 s (
    let i := (s.rS o.a.toNat).bits.toNat
    let core := s.cur.core
    let e := s.reach core i
    if 31 < i then .ok (.done (s.wClean o.d.toNat 1))
    else if !e.valid then .ok (.done (s.wClean o.d.toNat 3))
    else
      let s := s.setReach core i { e with w0 := setBit e.w0 0 false }
      .ok (.go (s.waitOn .waitingMemory (.rchinv o.d.toNat i))))

/-- The upper part of a split (R181). -/
def Reach.upper (e : Reach) (x : W64) : Reach :=
  ⟨setBit x 0 true, e.w1, w64 (e.place + (x.toNat - e.base)), e.w3⟩

/-- rchspl (R181, R255). -/
def execRchspl (o : SSS) (s : State) : Host.Outcome State Fault Refusal :=
  complete o.g s fun s => headOnly 0x79 2 s (
    let i := (s.rS o.a.toNat).bits.toNat
    let x := (s.rS o.b.toNat).bits
    let core := s.cur.core
    let e := s.reach core i
    let free := (List.range 32).find? fun j => !(s.reach core j).valid && !s.entryBusy core j
    if 31 < i then .ok (.done (s.wClean o.d.toNat 1))
    else if !e.valid then .ok (.done (s.wClean o.d.toNat 3))
    else if x.toNat % 64 ≠ 0 ∨ x.toNat ≤ e.base ∨ e.limit ≤ x.toNat then .ok (.done (s.wClean o.d.toNat 7))
    else match free with
      | none => .ok (.done (s.wClean o.d.toNat 8))
      | some j =>
        let s := (s.setReach core i { e with w1 := x }).setReach core j (e.upper x)
        .ok (.done (s.wClean o.d.toNat (w64 (j * 2 ^ 8)))))

/-- The conditions of R182. -/
def Reach.merges (e f : Reach) : Bool :=
  e.limit = f.base && f.place = e.place + (f.base - e.base)
    && (f.place + (f.limit - f.base) - 1) / 2 ^ 40 = e.place / 2 ^ 40
    && e.tagsel = f.tagsel && e.kind = f.kind && bitsOf e.w3 5 0 = bitsOf f.w3 5 0

/-- rchmrg (R182, R255). -/
def execRchmrg (o : SSS) (s : State) : Host.Outcome State Fault Refusal :=
  complete o.g s fun s => headOnly 0x79 3 s (
    let i := (s.rS o.a.toNat).bits.toNat
    let j := (s.rS o.b.toNat).bits.toNat
    let core := s.cur.core
    let e := s.reach core i
    let f := s.reach core j
    if 31 < i ∨ 31 < j then .ok (.done (s.wClean o.d.toNat 1))
    else if !e.valid || !f.valid then .ok (.done (s.wClean o.d.toNat 3))
    else if i = j || !e.merges f then .ok (.done (s.wClean o.d.toNat 9))
    else
      let s := (s.setReach core i { e with w1 := f.w1 }).setReach core j { f with w0 := setBit f.w0 0 false }
      .ok (.done (s.wClean o.d.toNat 0)))

/-- rchrd (R255). -/
def execRchrd (o : VS) (s : State) : Host.Outcome State Fault Refusal :=
  complete o.g s fun s => headOnly 0x79 4 s (
    let i := (s.rS o.a.toNat).bits.toNat
    let e := s.reach s.cur.core i
    let v := if 31 < i then 0 else packLanes 64 [e.w0.toNat, e.w1.toNat, e.w2.toNat, e.w3.toNat]
    .ok (.done (s.wV o.d.toNat ⟨v, 0⟩)))

/-- RCHINV_COMPLETE: every access through the entry has completed; an rchinv is done, and an rchins writes its entry
(R183, R255). -/
def execRchinvComplete (core : Nat) (s : State) : Host.Outcome State Fault Refusal :=
  match (s.thread core 0).findWait isRchWait with
  | some ⟨_, _, .rchinv d i⟩ =>
    if s.entryBusy core i then notDue s else .next (s.endWait core 0 isRchWait fun t => t.setClean d 0)
  | some ⟨_, _, .rchins d i w0 w1 w2 w3⟩ =>
    if s.entryBusy core i then notDue s
    else .next ((s.setReach core i ⟨w0, w1, w2, w3⟩).endWait core 0 isRchWait fun t => t.setClean d 0)
  | _ => notDue s

end Sys2Proof.Machine
end

