-- ==== Sys2Proof/Machine/Launch.lean ====
section
/-! DEFINITION. Launch.lean: launch queues and stack dispatchers: records and their checks, placement, wakes, the task
environment block, triggers, end notices, successor signals and completion (R107 to R122, R161, R162, R186, R187,
R412). -/

namespace Sys2Proof.Machine

/-! Launch queues (Table 4.11). -/

/-- Word `w` of queue `q` of a device. -/
def lqReg (dev q w : Nat) : Nat :=
  spaceBase (dev * 512 + q / 16 * 128) 3 + 0x100000 + 32 * (q % 16) + 8 * w

def State.lqOn (s : State) (dev q : Nat) : Bool := bitOf (s.reg (lqReg dev q 1)) 0
def State.lqSize (s : State) (dev q : Nat) : Nat := 2 ^ bitsOf (s.reg (lqReg dev q 1)) 11 8
def State.lqTail (s : State) (dev q : Nat) : Nat := bitsOf (s.reg (lqReg dev q 2)) 31 0
def State.lqHead (s : State) (dev q : Nat) : Nat := bitsOf (s.reg (lqReg dev q 3)) 31 0

/-- The place of the record with sequence number `seq`. -/
def State.lqPlace (s : State) (dev q seq : Nat) : Nat :=
  (s.reg (lqReg dev q 0)).toNat + 256 * (seq % s.lqSize dev q)

/-- `a - b` modulo 2^32. -/
def gap32 (a b : Nat) : Nat := (a % 2 ^ 32 + 2 ^ 32 - b % 2 ^ 32) % 2 ^ 32

/-- The head record of a queue has come into its place, or has become eligible, in this cycle (R117). -/
def State.lqTouched (s : State) (dev q : Nat) : State :=
  s.modDevice dev fun d => { d with since := SMap.set d.since q (s.cycle + 1) }

/-- A bit of LQCTL is set. -/
def State.lqFlag (s : State) (dev q bit : Nat) : State :=
  s.setReg (lqReg dev q 1) (setBit (s.reg (lqReg dev q 1)) bit true)

/-- The key of the signals that a record has received. -/
def signalKey (dev q seq : Nat) : Nat := (dev * 64 + q) * 2 ^ 32 + seq % 2 ^ 32

/-- A write of LQBASE. -/
def State.writeLqbase (s : State) (dev q : Nat) (v : W64) : State :=
  if s.lqOn dev q then s else s.setReg (lqReg dev q 0) v

/-- A write of LQCTL: its reserved fields take no write (log 69, DEDUCED). A queue that is switched on starts from
empty, and signals that it counted or held are dropped with its records (log 100, DESIGN CHOICE). -/
def State.writeLqctl (s : State) (dev q : Nat) (v : W64) : State :=
  let r := lqReg dev q 1
  let w := s.reg r
  let fresh := bitOf v 0 && !bitOf w 0
  let w := if 4 ≤ bitsOf v 11 8 then setBits w 11 8 (bitsOf v 11 8) else w
  let w := w &&& ~~~(v &&& 0xE)
  let s := s.setReg r (setBit w 0 (bitOf v 0))
  if fresh then
    let s := (s.setReg (lqReg dev q 2) 0).setReg (lqReg dev q 3) 0
    State.lqTouched { s with signals := s.signals.filter fun e => e.1 / 2 ^ 32 ≠ dev * 64 + q } dev q
  else s

/-- A write of LQTAIL: records are enqueued, or the write is ignored and ovf is set; the reserved field takes no
write. -/
def State.writeLqtail (s : State) (dev q : Nat) (v : W64) : State :=
  let tail := s.lqTail dev q
  let used := gap32 tail (s.lqHead dev q)
  let v := bitsOf v 31 0
  let n := gap32 v tail
  if 1 ≤ n ∧ n ≤ s.lqSize dev q - used then
    let s := s.setReg (lqReg dev q 2) (w64 v)
    if used = 0 then s.lqTouched dev q else s
  else s.lqFlag dev q 1

/-- LQ_ENABLE: a write of LQCTL with en 1 over 0. -/
def execLqEnable (device queue : Nat) (v : W64) (s : State) : Host.Outcome State Fault Refusal :=
  if queue < 64 ∧ bitOf v 0 ∧ !s.lqOn device queue then .next (s.writeLqctl device queue v) else notDue s

/-- LQTAIL_WRITE. -/
def execLqtailWrite (device queue : Nat) (v : W64) (s : State) : Host.Outcome State Fault Refusal :=
  if queue < 64 then .next (s.writeLqtail device queue v) else notDue s

/-! launch (R161). -/

/-- The result of a launch that fails. -/
def launchFailure (code : Nat) : W64 := w64 (2 ^ 63 + code)

/-- The queue that a target word names (Table 4.9). -/
def targetDevice (w : W64) : Nat := bitsOf w 58 48
def targetQueue (w : W64) : Nat := bitsOf w 45 40

/-- The first codeword of `n` bytes that holds poison, as a place. -/
def poisonPlace (place : Nat) (l : List PByte) : Option Nat :=
  (l.findIdx? Prod.snd).map fun i => (codeword (place + i)).1

/-- The copy of a record to the ring and the advance of tail; the result is for s[d]. -/
def State.enqueueRecord (s : State) (own : Nat) (target : W64) (bytes : List PByte) : State × W64 :=
  let dev := targetDevice target
  let q := targetQueue target
  if !s.inDomain own dev then (s, launchFailure 3)
  else if !s.lqOn dev q then (s, launchFailure 1)
  else if s.lqSize dev q ≤ gap32 (s.lqTail dev q) (s.lqHead dev q) then (s, launchFailure 2)
  else
    let tail := s.lqTail dev q
    let p := s.lqPlace dev q tail
    let s := (s.perform (markedWrites p bytes) none).touchSpan p 256 .dflt
    (s.writeLqtail dev q (w64 ((tail + 1) % 2 ^ 32)), w64 tail)

/-- The place of the ring entry that a record would take now, whose bank its copy waits for (R172, R174). -/
def State.enqueuePlace (s : State) (own : Nat) (target : W64) : Option Nat :=
  let dev := targetDevice target
  let q := targetQueue target
  if s.inDomain own dev && s.lqOn dev q && decide (gap32 (s.lqTail dev q) (s.lqHead dev q) < s.lqSize dev q) then
    some (s.lqPlace dev q (s.lqTail dev q))
  else none

/-- The ring entry that a record would take while its bank is busy. -/
def State.enqueueBusy (s : State) (own : Nat) (target : W64) : List (Nat × Nat) :=
  (s.enqueuePlace own target).toList.filterMap fun p => if s.spanBusy p 256 then some (p, 256) else none

/-! Records (Tables 4.5 and 4.6). -/

/-- A weave level word. -/
structure WeaveLevel where
  idx : Nat
  extent : Nat
  dom : Nat
  /-- the domain of the next level, or the one larger than its own -/
  next : Nat
  scope : Nat
  deriving DecidableEq, Repr

structure LaunchRecord where
  entry : W64
  args : W64
  exit : W64
  done : Nat
  shape : Nat
  env : Nat
  task : W64
  anchor : Nat
  stksize : Nat
  depcount : Nat
  trigcount : Nat
  ctl : Nat
  weave : List W64
  succ : List W64
  rest : Nat
  deriving DecidableEq, Repr

/-- The record at a place. -/
def State.launchRecord (s : State) (p : Nat) : LaunchRecord :=
  let w := fun off => s.word (p + off)
  { entry := w 0x00, args := w 0x08, exit := w 0x10, done := (w 0x18).toNat, shape := (w 0x20).toNat,
    env := (w 0x28).toNat, task := w 0x30, anchor := (w 0x38).toNat, stksize := s.peekNat (p + 0x40) 4,
    depcount := s.peekNat (p + 0x44) 4, trigcount := s.peekNat (p + 0x48) 4, ctl := s.peekNat (p + 0x4C) 4,
    weave := (List.range 8).map fun i => w (0x50 + 8 * i), succ := (List.range 4).map fun i => w (0x90 + 8 * i),
    rest := s.peekNat (p + 0xB0) 80 }

def LaunchRecord.nlev (r : LaunchRecord) : Nat := r.ctl / 2 ^ 8 % 16
def LaunchRecord.die (r : LaunchRecord) : Nat := r.ctl / 2 ^ 4 % 4
def LaunchRecord.free (r : LaunchRecord) : Bool := r.ctl.testBit 3
def LaunchRecord.preempt (r : LaunchRecord) : Bool := r.ctl.testBit 2
def LaunchRecord.prio (r : LaunchRecord) : Nat := r.ctl % 4

/-- The dom field of a level word. -/
def weaveDom (w : W64) : Nat := bitsOf w 34 32

/-- The levels of a record, level 0 first. -/
def LaunchRecord.levels (r : LaunchRecord) : List WeaveLevel :=
  let l := r.weave.take r.nlev
  (List.range l.length).map fun i =>
    let w := l[i]?.getD 0
    let next := match l[i + 1]? with
      | some x => weaveDom x
      | none => weaveDom w + 1
    ⟨i, bitsOf w 31 0, weaveDom w, next, bitsOf w 38 36⟩

/-- Devices of a group and groups of the domain (Table 18.7); one each while DOMCFG is not valid
(log 58, DEDUCED). -/
def State.groupSize (s : State) (dev : Nat) : Nat :=
  let w := s.reg3 (dev * 512) 0x370000
  if bitOf w 63 then Nat.max 1 (bitsOf w 42 38) else 1
def State.groupCount (s : State) (dev : Nat) : Nat :=
  let w := s.reg3 (dev * 512) 0x370000
  if bitOf w 63 then Nat.max 1 (bitsOf w 49 43) else 1

/-- Units of a domain in one unit of the next larger one (Table 4.7). -/
def State.unitCount (s : State) (dev die dom : Nat) : Nat :=
  match dom with
  | 0 => if die = 0 then 15 else 14
  | 1 => if 2 ≤ die then 2 else 1
  | 2 => 16
  | 3 => 8
  | 4 => 4
  | 5 => s.groupSize dev
  | 6 => s.groupCount dev
  | _ => 1

/-- The capacity of a level (R109). -/
def State.levelCapacity (s : State) (dev die : Nat) (l : WeaveLevel) : Nat :=
  (List.range (l.next - l.dom)).foldl (fun n k => n * s.unitCount dev die (l.dom + k)) 1

/-- The minimum scope of a domain. -/
def minScope (dom : Nat) : Nat := [1, 1, 1, 2, 3, 4, 5, 5].getD dom 5

/-- Whether `n` is a place of vault or scratchpad space of the domain, a multiple of `align` with that many bytes. -/
def State.placeOfData (s : State) (dev n align : Nat) : Bool :=
  n % align = 0 && decide (n < 2 ^ 63) && spaceOfPlace n < 2
    && decide (offsetOfPlace n + align ≤ s.spaceSize (tileOfPlace n) (spaceOfPlace n) false)
    && s.inDomain dev (deviceOfTile (tileOfPlace n))

/-- Reserved fields of a record (0x10). -/
def LaunchRecord.reserved (r : LaunchRecord) : Bool :=
  r.ctl / 2 ^ 12 ≠ 0 || r.ctl / 2 ^ 6 % 4 ≠ 0 || r.rest ≠ 0
    || r.weave.any (fun w => bitsOf w 63 39 ≠ 0 || bitOf w 35)
    || r.succ.any (fun w => bitsOf w 61 59 ≠ 0 || bitsOf w 47 46 ≠ 0 || bitsOf w 39 32 ≠ 0)

/-- Whether the dom values of a record rise strictly. -/
def risingDoms : List WeaveLevel → Bool
  | x :: y :: r => decide (x.dom < y.dom) && risingDoms (y :: r)
  | _ => true

/-- The first failing status of Table 4.8, 0 when there is none (R111) (log 71, DEDUCED). -/
def State.recordStatus (s : State) (dev : Nat) (r : LaunchRecord) : Nat :=
  let l := r.levels
  if r.reserved then 0x10
  else if r.nlev = 0 ∨ 8 < r.nlev ∨ (r.weave.drop r.nlev).any (· ≠ 0) then 0x11
  else if !risingDoms l then 0x12
  else if l.any fun x => s.levelCapacity dev r.die x < x.extent then 0x13
  else if l.any fun x => x.scope < minScope x.dom || 5 < x.scope then 0x14
  else if !legalPc r.entry || r.stksize % 16 ≠ 0 || 0x100000 < r.stksize || r.die = 3 then 0x15
  else if !s.inDomain dev (r.anchor / 1024) || 2 ^ 21 ≤ r.anchor then 0x16
  else if (r.done ≠ 0 && !s.placeOfData dev r.done 8) || (r.shape ≠ 0 && !s.placeOfData dev r.shape 256)
      || (r.env ≠ 0 && !s.placeOfData dev r.env 64) then 0x17
  else 0

/-! Placement (R110, R122). A unit is known by its coordinates, one per domain: slot, core, tile in its group, group,
stack, device in its group, group of devices. -/

/-- The coordinates of a core. -/
def coordsOf (core : Nat) : List Nat :=
  let t := core % 128
  [0, core / 128 % 2, t / 16 % 4 * 4 + t % 4, t / 64 * 4 + t / 4 % 4, core / 256 % 4, core / 1024 % 16, core / 16384]

def coordAt (c : List Nat) (k : Nat) : Nat := c.getD k 0

/-- The tile at coordinates (R103). -/
def tileAt (c : List Nat) : Nat :=
  let g := coordAt c 3
  let p := coordAt c 2
  (coordAt c 6 * 16 + coordAt c 5) * 512 + coordAt c 4 * 128 + g / 4 * 64 + p / 4 * 16 + g % 4 * 4 + p % 4

/-- The core at coordinates (R110): with die 2 core unit 0 is the staging core. -/
def coreAt (die : Nat) (c : List Nat) : Nat :=
  let t := tileAt c
  if die = 0 then computeOf t else if die = 1 then stagingOf t
  else if coordAt c 1 = 0 then stagingOf t else computeOf t

/-- The coordinates of unit `u` of a level, the innermost domain fastest. -/
def State.chooseUnit (s : State) (dev die : Nat) (l : WeaveLevel) (c : List Nat) (u : Nat) : List Nat :=
  ((List.range (l.next - l.dom)).foldl (fun (x : List Nat × Nat) k =>
    let n := s.unitCount dev die (l.dom + k)
    (x.1.set (l.dom + k) (x.2 % n), x.2 / n)) (c, u)).1

/-- The tiles below a unit of domain `dom`. -/
def State.tilesBelow (s : State) (dev dom : Nat) (c : List Nat) : List Nat :=
  ((List.range (dom - 2)).foldl (fun l k =>
    l.flatMap fun c => (List.range (s.unitCount dev 0 (k + 2))).map fun u => c.set (k + 2) u) [c]).map tileAt

/-- Idle task slots of a core. -/
def State.idleSlots (s : State) (core : Nat) : List Nat :=
  (List.range 16).filter fun k => isTaskSlot core k && (s.thread core k).state = .idle

/-- The rank of a unit, lower first: refresh loss, then live banks, then the unit number (R122). -/
def State.unitRank (s : State) (dev die : Nat) (l : WeaveLevel) (c : List Nat) (u : Nat) : Nat :=
  let tiles := s.tilesBelow dev l.dom (s.chooseUnit dev die l c u)
  let loss := (tiles.map fun t => (s.reg3 t 0x350108).toNat).sum
  let dead := (tiles.map fun t => 32 - popCount 32 (s.reg2 t 0).toNat).sum
  (loss * 2 ^ 40 + dead) * 2 ^ 40 + u

/-- A point of a weave: its core and its indices, level 0 first. -/
abbrev Point := Nat × List Nat

/-- Whether the points of each core fit in its task slots that were idle before this cycle: a record that becomes
eligible in a cycle is taken after it (R117). -/
def State.fits (s : State) (pts : List Point) : Bool :=
  (pts.map Prod.fst).eraseDups.all fun core =>
    decide ((pts.filter fun p => p.1 = core).length
      ≤ ((s.idleSlots core).filter fun k => (s.thread core k).idleAt ≤ s.cycle).length)

/-- Lists that all exist, joined. -/
def joinAll : List (Option (List Point)) → Option (List Point)
  | [] => some []
  | none :: _ => none
  | some l :: r => (joinAll r).map (l ++ ·)

/-- The units that a free level takes, ascending: the best ranked whose cores have room. -/
def firstUnits (ok : Nat → Bool) : Nat → List Nat → Option (List Nat)
  | 0, _ => some []
  | _ + 1, [] => none
  | n + 1, u :: r => if ok u then (firstUnits ok n r).map (insertNat u) else firstUnits ok (n + 1) r

/-- The points below coordinates, for levels from the outermost in. -/
def State.placeLevels (s : State) (dev : Nat) (r : LaunchRecord) :
    List WeaveLevel → List Nat → List Nat → Option (List Point)
  | [], c, idx => some [(coreAt r.die c, idx)]
  | l :: rest, c, idx =>
    let at_ := fun u j => s.placeLevels dev r rest (s.chooseUnit dev r.die l c u) (idx.set l.idx j)
    if !r.free || l.dom = 0 then joinAll ((List.range l.extent).map fun j => at_ j j)
    else
      let ranks := insertAll ((List.range (s.levelCapacity dev r.die l)).map (s.unitRank dev r.die l c)) []
      let ok := fun u => match at_ u 0 with
        | some p => s.fits p
        | none => false
      match firstUnits ok l.extent (ranks.map (· % 2 ^ 40)) with
      | none => none
      | some units => joinAll ((List.range l.extent).map fun j => at_ (units.getD j 0) j)

/-- The points of a record, when it can be placed (R117). -/
def State.placeRecord (s : State) (dev : Nat) (r : LaunchRecord) : Option (List Point) :=
  let l := r.levels
  let lowest := (l.head?.map WeaveLevel.dom).getD 0
  let c := (coordsOf r.anchor).zipIdx.map fun x => if 1 ≤ x.2 ∧ x.2 < lowest then 0 else x.1
  match s.placeLevels dev r l.reverse c (List.replicate 8 0) with
  | some p => if !r.free || s.fits p then some p else none
  | none => none

/-! Signals and completion (R118 to R120). -/

/-- Signals to some of a launch's successors; `sender` is the launch for signals of its trigger point. A device outside
the domain takes none: the number of those comes back. -/
def State.sendSignals (s : State) (dev : Nat) (succ : List W64) (sender : W64) (pick : W64 → Bool) : State × Nat × Nat :=
  succ.foldl (fun (x : State × Nat × Nat) w =>
    if !(bitOf w 63 && pick w) then x
    else if !x.1.inDomain dev (targetDevice w) then (x.1, x.2.1, x.2.2 + 1)
    else
      let p := Packet.signal (targetDevice w) (targetQueue w) (bitsOf w 31 0) sender
      ({ x.1 with net := x.1.net ++ [p] }, x.2.1 + 1, x.2.2)) (s, 0, 0)

def isEarly (w : W64) : Bool := bitOf w 62

/-- The device of a launch's dispatcher. -/
def Launch.device (l : Launch) : Nat := bitsOf l.handle 58 48

/-- The completion word (Table 4.8). -/
def completionWord (ended killed : Nat) (siglost : Bool) (status : Nat) : W64 :=
  w64 (ended % 2 ^ 32 * 2 ^ 32 + Nat.min killed 0xFFFF * 2 ^ 16 + bit01 siglost * 2 ^ 8 + status)

/-- A word at done, when there is one. -/
def State.writeDone (s : State) (done : Nat) (w : W64) : State :=
  if done = 0 then s else (s.perform (cleanWrites done (bytesOf 8 w.toNat)) none).touchSpan done 8 .dflt

/-- A launch completes once every end has been counted and every signal of its trigger point has been counted or
discarded: the word first, then the signals (R118, R120). -/
def State.tryComplete (s : State) (l : Launch) : State :=
  if l.counted < l.members.length || l.pending ≠ 0 then s
  else
    let s := s.writeDone l.done (completionWord l.counted l.killed l.siglost (bit01 (l.killed ≠ 0)))
    let s := { s with launches := s.launches.filter fun x => x.handle ≠ l.handle }
    (s.sendSignals l.device l.succ 0 fun w => !(isEarly w && l.early)).1

/-- The launch with a handle changes, and completes when it can. -/
def State.updateLaunch (s : State) (handle : W64) (f : Launch → Launch) : State :=
  match s.launches.find? fun l => l.handle = handle with
  | some l => (s.modLaunch handle f).tryComplete (f l)
  | none => s

/-- Whether the bank of a launch's completion word is busy, which a word to it waits for (R172, R174). -/
def State.doneBusy (s : State) (handle : W64) : Option Nat :=
  match s.launches.find? fun l => l.handle = handle with
  | some l => if l.done ≠ 0 ∧ s.spanBusy l.done 8 then some l.done else none
  | none => none

/-- SUCCESSOR_SIGNAL: a signal counts against its record, is held, or is discarded (R118). -/
def execSuccessorSignal (n : Nat) (s : State) : Host.Outcome State Fault Refusal :=
  match s.net[n]? with
  | some (.signal dev q seq sender) =>
    match s.doneBusy sender with
    | some p => .next (s.callBanks [(p, 8)])
    | none =>
    let s := { s with net := dropAt s.net n }
    let head := s.lqHead dev q
    let ok := s.lqOn dev q && decide (gap32 seq head < gap32 (s.lqTail dev q) head + 256)
    let key := signalKey dev q seq
    let count := SMap.get 0 s.signals key + 1
    let s :=
      if !ok then s.lqFlag dev q 3
      else
        let s := { s with signals := SMap.set s.signals key count }
        let due := (s.launchRecord (s.lqPlace dev q seq)).depcount
        if seq = head ∧ head ≠ s.lqTail dev q ∧ count = due then s.lqTouched dev q else s
    .next (s.updateLaunch sender fun l => { l with pending := l.pending - 1, siglost := l.siglost || !ok })
  | _ => notDue s

def isTrigWait : Wait → Bool
  | .triggered => true
  | _ => false

/-- The early signals of a launch whose trigger count is reached, once (R119). -/
def State.triggerLaunch (s : State) (l : Launch) : State :=
  let n := l.trigs + 1
  if l.early || l.trigcount = 0 || n ≠ l.trigcount then s.modLaunch l.handle fun l => { l with trigs := n }
  else
    let r := s.sendSignals l.device l.succ l.handle isEarly
    r.1.modLaunch l.handle fun l =>
      { l with trigs := n, early := true, pending := l.pending + r.2.1, siglost := l.siglost || r.2.2 ≠ 0 }

/-- TRIG_COUNT: the dispatcher accepts a count, and the trig completes (R119, R162). -/
def execTrigCount (n : Nat) (s : State) : Host.Outcome State Fault Refusal :=
  match s.net[n]? with
  | some (.trig handle core slot uid) =>
    let s := { s with net := dropAt s.net n }
    let s := match s.launches.find? fun l => l.handle = handle with
      | some l => s.triggerLaunch l
      | none => s
    let k := s.locate core slot uid
    if (s.thread core k).uid = uid then .next (s.endWait core k isTrigWait id) else .next s
  | _ => notDue s

/-- END_NOTICE: the dispatcher counts the end of a thread (R120). -/
def execEndNotice (n : Nat) (s : State) : Host.Outcome State Fault Refusal :=
  match s.net[n]? with
  | some (.ended handle _ _ killed) =>
    match s.doneBusy handle with
    | some p => .next (s.callBanks [(p, 8)])
    | none =>
      let s := { s with net := dropAt s.net n }
      .next (s.updateLaunch handle fun l => { l with counted := l.counted + 1, killed := l.killed + bit01 killed })
  | _ => notDue s

/-! Starting a record (R111, R112, R114, R115, R117). -/

/-- The successors of a launch that completes with no thread are all signalled. -/
def State.signalAll (s : State) (dev : Nat) (r : LaunchRecord) : State := (s.sendSignals dev r.succ 0 fun _ => true).1

/-- The rejection of the head record of a queue. -/
def State.rejectRecord (s : State) (dev q status : Nat) (r : LaunchRecord) : State :=
  let w := s.reg (lqReg dev q 1)
  let s := s.setReg (lqReg dev q 1) (setBit (setBits w 23 16 status) 2 true)
  let s := if r.done ≠ 0 ∧ s.placeOfData dev r.done 8 then s.writeDone r.done (completionWord 0 0 false status) else s
  s.signalAll dev r

/-- The shares of a placement: a core, its first level-0 index, its thread count and its indices. -/
def sharesOf (pts : List Point) : List (Nat × Nat × Nat × List Nat) :=
  (pts.map Prod.fst).eraseDups.map fun core =>
    let mine := (pts.filter fun p => p.1 = core).map Prod.snd
    let idx := mine.headD []
    (core, idx.getD 0 0, mine.length, idx.set 0 0)

/-- The entry of a core's shape window that a copy takes (R114). A launch has a thread on the core when one stands in
the active or the shadow bank; a context whose record lies in the vault does not count (log 105, DESIGN CHOICE). -/
def State.windowEntry (s : State) (core : Nat) : Nat :=
  let owner := fun i => s.word (shapeWindow core + 256 * i + 0xF8)
  let here := fun h : W64 => h ≠ 0 && (List.range 32).any fun k =>
    let t := s.thread core k
    t.state ≠ .idle && t.handle = h
  let order := (s.core core).shapeOrder
  match (List.range 8).find? fun i => !here (owner i) with
  | some i => i
  | none => ((order ++ List.range 8).filter (· < 8)).headD 0

/-- The copy of a launch's shape record to a core, with the handle in its last 8 bytes. -/
def State.copyShape (s : State) (shape : Nat) (handle : W64) (core : Nat) : State :=
  if shape = 0 then s
  else
    let i := s.windowEntry core
    let r := s.readBytes shape 248
    let p := shapeWindow core + 256 * i
    let s := (List.range 31).foldl (fun s k => s.perform (markedWrites (p + 8 * k) ((r.2.drop (8 * k)).take 8)) none) r.1
    let s := s.perform (cleanWrites (p + 0xF8) (bytesOf 8 handle.toNat)) none
    s.modCore core fun c => { c with shapeOrder := c.shapeOrder.filter (· ≠ i) ++ [i] }

/-- The wake of a share. -/
def wakeOf (r : LaunchRecord) (place : Nat) (handle : W64) (x : Nat × Nat × Nat × List Nat) : Wake :=
  { core := x.1, record := place, handle := handle, task := r.task, first := x.2.1, count := x.2.2.1, idx := x.2.2.2,
    ext := (List.range 8).map fun i => if i < r.nlev then bitsOf (r.weave.getD i 0) 31 0 else 0,
    entry := r.entry, args := r.args, exit := r.exit, stksize := r.stksize, env := r.env, shape := r.shape,
    prio := r.prio, preempt := r.preempt, applied := false }

/-- The start of a placed record. -/
def State.startRecord (s : State) (dev q seq : Nat) (r : LaunchRecord) (pts : List Point) : State :=
  let handle := w64 (2 ^ 63 + dev * 2 ^ 48 + q * 2 ^ 40 + seq)
  let place := s.lqPlace dev q seq
  if pts.isEmpty then (s.writeDone r.done (completionWord 0 0 false 0)).signalAll dev r
  else
    let l : Launch :=
      { handle := handle, done := r.done, succ := r.succ, trigcount := r.trigcount, trigs := 0, early := false,
        siglost := false, pending := 0, members := pts.map fun p => ⟨p.1, p.2, false, []⟩, counted := 0, killed := 0,
        shape := r.shape, prio := r.prio }
    let shares := sharesOf pts
    let s := { s with launches := s.launches ++ [l] }
    let s := shares.foldl (fun s x => s.copyShape r.shape handle x.1) s
    { s with net := s.net ++ shares.map fun x => Packet.wake (wakeOf r place handle x) }

/-- What a dispatcher can do with the head record of a queue now: reject it with a status, or start it on points. -/
def State.candidate (s : State) (dev q : Nat) : Option (LaunchRecord × Except Nat (List Point)) :=
  let head := s.lqHead dev q
  if !s.lqOn dev q || head = s.lqTail dev q || s.cycle < SMap.get 0 (s.device dev).since q then none
  else
    let r := s.launchRecord (s.lqPlace dev q head)
    let st := s.recordStatus dev r
    if st ≠ 0 then some (r, .error st)
    else if SMap.get 0 s.signals (signalKey dev q head) < r.depcount then none
    else if r.levels.any fun l => l.extent = 0 then some (r, .ok [])
    else (s.placeRecord dev r).map fun p => (r, .ok p)

/-- How early a queue is served: by priority, then in turn behind the queue last served at it. -/
def State.serveRank (s : State) (dev stack q prio : Nat) : Nat :=
  let last := SMap.get 0 (s.device dev).lastServed (stack * 4 + prio)
  (3 - prio) * 16 + (q % 16 + 16 - last % 16) % 16

/-- head passes the record that a dispatcher takes; the next one comes into its place. -/
def State.advanceHead (s : State) (dev q : Nat) : State :=
  let head := s.lqHead dev q
  let s := { s with signals := SMap.erase s.signals (signalKey dev q head) }
  (s.setReg (lqReg dev q 3) (w64 ((head + 1) % 2 ^ 32))).lqTouched dev q

/-- The places at which a dispatcher reads or writes when it takes a record: the record, its shape record, its
completion word. -/
def State.dispatchSpans (s : State) (dev q : Nat) (r : LaunchRecord) : List (Nat × Nat) :=
  [(s.lqPlace dev q (s.lqHead dev q), 256)] ++ (if r.shape = 0 then [] else [(r.shape, 256)])
    ++ (if r.done = 0 then [] else [(r.done, 8)])

/-- Head records of a stack's queues whose bank is busy: the dispatcher cannot read them yet (R172, R174). -/
def State.headsBusy (s : State) (dev stack : Nat) : List (Nat × Nat) :=
  ((List.range 16).filter fun k => s.lqOn dev (stack * 16 + k)
      && s.lqHead dev (stack * 16 + k) != s.lqTail dev (stack * 16 + k)).filterMap fun k =>
    let p := s.lqPlace dev (stack * 16 + k) (s.lqHead dev (stack * 16 + k))
    if s.spanBusy p 256 then some (p, 256) else none

/-- DISPATCH_OPPORTUNITY: at most one record of a stack's queues is started or rejected (R117); a record whose banks are
busy waits for another opportunity. -/
def execDispatchOpportunity (device stack : Nat) (s : State) : Host.Outcome State Fault Refusal :=
  let d := s.device device
  if s.now device % 32 ≠ 0 ∨ SMap.get 0 d.served stack = s.cycle + 1 ∨ 4 ≤ stack ∨ d.ckpt = .quiescing then notDue s
  else
    let busy := s.headsBusy device stack
    let cands := (List.range 16).filterMap fun k =>
      let q := stack * 16 + k
      if busy.contains (s.lqPlace device q (s.lqHead device q), 256) then none
      else (s.candidate device q).map fun c => (s.serveRank device stack q c.1.prio * 16 + k, q, c)
    let best := lowest (cands.map Prod.fst)
    match cands.find? fun c => some c.1 = best with
    | none => .next (s.callBanks busy)
    | some (_, q, r, what) =>
      let spans := s.dispatchSpans device q r
      if spans.any fun x => s.spanBusy x.1 x.2 then .next (s.callBanks (busy ++ spans))
      else
        let seq := s.lqHead device q
        let s := s.modDevice device fun d =>
          { d with served := SMap.set d.served stack (s.cycle + 1),
                   lastServed := SMap.set d.lastServed (stack * 4 + r.prio) (q % 16 + 1) }
        let s := spans.foldl (fun s x => s.touchSpan x.1 x.2 .dflt) (s.callBanks busy)
        match what with
        | .error st => .next ((s.rejectRecord device q st r).advanceHead device q)
        | .ok pts => .next ((s.startRecord device q seq r pts).advanceHead device q)

/-! Wakes (R115, R121, R186, R187, R412). -/

/-- The reach records of an environment block, when its form is right (R186). -/
def State.envRecords (s : State) (env : Nat) : Option (List Reach) :=
  let n := s.peekNat (env + 1) 1
  if s.peekNat env 1 ≠ 1 ∨ 32 < n ∨ s.peekNat (env + 2) 62 ≠ 0 then none
  else some ((List.range n).map fun i =>
    let p := env + 64 + 32 * i
    ⟨s.word p, s.word (p + 8), s.word (p + 16), s.word (p + 24)⟩)

/-- What comes of the installation of an environment block: a refusal, a wait for an entry through which accesses are
still in flight, or the state with the entries. -/
inductive Install where
  | refused
  | waits
  | applied (s : State)
  deriving DecidableEq, Repr

/-- The records of a block are installed in ascending order in free entries, or none of them is (R187). An entry that an
rchmrg has freed takes its record once the accesses through it have completed (R182, R255). -/
def State.installAll (s : State) (core : Nat) : List Reach → Install
  | [] => .applied s
  | e :: r =>
    let free := (List.range 32).filter fun i => !(s.reach core i).valid
    match free with
    | [] => .refused
    | i :: _ =>
      if s.installStatus core i e ≠ 0 then .refused
      else match free.find? fun i => !s.entryBusy core i with
        | none => .waits
        | some i => (s.setReach core i e).installAll core r

/-- The environment block of a share, applied, or refused (log 72, DEDUCED). -/
def State.applyEnv (s : State) (core env : Nat) : Install :=
  if env = 0 then .applied s
  else match s.envRecords env with
    | none => .refused
    | some l => s.installAll core l

/-- The spawn vector of thread `j` of a share (R100): the stack top is the core runtime's, a free value with its low 4
bits zero (log 59, DESIGN CHOICE). -/
def Wake.vector (w : Wake) (j : Nat) (top : W64) (i : Nat) : W64 :=
  let pair := fun (l : List Nat) k => w64 (l.getD (2 * k) 0 % 2 ^ 32 + l.getD (2 * k + 1) 0 % 2 ^ 32 * 2 ^ 32)
  match i with
  | 0 => w.entry
  | 1 => w.exit
  | 2 => if w.stksize = 0 then 0 else setBits top 3 0 0
  | 3 => w.args
  | 4 => w.task
  | 5 => w.handle
  | 6 => w64 w.shape
  | 7 => pair (w.idx.set 0 (w.first + j)) 0
  | 8 => pair w.idx 1
  | 9 => pair w.idx 2
  | 10 => pair w.idx 3
  | 11 => pair w.ext 0
  | 12 => pair w.ext 1
  | 13 => pair w.ext 2
  | 14 => pair w.ext 3
  | _ => 0

/-- A share that is refused: its threads count as ended by TKILL (R187, R412). -/
def State.refuseShare (s : State) (w : Wake) : State :=
  (List.range w.count).foldl (fun s j =>
    let idx := w.idx.set 0 (w.first + j)
    { s with net := s.net ++ [Packet.ended w.handle w.core idx true] }.modLaunch w.handle fun l => l.endMember idx) s

/-- The threads of a share start in the lowest idle task slots (R100, R110). -/
def State.startShare (s : State) (w : Wake) : State :=
  ((s.idleSlots w.core).take w.count).zipIdx.foldl (fun s x =>
    let f := s.takeFresh
    f.2.startSlot w.core x.1 (w.vector x.2 f.1)) s

/-- The notice that a wake is to the head slot (Table 6.7). -/
def Wake.notice (w : Wake) : Notice :=
  let pair := fun k => w64 (w.idx.getD (2 * k) 0 % 2 ^ 32 + w.idx.getD (2 * k + 1) 0 % 2 ^ 32 * 2 ^ 32)
  ⟨5, 0, 0, [w.task, w64 w.record, w.handle, w64 (w.first * 2 ^ 32 + w.count), pair 0, pair 1, pair 2, pair 3]⟩

/-- The priority of the launch of a slot's thread. -/
def State.slotPrio (s : State) (core slot : Nat) : Option Nat :=
  let t := s.thread core slot
  if t.handle = 0 then none else (s.launches.find? fun l => l.handle = t.handle).map Launch.prio

/-- Whether the record of a displaced thread lies at the save place of a slot. -/
def Core.hasDisplaced (c : Core) (slot : Nat) : Bool := c.displaced.any fun d => d.1 = slot

/-- The slots that a share of priority `prio` displaces for `n` more: the lowest priority first, the highest slot
first (R121), none whose save place a displaced thread has (log 74, DEDUCED). -/
def State.victims (s : State) (core prio n : Nat) : List Nat :=
  let level := fun p => ((List.range 16).reverse.filter fun k =>
    isTaskSlot core k && !(s.thread core k).state = .idle && s.slotPrio core k = some p && !(s.core core).hasDisplaced k)
  (((List.range prio).flatMap level)).take n

/-- The swap that makes room for a share with preempt 1 (R121; log 60, DESIGN CHOICE). When the threads of lower priority
are too few for the whole share, none is displaced (log 104, DESIGN CHOICE). -/
def State.displace (s : State) (w : Wake) : State :=
  let short := w.count - (s.idleSlots w.core).length
  let v := s.victims w.core w.prio short
  let c := s.core w.core
  if !w.preempt || v.length < short || c.swapPend.isSome || c.swapRun.isSome || c.anyHeld then s
  else
    let gone := v.filterMap fun k => (s.slotPrio w.core k).map fun p => (k, p)
    let s := s.writeSwcmd w.core (w64 (2 ^ 62 + (v.map fun k => 2 ^ k).sum))
    s.modCore w.core fun c => if c.swapRun.isSome then { c with displaced := c.displaced ++ gone } else c

/-- The runtime brings back a displaced thread: with its slot idle, and no waiting share of higher priority for the core,
it has the thread's record filled, and then swaps it in (R121; log 60, DESIGN CHOICE). -/
def State.returnDisplaced (s : State) (core : Nat) : State :=
  let c := s.core core
  let needed := fun p : Nat => s.net.any fun x =>
    match x with
    | .wake w => w.core = core && decide (p < w.prio)
    | _ => false
  match c.displaced.find? fun d => (s.thread core d.1).state = .idle && !needed d.2 with
  | none => s
  | some (k, p) =>
    let st := (c.shadowSlot k).state
    if !s.takesMessages core || c.swapPend.isSome || c.swapRun.isSome then s
    else if st = 0 then s.writeSwcmd core (w64 (2 ^ 63 + 2 ^ k))
    else if st = 2 then
      (s.writeSwcmd core (w64 (2 ^ 62 + 2 ^ k))).modCore core fun c =>
        if c.swapRun.isSome || c.swapPend.isSome then { c with displaced := c.displaced.filter (· ≠ (k, p)) } else c
    else s

/-- While a checkpoint quiesces its device, the runtime swaps out the task threads of its core, on a compute core with the
tile block (R431; log 122, DESIGN CHOICE). -/
def State.quiesceCore (s : State) (core : Nat) : State :=
  let c := s.core core
  let live := (List.range 16).filter fun k =>
    isTaskSlot core k && (c.thread core k).state ≠ .idle && (c.thread core k).state ≠ .swapped && !c.hasDisplaced k
  if live.isEmpty || !s.takesMessages core || c.swapPend.isSome || c.swapRun.isSome || c.anyHeld then s
  else s.writeSwcmd core (w64 (2 ^ 62 + bit01 (isCompute core) * 2 ^ 61 + (live.map fun k => 2 ^ k).sum))

/-- What the core runtime does of its own accord. -/
def State.runtimeTurn (s : State) (core : Nat) : State :=
  if (s.device (deviceOfCore core)).ckpt = .quiescing then s.quiesceCore core else s.returnDisplaced core

/-- Whether the share of another wake waits at a core for idle slots: later wakes wait behind it (R115). In which order the
wakes of two launches arrive is open. -/
def State.wakeBehind (s : State) (n core : Nat) : Bool :=
  s.net.zipIdx.any fun x =>
    match x.1 with
    | .wake w => x.2 ≠ n && w.core = core && w.applied
    | _ => false

/-- The place of a share's environment block, whose bank its head slot waits for. -/
def Wake.envSpans (w : Wake) : List (Nat × Nat) := if w.env = 0 then [] else [(w.env, 64 + 32 * 32)]

/-- The rows that the head slot's reading of the environment block opens (R173). -/
def State.touchEnv (s : State) (w : Wake) : State := w.envSpans.foldl (fun s x => s.touchSpan x.1 x.2 .dflt) s

/-- WAKE_MESSAGE: the wake reaches the head slot's inbox; or, with `runtime`, what the core runtime does with it comes
about at once: a refusal, the environment block, and then the start of the share once enough slots are idle (R115)
(log 73, DESIGN CHOICE). -/
def execWakeMessage (n : Nat) (runtime : Bool) (s : State) : Host.Outcome State Fault Refusal :=
  match s.net[n]? with
  | some (.wake w) =>
    let s1 := { s with net := dropAt s.net n }
    let start := fun s : State =>
      if (s.idleSlots w.core).length < w.count then
        State.displace { s with net := s.net.set n (.wake { w with applied := true }) } w
      else State.startShare { s with net := dropAt s.net n } w
    if s.wakeBehind n w.core then notDue s
    else if !runtime then .next ((s1.modCore w.core fun c => { c with inbox := c.inbox ++ [w.notice] }).wakeReap w.core)
    else if !s.takesMessages w.core then notDue s
    else if w.applied then .next (start s)
    else if bitsOf w.task 15 0 = 0xFFFF then .next (s1.refuseShare w)
    else if w.envSpans.any fun x => s.spanBusy x.1 x.2 then .next (s.callBanks w.envSpans)
    else match s.applyEnv w.core w.env with
      | .refused => .next ((s1.touchEnv w).refuseShare w)
      | .waits => notDue s
      | .applied s => .next (start (s.touchEnv w))
  | _ => notDue s

end Sys2Proof.Machine
end

