-- ==== Sys2Proof/Machine/Buses.lean ====
section
/-! DEFINITION. Buses.lean: the vertical buses of a tile: resent beats, tests and retraining (R413 to R415). -/

namespace Sys2Proof.Machine

/-- VBTST of a tile (Table 18.2). -/
def busReg (tile : Nat) : Nat := spaceBase tile 3 + 0x350200

/-- Spare lanes of a bus. -/
def spareLanes (riser : Bool) : Nat := if riser then 8 else 32

/-- Data lanes of a bus with its spares, as far as a failing beat can name them: no table counts them, so that a lane is a
number of 12 bits (log 120, DESIGN CHOICE). -/
def laneKey (riser : Bool) (lane : W64) : Nat := 2 * bitsOf lane 11 0 + bit01 riser

/-- VBUS_BEAT_RESEND: each resend adds 1 to the seep counter of the tile group, and the failure counts for its lane (R413,
R415). The manual does not name the lane of a beat that fails (log 3, DESIGN CHOICE). -/
def execVbusBeatResend (tile : Nat) (riser : Bool) (s : State) : Host.Outcome State Fault Refusal :=
  let r := s.takeFresh
  .next ((r.2.seepAdd (groupSeep tile) 1).modTile tile fun t =>
    { t with busFails := recordFail t.busFails (laneKey riser r.1) s.cycle })

/-- The lanes of a bus that gave 16 CRC failures in 2^20 cycles. -/
def State.failingLanes (s : State) (tile : Nat) (riser : Bool) : List Nat :=
  ((s.tile tile).busFails.filter fun e => e.1 % 2 = bit01 riser && failsDue e.2 s.cycle).map Prod.fst

/-- Whether a transfer uses the vault of a tile. -/
def Transfer.touchesVault (t : Transfer) (tile : Nat) : Bool :=
  (tileOfPlace t.srcPlace = tile && spaceOfPlace t.srcPlace = 0)
    || (!t.desc.inflow && tileOfPlace t.dstPlace = tile && spaceOfPlace t.dstPlace = 0)

/-- The active transfers that use the vault bus of a tile. -/
def State.busTransfers (s : State) (tile : Nat) : List Transfer :=
  s.tiles.flatMap fun e => e.2.strActive.filter fun t => t.passed && t.touchesVault tile

/-- An idle vault bus: no access, tile load, transfer, spill, fill or dredger copy uses it (R414). -/
def State.vaultIdle (s : State) (tile : Nat) : Bool :=
  ((s.placesInFlight tile).all fun a => !(tileOfPlace a.1 = tile && spaceOfPlace a.1 = 0))
    && (s.busTransfers tile).isEmpty && (s.tile tile).dredge.isNone
    && [stagingOf tile, computeOf tile].all fun c => !(s.core c).anyHeld && (s.core c).fillRun.isEmpty

/-- An idle riser: both FIFOs empty and every task slot of both cores idle (R414). -/
def State.riserIdle (s : State) (tile : Nat) : Bool :=
  (s.tile tile).riserUp.isEmpty && (s.tile tile).riserDown.isEmpty
    && [stagingOf tile, computeOf tile].all fun c =>
      (List.range 16).all fun k => !isTaskSlot c k || (s.thread c k).state = .idle

/-- A retraining of a bus is asked for, for so many lanes. -/
def State.askRetrain (s : State) (tile : Nat) (riser : Bool) (lanes : Nat) : State :=
  s.modTile tile fun t => { t with retrain := SMap.set t.retrain (bit01 riser) ⟨false, lanes, false, s.cycle⟩ }

/-- VBUS_TEST: a test of an idle bus in which `failing` lanes fail; they ask for retraining (R414, R415). -/
def execVbusTest (tile : Nat) (riser : Bool) (failing : Nat) (s : State) : Host.Outcome State Fault Refusal :=
  let idle := if riser then s.riserIdle tile else s.vaultIdle tile
  if !bitOf (s.reg (busReg tile)) 63 || !idle || ((s.tile tile).retrainOf riser).isSome
      || failing = 0 then notDue s
  else .next (s.askRetrain tile riser failing)

/-- Whether some thread of a launch waits in bar. -/
def State.launchInBar (s : State) (handle : W64) : Bool :=
  handle != 0 && s.cores.any fun e => e.2.contexts.any fun k =>
    let t := e.2.thread e.1 k
    t.handle = handle && (t.findWait isBar).isSome

/-- Whether a retraining of a bus is deferred: it carries a transfer of a launch that waits in bar (R415)
(log 82, DEDUCED). -/
def State.mustDefer (s : State) (tile : Nat) (riser : Bool) (r : Retrain) : Bool :=
  !riser && s.cycle < r.at0 + 80000 && (s.busTransfers tile).any fun t => s.launchInBar t.handle

/-- A retraining starts: failing lanes go to spares, and a bus without spares runs at half width (R415)
(log 83, DEDUCED). -/
def State.startRetrain (s : State) (tile : Nat) (riser : Bool) (r : Retrain) : State :=
  let key := bit01 riser
  let used : Nat := SMap.get 0 (s.tile tile).spared key
  let now := Nat.min (spareLanes riser) (used + r.lanes)
  let s := s.modTile tile fun t =>
    { t with spared := SMap.set t.spared key now,
             retrain := SMap.set t.retrain key { r with active := true, at0 := s.cycle } }
  let w := s.reg (busReg tile)
  let w := setBits (setBits w 43 32 (bitsOf w 43 32 + (now - used))) 31 16 (Nat.min 0xFFFF (bitsOf w 31 16 + 1))
  if now < used + r.lanes then
    (s.setReg (busReg tile) (setBit w (44 + key) true)).seepAdd (groupSeep tile) 16
  else s.setReg (busReg tile) w

/-- VBUS_RETRAIN: lanes with 16 failures in 2^20 cycles ask for retraining, or the retraining asked for starts, unless
it is deferred (log 84, DEDUCED). -/
def execVbusRetrain (tile : Nat) (riser : Bool) (s : State) : Host.Outcome State Fault Refusal :=
  match (s.tile tile).retrainOf riser with
  | none =>
    let lanes := s.failingLanes tile riser
    if lanes.isEmpty then notDue s
    else
      .next ((s.askRetrain tile riser lanes.length).modTile tile fun t =>
        { t with busFails := t.busFails.filter fun e => !lanes.contains e.1 })
  | some r =>
    if r.active then notDue s
    else if s.mustDefer tile riser r then
      if r.deferred then notDue s
      else
        let w := s.reg (busReg tile)
        let s := s.setReg (busReg tile) (setBits w 15 0 (Nat.min 0xFFFF (bitsOf w 15 0 + 1)))
        .next (s.modTile tile fun t => { t with retrain := SMap.set t.retrain (bit01 riser) { r with deferred := true } })
    else .next (s.startRetrain tile riser r)

/-- VBUS_RETRAIN_END: the uses of the bus that the retraining stopped can go on. -/
def execVbusRetrainEnd (bus : VBus) (s : State) : Host.Outcome State Fault Refusal :=
  match (s.tile bus.tile).retrainOf bus.riser with
  | some r =>
    if r.active then .next (s.modTile bus.tile fun t => { t with retrain := SMap.erase t.retrain (bit01 bus.riser) })
    else notDue s
  | none => notDue s

end Sys2Proof.Machine
end

