-- ==== Sys2Proof/Machine/Control.lean ====
section
/-! DEFINITION. Control.lean: major opcodes 0x20 to 0x24: branches, calls, special registers, nop, purge of
the line buffer and software trap (R75 to R84), and the arrival of a line (R17). -/

namespace Sys2Proof.Machine

/-- The target of format B (R46). -/
def branchTarget (pc : W64) (off : BitVec 52) : W64 := pc + off.signExtend 64 * 4

/-- A conditional branch: not taken, it goes on under R16 (R75). -/
def brOp (o : BrSS) (s : State) (c : Cond) : Host.Outcome State Fault Refusal :=
  complete o.g s fun s => do
    let x ← s.useS o.a.toNat
    let y ← s.useS o.b.toNat
    if c.holds x y then s.transfer (branchTarget s.memberPc o.off) none none else return .done s

def execBr (o : BrF) (s : State) : Host.Outcome State Fault Refusal :=
  complete o.g s fun s => s.transfer (branchTarget s.memberPc o.off) none none
def execBeq (o : BrSS) (s : State) := brOp o s .eq
def execBne (o : BrSS) (s : State) := brOp o s .ne
def execBlt (o : BrSS) (s : State) := brOp o s .lt
def execBge (o : BrSS) (s : State) := brOp o s .ge
def execBltu (o : BrSS) (s : State) := brOp o s .ltu
def execBgeu (o : BrSS) (s : State) := brOp o s .geu

/-- call (R76). -/
def execCall (o : CallF) (s : State) : Host.Outcome State Fault Refusal :=
  complete o.g s fun s => s.transfer (branchTarget s.memberPc o.off) (some o.d.toNat) (some 2)

/-- A transfer to the address in a register (R76, R77). -/
def jumpOp (g : Guard) (a : Nat) (link : Option Nat) (kind : Nat) (s : State) :
    Host.Outcome State Fault Refusal :=
  complete g s fun s => do
    let t ← s.useS a
    s.transfer t link (some kind)

def execJmp (o : A1) (s : State) := jumpOp o.g o.a.toNat none 0 s
def execCallr (o : SS) (s : State) := jumpOp o.g o.a.toNat (some o.d.toNat) 2 s
def execRet (o : A1) (s : State) := jumpOp o.g o.a.toNat none 1 s

/-- %tsw of a thread (Table 1.3). -/
def Thread.tsw (t : Thread) (head : Bool) : W64 :=
  w64 (t.lastcause.toNat * 2 ^ 8 + bit01 t.dzt * 4 + bit01 head)

/-- %trapptr of a core (Table 1.4). -/
def Core.trapptr (c : Core) : W64 := w64 (c.trapBase.toNat * 2 ^ 12 + c.trapWidx.toNat * 2 ^ 6)

/-- A special register as mfs reads it (Table 1.1, R80). -/
def State.special (s : State) (x : Nat) : W64 :=
  let t := s.cth
  match x with
  | 0 => w64 s.cur.core
  | 1 => w64 s.cur.slot
  | 2 => t.task
  | 3 => t.phase
  | 4 => w64 t.cofdepth
  | 5 => t.tsw s.isHead
  | 6 => w64 (s.now (deviceOfCore s.cur.core))
  | _ => (s.core s.cur.core).trapptr

/-- The privileged trap of mfs and mts names the special register (Table 1.8). -/
def specialTrap (fn x : Nat) : Bad := .trap 0x04 (w64 (x * 2 ^ 16 + 0x23 * 2 ^ 8 + fn))

def execMfs (o : MfsF) (s : State) : Host.Outcome State Fault Refusal :=
  complete o.g s fun s => do
    need (s.isHead || o.x.toNat != 7) (specialTrap 0 o.x.toNat)
    return .done (s.wClean o.d.toNat (s.special o.x.toNat))

/-- Whether mts may write a special register in the current mode (Table 1.1). -/
def mtsAllowed (head : Bool) (x : Nat) : Bool :=
  x = 5 || (head && (x = 2 || x = 7))

/-- A nonzero write to a reserved field of a special register (R14, R30). -/
def reservedWrite : Bad := .trap 0x01 0x06

/-- What mts writes (R12, R14, R30, R81). -/
def State.writeSpecial (s : State) (x : Nat) (v : W64) : Chk State :=
  match x with
  | 2 => .ok (s.modCur fun t => { t with task := v })
  | 5 =>
    if v &&& 0xFFFFFFFFFFFF00FA ≠ 0 then .error reservedWrite
    else .ok (s.modCur fun t => { t with dzt := v.getLsbD 2 })
  | _ =>
    if bitsOf v 5 0 ≠ 0 then .error reservedWrite
    else .ok (s.modCore s.cur.core fun c => { c with trapBase := v.extractLsb' 12 52 })

def execMts (o : MtsF) (s : State) : Host.Outcome State Fault Refusal :=
  complete o.g s fun s => do
    need (mtsAllowed s.isHead o.x.toNat) (specialTrap 1 o.x.toNat)
    let v ← s.useS o.a.toNat
    let s ← s.writeSpecial o.x.toNat v
    return .done s

/-- nop (R82). -/
def execNop (o : G0) (s : State) : Host.Outcome State Fault Refusal := complete o.g s fun s => .ok (.done s)

/-- Whether the 64 bytes of a line overlap [lo, lo + len), modulo 2^64 (R83). -/
def lineOverlaps (line lo len : W64) : Bool :=
  len ≠ 0 && ((line - lo).toNat < len.toNat || (lo - line).toNat < 64)

/-- The purge itself: buffered lines go, and fetches of removed lines are discarded; their threads, wherever their
contexts stand, request the line again (R83). -/
def State.purge (s : State) (core : Nat) (lo len : W64) (all : Bool) : State :=
  let hit := fun va : W64 => all || lineOverlaps va lo len
  let s := s.modCore core fun c => { c with lines := c.lines.filter fun l => !hit l.va }
  (s.core core).contexts.foldl (fun s slot =>
    match (s.thread core slot).findWait isFetch with
    | some ⟨_, _, .fetch va _ _⟩ => if hit va then s.endWait core slot isFetch id else s
    | _ => s) s

/-- lbpurge waits for the thread's posted stores, then purges (R83). It translates no address, and uses the bits of a
poisoned operand (log 33, DEDUCED). -/
def execLbpurge (o : PurgeF) (s : State) : Host.Outcome State Fault Refusal :=
  complete o.g s fun s =>
    let lo := (s.rS o.a.toNat).bits
    let len := (s.rS o.b.toNat).bits
    .ok (.go (s.waitOn .waitingMemory (.release (.purge lo len o.all))))

/-- swtrap traps with the service code in its record's insn (R84). -/
def execSwtrap (o : CodeF) (s : State) : Host.Outcome State Fault Refusal :=
  complete o.g s fun s => .error (.trap 0x07 (s.rS o.a.toNat).bits)

/-- The 512 bits of a line from its bytes. -/
def lineBits (l : List PByte) : BitVec 512 := BitVec.ofNat 512 (numberOf l)

/-- LINE_ARRIVAL: the line fills the buffer and every thread of the core that waits on it goes on (R17). A
copy in memory that is itself uncorrectable or poisoned raises line storage error with bit 0 set (R357). -/
def execLineArrival (core slot : Nat) (s : State) : Host.Outcome State Fault Refusal :=
  match (s.thread core slot).findWait isFetch with
  | some ⟨m, _, .fetch va entry place⟩ =>
    if s.bankBusy place then notDue s
    else
      let r := s.readLine place
      if poisoned r.2 then
        let s := r.1
        let t := s.thread core slot
        let l := match t.latch with
          | some l => { l with mem := m, fetch := false }
          | none => ⟨t.pc, 0, none, 0, false, true⟩
        .next ((s.takeTrap core slot 0x0C (va + 1) l).syncAway core slot t)
      else
        let s := r.1.touchRow place .dflt
        let tag := BitVec.ofNat 16 (s.reach core entry).tagsel
        let s := s.modCore core fun c => c.addLine ⟨va, tag, lineBits r.2⟩
        .next ((s.core core).contexts.foldl (fun s k =>
          match (s.thread core k).findWait isFetch with
          | some ⟨_, _, .fetch va' e' _⟩ =>
            if va' = va ∧ e' = entry then s.endWait core k isFetch id else s
          | _ => s) s)
  | _ => notDue s

end Sys2Proof.Machine
end

