-- ==== Sys2Proof/Machine/Links.lean ====
section
/-! DEFINITION. Links.lean: one end of a Brudalo link: sequence numbers, replay, header tables and retraining (R420 to
R422), with DOMCFG and the wiring (R423). -/

namespace Sys2Proof.Machine

/-- LNKST of a port (Table 18.4). -/
def linkReg (dev port : Nat) : Nat := spaceBase (dev * 512) 3 + 0x361000 + 8 * port

/-- The seep counter of a lane (R422). -/
def laneSeep (dev port lane : Nat) : Nat := spaceBase (dev * 512) 3 + 0x360000 + 64 * port + 8 * lane

def Device.port (d : Device) (p : Nat) : Port := SMap.get Port.reset d.ports p
def State.port (s : State) (dev p : Nat) : Port := (s.device dev).port p
def State.setPort (s : State) (dev p : Nat) (x : Port) : State :=
  s.modDevice dev fun d => { d with ports := SMap.set d.ports p x }

/-- LNKST.state: 0 down, 1 training, 2 up, 3 in reset. -/
def State.linkState (s : State) (dev p : Nat) : Nat := bitsOf (s.reg (linkReg dev p)) 63 62
def State.setLinkState (s : State) (dev p n : Nat) : State :=
  s.setReg (linkReg dev p) (setBits (s.reg (linkReg dev p)) 63 62 n)

/-- The device and port at the other end, as LNKST tells them. -/
def State.linkPeer (s : State) (dev p : Nat) : Nat × Nat :=
  (bitsOf (s.reg (linkReg dev p)) 39 29, bitsOf (s.reg (linkReg dev p)) 28 24)

def State.linkUp (s : State) (dev p : Nat) : Bool := p < 18 && s.linkState dev p = 2 && !(s.port dev p).training

/-! DOMCFG and the wiring (R423). -/

/-- DOMCFG of a device (Table 18.7). -/
def domcfgReg (dev : Nat) : Nat := spaceBase (dev * 512) 3 + 0x370000

/-- What wellhead writes into DOMCFG of a device in a domain of `ngroups` groups of `gsize` devices. -/
def domcfg (dev gsize ngroups : Nat) : W64 :=
  w64 (2 ^ 63 + ngroups % 128 * 2 ^ 43 + gsize % 32 * 2 ^ 38 + dev % 2048 * 2 ^ 27 + bit01 (dev % 16 = 0))

/-- A domain layout that a device can have. -/
def domainOk (dev gsize ngroups : Nat) : Bool :=
  1 ≤ gsize && gsize ≤ 16 && 1 ≤ ngroups && ngroups ≤ 72 && dev % 16 < gsize && dev / 16 < ngroups

/-- The port of a bridge device that joins the host. -/
def hostPort (dev port : Nat) : Bool := dev % 16 = 0 && port = 17

/-- An index put into its place in a list of indices that rises by rank, equal ranks by index. -/
def insertRank (rank : Nat → Nat) (x : Nat) : List Nat → List Nat
  | [] => [x]
  | y :: l => if rank x < rank y ∨ (rank x = rank y ∧ x < y) then x :: y :: l else y :: insertRank rank x l

/-- The indices to which ports 0 to 14 of a device lead, in the order of the ports: every other index of a group of 16, so
that each pair of a group is joined (R423; log 42, DESIGN CHOICE). -/
def portIndices (dev : Nat) : List Nat :=
  ((List.range 16).filter (· ≠ dev % 16)).foldr (insertRank (Config.portRank dev)) []

/-- The port of a device that leads to an index of its group. -/
def portTo (dev index : Nat) : Nat := (portIndices dev).idxOf index

/-- Whether two ports on the fabric can be joined: of devices of different groups of the domain, and neither a host's. -/
def State.joins (s : State) (dev : Nat) (peer : Nat × Nat) : Bool :=
  let c := s.reg (domcfgReg dev)
  peer.1 % 16 < bitsOf c 42 38 && peer.1 / 16 < bitsOf c 49 43 && peer.1 / 16 ≠ dev / 16 && 15 ≤ peer.2 && peer.2 < 18
    && !hostPort peer.1 peer.2

/-- What stands at the other end of a port: the host, the port of another device of the group, or over the fabric the port
of a device with which it is joined both ways; none where nothing does (R423). -/
def State.wired (s : State) (dev port : Nat) : Option (Nat × Nat) :=
  let at_ := fun (d p : Nat) => ((Config.linkPeer d p).1.toNat, (Config.linkPeer d p).2.toNat)
  if hostPort dev port then some (0x7FF, (Config.linkPeer dev port).2.toNat)
  else if port < 15 then
    match (portIndices dev)[port]? with
    | some k =>
      if k < bitsOf (s.reg (domcfgReg dev)) 42 38 then
        let peer := dev / 16 * 16 + k
        some (peer, portTo peer (dev % 16))
      else none
    | none => none
  else
    let peer := at_ dev port
    if port < 18 && s.joins dev peer && at_ peer.1 peer.2 = (dev, port) then some peer else none

/-- Whether packets between two devices pass a port: between devices of one group the port that joins them directly, and
from group to group a port to the fabric at either end, which of them is not stated (R423; log 43, DEDUCED). -/
def State.carries (s : State) (dev port a b : Nat) : Bool :=
  if hostPort dev port then false
  else if port < 15 then (s.wired dev port).any fun peer => (a = dev && b = peer.1) || (a = peer.1 && b = dev)
  else a / 16 ≠ b / 16 && (a = dev || b = dev)

/-! Sending (R420, R421). -/

/-- A packet that installs an entry. -/
def installsEntry (k : LinkPacket) (e : Nat) : Bool :=
  match k.header with
  | .install _ f => f = e
  | _ => false

/-- The packets that are not acknowledged. -/
def Port.unacked (x : Port) : List LinkPacket := x.replay.map Prod.fst

/-- The flits of the replay buffer. -/
def Port.flits (x : Port) : Nat := (x.unacked.map LinkPacket.flits).sum

/-- Whether a sender can encode a header now: an index only from its acknowledged copy, with no install of the entry on its
way (R421). -/
def Port.admits (x : Port) (h : LinkHeader) : Bool :=
  match h with
  | .full pre => pre < 2 ^ 42
  | .install pre e => pre < 2 ^ 42 && e < 32
  | .index e => e < 32 && (x.txTable.any fun k => k.1 = e) && !x.unacked.any fun k => installsEntry k e

/-- Whether a port can send a packet as its next one: its replay buffer of 1,024 flits takes it. -/
def Port.canSend (x : Port) (k : LinkPacket) : Bool :=
  k.seq = x.txNext && 1 ≤ k.flits && x.flits + k.flits ≤ 1024 && x.admits k.header

/-- A port sends a new packet, which stays in its replay buffer until it is acknowledged. -/
def Port.send (x : Port) (k : LinkPacket) (cycle : Nat) : Port :=
  { x with replay := x.replay ++ [(k, 0)], wire := x.wire ++ [k], txNext := (x.txNext + 1) % 4096,
           oldest := if x.replay.isEmpty then cycle else x.oldest }

/-- A port sends a packet. -/
def State.sendPacket (s : State) (dev p : Nat) (k : LinkPacket) : State :=
  if s.linkUp dev p && (s.port dev p).canSend k then s.setPort dev p ((s.port dev p).send k s.cycle) else s

/-! Receiving. -/

/-- An install takes effect in a copy of the header table. -/
def installHeader (l : SMap Nat) (k : LinkPacket) : SMap Nat :=
  match k.header with
  | .install pre e => SMap.set l e pre
  | _ => l

/-- The receiver takes a packet whose flits pass: the one it expects, which it acknowledges, and no other (R420). -/
def Port.receive (x : Port) (k : LinkPacket) : Port :=
  if k.seq = x.rxNext then
    { x with rxNext := (x.rxNext + 1) % 4096, rxTable := installHeader x.rxTable k, accepted := x.accepted ++ [k],
             answers := x.answers ++ [(true, k.seq)] }
  else x

/-- A flit of a packet fails its CRC: the packet is dropped, and a negative acknowledgement names the one expected. -/
def Port.reject (x : Port) (lane cycle : Nat) : Port :=
  { x with answers := x.answers ++ [(false, x.rxNext)], fails := recordFail x.fails lane cycle }

/-- LINK_PACKET_RECEIVE: the oldest packet on its way arrives at a port. The host's end is not modelled, so that any
packet can come from it (log 121, DESIGN CHOICE). The manual does not name the lane of a flit that fails (log 3, DESIGN
CHOICE). -/
def execLinkPacketReceive (device port : Nat) (packet : LinkPacket) (crcOk : Bool) (s : State) :
    Host.Outcome State Fault Refusal :=
  let peer := s.linkPeer device port
  let known := peer.1 ≠ 0x7FF
  let x := s.port peer.1 peer.2
  if !s.linkUp device port || (known && x.wire.head? ≠ some packet) then notDue s
  else
    let s := if known then s.setPort peer.1 peer.2 { x with wire := x.wire.tail } else s
    if crcOk then .next (s.setPort device port ((s.port device port).receive packet))
    else
      let r := s.takeFresh
      let lane := bitsOf r.1 2 0
      .next ((r.2.setPort device port ((r.2.port device port).reject lane s.cycle)).seepAdd (laneSeep device port lane) 1)

/-- The packets of a replay buffer up to the one with a sequence number, and the others. -/
def splitAck (seq : Nat) : List (LinkPacket × Nat) → Option (List LinkPacket × List (LinkPacket × Nat))
  | [] => none
  | k :: r => if k.1.seq = seq then some ([k.1], r) else (splitAck seq r).map fun x => (k.1 :: x.1, x.2)

/-- Whether an answer is the oldest that the other end of a port has on its way. -/
def State.answered (s : State) (dev p : Nat) (ack : Bool) (seq : Nat) : Bool :=
  let peer := s.linkPeer dev p
  peer.1 = 0x7FF || (s.port peer.1 peer.2).answers.head? = some (ack, seq)

/-- That answer has arrived. -/
def State.takeAnswer (s : State) (dev p : Nat) : State :=
  let peer := s.linkPeer dev p
  if peer.1 = 0x7FF then s
  else s.setPort peer.1 peer.2 { s.port peer.1 peer.2 with answers := (s.port peer.1 peer.2).answers.tail }

/-- LINK_ACK_RECEIVE: acknowledged packets leave the replay buffer, and their installs take effect in the sender's copy
(R420, R421). -/
def execLinkAckReceive (device port seq : Nat) (s : State) : Host.Outcome State Fault Refusal :=
  match splitAck seq (s.port device port).replay with
  | some (done, rest) =>
    if !s.linkUp device port || !s.answered device port true seq then notDue s
    else
      let s := s.takeAnswer device port
      let x := s.port device port
      .next (s.setPort device port { x with replay := rest, txTable := done.foldl installHeader x.txTable,
                                            oldest := s.cycle })
  | none => notDue s

/-- The sender sends its packets again, as first sent, from the oldest unacknowledged one on; LNKST counts them (R420). -/
def State.resendAll (s : State) (dev p : Nat) : State :=
  let x := s.port dev p
  let r := linkReg dev p
  let n := Nat.min 0xFFFF (bitsOf (s.reg r) 15 0 + x.replay.length)
  (s.setReg r (setBits (s.reg r) 15 0 n)).setPort dev p
    { x with replay := x.replay.map fun k => (k.1, k.2 + 1), wire := x.wire ++ x.unacked, oldest := s.cycle }

/-- A packet that has been resent eight times: its port retrains before it resends again (R422). -/
def Port.worn (x : Port) : Bool := x.replay.any fun k => decide (8 ≤ k.2)

/-- Whether a port can resend. -/
def State.canResend (s : State) (dev p : Nat) : Bool :=
  s.linkUp dev p && !(s.port dev p).replay.isEmpty && !(s.port dev p).worn

/-- LINK_NAK_RECEIVE: a negative acknowledgement that names the packet the other end expects; with every packet
acknowledged, or one worn, nothing is resent. -/
def execLinkNakReceive (device port seq : Nat) (s : State) : Host.Outcome State Fault Refusal :=
  if !s.linkUp device port || !s.answered device port false seq then notDue s
  else
    let s := s.takeAnswer device port
    .next (if s.canResend device port then s.resendAll device port else s)

/-- LINK_REPLAY_TIMEOUT: no acknowledgement within 2,048 cycles. -/
def execLinkReplayTimeout (device port : Nat) (s : State) : Host.Outcome State Fault Refusal :=
  if s.canResend device port && decide ((s.port device port).oldest + 2048 ≤ s.cycle) then
    .next (s.resendAll device port)
  else notDue s

/-! Retraining (R422). -/

/-- Whether a port that is up has to retrain: a packet has been resent eight times, or a lane has given 16 CRC failures in
2^20 cycles. -/
def Port.mustRetrain (x : Port) (lane cycle : Nat) : Bool := x.worn || failsDue (SMap.get [] x.fails lane) cycle

/-- LINK_RETRAIN: a port that is down trains, for the first time or after a failure; another retraining counts, writes silt
kind 0x09 and adds 16 to the counter of the lane (R422) (log 85, DEDUCED). After three failures in a row only a reset of
the port brings it back. -/
def execLinkRetrain (device port lane : Nat) (s : State) : Host.Outcome State Fault Refusal :=
  let x := s.port device port
  let st := s.linkState device port
  if 18 ≤ port ∨ 8 ≤ lane ∨ x.training ∨ st = 3 ∨ 3 ≤ x.failed ∨ st = 2 ∧ !x.mustRetrain lane s.cycle then notDue s
  else
    let s' := (s.setLinkState device port 1).setPort device port
      { x with training := true, fails := SMap.erase x.fails lane }
    if st = 0 ∧ x.failed = 0 then .next s'
    else
      let r := linkReg device port
      let w := s'.reg r
      let s' := s'.setReg r (setBits w 23 16 (Nat.min 0xFF (bitsOf w 23 16 + 1)))
      .next ((s'.silt device 0x09 port port 0).seepAdd (laneSeep device port lane) 16)

/-- The packets and tables of one end are lost, and it is in reset. -/
def State.resetEnd (s : State) (dev p : Nat) : State := (s.setPort dev p Port.reset).setLinkState dev p 3

/-- The packets and tables of a port are lost (R426), at both ends of its link, so that the copies of R421 go on
agreeing (log 43, DEDUCED). -/
def State.resetPort (s : State) (dev p : Nat) : State :=
  let peer := s.linkPeer dev p
  let s := s.resetEnd dev p
  if peer.1 = 0x7FF ∨ (s.linkState peer.1 peer.2 ≠ 2 ∧ s.linkState peer.1 peer.2 ≠ 1) then s
  else s.resetEnd peer.1 peer.2

/-- The end of a port's reset: its ends train. -/
def State.portBack (s : State) (dev p : Nat) : State :=
  let peer := s.linkPeer dev p
  let up := fun (s : State) (d q : Nat) =>
    if s.linkState d q = 3 then
      (s.setLinkState d q 1).setPort d q { s.port d q with training := true }
    else s
  up (up s dev p) peer.1 peer.2

/-- LINK_RETRAIN_END: the port is up again with its packets and tables, and resends from the oldest unacknowledged packet;
after three failures in a row a reset of the port is raised. A port that joins nothing does not come up. -/
def execLinkRetrainEnd (device port : Nat) (ok : Bool) (s : State) : Host.Outcome State Fault Refusal :=
  let x := s.port device port
  if !x.training then notDue s
  else if ok then
    match s.wired device port with
    | none => notDue s
    | some peer =>
      let w := setBits (setBits (s.reg (linkReg device port)) 39 29 peer.1) 28 24 peer.2
      let w := setBits w 15 0 (Nat.min 0xFFFF (bitsOf w 15 0 + x.replay.length))
      let s := (s.setReg (linkReg device port) w).setLinkState device port 2
      .next (s.setPort device port
        { x with training := false, failed := 0, replay := x.replay.map fun k => (k.1, 0), wire := x.unacked,
                 oldest := s.cycle })
  else
    let s := (s.setLinkState device port 0).setPort device port { x with training := false, failed := x.failed + 1 }
    .next (if x.failed + 1 < 3 then s else s.raiseReset device .port (device * 32 + port) .matrix)

end Sys2Proof.Machine
end

