-- ==== Sys2Proof/Machine/Observe.lean ====
section
/-! DEFINITION. Observe.lean: major opcode 0xB2, the trace, breakpoints, droop capture, gauges and the silt record
(R375 leak, R391 to R405). -/

namespace Sys2Proof.Machine

/-- mark (R396). -/
def execMark (o : CodeF) (s : State) : Host.Outcome State Fault Refusal :=
  complete o.g s fun s =>
    let core := s.cur.core
    let rec_ := traceWord 1 s.cur.slot (o.code.toNat * 2 ^ 24 + bitsOf (s.rS o.a.toNat).bits 23 0)
    .ok (.done (if s.tracing core s.cth.task then s.tracePush core s.cycle rec_ else s))

/-! Breakpoints (R397). -/

/-- An entry that brkpt refuses. -/
def brkRefused (addr ctl : W64) : Bool :=
  let k := bitsOf ctl 62 60
  let len := bitsOf ctl 31 0
  bitsOf ctl 59 32 ≠ 0 || 5 ≤ k || (1 ≤ k && k ≤ 3 && len = 0) || (k = 4 && (len ≠ 0 || addr ≠ 0))

/-- brkpt: the entry goes to every device of the domain. -/
def execBrkpt (o : SVS) (s : State) : Host.Outcome State Fault Refusal :=
  complete o.g s fun s => headOnly 0xB2 1 s (
    let v := (s.rV o.a.toNat).bits
    let i := (s.rS o.b.toNat).bits.toNat
    if 7 < i then .ok (.done (s.wClean o.d.toNat 1))
    else if brkRefused (lane64 v 1) (lane64 v 2) then .ok (.done (s.wClean o.d.toNat 2))
    else .ok (.go (s.waitOn .waitingMessage (.brkpt o.d.toNat i (lane64 v 0) (lane64 v 1) (lane64 v 2)))))

/-- A device takes an entry, its cores with it (log 35, DEDUCED). -/
def State.setBrk (s : State) (i : Nat) (w0 w1 w2 : W64) (dev : Nat) : State :=
  ((s.setReg (brkReg dev i 0) w0).setReg (brkReg dev i 1) w1).setReg (brkReg dev i 2) w2

def isBrkpt : Wait → Bool
  | .brkpt .. => true
  | _ => false

/-- BRKPT_COMPLETE: every core of every device holds the entry, or the devices in `failed` did not acknowledge
within 65,536 cycles and the others hold it. -/
def execBrkptComplete (core slot : Nat) (failed : List Nat) (s : State) : Host.Outcome State Fault Refusal :=
  match (s.thread core slot).findWait isBrkpt with
  | some ⟨_, at0, .brkpt d i w0 w1 w2⟩ =>
    let all := s.domainDevices (deviceOfCore core)
    let bad := failed.any all.contains
    if bad && s.cycle < at0 + 65536 then notDue s
    else
      let s := (all.filter fun x => !failed.contains x).foldl (fun s x => s.setBrk i w0 w1 w2 x) s
      .next (s.endWait core slot isBrkpt fun t => t.setClean d (if bad then 3 else 0))
  | _ => notDue s

/-! The trace (R392 to R395). -/

/-- A write of TRCTL (Table 16.3): en = 1 over en = 0 starts a fresh trace with a timestamp. -/
def State.writeTrctl (s : State) (core : Nat) (v : W64) : State :=
  let r := traceReg core 0
  let old := s.reg r
  let s := s.setReg r (v &&& 0xE00000000000FFFF)
  if bitOf v 63 && !bitOf old 63 then
    let s := ((s.setReg (r + 0x10) 0).setReg (r + 0x18) 0).setReg (r + 0x20) 0
    s.modCore core fun c =>
      { c with traceWait := [(s.cycle, traceWord 3 0 (s.now (deviceOfCore core) % 2 ^ 40))], traceFrom := s.cycle,
               traceLast := s.cycle, traceDrop := 0, traceLost := false, traceScopes := [] }
  else s

/-- TRACE_ENABLE: a write with en = 1 reaches TRCTL of a core that does not trace. -/
def execTraceEnable (core : Nat) (v : W64) (s : State) : Host.Outcome State Fault Refusal :=
  if bitOf v 63 ∧ bitOf (s.reg (traceReg core 0)) 63 = false then .next (s.writeTrctl core v) else notDue s

/-- A record takes its place in the ring, and then widx advances (R395). -/
def State.putTrace (s : State) (core at0 : Nat) (rec_ : W64) (delta : Nat) : State :=
  let buf := s.reg (traceReg core 8)
  let widx := bitsOf (s.reg (traceReg core 0x10)) 31 0
  let p := spaceBase (tileOfCore core) 1 + bitsOf buf 21 6 * 64 + 8 * (widx % 2 ^ bitsOf buf 3 0)
  let s := s.perform (cleanWrites p (bytesOf 8 (setBits rec_ 56 40 delta).toNat)) none
  (s.setReg (traceReg core 0x10) (w64 ((widx + 1) % 2 ^ 32))).modCore core fun c => { c with traceLast := at0 }

/-- The key under which the cycle of the latest trace write of a core stands. -/
def traceTimer (core : Nat) : Nat := 2 ^ 81 + core

/-- A timestamp record. Its own delta, when it does not fit the field, is not stated: a free value (log 24,
DESIGN CHOICE). -/
def State.putTimestamp (s : State) (core at0 : Nat) : State :=
  let gap := at0 - (s.core core).traceLast
  let now := s.now (deviceOfCore core) - (s.cycle - at0)
  let f := s.takeFresh
  if gap ≤ 131071 then s.putTrace core at0 (traceWord 3 0 (now % 2 ^ 40)) gap
  else f.2.putTrace core at0 (traceWord 3 0 (now % 2 ^ 40)) (bitsOf f.1 16 0)

/-- TRACE_RECORD_WRITE: the oldest waiting record is written once its cycle is over, so that the records of the cycle
stand by slot (R394), one a cycle, behind a lost record and a timestamp
after drops and behind a timestamp after a long gap; while a ring that does not wrap is full it is dropped. -/
def execTraceRecordWrite (core : Nat) (s : State) : Host.Outcome State Fault Refusal :=
  let c := s.core core
  match c.traceWait with
  | [] => notDue s
  | (at0, rec_) :: rest =>
    if s.cycle ≤ at0 || (SMap.get 0 s.timers (traceTimer core) = s.cycle + 1) then notDue s
    else
      let s := { s with timers := SMap.set s.timers (traceTimer core) (s.cycle + 1) }
      let widx := bitsOf (s.reg (traceReg core 0x10)) 31 0
      let ridx := bitsOf (s.reg (traceReg core 0x18)) 31 0
      let room := 2 ^ bitsOf (s.reg (traceReg core 8)) 3 0
      if !bitOf (s.reg (traceReg core 0)) 62 && (widx + 2 ^ 32 - ridx) % 2 ^ 32 = room then
        let w := s.reg (traceReg core 0x20)
        let s := s.setReg (traceReg core 0x20) (setBits w 31 0 (min 0xFFFFFFFF (bitsOf w 31 0 + 1)))
        .next (s.modCore core fun c =>
          { c with traceWait := rest, traceDrop := c.traceDrop + 1, traceLost := true })
      else if c.traceDrop ≠ 0 then
        let s := s.putTrace core at0 (traceWord 4 0 (c.traceDrop % 2 ^ 40)) (min 131071 (at0 - c.traceLast))
        .next (s.modCore core fun c => { c with traceDrop := 0 })
      else if c.traceLost then
        .next ((s.putTimestamp core at0).modCore core fun c => { c with traceLost := false })
      else if 131071 < at0 - c.traceLast then .next (s.putTimestamp core at0)
      else
        let s := s.putTrace core at0 rec_ (at0 - c.traceLast)
        .next (s.modCore core fun c => { c with traceWait := rest })

/-! Droop capture (R400, R401). -/

/-- The capture registers of a domain: a group's die. -/
def droopReg (tile : Nat) (compute : Bool) (off : Nat) : Nat :=
  spaceBase (groupHead tile) 3 + (if compute then 0x320100 else 0x320000) + off

/-- The core at position k of a group's die. -/
def groupCore (tile k : Nat) (compute : Bool) : Nat :=
  let t := groupHead tile + k / 4 * 16 + k % 4
  if compute then computeOf t else stagingOf t

/-- The sample of a core (Table 16.8): its latest issue in this cycle or the 15 before. -/
def State.droopSample (s : State) (core : Nat) : W64 :=
  match (s.core core).lastUnit with
  | some (c, slot, pc) =>
    if s.cycle < c + 16 ∧ s.running core then w64 (2 ^ 63 + slot * 2 ^ 52 + bitsOf pc 47 0) else 0
  | none => 0

/-- The tiles of a tile's group. -/
def groupTiles (tile : Nat) : List Nat := (List.range 16).map fun k => groupHead tile + k / 4 * 16 + k % 4

/-- DROOP_TRIP: the detector of a group's die trips. A capture comes behind the issues of its cycle (R401). -/
def execDroopTrip (tile : Nat) (compute : Bool) (s : State) : Host.Outcome State Fault Refusal :=
  let h := droopReg tile compute 0
  let hdr := s.reg h
  let dev := deviceOfTile tile
  if bitsOf hdr 2 0 = 0 then notDue s
  else if bitOf hdr 63 then .next (s.setReg h (setBits hdr 47 32 (min 0xFFFF (bitsOf hdr 47 32 + 1))))
  else if !(groupTiles tile).all s.issuesDone then notDue s
  else
    let s := (groupTiles tile).foldl State.closeIssues s
    let now := w64 (s.now dev)
    let s := (s.setReg h (setBit hdr 63 true)).setReg (h + 8) now
    let s := (List.range 16).foldl (fun s k =>
      let core := groupCore tile k compute
      let s := s.setReg (h + 0x10 + 8 * k) (s.droopSample core)
      if bitOf (s.reg (traceReg core 0)) 63 then s.tracePush core s.cycle (traceWord 5 0 (bitsOf now 39 0)) else s) s
    let s := s.notify (stagingOf (groupHead tile)) ⟨0x1A, 0, 0, [now]⟩
    .next (s.silt dev 0x03 (bit01 compute) (groupCore tile 0 compute % 1024) now)

/-! Gauges (R402, R403). -/

/-- Whether gsel refuses a configuration. -/
def gselRefused (core : Nat) (v : W64) : Bool :=
  let src := bitsOf v 15 8
  bitsOf v 47 16 ≠ 0 || bitsOf v 3 1 ≠ 0 || src = 0 || 0x0B < src || (src = 9 && isCompute core)

def execGsel (o : GselF) (s : State) : Host.Outcome State Fault Refusal :=
  complete o.g s fun s => headOnly 0xB2 2 s (do
    let v := (s.rS o.a.toNat).bits
    let core := s.cur.core
    need (!gselRefused core v) badOperand
    let g := { Gauge.reset with cfg := v }
    return .done (s.modCore core fun c =>
      { c with gauges := SMap.set c.gauges o.gauge.toNat g, gaugeAt := SMap.erase c.gaugeAt o.gauge.toNat }))

/-- An item of a gauge. -/
def Gauge.item (g : Gauge) (i : Nat) : W64 :=
  match i with
  | 0 => g.min.setWidth 64
  | 1 => g.max.setWidth 64
  | 2 => g.count.setWidth 64
  | 3 => g.cfg
  | k => (SMap.get 0 g.bins (k - 4)).setWidth 64

/-- grd reads what the gauge held before the cycle of its issue. -/
def execGrd (o : GrdF) (s : State) : Host.Outcome State Fault Refusal :=
  complete o.g s fun s =>
    let c := s.core s.cur.core
    let i := o.gauge.toNat
    let g := if SMap.get 0 c.gaugeAt i = s.cycle + 1 then SMap.get Gauge.reset c.gaugeOld i else c.gauge i
    .ok (.done (s.wClean o.d.toNat (g.item o.item.toNat)))

/-- The value of a level source (R402). -/
def State.levelOf (s : State) (core src : Nat) : Nat :=
  let tile := tileOfCore core
  match src with
  | 8 => (s.tile tile).engineQ.length
  | 9 => (s.tile tile).inbox.length
  | 0x0A =>
    ((List.range 16).filter fun k =>
      (s.thread core k).state = .ready && decide ((s.thread core k).readyAt ≤ s.cycle)).length
  | _ => bitsOf (s.reg2 tile (if isCompute core then 0x808 else 0x800)) 4 0

/-- LEVEL_SOURCE_SAMPLE: once a cycle, each enabled gauge with a level source samples it. -/
def execLevelSourceSample (core : Nat) (s : State) : Host.Outcome State Fault Refusal :=
  if !s.levelDue core then notDue s
  else
    let c := (List.range 4).foldl (fun c i =>
      let g := c.gauge i
      if g.isLevel then c.sampleGauge s.cycle i (s.levelOf core (bitsOf g.cfg 15 8)) else c) (s.core core)
    .next { s.setCore core c with timers := SMap.set s.timers (levelTimer core) (s.cycle + 1) }

/-! Seep counters and the silt record. -/

/-- SEEP_LEAK: a nonzero fill falls by one every 2^(leak + 10) cycles (R375). -/
def execSeepLeak (place : Nat) (s : State) : Host.Outcome State Fault Refusal :=
  let p := place / 8 * 8
  let w := s.reg p
  let last := SMap.get 0 s.timers (p / 8)
  let gap := 2 ^ (bitsOf w 35 32 + 10)
  if bitsOf w 15 0 = 0 ∨ s.cycle < last + gap then notDue s
  else
    let s := s.setReg p (setBits w 15 0 (bitsOf w 15 0 - 1))
    .next ({ s with timers := SMap.set s.timers (p / 8) (last + gap) }.seepRearm p)

def siltSeqReg (dev : Nat) : Nat := spaceBase (dev * 512) 3 + 0x330000
def siltTimer (dev : Nat) : Nat := 2 ^ 82 + dev

/-- An entry gets its number and stands in the record of the latest 4,096 (R404). -/
def State.siltPut (s : State) (dev : Nat) (e : Silt) : State :=
  let seq := (s.reg (siltSeqReg dev)).toNat
  let s := (s.setReg (siltSeqReg dev) (w64 (seq + 1))).modDevice dev fun d =>
    let l := d.silt ++ [{ e with seq := seq }]
    { d with silt := l.drop (l.length - 4096) }
  { s with timers := SMap.set s.timers (siltTimer dev) (s.cycle + 64) }

/-- SILT_ENTRY_WRITE: the complex writes one entry per 64 cycles, once the cycle of its event is over, so that the events
of the cycle stand in order; after an overflow, first the count of what was
dropped (R404). -/
def execSiltEntryWrite (dev : Nat) (s : State) : Host.Outcome State Fault Refusal :=
  let d := s.device dev
  if s.cycle < SMap.get 0 s.timers (siltTimer dev) then notDue s
  else if d.siltDrop ≠ 0 then
    let e : Silt := ⟨0, s.now dev, d.epoch, 0x0F, 0, 0, w64 d.siltDrop⟩
    .next ((s.siltPut dev e).modDevice dev fun d => { d with siltDrop := 0 })
  else match d.siltQ with
    | [] => notDue s
    | e :: r =>
      if e.epoch = d.epoch ∧ s.now dev ≤ e.cycle then notDue s
      else .next ((s.siltPut dev e).modDevice dev fun d => { d with siltQ := r })

/-- siltrd (R405): the thread waits for the management complex. -/
def execSiltrd (o : VS) (s : State) : Host.Outcome State Fault Refusal :=
  complete o.g s fun s => headOnly 0xB2 4 s (
    .ok (.go (s.waitOn .waitingMemory (.siltrd o.d.toNat (s.rS o.a.toNat).bits))))

/-- The 16 lanes of an entry, zero when it is not held. An entry is readable from the cycle after its write. -/
def State.siltVec (s : State) (dev : Nat) (seq : W64) : VVal :=
  let next := (s.reg (siltSeqReg dev)).toNat
  let fresh := seq.toNat + 1 = next && SMap.get 0 s.timers (siltTimer dev) = s.cycle + 64
  match (s.device dev).silt.find? fun e => e.seq = seq.toNat with
  | some e =>
    if fresh then ⟨0, 0⟩
    else ⟨packLanes 64 [e.seq, e.cycle, e.epoch * 2 ^ 48 + e.kind * 2 ^ 40 + e.subcode * 2 ^ 32 + e.unit,
      e.info.toNat, 1], 0⟩
  | none => ⟨0, 0⟩

def isSiltrd : Wait → Bool
  | .siltrd .. => true
  | _ => false

end Sys2Proof.Machine
end

