-- ==== Sys2Proof/Machine/Regs.lean ====
section
/-! DEFINITION. Regs.lean: the registers of spaces 2 and 3 as loads read them and stores write them (R196, R209, R272,
R293, R298, R301, R375, R378, R389, R392, R400, R404, R408, R416 to R423, R429). -/

namespace Sys2Proof.Machine

/-! Reading. -/

/-- AGSTAT: the messages refused, in flight, in the backwater and in the inbox, at one instant (R196). -/
def State.agstat (s : State) (tile : Nat) : W64 :=
  let t := s.tile tile
  w64 (bitsOf (s.reg2 tile 0x18) 63 48 * 2 ^ 48 + (t.inflight.length + bit01 t.handler.isSome) * 2 ^ 35
    + t.backwater.length * 2 ^ 7 + t.inbox.length)

/-- SWSTAT (Table 15.9). -/
def Core.swstat (c : Core) : W64 :=
  w64 (bit01 c.swapPend.isSome * 2 ^ 63 + c.swapErr % 8 * 2 ^ 60 + c.shadowTile.state % 4 * 2 ^ 32
    + packNat 2 ((List.range 16).map fun n => (c.shadowSlot n).state % 4))

/-- PGCTL with the cycles left to acknowledge (Table 15.9). -/
def State.pgctl (s : State) (core : Nat) : W64 :=
  let w := s.reg (gateReg core)
  setBits w 31 0 (if bitOf w 63 then Nat.min 0xFFFFFFFF ((s.core core).gateDue - s.cycle) else 0)

/-- A register of space 2 as a load reads it, none at an offset that no table lists. -/
def State.readReg2 (s : State) (tile off : Nat) : Option W64 :=
  let e := (s.tile tile).eng
  if off = 0x18 then some (s.agstat tile)
  else if off < 0x38 then some (s.reg2 tile off)
  else if 0x100 ≤ off ∧ off < 0x388 then some (s.reg2 tile off)
  else if off = 0x388 then some e.bfctl
  else if 0x390 ≤ off ∧ off < 0x3B0 then some ((SMap.get 0 e.aexp ((off - 0x390) / 8) : BitVec 33).setWidth 64)
  else if 0x400 ≤ off ∧ off < 0x800 then some (s.reg2 tile off)
  else if 0x800 ≤ off ∧ off < 0x820 then some (s.reg2 tile off)
  else if 0xA00 ≤ off ∧ off < 0xA28 ∨ 0xB00 ≤ off ∧ off < 0xB28 then some (s.reg2 tile off)
  else none

/-- A pre-emption register of a core at an offset of its block. -/
def State.readSwap (s : State) (core off : Nat) : Option W64 :=
  if off = 0x008 then some (s.core core).swstat
  else if off = 0x020 then some (s.pgctl core)
  else if off = 0x010 ∨ off = 0x018 ∨ 0x100 ≤ off ∧ off < 0x180 then some (s.reg (preReg core off))
  else none

/-- Whether an offset names a seep counter of a tile (R375, R422). -/
def isSeepReg (tile off : Nat) : Bool :=
  (0x300000 ≤ off && off < 0x300100) || (off = 0x300100 && groupHead tile = tile)
    || (tile % 512 = 0 && 0x360000 ≤ off && off < 0x360480)

/-- Whether an offset names a droop capture register of a tile (R400). -/
def isDroopReg (tile off : Nat) : Bool :=
  groupHead tile = tile && 0x320000 ≤ off && off < 0x320200 && off % 0x100 < 0x90

/-- A register of the service space as a load reads it. -/
def State.readReg3 (s : State) (tile off : Nat) : Option W64 :=
  if off < 0x100 then some (s.gmapWord tile (off / 8))
  else if tile % 128 = 0 ∧ 0x100000 ≤ off ∧ off < 0x100200 then some (s.reg3 tile off)
  else if 0x200000 ≤ off ∧ off < 0x200180 then s.readSwap (stagingOf tile) (off - 0x200000)
  else if 0x201000 ≤ off ∧ off < 0x201180 then s.readSwap (computeOf tile) (off - 0x201000)
  else if isSeepReg tile off ∨ isDroopReg tile off then some (s.reg3 tile off)
  else if off = 0x310008 then some (s.reg3 tile off)
  else if 0x350000 ≤ off ∧ off < 0x350118 ∨ off = 0x350200 then some (s.reg3 tile off)
  else if tile % 512 = 0 ∧ (off = 0x330000 ∨ 0x340000 ≤ off ∧ off < 0x340100 ∨ 0x361000 ≤ off ∧ off < 0x361090
      ∨ off = 0x370000 ∨ 0x400000 ≤ off ∧ off < 0x420000) then some (s.reg3 tile off)
  else none

/-- The register word at a place, at one instant (R408), none where no field of it has a stated value to read. -/
def State.peekReg (s : State) (place : Nat) : Option W64 :=
  let off := offsetOfPlace place / 8 * 8
  if spaceOfPlace place = 2 then s.readReg2 (tileOfPlace place) off
  else if spaceOfPlace place = 3 then s.readReg3 (tileOfPlace place) off
  else none

/-- The write-only fields of a word of the service space; every other bit of such a word is reserved and reads as zero
(R5, Tables 15.9 and 15.14). -/
def writeOnly (off : Nat) : W64 :=
  if off = 0x200000 ∨ off = 0x201000 then 0xE00000000000FFFF
  else if off = 0x200020 ∨ off = 0x201020 then 0x4000000000000000
  else if off = 0x310000 then 0xC0000000000FFFFF
  else if off = 0x310010 then 3
  else 0

/-- The bits of a register word whose value to a read no table states: its write-only fields, and the whole word at an
offset that no table lists (log 4, DESIGN CHOICE). -/
def State.freeBits (s : State) (place : Nat) : W64 :=
  let wo := if spaceOfPlace place = 3 then writeOnly (offsetOfPlace place / 8 * 8) else 0
  if wo = 0 ∧ s.peekReg place = none then BitVec.allOnes 64 else wo

/-- A register word as a load reads it. -/
def State.readReg (s : State) (place : Nat) : W64 × State :=
  let m := s.freeBits place
  let w := (s.peekReg place).getD 0
  if m = 0 then (w, s)
  else
    let r := s.takeFresh
    ((w &&& ~~~m) ||| (r.1 &&& m), r.2)

/-- `n` bytes of registers from a place on (log 23, DEDUCED). -/
def State.readRegs (s : State) (place n : Nat) : State × List PByte :=
  let words := (List.range ((place + n + 7) / 8 - place / 8)).map fun i => place / 8 * 8 + 8 * i
  let r := words.foldl (fun (a : State × List PByte) p =>
    let x := a.1.readReg p
    (x.2, a.2 ++ cleanBytes 8 x.1.toNat)) (s, [])
  (r.1, (r.2.drop (place % 8)).take n)

/-! Writing. -/

/-- Whether the agent holds no message outside its in-flight list, so that AGHEAP, AGHSIZE and HTBASE take a write
(R196). -/
def State.agentIdle (s : State) (tile : Nat) : Bool :=
  (s.tile tile).inbox.isEmpty && (s.tile tile).backwater.isEmpty

/-- A head-mode write of a vault or agent register (Table 7.14). -/
def State.writeAgentReg (s : State) (tile off : Nat) (v : W64) : State :=
  if !s.agentIdle tile then s
  else if off = 0x20 then s.setReg2 tile off (setBits 0 30 21 (bitsOf v 30 21))
  else if off = 0x28 then
    let n := bitsOf v 10 0
    if 1 ≤ n ∧ n ≤ 1024 then s.setReg2 tile off (w64 n) else s
  else if off = 0x30 ∧ bitsOf v 8 0 = 0 then s.setReg2 tile off v
  else s

/-- A head-mode write of a word of a region descriptor (Table 8.2). -/
def State.writeRegionWord (s : State) (tile i w : Nat) (v : W64) : State :=
  match w with
  | 0 => s.writeRegion tile i v
  | 3 => s.writeFloor tile i v true
  | 1 => if (s.region tile i).en then s else s.setReg (regionReg tile i 1) (v &&& 0xFFFFFFC3)
  | _ => if (s.region tile i).en then s else s.setReg (regionReg tile i 2) (v &&& 0x7FFFFFC0)

/-- A head-mode write of a word of a completion ring (Table 11.5). -/
def State.writeRingWord (s : State) (tile n w : Nat) (v : W64) : State :=
  match w with
  | 0 => s.writeRing tile n v
  | 2 => s.writeRidx tile n v
  | _ => s

/-- A head-mode write of a word of a queue endpoint (Table 11.6); a write to q0 is ignored (R298). -/
def State.writeQueueWord (s : State) (core ep w : Nat) (v : W64) : State :=
  if ep = 0 then s
  else if w = 0 then s.writeQueue core ep v
  else if w = 1 ∧ !s.qOn core ep then s.setReg (queueReg core ep 1) (v &&& 0x3FFF80)
  else s

/-- A head-mode write of a trace register (Table 16.3). -/
def State.writeTraceWord (s : State) (core off : Nat) (v : W64) : State :=
  let ls := bitsOf v 3 0
  if off = 0 then s.writeTrctl core v
  else if off = 0x08 ∧ bitOf (s.reg (traceReg core 0)) 63 = false then
    let old := setBits (s.reg (traceReg core 8)) 21 6 (bitsOf v 21 6)
    s.setReg (traceReg core 8) (if 6 ≤ ls then setBits old 3 0 ls else old)
  else if off = 0x18 then s.setReg (traceReg core 0x18) (w64 (bitsOf v 31 0))
  else s

/-- A store reaches a register of space 2: one of a task-mode thread changes no RW field (R196). -/
def State.writeReg2 (s : State) (tile off : Nat) (v : W64) (head : Bool) : State :=
  if 0x300 ≤ off ∧ off < 0x380 then
    if bitOf v 16 then s.setReg2 tile off (setBit (s.reg2 tile off) 16 false) else s
  else if !head then s
  else if off < 0x38 then s.writeAgentReg tile off v
  else if 0x100 ≤ off ∧ off < 0x300 then s.writeRegionWord tile ((off - 0x100) / 32) (off % 32 / 8) v
  else if off = 0x380 then s.setReg2 tile off (w64 (bitsOf v 31 0))
  else if 0x400 ≤ off ∧ off < 0x600 then s.writeRingWord tile ((off - 0x400) / 32) (off % 32 / 8) v
  else if 0x600 ≤ off ∧ off < 0x700 then s.writeQueueWord (stagingOf tile) ((off - 0x600) / 32) (off % 32 / 8) v
  else if 0x700 ≤ off ∧ off < 0x800 then s.writeQueueWord (computeOf tile) ((off - 0x700) / 32) (off % 32 / 8) v
  else if off = 0x810 ∨ off = 0x818 then s.setReg2 tile off (w64 (bitsOf v 31 0))
  else if 0xA00 ≤ off ∧ off < 0xA28 then s.writeTraceWord (stagingOf tile) (off - 0xA00) v
  else if 0xB00 ≤ off ∧ off < 0xB28 then s.writeTraceWord (computeOf tile) (off - 0xB00) v
  else s

/-- A write of a seep counter (Table 15.7): its reserved bits take no write (log 69, DEDUCED). -/
def State.writeSeep (s : State) (place : Nat) (v : W64) : State :=
  let w := setBits (s.reg place) 35 16 (bitsOf v 35 16)
  (s.setReg place (if bitOf v 63 then setBit w 63 false else w)).seepRearm place

/-- A write of a pre-emption register (Table 15.9). -/
def State.writeSwap (s : State) (core off : Nat) (v : W64) : State :=
  if off = 0 then s.writeSwcmd core v
  else if off = 0x010 ∨ off = 0x018 then s.setReg (preReg core off) v
  else if off = 0x020 then (if bitOf v 62 then s.ackGate core else s)
  else if 0x100 ≤ off ∧ off < 0x180 ∧ ((s.core core).shadowSlot ((off - 0x100) / 8)).state = 0 then
    s.setReg (preReg core off) v
  else s

/-- A write of a word of a launch queue (Table 4.11). -/
def State.writeQueueReg (s : State) (dev q w : Nat) (v : W64) : State :=
  match w with
  | 0 => s.writeLqbase dev q v
  | 1 => s.writeLqctl dev q v
  | 2 => s.writeLqtail dev q v
  | _ => s

/-- A write of DRPHDR (Table 16.8): missed is cleared with valid. -/
def State.writeDroop (s : State) (place : Nat) (v : W64) : State :=
  let w := setBits (s.reg place) 2 0 (bitsOf v 2 0)
  s.setReg place (if bitOf v 63 then setBits (setBit w 63 false) 47 32 0 else w)

/-- A write of SLPCTL (Table 18.3). -/
def State.writeSleep (s : State) (tile : Nat) (v : W64) : State :=
  let w := setBit (s.reg3 tile 0x350110) 63 (bitOf v 63)
  s.setReg3 tile 0x350110 (if 0x10000 ≤ bitsOf v 31 0 then setBits w 31 0 (bitsOf v 31 0) else w)

/-- A write of VBTST (Table 18.2). -/
def State.writeBusTest (s : State) (tile : Nat) (v : W64) : State :=
  s.setReg3 tile 0x350200 (setBit (s.reg3 tile 0x350200) 63 (bitOf v 63))

/-- What basin may write of the service space: the registers of its own chapter and the seep counters (R429). -/
def basinWrites (tile off : Nat) : Bool := isSeepReg tile off || (0x350000 ≤ off && off < 0x380000)

/-- A write reaches a register of the service space, from a head slot or from basin. -/
def State.writeReg3 (s : State) (tile off : Nat) (v : W64) (head : Bool) : State :=
  if !head && !basinWrites tile off then s
  else if off < 0x100 then s.writeGmap tile (off / 8) v
  else if tile % 128 = 0 ∧ 0x100000 ≤ off ∧ off < 0x100200 then
    s.writeQueueReg (deviceOfTile tile) (stackOfTile tile * 16 + (off - 0x100000) / 32) (off % 32 / 8) v
  else if 0x200000 ≤ off ∧ off < 0x200180 then s.writeSwap (stagingOf tile) (off - 0x200000) v
  else if 0x201000 ≤ off ∧ off < 0x201180 then s.writeSwap (computeOf tile) (off - 0x201000) v
  else if isSeepReg tile off then s.writeSeep (spaceBase tile 3 + off) v
  else if off = 0x310000 then s.writeDrgcmd tile v
  else if off = 0x310010 then s.writeDrgack tile v
  else if isDroopReg tile off ∧ off % 0x100 = 0 then s.writeDroop (spaceBase tile 3 + off) v
  else if off = 0x350110 then s.writeSleep tile v
  else if off = 0x350200 then s.writeBusTest tile v
  else if tile % 512 = 0 ∧ 0x400000 ≤ off ∧ off < 0x420000 then
    s.writeHandle (deviceOfTile tile) ((off - 0x400000) / 32) (off % 32 / 8) v
  else s

/-- A write of a register word at its place, with fresh check bits (R359). -/
def State.writeReg (s : State) (place : Nat) (v : W64) (head : Bool) : State :=
  let off := offsetOfPlace place / 8 * 8
  let s := { s with ecc := s.ecc.filter (· ≠ place / 8 * 8) }
  if spaceOfPlace place = 2 then s.writeReg2 (tileOfPlace place) off v head
  else if spaceOfPlace place = 3 then s.writeReg3 (tileOfPlace place) off v head
  else s

/-- The bits of a register that a write of 1 clears. -/
def clearedByOne (place : Nat) : W64 :=
  let tile := tileOfPlace place
  let off := offsetOfPlace place / 8 * 8
  if spaceOfPlace place = 2 then (if 0x300 ≤ off ∧ off < 0x380 then 0x10000 else 0)
  else if tile % 128 = 0 ∧ 0x100000 ≤ off ∧ off < 0x100200 ∧ off % 32 = 8 then 0xE
  else if isSeepReg tile off ∨ isDroopReg tile off ∧ off % 0x100 = 0 then 0x8000000000000000
  else 0

/-- The word that a store of some of its bytes writes: the others as they read, and 0 where a write of 1 clears
(log 40, DEDUCED). -/
def State.mergeReg (s : State) (place : Nat) (ws : List PWrite) : W64 :=
  let old := ((s.peekReg place).getD 0 &&& ~~~clearedByOne place).toNat
  let byte := fun k : Nat => match ws.find? fun w => w.addr % 8 = k with
    | some w => w.data.toNat
    | none => old / 256 ^ k % 256
  w64 (packNat 8 ((List.range 8).map byte))

/-- Bytes of one register word are stored at one instant; registers carry no marks (log 25, DEDUCED). -/
def State.storeReg (s : State) (ws : List PWrite) (head : Bool) : State :=
  match ws with
  | [] => s
  | w :: _ => s.writeReg (w.addr / 8 * 8) (s.mergeReg (w.addr / 8 * 8) ws) head

/-- The unit whose order a head-mode write of a register word has to keep, and its place there (R212, R337). -/
def regOrder (place : Nat) : Option (Nat × Nat) :=
  match ridxOf place, floorOf place with
  | some (tile, n), _ => some (ringUnit tile n, reserveKey - 1)
  | none, some tile => some (directoryUnit tile, lastFloorKey)
  | none, none => none

/-- REGISTER_WRITE: a write of a register word arrives at its block (R196). -/
def execRegisterWrite (place : Nat) (v : W64) (head : Bool) (s : State) : Host.Outcome State Fault Refusal :=
  if spaceOfPlace place ≠ 2 ∧ spaceOfPlace place ≠ 3 then notDue s
  else match if head then regOrder place else none with
    | none => .next (s.writeReg place v head)
    | some (unit, key) =>
      if s.inOrder unit key then .next ((s.ordered unit key).writeReg place v head) else notDue s

end Sys2Proof.Machine
end

