-- ==== Sys2Proof/Machine/Replies.lean ====
section
/-! DEFINITION. Replies.lean: accesses as their homes perform them: loads, posted stores, atomics, release points and
seals (R22, R197 to R204, R216, R231, R365, R366, R408). -/

namespace Sys2Proof.Machine

/-! Reads at a home. -/

/-- Bytes of one space at one instant. An ordinary access to the own range of a region, or to its version store, finds
the bytes of memory there: versions stand in `State.lines` alone (R211; log 108, DESIGN CHOICE). -/
def State.readPlace (s : State) (place n : Nat) : State × List PByte :=
  if spaceOfPlace place < 2 then s.readBytes place n else s.readRegs place n

/-- The bytes that a load reads, in order, as places and lengths (log 22, DEDUCED). -/
def LoadOp.pieces : LoadOp → List (Nat × Nat)
  | .scalar _ n _ place => [(place, n)]
  | .bits _ _ _ place _ n _ => (List.range n).map fun i => (place + i, 1)
  | .vector _ lanes place _ _ => lanes.map fun i => (place + 4 * i, 4)
  | .gather _ n elems _ => elems.map fun e => (e.2.1, n)
  | .reserve _ n place => [(place, n)]

/-- The bytes of one piece. -/
def LoadOp.unit : LoadOp → Nat
  | .scalar _ n _ _ => n
  | .bits .. => 1
  | .vector .. => 4
  | .gather _ n _ _ => n
  | .reserve _ n _ => n

def LoadOp.got : LoadOp → SMap (List PByte)
  | .bits _ _ _ _ _ _ got => got
  | .vector _ _ _ _ got => got
  | .gather _ _ _ got => got
  | .scalar .. | .reserve .. => []

def LoadOp.setGot (l : SMap (List PByte)) : LoadOp → LoadOp
  | .bits d w signed place shift n _ => .bits d w signed place shift n l
  | .vector d lanes place n _ => .vector d lanes place n l
  | .gather d n elems _ => .gather d n elems l
  | .scalar d n signed place => .scalar d n signed place
  | .reserve d n place => .reserve d n place

def LoadOp.isGather : LoadOp → Bool
  | .gather .. => true
  | _ => false

/-- The pieces still to be read. -/
def LoadOp.left (op : LoadOp) : List Nat := (List.range op.pieces.length).filter fun i => op.got.all fun e => e.1 ≠ i

/-- The pieces that a home reads at one instant together with piece `i`: those of one scratchpad word; all of one access
to a vault or a register block; one lane of a gather (R231, R408). -/
def LoadOp.instant (op : LoadOp) (i : Nat) : List Nat :=
  let word := fun j => (op.pieces.getD j (0, 0)).1 / 8
  if op.isGather then [i]
  else if spaceOfPlace (op.pieces.getD i (0, 0)).1 = 1 then op.left.filter fun j => word j = word i
  else op.left

/-- The bytes of a load whose pieces have all been read, from what each gave. -/
def LoadOp.bytes (op : LoadOp) (got : SMap (List PByte)) : List PByte :=
  (List.range op.pieces.length).flatMap fun i => SMap.get [] got i

/-- The lanes that a vector load or a gather writes, from the bytes of its lanes in order. -/
def laneValues (width : Nat) (lanes : List Nat) (got : List PByte) : List (Option (Nat × Bool)) :=
  (List.range (128 / width)).map fun i =>
    match lanes.findIdx? (· = i) with
    | some k =>
      let b := (got.drop (width * k)).take width
      some (numberOf b, poisoned b)
    | none => none

/-- A load delivers its value with its marks (R86, R90, R232, R233, R245, R359). An lr of a thread that has been swapped
out reserves nothing: the swap has emptied the set (R245). -/
def Thread.deliver (t : Thread) (op : LoadOp) (got : List PByte) : Thread :=
  match op with
  | .scalar d n signed _ =>
    t.setS d ⟨if signed then sext64 (8 * n) (numberOf got) else w64 (numberOf got), poisoned got⟩
  | .bits d w signed _ shift _ _ =>
    let v := numberOf got / 2 ^ shift % 2 ^ w
    t.setS d ⟨if signed then sext64 w v else w64 v, poisoned got⟩
  | .vector d lanes _ _ _ => t.setV d (mergeLanes 32 (t.regs.getV d) (laneValues 4 lanes got))
  | .gather d n elems _ => t.setV d (mergeLanes (8 * n) (t.regs.getV d) (laneValues n (elems.map Prod.fst) got))
  | .reserve d n place =>
    let t' := t.setS d ⟨sext64 (8 * n) (numberOf got), poisoned got⟩
    if t.state = .swapped then t' else { t' with resv := reserveWord (place / 8 * 8) t.resv }

/-- The latency samples of a load (R402). -/
def State.gaugeLoad (s : State) (core slot : Nat) (op : LoadOp) (v : Nat) : State :=
  let s := if op.pieces.any fun p => spaceOfPlace p.1 = 0 then s.gaugeLatency core slot 0x01 v else s
  if op.pieces.any fun p => spaceOfPlace p.1 = 1 then s.gaugeLatency core slot 0x02 v else s

def isLoad : Wait → Bool
  | .load .. => true
  | _ => false

/-- Whether a home can perform the instant of a piece: its bank can, and the thread's earlier stores to it have been
performed (R199). -/
def State.pieceReady (s : State) (core slot : Nat) (op : LoadOp) (i : Nat) : Bool :=
  let uid := (s.thread core slot).uid
  (op.instant i).all fun j =>
    let p := op.pieces.getD j (0, 0)
    !s.spanBusy p.1 p.2 && s.homesClear core slot uid p.1 p.2

/-- The pieces of the next instant of a load, and the state in which the instant after it is chosen. Words of the
scratchpad and lanes of a gather come in any order (R231; log 21, DESIGN CHOICE). -/
def State.chooseInstant (s : State) (core slot : Nat) (op : LoadOp) : State × List Nat :=
  let l := op.left.filter (s.pieceReady core slot op)
  match l with
  | [] => (s, [])
  | i :: _ =>
    if op.instant i = op.left then (s, op.left)
    else ({ s with fresh := s.fresh + 1 }, op.instant (l.getD ((Config.freeWord s.fresh).toNat % l.length) i))

/-- A home reads some pieces of a load at one instant; what each piece has given so far. -/
def State.readPieces (s : State) (op : LoadOp) (hint : Hint) (l : List Nat) : State × SMap (List PByte) :=
  l.foldl (fun (a : State × SMap (List PByte)) i =>
    let p := op.pieces.getD i (0, 0)
    let x := a.1.readPlace p.1 p.2
    (x.1.touchSpan p.1 p.2 hint, SMap.set a.2 i x.2)) (s, op.got)

/-- The next instant of a load; the last one is its reply. -/
def State.loadStep (s : State) (core slot at0 : Nat) (op : LoadOp) (hint : Hint) : State :=
  match s.chooseInstant core slot op with
  | (_, []) => s
  | (s, l) =>
    let r := s.readPieces op hint l
    let s := r.1
    if op.left.all l.contains then
      (s.gaugeLoad core slot op (s.cycle - at0)).endWait core slot isLoad fun t => t.deliver op (op.bytes r.2)
    else s.modThread core slot fun t => t.modWait isLoad fun w =>
      match w with
      | .load op e h => .load (op.setGot r.2) e h
      | w => w

/-- Waits that LOAD_REPLY serves. -/
def isReplyWait : Wait → Bool
  | .load .. | .shape .. | .siltrd .. | .waitres .. | .waitaddr .. => true
  | _ => false

/-- LOAD_REPLY: a home performs an access that a thread waits for, and its reply makes the thread ready (R22, R231)
(log 63, DEDUCED). -/
def execLoadReply (core slot : Nat) (s : State) : Host.Outcome State Fault Refusal :=
  match (s.thread core slot).findWait isReplyWait with
  | some ⟨_, at0, .load op _ hint⟩ => .next (s.loadStep core slot at0 op hint)
  | some ⟨_, _, .shape d dim slice poison place got⟩ => .next (s.shapeReply core slot d dim slice poison place got)
  | some ⟨_, _, .siltrd d seq⟩ =>
    .next (s.endWait core slot isSiltrd fun t => t.setV d (s.siltVec (deviceOfCore core) seq))
  | some ⟨_, _, .waitres d _⟩ => .next (s.waitresReturn core slot d)
  | some ⟨_, _, .waitaddr d place n v _ _⟩ => .next (s.waitaddrRead core slot d place n v)
  | _ => notDue s

/-! Stores. -/

/-- A posted store is performed at its home (R197, R214). -/
def State.land (s : State) (p : Posted) : State :=
  match p.kind, p.bytes with
  | .version line number, ws => s.performVersion line number ws
  | .row _, [] => s
  | .row opens, w :: _ => s.rowEffect w.addr opens
  | .plain, [] => s
  | .plain, w :: _ =>
    if spaceOfPlace w.addr < 2 then s.landMemory p
    else
      let s := match if p.head then ridxOf w.addr else none with
        | some (tile, n) => s.ordered (ringUnit tile n) (ringKey p.core p.slot)
        | none => s
      let s := match if p.head then floorOf w.addr else none with
        | some tile => s.ordered (directoryUnit tile) (directoryKey p.core p.slot true)
        | none => s
      s.storeReg p.bytes p.head

/-- Whether a store finds its place in the order of its ring's cycle: no operation of a later place has been performed,
and no thread before its own has the issue of its core (R337). -/
def State.ridxReady (s : State) (p : Posted) : Bool :=
  match if p.head then (p.bytes.head?.bind fun w => ridxOf w.addr) else none with
  | some (tile, n) => s.inOrder (ringUnit tile n) (ringKey p.core p.slot)
      && [stagingOf tile, computeOf tile].all fun c =>
        (s.turnOf c).all fun k => decide (ringKey p.core p.slot ≤ ringKey c k)
  | none => true

/-- Whether a store of a floor field finds its place in the order of its directory's cycle (R209, R212). -/
def State.floorReady (s : State) (p : Posted) : Bool :=
  match if p.head then (p.bytes.head?.bind fun w => floorOf w.addr) else none with
  | some tile => s.inOrder (directoryUnit tile) (directoryKey p.core p.slot true)
  | none => true

/-- Whether a posted store can be performed now: its banks can, what is held for its rows does not come first, and no
earlier store of its thread stands before its home (R199, R407). -/
def State.canLand (s : State) (p : Posted) : Bool :=
  !behindIn s.posted p && s.ridxReady p && s.floorReady p &&
    match p.kind with
    | .plain => p.bytes.all fun w => !s.byteStops p w &&
        (spaceOfPlace w.addr ≠ 0 || (s.heldFor w.addr).head?.all fun h => h = .store p.seq)
    | .version line _ => !s.lineHeld line
    | .row _ => p.bytes.all fun w => s.rowReady w.addr && s.vaultClear p.core p.slot p.uid w.addr p.seq

/-- STORE_PERFORMED: the posted store at position `n` is performed, or arrives at a row under repair, where it is held
(R407). -/
def execStorePerformed (n : Nat) (s : State) : Host.Outcome State Fault Refusal :=
  match s.posted[n]? with
  | some p =>
    if s.canLand p then .next ({ s with posted := s.posted.filter fun q => q.seq ≠ p.seq }.land p)
    else if s.arrivesHeld p then .next (s.holdStore p)
    else notDue s
  | none => notDue s

/-! Atomics. -/

/-- An atomic on a register word is a read and a write of it at one instant (log 41, DEDUCED). -/
def State.performRegAmo (s : State) (core slot : Nat) (op : AmoOp) : State :=
  let r := s.readRegs op.place op.n
  let old := numberOf r.2
  let new := amoNew op.fn (8 * op.n) old (lowOf op.n op.v.bits) (lowOf op.n op.q.bits)
  let s := r.1.storeReg (cleanWrites op.place (bytesOf op.n new)) (slot % 16 = 0)
  s.endWait core slot isAmo fun t => (t.setClean op.d (w64 old)).bump

/-- The reply to an atomic that a vault's agent performed. -/
def findReply (uid : Nat) : List Packet → Option (Nat × Reply)
  | [] => none
  | .reply r :: l => if r.uid = uid then some (0, r) else (findReply uid l).map fun x => (x.1 + 1, x.2)
  | _ :: l => (findReply uid l).map fun x => (x.1 + 1, x.2)

/-- AMO_REPLY: an atomic at a bank or a register is performed, or the reply of the agent arrives (R203, R243 to R245). A
reply that tells of a lost access makes the thread trap with the place (R426). -/
def execAmoReply (core slot : Nat) (s : State) : Host.Outcome State Fault Refusal :=
  let t := s.thread core slot
  match t.findWait isAmo with
  | some ⟨m, _, .amo op⟩ =>
    if spaceOfPlace op.place = 0 then
      match findReply t.uid s.net with
      | some (i, r) =>
        let s := { s with net := dropAt s.net i }
        if r.status = 0 then
          .next (s.endWait core slot isAmo fun t => (t.setS op.d ⟨lane64 r.data.bits 0, r.data.poison.getLsbD 0⟩).bump)
        else .next (s.trapWait core slot 0x0A (w64 op.place) m)
      | none => notDue s
    else if !s.homesClear core slot t.uid op.place op.n then notDue s
    else if op.sc then .next (s.performSc core slot op)
    else if spaceOfPlace op.place = 1 then
      let r := s.performAmo op.place op.fn op.n op.v.bits op.q.bits
      .next (r.1.endWait core slot isAmo fun t => (t.setS op.d r.2).bump)
    else .next (s.performRegAmo core slot op)
  | _ => notDue s

/-! Release points. -/

/-- A release point that RELEASE_DRAINED serves; the end of a thread has events of its own. -/
def isRelease : Wait → Bool
  | .release (.ending _) => false
  | .release _ => true
  | _ => false

/-- The next step of a phase once its stores have been performed (R202, R365). -/
def Thread.endPhase (t : Thread) : Thread := { t with phase := t.phase + 1 }

def deferInnermost (l : List Coffer) : List Coffer :=
  match l.getLast? with
  | none => []
  | some c => l.dropLast ++ [{ c with deferred := true }]

/-- A release that seals goes on to its seals, or completes when its thread holds nothing open. -/
def State.releaseSeals (s : State) (core slot : Nat) (op : ReleaseOp) (f : Thread → Thread) : State :=
  if (s.heldLines (s.thread core slot).uid).isEmpty then s.endWait core slot isRelease f
  else s.modThread core slot fun t => t.modWait isRelease fun _ => .sealing op

/-- What has been read of a launch record after its next instant: the whole of it in a vault or a register block, and in the
scratchpad one word, any of them (R161, R200, R231). -/
def State.readRecord (s : State) (record : Nat) (got : SMap (List PByte)) : State × SMap (List PByte) :=
  if spaceOfPlace record < 2 then
    let r := s.readNext record 256 (fun p => if spaceOfPlace record = 0 then !s.spanBusy record 256 else !s.bankBusy p) got
    (if spaceOfPlace record = 0 && wordsLeft 256 r.2 = [] && got = [] then r.1.touchSpan record 256 .dflt else r.1, r.2)
  else
    let r := s.readPlace record 256
    (r.1, (List.range 32).foldl (fun m i => SMap.set m i ((r.2.drop (8 * i)).take 8)) got)

/-- The copy of a launch record that has been read (R161 steps 2 and 3): a record that holds poison is uncorrectable data
(R361) (log 91, DEDUCED). -/
def State.finishLaunch (s : State) (core slot d : Nat) (target : W64) (record : Nat) (bytes : List PByte) (member : Bool) :
    State :=
  let x := s.enqueueRecord (deviceOfCore core) target bytes
  match if bitOf x.2 63 then none else poisonPlace record bytes with
  | some p => s.trapWait core slot 0x0A (w64 p) member
  | none => x.1.endWait core slot isRelease fun t => t.setClean d x.2

/-- A launch at work: the next instant of the reading of its record, and after the last, once the bank of the ring entry can
take it, the copy. -/
def State.releaseLaunch (s : State) (core slot d : Nat) (target : W64) (record entry : Nat) (got : SMap (List PByte))
    (member : Bool) : State :=
  let r := if wordsLeft 256 got = [] then (s, got) else s.readRecord record got
  let busy := r.1.enqueueBusy (deviceOfCore core) target
  if wordsLeft 256 r.2 = [] && busy.isEmpty then r.1.finishLaunch core slot d target record (wordBytes 256 r.2) member
  else
    let s := r.1.modThread core slot fun t => t.modWait isRelease fun _ => .release (.launch d target record entry r.2)
    if wordsLeft 256 r.2 = [] then s.callBanks busy else s

/-- What a release point does once its posted stores have been performed (Table 8.1). -/
def State.releaseGo (s : State) (core slot : Nat) (op : ReleaseOp) (member : Bool) : State :=
  let t := s.thread core slot
  let await := fun (s : State) (w : Wait) => s.modThread core slot fun t => t.modWait isRelease fun _ => w
  match op with
  | .phase =>
    if t.coffers ≠ [] then
      s.endWait core slot isRelease fun t => { t.endPhase with coffers := deferInnermost t.coffers }
    else s.releaseSeals core slot .phase Thread.endPhase
  | .amo op => (await s (.amo op)).sendAmo core slot op
  | .rowCall op => (await s (.rowCall op)).sendRowCall op
  | .launch d target record entry got => s.releaseLaunch core slot d target record entry got member
  | .trig =>
    let s := await s .triggered
    { s with net := s.net ++ [.trig t.handle core slot t.uid] }
  | .bar scope => s.enterBar core slot scope
  | .purge lo len all => (s.purge core lo len all).endWait core slot isRelease id
  | .xfer x _ =>
    let s := await s (.xferAccept x.d x.seq)
    { s with net := s.net ++ [.request (s.streamerOf x) x] }
  | .cfclose => s.releaseSeals core slot .cfclose fun t => { t with coffers := [] }
  | .ending _ => s

/-- RELEASE_DRAINED: every posted store of the thread has been performed (R201); before that, an xfer asks for its record
once the cores of its tile have made their issues of the cycle (R289, R337). -/
def execReleaseDrained (core slot : Nat) (s : State) : Host.Outcome State Fault Refusal :=
  let t := s.thread core slot
  match t.findWait isRelease with
  | some ⟨m, _, .release (.xfer x false)⟩ =>
    if s.issuesDone (tileOfCore core) then .next (s.reserveXfer core slot x m) else notDue s
  | some ⟨m, _, .release op⟩ => if s.drained core slot t.uid then .next (s.releaseGo core slot op m) else notDue s
  | _ => notDue s

/-! Seals. -/

def isSealing : Wait → Bool
  | .sealing _ => true
  | _ => false

/-- Once nothing is open any more, phase and cfclose complete; an ending thread has an event of its own. -/
def State.sealed (s : State) (core slot : Nat) (op : ReleaseOp) : State :=
  if !(s.heldLines (s.thread core slot).uid).isEmpty then s
  else match op with
    | .phase => s.endWait core slot isSealing Thread.endPhase
    | .cfclose => s.endWait core slot isSealing fun t => { t with coffers := [] }
    | _ => s

/-- SEAL_VERSION: the next seal of a thread, at one instant of its directory, once the data writes admitted to the version
have been performed (R216) (log 20, DESIGN CHOICE). -/
def execSealVersion (core slot : Nat) (s : State) : Host.Outcome State Fault Refusal :=
  let t := s.thread core slot
  match t.findWait isSealing with
  | some ⟨_, _, .sealing op⟩ =>
    match s.heldLines t.uid with
    | [] => .next (s.sealed core slot op)
    | l =>
      match l.find? fun line => s.lineSettled line with
      | some line =>
        match s.reachDirectory core slot false [line] with
        | some s => .next ((s.sealLine line).sealed core slot op)
        | none => notDue s
      | none => notDue s
  | _ => notDue s

end Sys2Proof.Machine
end

