-- ==== Sys2Proof/Machine/Service.lean ====
section
/-! DEFINITION. Service.lean: host messages, firmware and attestation, checkpoints and module power (R404, R424, R428,
R430, R431). -/

namespace Sys2Proof.Machine

/-! Hosts. -/

/-- A host reaches a domain through the bridge device of a group (R423, R424). -/
def State.isBridge (s : State) (dev : Nat) : Bool := bitOf (s.reg (domcfgReg dev)) 0

def State.hostReply (s : State) (r : HostReply) : State := { s with hostReplies := s.hostReplies ++ [r] }

/-- What a host may reach: 1 to 128 bytes, aligned to their size, in exported granules of a vault of the domain
(log 92, DEDUCED). -/
def State.hostPlace (s : State) (dev place n align : Nat) : Bool :=
  let t := tileOfPlace place
  0 < n && place % align = 0 && place < 2 ^ 63 && spaceOfPlace place = 0 && s.inDomain dev (deviceOfTile t)
    && (granulesOf place n).all fun g => s.granule t g = 2

/-- The first place of a message of a host, and how many bytes it accesses from there. -/
def HostMsg.span (m : HostMsg) : Nat × Nat :=
  match m with
  | .write place bytes => (place, bytes.length)
  | .read place n => (place, n)
  | .launch _ place => (place, 256)

/-- The homes of a message of a host. -/
def HostMsg.homes (m : HostMsg) : List Nat := homesOf m.span.1 m.span.2

/-- Whether a message of a host waits for an earlier one: the messages of a host are performed at each home in the order of
their arrival, and HLAUNCH waits until every earlier HWRITE has been performed (R424). -/
def HostMsg.after (m e : HostMsg) : Bool :=
  (m.homes.any e.homes.contains) ||
    match m, e with
    | .launch .., .write .. => true
    | _, _ => false

/-- Whether the message may reach its place: a record stands where a host may write (log 44, DEDUCED). -/
def State.hostMay (s : State) (dev : Nat) (m : HostMsg) : Bool := s.hostPlace dev m.span.1 m.span.2 m.span.2

/-- The banks that a message of a host waits for: of its own place, and of the ring entry that its record takes (R172,
R174). -/
def State.hostBusy (s : State) (dev : Nat) (m : HostMsg) : List (Nat × Nat) :=
  let own := if s.spanBusy m.span.1 m.span.2 then [m.span] else []
  match m with
  | .launch target _ => own ++ s.enqueueBusy dev target
  | _ => own

/-- A message of a host is performed, at one instant at its home; HLAUNCH copies the record and advances tail (R424). -/
def State.hostDo (s : State) (dev : Nat) (m : HostMsg) : State :=
  let s := s.touchSpan m.span.1 m.span.2 .dflt
  match m with
  | .write place bytes => (s.perform (cleanWrites place bytes) none).hostReply .written
  | .read place n =>
    let r := s.readBytes place n
    r.1.hostReply (.data r.2)
  | .launch target place =>
    let r := s.readBytes place 256
    let x := r.1.enqueueRecord dev target r.2
    x.1.hostReply (.launched x.2)

/-- A message of a host arrives at a bridge device. It is refused outside exported granules; it waits behind earlier ones,
and until its banks, which wake for it, perform accesses (R174, R424). -/
def State.hostArrive (s : State) (dev : Nat) (m : HostMsg) : State :=
  if !s.hostMay dev m then s.hostReply .refused
  else
    let wait := s.modDevice dev fun d => { d with hostQ := d.hostQ ++ [m] }
    if (s.device dev).hostQ.any m.after then wait
    else if s.hostBusy dev m ≠ [] then wait.callBanks (s.hostBusy dev m)
    else s.hostDo dev m

/-- Waiting message `n` of a host is performed, unless an earlier one or a bank holds it back. -/
def State.hostTurn (s : State) (dev n : Nat) : State :=
  let q := (s.device dev).hostQ
  match q[n]? with
  | none => s
  | some m =>
    let gone := s.modDevice dev fun d => { d with hostQ := dropAt q n }
    if (q.take n).any m.after then s
    else if !s.hostMay dev m then gone.hostReply .refused
    else if s.hostBusy dev m ≠ [] then s.callBanks (s.hostBusy dev m)
    else gone.hostDo dev m

/-- Whether a message of a host comes in: at a bridge device whose port 17 is up (R423, R424). -/
def State.hostIn (s : State) (dev : Nat) : Bool := s.isBridge dev && s.linkUp dev 17

/-- HWRITE (R424). -/
def execHwrite (device place : Nat) (bytes : List Byte) (s : State) : Host.Outcome State Fault Refusal :=
  let n := bytes.length
  if !s.hostIn device || !(1 ≤ n && n ≤ 128) then notDue s else .next (s.hostArrive device (.write place bytes))

/-- HREAD (R424). -/
def execHread (device place n : Nat) (s : State) : Host.Outcome State Fault Refusal :=
  if !s.hostIn device || !(1 ≤ n && n ≤ 128) then notDue s else .next (s.hostArrive device (.read place n))

/-- HLAUNCH (R424). -/
def execHlaunch (device : Nat) (target : W64) (place : Nat) (s : State) : Host.Outcome State Fault Refusal :=
  if !s.hostIn device then notDue s else .next (s.hostArrive device (.launch target place))

/-! Firmware. -/

/-- A firmware event in the silt record: the manual states neither its code nor its word (log 3, DESIGN CHOICE). -/
def State.firmwareEvent (s : State) (dev : Nat) : State :=
  let code := s.takeFresh
  let word := code.2.takeFresh
  word.2.silt dev 0x0A (bitsOf code.1 7 0) (bitsOf code.1 39 8) word.1

/-- Whether an image passes: a signature of 29,792 bytes over its header and digest, the length and digest those of its
body, and a rollback counter not below the fused one (R428). -/
def imagePasses (dev : Nat) (b : BootImage) : Bool :=
  decide (b.signature.length = 29792) && Config.signatureOk b.version b.counter b.length b.digest b.signature
    && decide (b.length = b.body.length) && b.digest == Config.digest b.body
    && decide ((Config.fusedCounter dev).toNat ≤ b.counter)

/-- Image 0 is wellhead, 1 basin, 2 the core runtime image, 3 the agent image; later ones have the numbers from 4 on. One
that passes has been loaded; another is not, and wellhead writes silt kind 0x0A (R428) (log 81, DESIGN CHOICE). -/
def State.takeImage (s : State) (dev image : Nat) (b : BootImage) : State :=
  if imagePasses dev b then
    s.modDevice dev fun d => { d with digests := SMap.set d.digests image b.digest.toNat }
  else s.firmwareEvent dev

/-- Whether wellhead runs on a device: it has passed since the device reset that goes on, if one does (R428). -/
def Device.wellhead (d : Device) : Bool :=
  !d.held && (!(d.resets.any fun r => r.boundary = .device) || d.digests.any fun e => e.1 = 0)

/-- IMAGE_VERIFY: the ROM verifies wellhead, and wellhead every other image; without wellhead the device does not leave
reset (R428) (log 87, DEDUCED). -/
def execImageVerify (device image : Nat) (head : ImageHead) (body : List Byte) (s : State) :
    Host.Outcome State Fault Refusal :=
  if image ≠ 0 && !(s.device device).wellhead then notDue s
  else
    let boot : BootImage := ⟨head, body⟩
    let t := s.takeImage device image boot
    .next (if image = 0 && !imagePasses device boot then t.modDevice device fun d => { d with held := true } else t)

/-- Bytes 0x000 to 0x0C7 of the evidence (Table 18.9). -/
def State.evidenceBody (s : State) (dev nonce : Nat) : List Byte :=
  let d := s.device dev
  bytesOf 4 1 ++ bytesOf 4 (Config.fusedCounter dev).toNat ++ bytesOf 16 (Config.serial dev).toNat
    ++ bytesOf 32 nonce ++ (List.range 4).flatMap (fun i => bytesOf 32 (SMap.get 0 d.digests i))
    ++ bytesOf 8 (s.reg (domcfgReg dev)).toNat ++ bytesOf 8 (s.reg (siltSeqReg dev)).toNat

/-- The 29,792 bytes of the signature over an evidence body. -/
def evidenceSignature (dev : Nat) (body : List Byte) : List Byte := (List.range 29792).map (Config.signature dev body)

/-- ATTESTATION_REQUEST: wellhead signs the evidence (R430). -/
def execAttestationRequest (device nonce : Nat) (s : State) : Host.Outcome State Fault Refusal :=
  let body := s.evidenceBody device nonce
  .next { s with evidence := s.evidence ++ [(⟨device, body, evidenceSignature device body⟩ : Evidence)] }

/-! Checkpoints. -/

/-- Whether a place lies in a device. -/
def placeIn (dev place : Nat) : Bool := place / 2 ^ 52 = dev

/-- Whether a packet is on its way to or from a device's memory. -/
def Packet.onDevice (p : Packet) (dev : Nat) : Bool :=
  match p with
  | .message tile _ => deviceOfTile tile = dev
  | .reply r => deviceOfCore r.core = dev
  | .request tile _ => deviceOfTile tile = dev
  | .inflow core _ _ _ _ tile _ => deviceOfCore core = dev || deviceOfTile tile = dev
  | .wake w => deviceOfCore w.core = dev
  | .migrant target source _ _ => deviceOfCore target = dev || deviceOfCore source = dev
  | .queueEntry fromCore _ toCore _ _ _ => deviceOfCore fromCore = dev || deviceOfCore toCore = dev
  | .credit .. | .notice .. | .trig .. | .ended .. | .signal .. => false

/-- A core whose task threads are all swapped out and written (R431). -/
def Core.quiet (c : Core) (core : Nat) : Bool :=
  !c.anyHeld && c.swapPend.isNone && c.swapRun.isNone && c.fillRun.isEmpty && c.arrivals.isEmpty
    && (List.range 16).all fun k =>
      !isTaskSlot core k || (c.thread core k).state = .idle || (c.thread core k).state = .swapped

/-- A tile whose engines and agent have finished. -/
def Tile.quiet (t : Tile) : Bool :=
  t.inbox.isEmpty && t.backwater.isEmpty && t.inflight.isEmpty && t.handler.isNone && t.engineQ.isEmpty
    && t.astRecords.isEmpty && t.strInbox.isEmpty && t.strActive.isEmpty && t.dredge.isNone

/-- A quiesced device (R431). -/
def State.quiesced (s : State) (dev : Nat) : Bool :=
  (s.cores.all fun e => deviceOfCore e.1 ≠ dev || e.2.quiet e.1)
    && (s.tiles.all fun e => deviceOfTile e.1 ≠ dev || e.2.quiet)
    && (s.posted.all fun p => p.bytes.all fun w => !placeIn dev w.addr)
    && (s.net.all fun p => !p.onDevice dev)
    && s.devices.all fun e => e.2.hostQ.all fun m => !placeIn dev m.span.1

/-- The lines of a device's directories. -/
def State.deviceLines (s : State) (dev : Nat) : SMap Line := s.lines.filter fun e => placeIn dev (e.1 * 64)

/-- What a copy of places `lo` to `hi - 1` takes: bytes with their marks, and the lines whose first byte lies there, every
sealed version of them whole (R222). -/
def State.captureRange (s : State) (x : Snapshot) (lo hi : Nat) : Snapshot :=
  let here := fun p : Nat => decide (lo ≤ p) && decide (p < hi)
  { x with mem := x.mem ++ s.mem.filter (fun c => here c.1),
           marks := x.marks ++ s.marks.filter (fun m => here (m * 4)),
           lines := x.lines ++ s.lines.filter fun e => here (e.1 * 64) }

/-- A copy meets the codewords that it reads (R359). -/
def State.meetRange (s : State) (lo hi : Nat) : State :=
  (s.ecc.filter fun a => decide (lo ≤ a) && decide (a < hi)).foldl State.meetCodeword s

/-- The ports that carry a checkpoint of a device to its safe tier, as they are up (R431). -/
def State.tierPorts (s : State) (dev : Nat) : List Nat := [15, 16, 17].filter (s.linkUp dev)

/-- The bytes of the vaults and scratchpads of a device (R431). -/
def deviceBytes : Nat := 512 * (2 ^ 31 + 2 ^ 22)

/-- The bytes that a checkpoint's port carries at most: with the three ports up, each carries a third; with one down, what
each of the others carries is not stated (R431; log 45, DEDUCED). -/
def State.portShare (s : State) (dev : Nat) : Nat :=
  if (s.tierPorts dev).length = 3 then deviceBytes / 3 else deviceBytes

/-- The bytes of a copy that reach their safe tier through the host: the share of port 17 of a bridge device (R431). -/
def Snapshot.throughHost (x : Snapshot) : Nat := if hostPort x.device 17 then SMap.get 0 x.shares 17 else 0

/-- A copy that has nothing yet. -/
def Snapshot.empty (dev : Nat) (live : Bool) (tier : Nat) : Snapshot := ⟨dev, live, tier, [], [], [], []⟩

/-- A port has carried `n` more bytes of a copy. -/
def Snapshot.carry (x : Snapshot) (port n : Nat) : Snapshot :=
  { x with shares := SMap.set x.shares port (SMap.get 0 x.shares port + n) }

/-- A directory writes the headers of its lines to its store; what a header holds is not stated (R431; log 109, DESIGN
CHOICE). -/
def State.writeHeader (s : State) (line : Nat) : State :=
  (s.headerWords line).foldl (fun s p =>
    (List.range 4).foldl (fun s i =>
      let f := s.takeFresh
      f.2.perform (cleanWrites (p + 8 * i) (bytesOf 8 f.1.toNat)) none) s) s

/-- The copy of a quiesced device's vaults and scratchpads, its headers written first. Nothing but the copy writes memory
until it ends, so that it is one instant (log 45, DEDUCED). -/
def State.snapshot (s : State) (dev tier : Nat) : State :=
  let ports := s.tierPorts dev
  let s := ((s.deviceLines dev).map Prod.fst).foldl State.writeHeader s
  let s := s.meetRange (dev * 2 ^ 52) ((dev + 1) * 2 ^ 52)
  let x := ports.foldl (fun x p => x.carry p (deviceBytes / ports.length)) (Snapshot.empty dev false tier)
  { s with safeTier := s.safeTier ++ [s.captureRange x (dev * 2 ^ 52) ((dev + 1) * 2 ^ 52)] }

/-- CHECKPOINT_QUIESCED: the dispatchers stop starting records; once the device is quiet, the copy, to the safe tier that
basin names and through the ports that are up, is a snapshot. -/
def execCheckpointQuiesced (device : Nat) (s : State) : Host.Outcome State Fault Refusal :=
  let d := s.device device
  match d.ckpt, d.tier with
  | .none, _ => .next (s.modDevice device fun d => { d with ckpt := .quiescing })
  | .quiescing, some tier =>
    if s.quiesced device && s.tierPorts device ≠ [] then
      .next ((s.snapshot device tier).modDevice device fun d => { d with ckpt := .none })
    else notDue s
  | _, _ => notDue s

/-- The vaults and scratchpads of a device, as places and lengths. -/
def deviceRanges (dev : Nat) : List (Nat × Nat) :=
  (List.range 512).flatMap fun k => [(spaceBase (dev * 512 + k) 0, 2 ^ 31), (spaceBase (dev * 512 + k) 1, 2 ^ 22)]

/-- `n` bytes from `place` on leave the ranges that are still to be copied, none when they are not all among them. -/
def cutRange (place n : Nat) : List (Nat × Nat) → Option (List (Nat × Nat))
  | [] => none
  | r :: l =>
    if r.1 ≤ place ∧ place + n ≤ r.1 + r.2 then
      some ([(r.1, place - r.1), (place + n, r.1 + r.2 - (place + n))].filter (fun x => x.2 ≠ 0) ++ l)
    else (cutRange place n l).map (r :: ·)

/-- A live checkpoint copies words that lie behind each other, with nothing between their instants, through a port that is
up and has not carried its share; which words come when, and through which port, is not stated (R431; log 45, DEDUCED). -/
def State.copyWords (s : State) (dev place n port : Nat) : State :=
  match (s.device dev).copy with
  | none => s
  | some (x, left) =>
    match cutRange place n left with
    | none => s
    | some left =>
      if n = 0 ∨ n % 8 ≠ 0 ∨ place % 8 ≠ 0 ∨ !(s.tierPorts dev).contains port
          ∨ s.portShare dev < SMap.get 0 x.shares port + n then s
      else
        let s := s.meetRange place (place + n)
        s.modDevice dev fun d => { d with copy := some (s.captureRange (x.carry port n) place (place + n), left) }

/-- CHECKPOINT_LIVE: the copy begins beside running tasks, and ends when every word has been captured. -/
def execCheckpointLive (device : Nat) (s : State) : Host.Outcome State Fault Refusal :=
  let d := s.device device
  match d.ckpt, d.copy, d.tier with
  | .none, _, some tier =>
    .next (s.modDevice device fun d =>
      { d with ckpt := .live, copy := some (Snapshot.empty device true tier, deviceRanges device) })
  | .live, some (x, []), _ =>
    .next ({ s with safeTier := s.safeTier ++ [x] }.modDevice device fun d => { d with ckpt := .none, copy := none })
  | _, _, _ => notDue s

/-- Whether no task thread runs on a device. -/
def State.noTasks (s : State) (dev : Nat) : Bool :=
  s.cores.all fun e => deviceOfCore e.1 ≠ dev
    || (List.range 16).all fun k => !isTaskSlot e.1 k || (e.2.thread e.1 k).state = .idle

/-- Lines of a snapshot in place of those of its device. -/
def restoreLines (l : SMap Line) : SMap Line → SMap Line
  | [] => l
  | e :: r => restoreLines (SMap.set l e.1 e.2) r

/-- CHECKPOINT_COPY_BACK: after a device reset, the latest copy of the device in the safe tier that basin names comes back
into its vaults and scratchpads, through the ports that are up (R431; log 45, DEDUCED). -/
def execCheckpointCopyBack (device : Nat) (s : State) : Host.Outcome State Fault Refusal :=
  match s.safeTier.reverse.find? fun x => x.device = device && (s.device device).tier = some x.tier with
  | none => notDue s
  | some x =>
    let d := s.device device
    if !s.noTasks device || d.ckpt != .none || d.inReset || !d.blank || s.tierPorts device = [] then notDue s
    else
      let kept := s.mem.filter fun c => !placeIn device c.1
      let marks := s.marks.filter fun m => !placeIn device (m * 4)
      let lines := s.lines.filter fun e => !placeIn device (e.1 * 64)
      .next ({ s with mem := x.mem.foldl (fun (m : List Host.Cell) (c : Host.Cell) => memWrite m c.1 c.2) kept,
                      marks := insertAll x.marks marks,
                      ecc := s.ecc.filter fun a => !placeIn device a,
                      soft := s.soft.filter fun a => !placeIn device a,
                      lines := restoreLines lines x.lines }.modDevice device fun d => { d with blank := false })

/-- MODULE_POWER_ON: the silt record is empty, SILTSEQ is 0, and the count of resets starts; the device waits for its
first reset (R404) (log 88, DEDUCED). -/
def execModulePowerOn (device : Nat) (s : State) : Host.Outcome State Fault Refusal :=
  let s := s.modDevice device fun d => { d with silt := [], siltQ := [], siltDrop := 0, epoch := 0, held := true }
  .next (s.setReg (siltSeqReg device) 0)

end Sys2Proof.Machine
end

