-- ==== Sys2Proof/Machine/Transform.lean ====
section
/-! DEFINITION. Transform.lean: major opcode 0x97, the bank transform units (R305 to R313, R343, R351, R352), with
self-describing blocks as they decode and quantise (R135 to R137, R307). -/

namespace Sys2Proof.Machine

/-! Self-describing blocks (Table 5.8). -/

/-- Elements of a block by its type code. -/
def blockCount (code : Nat) : Nat :=
  match code with
  | 0 => 62
  | 5 => 124
  | 6 => 82
  | 7 => 62
  | 9 => 31
  | _ => 0

/-- Bits of an element of a block. -/
def blockWidth (code : Nat) : Nat :=
  match code with
  | 5 => 4
  | 6 => 6
  | 9 => 16
  | _ => 8

/-- The value of an element field, before the block scale. -/
def blockValue (code x : Nat) : FVal :=
  match code with
  | 7 => if tswSum x = 0 then .zero false else .fin (tswSum x) (-6)
  | 9 => Fmt.bf16.decode x
  | _ =>
    let v := signedOf (blockWidth code) x
    if v = 0 then .zero false else .fin v 0

/-- Element `i` of a block of 64 bytes, rounded once into a format; it is poisoned with its bytes and with the word of
the scale (R137, R359). -/
def blockElem (f : Fmt) (code : Nat) (bytes : List PByte) (i : Nat) : Nat × Bool :=
  let w := blockWidth code
  let lo := 16 + w * i
  let own := (bytes.drop (lo / 8)).take ((lo + w - 1) / 8 + 1 - lo / 8)
  let x := numberOf bytes / 2 ^ lo % 2 ^ w
  let e : Nat := numberOf ((bytes.drop 1).take 1)
  (f.rne ((blockValue code x).scale ((e : Int) - 127)), poisoned own || poisoned (bytes.take 4))

/-- A block's elements, none when byte 0 is another type code (R306). -/
def decodeBlock (f : Fmt) (code : Nat) (bytes : List PByte) : Option (List (Nat × Bool)) :=
  if numberOf (bytes.take 1) = code then some ((List.range (blockCount code)).map (blockElem f code bytes)) else none

/-- A magnitude. -/
def FVal.abs : FVal → FVal
  | .fin m e => .fin m.natAbs e
  | .inf _ => .inf false
  | .zero _ => .zero false
  | .nan => .nan

/-- The greatest magnitude among finite values, none when none is finite or all are zero. -/
def greatestFinite (l : List FVal) : Option FVal :=
  l.foldl (fun best x =>
    match x with
    | .fin _ _ => match best with
      | some b => if b.lt x.abs then some x.abs else best
      | none => some x.abs
    | _ => best) none

/-- The largest magnitude of a format (R307). -/
def blockPeak (code : Nat) : Int :=
  match code with
  | 0 => 127
  | 6 => 31
  | 5 => 7
  | _ => 2

/-- E of a quantised block (R307). -/
def blockScale (code : Nat) (l : List FVal) : Nat :=
  if code = 9 then 127
  else match greatestFinite l with
    | none => 127
    | some m => ((List.range 256).find? fun (e : Nat) =>
        !(FVal.fin (blockPeak code) 0).lt (m.scale (127 - (e : Int)))).getD 255

/-- The TSW8 byte nearest to a value at scale 1: ties to the sum of smaller magnitude, then the lowest byte (R135). -/
def quantiseTsw (y : FVal) : Nat :=
  match y with
  | .nan => 0x08
  | y =>
    let y := match y with
      | .inf n => .fin (if n then -2 else 2) 0
      | y => y
    let dist := fun b => (FVal.sum [y, .fin (-(tswSum b)) (-6)]).abs
    (List.range 256).foldl (fun best b =>
      if (dist b).lt (dist best) then b
      else if (dist best).lt (dist b) then best
      else if (tswSum b).natAbs < (tswSum best).natAbs then b else best) 0

/-- The field of a value at scale 2^(E − 127) (R135, R137). -/
def quantiseElem (code e : Nat) (y : FVal) : Nat :=
  let q := y.scale (127 - (e : Int))
  let w := blockWidth code
  match code with
  | 7 => quantiseTsw q
  | 9 => Fmt.bf16.rne q
  | _ => wrapTo w (q.toInt .rn (intMin w true) (intMax w true))

/-- One block of 64 bytes from its elements; a poisoned element poisons the block, whose scale comes from them all. -/
def quantiseBlock (f : Fmt) (code : Nat) (l : List (Nat × Bool)) : List PByte :=
  let ys := (List.range (blockCount code)).map fun i => f.decode (l[i]?.getD (0, false)).1
  let e := blockScale code ys
  let bits := packNat (blockWidth code) (ys.map (quantiseElem code e))
  (bytesOf 64 (code + e * 2 ^ 8 + bits * 2 ^ 16)).map fun b => (b, l.any Prod.snd)

/-! Commands (Table 11.9). -/

def BxfOp.width (o : BxfOp) : Nat := o.etype.bits / 8
def BxfOp.fmt (o : BxfOp) : Fmt := fmtOf o.etype
/-- Bytes of the blocks of the stream. -/
def BxfOp.blockBytes (o : BxfOp) : Nat := (o.n + blockCount o.btype - 1) / blockCount o.btype * 64
/-- Bytes on the source and on the destination side, and their logical tiles. -/
def BxfOp.srcBytes (o : BxfOp) : Nat := if o.dq then o.blockBytes else o.n * o.width
def BxfOp.dstBytes (o : BxfOp) : Nat := if o.qnt then o.blockBytes else o.n * o.width
def tilesOf (bytes : Nat) : Nat := (bytes + 2047) / 2048
def BxfOp.srcSpan (o : BxfOp) : Nat := if o.exp then tilesOf o.srcBytes * 2048 else o.srcBytes
def BxfOp.dstSpan (o : BxfOp) : Nat := if o.cmp then tilesOf o.dstBytes * 2048 else o.dstBytes
/-- The addresses of the inputs. -/
def BxfOp.inputs (o : BxfOp) : List W64 :=
  (List.range (if o.red then o.km1 + 1 else 1)).map fun i => o.src + w64 (64 * o.stride * i)

/-- The command in the lanes of a vector register; an unassigned etype has none. -/
def commandOf (v : W1024) : Option BxfOp :=
  let l := lane64 v
  (ElemTy.ofCode (BitVec.ofNat 4 (bitsOf (l 3) 19 16))).map fun ty =>
    { src := l 0, dst := l 1, km1 := bitsOf (l 2) 43 40, stride := bitsOf (l 2) 39 32, n := bitsOf (l 2) 23 0,
      btype := bitsOf (l 3) 23 20, etype := ty, cmp := bitOf (l 3) 10, qnt := bitOf (l 3) 9, red := bitOf (l 3) 8,
      trn := bitOf (l 3) 2, dq := bitOf (l 3) 1, exp := bitOf (l 3) 0, srcPlaces := [], dstPlace := 0,
      srcEntries := [], dstEntry := 0, srcBase := 0, dstBase := 0, srcLen := 0, dstLen := 0 }

/-- What R305 refuses of a command. -/
def commandRefused (v : W1024) (o : BxfOp) : Bool :=
  let l := lane64 v
  let ty := o.etype
  let overlap := fun a : W64 => decide (a.toNat < o.dst.toNat + o.dstSpan) && decide (o.dst.toNat < a.toNat + o.srcSpan)
  bitsOf (l 2) 63 44 ≠ 0 || bitsOf (l 2) 31 24 ≠ 0 || bitsOf (l 3) 63 24 ≠ 0 || bitsOf (l 3) 15 11 ≠ 0
    || bitsOf (l 3) 7 3 ≠ 0 || (List.range 12).any (fun i => l (4 + i) ≠ 0)
    || ((o.exp || o.dq || o.trn) && (o.red || o.qnt || o.cmp))
    || !(ty = .i8 || ty = .u8 || ty = .i16 || ty = .i32 || ty = .f16 || ty = .bf16 || ty = .f32)
    || ((o.dq || o.qnt) && (!(ty = .f32 || ty = .bf16) || blockCount o.btype = 0))
    || (o.red && !(ty = .f32 || ty = .bf16 || ty = .i32)) || (o.trn && ty.bits ≠ 16)
    || o.n % 64 ≠ 0 || o.n < 64 || 0x100000 < o.n || (o.trn && o.n ≠ 1024) || 7 < o.km1 || (o.km1 ≠ 0 && !o.red)
    || o.inputs.any overlap

/-- The checks of one operand of a command that come before those of its place: its alignment and R179, through a
compressed region over the offset table entries of its logical tiles (R229, R309, R311, R343). -/
def State.bxfTranslate (s : State) (need_ : Need) (va : W64) (bytes : Nat) (z : Bool) : Chk Xlat := do
  aligned va 64
  match (s.findReach s.cur.core s.cth.task va.toNat).filter fun i => z && (s.reach s.cur.core i).z with
  | none => s.access need_ va bytes
  | some i =>
    let e := s.reach s.cur.core i
    let d := va.toNat - e.base
    let p := e.place + d / 2048 * 8
    let tiles := tilesOf bytes
    if d % 2048 ≠ 0 then .error (.trap 0x05 va)
    else if e.limit < va.toNat + tiles * 2048 then .error (.trap 0x12 va)
    else if !e.grants need_ s.isHead then .error (.trap 0x11 va)
    else if s.spaceSize (tileOfPlace p) (spaceOfPlace p) false < offsetOfPlace p + 8 * tiles then .error (.trap 0x14 (w64 p))
    else s.resident ⟨i, p⟩ (8 * tiles)

/-- One operand of a command: a plain range, or the offset table entries of its logical tiles. The region of an expand's
source or a compress's destination is compressed, and every place lies in the scratchpad of the own tile (R343). -/
def State.bxfAccess (s : State) (need_ : Need) (va : W64) (bytes : Nat) (z : Bool) : Chk Xlat := do
  let x ← s.bxfTranslate need_ va bytes z
  need (!z || (s.reach s.cur.core x.entry).z) (.trap 0x11 va)
  need (tileOfPlace x.place = s.curTile && spaceOfPlace x.place = 1) (.trap 0x11 va)
  return x

/-- The stop of a command comes once its operands have passed R179 (R398). -/
def State.bxfStop (s : State) (c : BxfOp) : Chk Unit :=
  if (c.inputs.all fun a => (s.bxfTranslate .load a c.srcBytes c.exp).isOk)
      && (s.bxfTranslate .store c.dst c.dstBytes c.cmp).isOk then do
    s.dataStop (c.inputs.map fun a => (a.toNat, c.srcSpan)) true false
    s.dataStop [(c.dst.toNat, c.dstSpan)] false true
  else .ok ()

/-- The command with what its operands have translated to. -/
def State.placeCommand (s : State) (c : BxfOp) (srcs : List Xlat) (dst : Xlat) : BxfOp :=
  let reach := fun x : Xlat => s.reach s.cur.core x.entry
  let src := reach (srcs.headD ⟨0, 0⟩)
  { c with
    srcPlaces := srcs.map Xlat.place, srcEntries := srcs.map Xlat.entry, dstPlace := dst.place, dstEntry := dst.entry,
    srcBase := src.place, dstBase := (reach dst).place, srcLen := src.limit - src.base,
    dstLen := (reach dst).limit - (reach dst).base }

/-- The entries that a command reads first, the k-th under key k. -/
def BxfOp.entryReads (c : BxfOp) : List (Nat × Nat) :=
  if c.cmp then (List.range (tilesOf c.dstBytes)).map fun p => (p, c.dstPlace + 8 * p)
  else if c.exp then (List.range (tilesOf c.srcBytes)).map fun p => (p, c.srcPlaces.headD 0 + 8 * p)
  else []

/-- bxf (R343): the checks, then the thread waits for its unit. -/
def execBxf (o : BxfF) (s : State) : Host.Outcome State Fault Refusal :=
  complete o.g s fun s => do
    let v ← s.useV o.a.toNat allWords
    match commandOf v.bits with
    | none => .error badOperand
    | some c =>
      need (!commandRefused v.bits c) badOperand
      s.bxfStop c
      let srcs ← c.inputs.mapM fun a => s.bxfAccess .load a c.srcBytes c.exp
      let dst ← s.bxfAccess .store c.dst c.dstBytes c.cmp
      let c := s.placeCommand c srcs dst
      return .go (s.waitOn .waitingMemory (.bxf c ⟨0, 0, c.entryReads, [], []⟩))

/-! What a command computes. A stream is a list of elements with their poison. -/

abbrev Elems := List (Nat × Bool)

/-- Elements of `w` bytes from bytes with marks. -/
def elemsOf (w : Nat) (l : List PByte) : Elems := (chunks w l.length l).map fun c => (numberOf c, poisoned c)

/-- The bytes of a stream. -/
def bytesOfElems (w : Nat) (l : Elems) : List PByte := l.flatMap fun e => (bytesOf w e.1).map fun b => (b, e.2)

/-- One failure of a command: cause and information word. -/
abbrev Fail := Nat × W64

/-- Where a failure stands in scratchpad, by which the lowest is reported (R311). -/
def Fail.at (f : Fail) : Nat := if f.1 = 0x1E then bitsOf f.2 53 32 else offsetOfPlace f.2.toNat

def lowestFail : List Fail → Option Fail
  | [] => none
  | x :: r => match lowestFail r with
    | some y => if y.at < x.at then some y else some x
    | none => some x

/-- Elements of piece `p` of `total` elements of `w` bytes (R311). -/
def pieceCount (total w p : Nat) : Nat := Nat.min (2048 / w) (total - p * (2048 / w))

/-- One source of blocks or elements: the bytes, and where each block of 64 lies for reason 0x02 (offset of its object
or its own, and its index within the object). -/
structure Source where
  bytes : List PByte
  objs : List Nat
  fails : List Fail
  deriving DecidableEq, Repr

/-- The words of input `i` of piece `p` lie under these keys. -/
def wordKey (p i k : Nat) : Nat := ((p + 1) * 16 + i) * 2 ^ 20 + k

/-- The reads of `n` bytes at a place as words of such an input. -/
def wordReads (p i place n : Nat) : List (Nat × Nat) := (List.range (n / 8)).map fun k => (wordKey p i k, place + 8 * k)

/-- The first `n` bytes of such an input as the unit has read them. -/
def inputBytes (got : SMap (List PByte)) (p i n : Nat) : List PByte :=
  (List.range (n / 8)).flatMap fun k => SMap.get [] got (wordKey p i k)

/-- What the entry of piece `p` at `place` names, as the unit has read it (R309, R312, R361). -/
def State.entryGot (s : State) (base len : Nat) (va : W64) (got : SMap (List PByte)) (place p : Nat) (open_ : Bool) :
    Except Fail (Nat × OffEntry) :=
  let l := SMap.get [] got p
  if poisoned l then .error (0x0A, w64 (codeword (place + 8 * p)).1)
  else s.entryNames base len (va + w64 (2048 * p)) (place + 8 * p) open_ (w64 (numberOf l))

/-- The entry of a piece of an expand, and of a compress. -/
def State.sourceEntry (s : State) (c : BxfOp) (got : SMap (List PByte)) (p : Nat) : Except Fail (Nat × OffEntry) :=
  s.entryGot c.srcBase c.srcLen c.src got (c.srcPlaces.headD 0) p false
def State.targetEntry (s : State) (c : BxfOp) (got : SMap (List PByte)) (p : Nat) : Except Fail (Nat × OffEntry) :=
  s.entryGot c.dstBase c.dstLen c.dst got c.dstPlace p true

/-- The objects of an expand, in order (R306, R311). -/
def State.expandSource (s : State) (c : BxfOp) (got : SMap (List PByte)) : Source :=
  let ty := if c.dq then ElemTy.u8 else c.etype
  let w := ty.bits / 8
  (List.range (tilesOf c.srcBytes)).foldl (fun a p =>
    let n := pieceCount (c.srcBytes / w) w p
    match (do
      let (q, e) ← s.sourceEntry c got p
      let x ← objectIn q (some (ty, n)) (inputBytes got p 0 (e.rsv * 64))
      return (q, x) : Except Fail (Nat × Object)) with
    | .ok (q, x) => { a with bytes := a.bytes ++ bytesOfElems w x.elems, objs := a.objs ++ [q] }
    | .error f =>
      { bytes := a.bytes ++ List.replicate (n * w) (0, false), objs := a.objs ++ [0], fails := a.fails ++ [f] })
    ⟨[], [], []⟩

/-- The blocks of a dequantise, decoded, with what is malformed (R306, R312). -/
def dequantise (c : BxfOp) (src : Source) : Elems × List Fail :=
  let l := (chunks 64 src.bytes.length src.bytes).zipIdx
  let out := l.map fun b =>
    match decodeBlock c.fmt c.btype b.1 with
    | some e => (e, ([] : List Fail))
    | none =>
      let q := if c.exp then src.objs[b.2 / 32]?.getD 0 else c.srcPlaces.headD 0 + 64 * b.2
      (List.replicate (blockCount c.btype) (0, false),
        if c.exp && q = 0 then [] else [(0x1E, transformInfo 2 (if c.exp then b.2 % 32 else 0) 0 q)])
  ((out.flatMap Prod.fst).take c.n, out.flatMap Prod.snd)

/-- The 32 × 32 transpose. -/
def transposed (l : Elems) : Elems :=
  (List.range 1024).map fun k => l[k % 32 * 32 + k / 32]?.getD (0, false)

/-- Reduce of one element position over its inputs (R306). -/
def reduceElems (ty : ElemTy) (l : Elems) : Nat × Bool :=
  let bad := l.any Prod.snd
  if l.length = 1 then (l.headD (0, false)).1 |> fun x => (x, bad)
  else if ty = .i32 then (((l.map Prod.fst).foldl (· + ·) 0) % 2 ^ 32, bad)
  else
    let x := l.map fun e => Fmt.f32.rne ((fmtOf ty).decode e.1)
    let n := if l.length ≤ 2 then 2 else if l.length ≤ 4 then 4 else 8
    let t := treeSum add32 0 3 (x ++ List.replicate (n - x.length) negZero32)
    ((fmtOf ty).rne (Fmt.f32.decode t), bad)

/-- The result of a reduce over its inputs, element by element. -/
def reduceAll (ty : ElemTy) (inputs : List Elems) : Elems :=
  (List.range ((inputs.map List.length).headD 0)).map fun e => reduceElems ty (inputs.map fun l => l[e]?.getD (0, false))

/-- The stream that the load half-chain, or a reduce, gives, and what it finds malformed (R306). -/
def State.commandStream (s : State) (c : BxfOp) (got : SMap (List PByte)) : Elems × List Fail :=
  if c.red then
    (reduceAll c.etype ((List.range (c.km1 + 1)).map fun i => elemsOf c.width (inputBytes got 0 i c.srcBytes)), [])
  else
    let src := if c.exp then s.expandSource c got else ⟨inputBytes got 0 0 c.srcBytes, [], []⟩
    let d := if c.dq then dequantise c src else (elemsOf c.width src.bytes, [])
    (if c.trn then transposed d.1 else d.1, src.fails ++ d.2)

/-- The bytes of the blocks of a quantise. -/
def quantise (c : BxfOp) (l : Elems) : List PByte :=
  (chunks (blockCount c.btype) l.length l).flatMap (quantiseBlock c.fmt c.btype)

/-- The stream elements behind piece `p` of a compress: the first, and how many (R306, R311). -/
def BxfOp.pieceElems (c : BxfOp) (p : Nat) : Nat × Nat :=
  let per := if c.qnt then 32 * blockCount c.btype else 2048 / c.width
  (p * per, Nat.min per (c.n - p * per))

/-- The source words of a piece of a compress, of every input (R310). -/
def BxfOp.pieceReads (c : BxfOp) (p : Nat) : List (Nat × Nat) :=
  let e := c.pieceElems p
  c.srcPlaces.zipIdx.flatMap fun x => wordReads p x.2 (x.1 + e.1 * c.width) (e.2 * c.width)

/-- The type and the bytes, header included, of the object of a piece, and the bytes that it needs (R308, R310). -/
def BxfOp.pieceObject (c : BxfOp) (got : SMap (List PByte)) (p : Nat) : List PByte × Nat :=
  let n := (c.pieceElems p).2 * c.width
  let ins := (List.range c.srcPlaces.length).map fun i => elemsOf c.width (inputBytes got p i n)
  let l := if c.red then reduceAll c.etype ins else ins.headD []
  let ty := if c.qnt then ElemTy.u8 else c.etype
  let els := if c.qnt then elemsOf 1 (quantise c l) else l
  (buildObject ty els, 8 + els.length / 8 + (els.filter fun x => x.1 ≠ 0).length * (ty.bits / 8))

/-- Writes cut into words. -/
def wordWrites (ws : List PWrite) : List (List PWrite) := chunks 8 ws.length ws

/-- The write of the entry of a piece. -/
def BxfOp.entryWrite (c : BxfOp) (p : Nat) (e : OffEntry) : List (List (List PWrite)) :=
  [[cleanWrites (c.dstPlace + 8 * p) (bytesOf 8 e.word.toNat)]]

/-- What a unit does next: it goes on, completes, or fails. -/
inductive BxfNext where
  | more (run : BxfRun)
  | done
  | fail (f : Fail)
  deriving DecidableEq, Repr

/-- The first write of a piece of a compress: its entry with valid 0 (R310). -/
def State.beginPiece (s : State) (c : BxfOp) (got : SMap (List PByte)) (p : Nat) : BxfNext :=
  match s.targetEntry c got p with
  | .error f => .fail f
  | .ok (_, e) => .more ⟨3, p, [], got, c.entryWrite p { e with valid := false }⟩

/-- The end of a piece: its entry has been written, an overrun ends the command, or the next piece begins. An overrun
tells the offset of the object, by which it names the piece's entry (R310 to R312, Table 14.4; log 54, DEDUCED). -/
def State.endPiece (s : State) (c : BxfOp) (got : SMap (List PByte)) (p : Nat) : BxfNext :=
  match s.targetEntry c got p with
  | .error f => .fail f
  | .ok (q, e) =>
    let o := c.pieceObject got p
    if e.rsv * 64 < o.1.length then .fail (0x1E, transformInfo 1 0 o.2 q)
    else if p + 1 < tilesOf c.dstBytes then s.beginPiece c (got.filter fun x => decide (x.1 < 2 ^ 20)) (p + 1)
    else .done

/-- The next phase of a unit that has made the accesses of its phase: 0 the entries; 1 the whole source and 2 the
destination of a command that does not compress; 3 an entry with valid 0, 4 the source of its piece, 5 the chunks of
its object in ascending order as far as the reservation goes, and 6 the entry again (R310, R311; log 54, DEDUCED). -/
def State.bxfNext (s : State) (c : BxfOp) (r : BxfRun) : BxfNext :=
  match r.phase with
  | 0 =>
    if c.cmp then
      match lowestFail ((List.range (tilesOf c.dstBytes)).filterMap fun p =>
        match s.targetEntry c r.got p with
        | .error f => some f
        | .ok _ => none) with
      | some f => .fail f
      | none => s.beginPiece c r.got 0
    else if c.exp then
      .more ⟨1, 0, (List.range (tilesOf c.srcBytes)).flatMap fun p =>
        match s.sourceEntry c r.got p with
        | .ok (q, e) => wordReads p 0 q (e.rsv * 64)
        | .error _ => [], r.got, []⟩
    else .more ⟨1, 0, c.srcPlaces.zipIdx.flatMap fun x => wordReads 0 x.2 x.1 c.srcBytes, r.got, []⟩
  | 1 =>
    let x := s.commandStream c r.got
    match lowestFail x.2 with
    | some f => .fail f
    | none => .more ⟨2, 0, [], [], [wordWrites (markedWrites c.dstPlace
        (if c.qnt then quantise c x.1 else bytesOfElems c.width x.1))]⟩
  | 2 => .done
  | 3 => .more { r with phase := 4, reads := c.pieceReads r.piece }
  | 4 =>
    match s.targetEntry c r.got r.piece with
    | .error f => .fail f
    | .ok (q, e) =>
      let l := (c.pieceObject r.got r.piece).1.take (64 * e.rsv)
      .more { r with phase := 5, writes := (chunks 64 l.length (markedWrites q l)).map wordWrites }
  | 5 =>
    match s.targetEntry c r.got r.piece with
    | .error f => .fail f
    | .ok (_, e) =>
      let n := (c.pieceObject r.got r.piece).1.length / 64
      let e := { e with valid := decide (n ≤ e.rsv), used := Nat.min n e.rsv }
      .more { r with phase := 6, writes := c.entryWrite r.piece e }
  | _ => s.endPiece c r.got r.piece

def isBxf : Wait → Bool
  | .bxf .. => true
  | _ => false

/-- The unit of a waiting thread has come so far. -/
def State.setBxf (s : State) (core slot : Nat) (c : BxfOp) (r : BxfRun) : State :=
  s.modThread core slot fun t => t.modWait isBxf fun _ => .bxf c r

/-- One of the numbers of a list that nothing fixes, and the state in which the next choice differs. -/
def State.pickOne {α : Type} (s : State) (l : List α) : Option (α × State) :=
  (l[(Config.freeWord s.fresh).toNat % l.length]?).map fun x => (x, { s with fresh := s.fresh + 1 })

/-- TRANSFORM_COMMAND_COMPLETE: the next access of a bank transform unit, one word at one instant, any word of those that
its phase has left, or its next phase (R313; log 21, DESIGN CHOICE). It begins once the earlier stores of its thread have
been performed (R208). bxf completes with its last write; a failing command traps (R312). -/
def execTransformCommandComplete (core slot : Nat) (s : State) : Host.Outcome State Fault Refusal :=
  let th := s.thread core slot
  match th.findWait isBxf with
  | some ⟨m, _, .bxf c r⟩ =>
    if !s.drained core slot th.uid then notDue s
    else match r.reads, r.writes with
    | [], [] =>
      match s.bxfNext c r with
      | .more r => .next (s.setBxf core slot c r)
      | .done => .next (s.endWait core slot isBxf Thread.bump)
      | .fail f => .next (s.trapWait core slot f.1 f.2 m)
    | [], g :: rest =>
      match s.pickOne g with
      | none => if g = [] then .next (s.setBxf core slot c { r with writes := rest }) else notDue s
      | some (w, s) => .next ((s.perform w none).setBxf core slot c { r with writes := g.filter (· ≠ w) :: rest })
    | l, _ =>
      match s.pickOne l with
      | none => notDue s
      | some (x, s) =>
        let b := s.readBytes x.2 8
        .next (b.1.setBxf core slot c { r with reads := l.filter (· ≠ x), got := SMap.set r.got x.1 b.2 })
  | _ => notDue s

end Sys2Proof.Machine
end

