-- ==== Sys2Proof/Machine/Resets.lean ====
section
/-! DEFINITION. Resets.lean: device and partition resets and their ends, what raises them, and what basin may do (R194,
R294, R411, R423, R425 to R429). -/

namespace Sys2Proof.Machine

/-! Threads of a core that is reset. -/

/-- A thread that a reset takes from its core: its open versions are discarded, and it counts to its dispatcher as ended by
TKILL (R223, R426). -/
def State.loseThread (s : State) (core : Nat) (t : Thread) : State :=
  if t.state = .idle then s
  else
    let s := s.discardVersions t.uid fun _ => true
    if t.handle = 0 then s
    else { s with net := s.net ++ [Packet.ended t.handle core t.indices true] }.modLaunch t.handle
      fun l => l.endMember t.indices

/-- Whether a member of a launch has a thread anywhere, or a wake on its way to it. -/
def State.memberLives (s : State) (handle : W64) (m : Member) : Bool :=
  (s.cores.any fun e =>
    (e.2.contexts.any fun k =>
      let t := e.2.thread e.1 k
      t.state ≠ .idle && t.handle = handle && t.indices = m.idx)
    || e.2.arrivals.any fun a => a.1.handle = handle && a.1.indices = m.idx)
  || s.net.any fun p => match p with
    | .wake w => w.handle = handle && w.core = m.core
    | .migrant _ _ t _ => t.handle = handle && t.indices = m.idx
    | _ => false

/-- Members whose wake a covered core has received, and whose thread it has not started. -/
def State.waitingMembers (s : State) (core : Nat) : List (W64 × List Nat) :=
  s.launches.flatMap fun l =>
    (l.members.filter fun m => !m.ended && m.core = core && !s.memberLives l.handle m).map fun m => (l.handle, m.idx)

/-- A core that a reset covers: every thread of it is lost, and no slot issues until the reset is over
(log 90, DEDUCED). -/
def State.resetCore (s : State) (core : Nat) : State :=
  let c := s.core core
  let waiting := s.waitingMembers core
  let s := c.contexts.foldl (fun s k => s.loseThread core (c.thread core k)) s
  let s := c.arrivals.foldl (fun s a => s.loseThread core a.1) s
  let s := waiting.foldl (fun s w =>
    { s with net := s.net ++ [Packet.ended w.1 core w.2 true] }.modLaunch w.1 fun l => l.endMember w.2) s
  let busy := (List.range 16).filter fun k => (c.thread core k).state ≠ .idle
  -- a slot that held a thread is idle from the next cycle on (R117)
  let threads := busy.foldl (fun l k => SMap.set l k { Core.startThread core k with idleAt := s.cycle + 1 }) []
  s.setCore core { Core.reset with stopped := true, threads := threads }

/-! Transfers. -/

/-- Whether a transfer of the streamer of `tile` touches a tile for which `hit` holds. -/
def State.transferTouches (s : State) (hit : Nat → Bool) (tile : Nat) (t : Transfer) : Bool :=
  let dev := deviceOfCore t.core
  let src := if t.passed then t.srcPlace else s.handlePlace dev t.desc.srch
  let dst := if t.desc.inflow then spaceBase (tileOfCore (bitsOf t.desc.dsth 52 32)) 0
    else if t.passed then t.dstPlace else s.handlePlace dev t.desc.dsth
  hit tile || hit (tileOfPlace src) || hit (tileOfPlace dst)

/-- A transfer that a reset ends (Table 11.4). -/
def Transfer.abort (t : Transfer) : Transfer := { t with status := 6, fault := 0, todo := [] }

/-- A transfer whose ring's tile is reset loses its record (R294). -/
def Transfer.loseRing (hit : Nat → Bool) (t : Transfer) : Transfer :=
  if hit t.ringTile then { t with ringDead := true } else t

/-- The streamer of a tile after the transfers that satisfy `p` have been ended. -/
def Tile.abortWhere (t : Tile) (p : Transfer → Bool) : Tile :=
  { t with strActive := (t.strActive.map fun x => if p x then x.abort else x)
             ++ (t.strInbox.filter p).map Transfer.abort,
           strInbox := t.strInbox.filter fun x => !p x }

def Tile.loseRings (t : Tile) (hit : Nat → Bool) : Tile :=
  { t with strActive := t.strActive.map (Transfer.loseRing hit), strInbox := t.strInbox.map (Transfer.loseRing hit) }

/-- Transfers that touch tiles that are reset end with status 6, and records of their rings are lost. -/
def State.abortTransfers (s : State) (hit : Nat → Bool) : State :=
  { s with
    tiles := s.tiles.map fun e => (e.1, (e.2.abortWhere (s.transferTouches hit e.1)).loseRings hit),
    net := s.net.map fun p => match p with
      | .request tile t => .request tile (t.loseRing hit)
      | p => p }

/-! Tiles. -/

/-- Whether a tile's reset leaves a register word of its spaces 2 and 3 as it is: those of the vault, the agent's
backwater, GMAP and the region descriptors, and those of larger units (R426; log 46, DEDUCED). -/
def keepsReg (group : Bool) (place : Nat) : Bool :=
  let off := offsetOfPlace place
  if spaceOfPlace place = 2 then off < 0x30 || (0x100 ≤ off && off < 0x300)
  else off < 0x100 || (0x100000 ≤ off && off < 0x100200)
    || (!group && (off = 0x300100 || (0x320000 ≤ off && off < 0x320200)))
    || (0x350000 ≤ off && off < 0x350110) || off = 0x350200
    || 0x330000 ≤ off && off < 0x350000 || 0x360000 ≤ off

/-- The sensors of a tile are taken as sound again (R418). -/
def State.soundSensors (s : State) (tile : Nat) : State :=
  (List.range 33).foldl (fun s b =>
    let r := sensorReg tile b
    let s := if bitOf (s.reg r) 63 then s.setReg r (setBit (s.reg r) 63 false) else s
    if (s.bank tile b).reported then s.setBank tile b { s.bank tile b with reported := false } else s) s

/-- The tile's own units: what was in flight at the agent waits in its inbox again. -/
def Tile.afterReset (t : Tile) : Tile :=
  { t with inbox := t.inflight.map Started.msg ++ t.inbox, inflight := [], handler := none, eng := EngineRegs.reset,
           engGen := t.engGen + 1, engineQ := [], astRecords := [], bfAccepted := 0, semQ := [], monitors := [],
           qbuf := [], riserUp := [], riserDown := [], riserPops := [], dredge := none }

/-- Posted stores to the registers of a tile. -/
def Posted.toRegs (p : Posted) (tile : Nat) : Bool :=
  p.bytes.any fun w => tileOfPlace w.addr = tile && 2 ≤ spaceOfPlace w.addr

/-- A tile that a reset covers (R426). -/
def State.resetTile (s : State) (group : Bool) (tile : Nat) : State :=
  let s := (s.resetCore (stagingOf tile)).resetCore (computeOf tile)
  let s := match (s.tile tile).handler with
    | some m => s.sendReply m 6 ⟨0, 0⟩
    | none => s
  let s := { s with posted := s.posted.filter fun p => !p.toRegs tile }
  let mine := fun k : Nat => tileOfPlace (k * 8) = tile && 2 ≤ spaceOfPlace (k * 8) && !keepsReg group (k * 8)
  let s := { s with regs := s.regs.filter fun e => !mine e.1,
                    timers := s.timers.filter fun e => !mine e.1,
                    seepHeld := s.seepHeld.filter fun p => !mine (p / 8),
                    net := s.net.filter fun p => match p with
                      | .notice c _ => tileOfCore c ≠ tile
                      | _ => true }
  let bus := spaceBase tile 3 + 0x350200
  let s := if bitOf (s.reg bus) 63 then s else s.setReg bus (setBit (s.reg bus) 63 true)
  (s.modTile tile Tile.afterReset).soundSensors tile

/-! Engines. -/

/-- The function code of a form (Table 12.1). -/
def EngineForm.fnCode : EngineForm → Nat
  | .product fn _ => fn
  | .sparsify _ => 1
  | .drev _ => 0
  | .bfly _ => 1
  | .twset _ => 2
  | .twmul .. => 3
  | .azero _ => 0
  | .amov _ => 1
  | .ast .. => 2
  | .ald .. => 3

/-- The record of a discarded ast (Table 11.4) (log 89, DEDUCED). -/
def State.abortAst (s : State) (tile : Nat) (op : EngineOp) : State :=
  match op.form with
  | .ast o _ _ _ (some q) .. =>
    s.modTile tile fun t =>
      { t with astRecords := t.astRecords ++ [(⟨o.ring.toNat, q, 6, 0, 0, op.task, s.nextUid⟩ : AstRecord)] }
  | _ => s

/-- A matrix engine that is reset: its queue is discarded, each issuer takes an engine fault of cause 0x0A, and its
registers are as R256 gives them. No byte failed: the place of the information word has no stated value (log 3, DESIGN
CHOICE). -/
def State.resetMatrix (s : State) (tile : Nat) : State :=
  let q := (s.tile tile).engineQ
  let s := s.modTile tile fun t => { t with engineQ := [], eng := EngineRegs.reset, bfAccepted := 0 }
  let s := q.foldl (fun s op =>
    let f := s.takeFresh
    (f.2.engineFault op 0x0A op.form.fnCode f.1.toNat).abortAst tile op) s
  s.admitEngine tile

/-- Whether a range of a scratchpad has words in a bank: bits 6:3 of an offset choose it (R168). -/
def inPadBank (bank place n : Nat) : Bool := (List.range 16).any fun i => decide (8 * i < n) && (place / 8 + i) % 16 = bank

/-- Whether a command of a transform unit accesses a bank, which makes it a command of that bank's unit (log 133,
DEDUCED). -/
def BxfOp.usesBank (c : BxfOp) (bank : Nat) : Bool :=
  c.exp || c.cmp || (c.srcPlaces.any fun p => inPadBank bank p (c.srcBytes + p % 8))
    || inPadBank bank c.dstPlace (c.dstBytes + c.dstPlace % 8)

/-- The transform unit of a bank that is reset: its command traps its issuer as engine fault (R426). -/
def State.resetTransform (s : State) (tile bank : Nat) : State :=
  [stagingOf tile, computeOf tile].foldl (fun s core =>
    (s.core core).contexts.foldl (fun s k =>
      match (s.thread core k).findWait isBxf with
      | some ⟨m, _, .bxf c _⟩ =>
        let f := s.takeFresh
        if c.usesBank bank then f.2.trapWait core k 0x21 (w64 (0x0A + bitsOf f.1 53 8 * 2 ^ 8)) m else s
      | _ => s) s) s

def State.resetEngine (s : State) (tile : Nat) (eng : EngineUnit) : State :=
  match eng with
  | .matrix => s.resetMatrix tile
  | .streamer => s.modTile tile fun t => t.abortWhere fun _ => true
  | .transform bank => s.resetTransform tile bank

/-! Ports. -/

/-- The devices between which a packet travels that a port's reset can discard, none for another (R426). -/
def Packet.ends (p : Packet) : Option (Nat × Nat) :=
  match p with
  | .message tile m => some (deviceOfCore m.src, deviceOfTile tile)
  | .reply r => some (deviceOfTile (tileOfPlace r.place), deviceOfCore r.core)
  | .inflow core _ _ _ _ tile _ => some (deviceOfTile tile, deviceOfCore core)
  | _ => none

/-- Whether a packet is traffic of a port. -/
def State.onPort (s : State) (dev port : Nat) (p : Packet) : Bool := p.ends.any fun e => s.carries dev port e.1 e.2

/-- The sender of a lost row call or atomic traps with the place (R426). -/
def State.loseCall (s : State) (core slot uid place : Nat) : State :=
  let k := s.locate core slot uid
  let t := s.thread core k
  match t.findWait fun w => isRowCall w || isAmo w with
  | some w => if t.uid = uid then s.trapWait core k 0x0A (w64 place) w.member else s
  | none => s

/-- What a discarded packet leaves behind. -/
def State.losePacket (s : State) (p : Packet) : State :=
  match p with
  | .message _ m => s.loseCall m.src m.slot m.uid m.place
  | .reply r => s.loseCall r.core r.slot r.uid r.place
  | .inflow _ _ _ _ _ tile num => s.modTile tile fun t => t.abortWhere fun x => x.num = num
  | _ => s

/-- The packets at these positions that are traffic of the port are discarded, and no other. -/
def State.losePackets (s : State) (dev port : Nat) (lost : List Nat) : State :=
  let gone := (lost.filterMap fun i => s.net[i]?).filter (s.onPort dev port)
  let s' := { s with net := (s.net.zipIdx.filter fun e => !(lost.contains e.2 && s.onPort dev port e.1)).map Prod.fst }
  let s' := gone.foldl State.losePacket s'
  -- a block on its way to memory has no packet: numbers past the packets name transfers
  (lost.filter fun i => s.net.length ≤ i).foldl (fun s' i =>
    { s' with tiles := s'.tiles.map fun e => (e.1, e.2.abortWhere fun x =>
        x.num + s.net.length = i &&
          s.carries dev port (deviceOfTile (tileOfPlace x.srcPlace)) (deviceOfTile (tileOfPlace x.dstPlace))) }) s'

/-! Partition resets. -/

/-- The tiles inside a boundary. The unit of an engine, a tile or a group is a tile, of a stack 4 times its device and
its number, of a port 32 times its device and its number. -/
def resetTiles (b : Boundary) (unit : Nat) : List Nat :=
  match b with
  | .engine | .tile => [unit]
  | .group => (List.range 16).map fun k => groupHead unit + k / 4 * 16 + k % 4
  | .stack => (List.range 128).map fun k => unit * 128 + k
  | .port | .device => []

def resetDevice (b : Boundary) (unit : Nat) : Nat :=
  match b with
  | .engine | .tile | .group => deviceOfTile unit
  | .stack => unit / 4
  | .port => unit / 32
  | .device => unit

/-- Reset times of R426, in cycles. -/
def resetTime (b : Boundary) : Nat :=
  match b with
  | .engine => 400
  | .tile => 40000
  | .group => 80000
  | .stack => 800000
  | .port => 32000
  | .device => 3200000000

/-- Subcodes of R427. -/
def resetCode (b : Boundary) : Nat :=
  match b with
  | .engine => 1
  | .tile => 2
  | .group => 3
  | .stack => 4
  | .port => 5
  | .device => 6

/-- Whether a reset covers another (R427). -/
def Reset.covers (r : Reset) (b : Boundary) (unit : Nat) (eng : EngineUnit) : Bool :=
  match r.boundary, b with
  | .device, _ => resetDevice b unit = r.unit
  | .port, .port => r.unit = unit
  | .port, _ | _, .port | _, .device => false
  | .engine, .engine => r.unit = unit && r.eng = eng
  | .engine, _ => false
  | rb, b => (resetTiles b unit).all fun t => (resetTiles rb r.unit).contains t

/-- The place of a reset unit, and the unit field of its silt entry (R427). -/
def resetPlace (b : Boundary) (unit : Nat) : Nat :=
  match b with
  | .port => linkReg (unit / 32) (unit % 32)
  | _ => spaceBase ((resetTiles b unit).headD (unit * 512)) 0

def resetUnit (b : Boundary) (unit : Nat) : Nat :=
  match b with
  | .port => unit % 32
  | _ => stagingOf ((resetTiles b unit).headD (unit * 512)) % 1024

/-- The 16 queues of a stack's dispatcher stop (R426). -/
def State.stopQueues (s : State) (unit : Nat) : State :=
  (List.range 16).foldl (fun s k =>
    let r := lqReg (unit / 4) (unit % 4 * 16 + k) 1
    if bitOf (s.reg r) 0 then s.setReg r (setBit (s.reg r) 0 false) else s) s

/-- The effect of a reset at its start. -/
def State.applyReset (s : State) (b : Boundary) (unit : Nat) (eng : EngineUnit) (lost : List Nat) : State :=
  let tiles := resetTiles b unit
  match b with
  | .engine => s.resetEngine unit eng
  | .port => (s.losePackets (unit / 32) (unit % 32) lost).resetPort (unit / 32) (unit % 32)
  | .device => s
  | _ =>
    let s := s.abortTransfers tiles.contains
    let s := tiles.foldl (fun s t => s.resetTile (b != .tile) t) s
    if b = .stack then s.stopQueues unit else s

/-- The boundary of an error class (Table 18.8). -/
def ErrorClass.boundary : ErrorClass → Boundary
  | .coreState => .tile
  | .engineUnit => .engine
  | .mesh => .group
  | .bridge => .stack
  | .firmware => .device

/-- Hardware detects an error and raises its reset (R425). The unit of an engine names which one. -/
def State.detect (s : State) (e : ErrorClass) (unit : Nat) (eng : EngineUnit) : State :=
  let eng := if e = .engineUnit then eng else .matrix
  s.raiseReset (resetDevice e.boundary unit) e.boundary unit eng

/-- PARTITION_RESET: wellhead performs a reset that has been raised. One that a running reset covers joins it; a larger one
takes the running ones over (R425, R427). -/
def execPartitionReset (boundary : Boundary) (unit : Nat) (eng : EngineUnit) (lost : List Nat) (s : State) :
    Host.Outcome State Fault Refusal :=
  let dev := resetDevice boundary unit
  let new : Reset := ⟨boundary, unit, eng, s.cycle + resetTime boundary⟩
  if boundary = .device || !(s.device dev).raised.contains (boundary, unit, eng) then notDue s
  else
    let s := s.modDevice dev fun d => { d with raised := d.raised.filter fun x => x ≠ (boundary, unit, eng) }
    if (s.device dev).resets.any fun r => r.covers boundary unit eng then .next s
    else
      let s := s.applyReset boundary unit eng lost
      let s := s.modDevice dev fun d =>
        { d with resets := (d.resets.filter fun r => !new.covers r.boundary r.unit r.eng) ++ [new] }
      .next (s.silt dev 0x04 (resetCode boundary) (resetUnit boundary unit) (w64 (resetPlace boundary unit)))

/-- A core starts again (R411). -/
def State.restartCore (s : State) (core : Nat) : State := s.modCore core fun c => { c with stopped := false }

/-- A tile starts again: wellhead loads the image into granule 0 and pins it (R411). -/
def State.restartTile (s : State) (body : List Byte) (tile : Nat) : State :=
  let s := s.perform (cleanWrites (spaceBase tile 0) (body.take (2 ^ 21))) none
  ((s.setGranule tile 0 3).restartCore (stagingOf tile)).restartCore (computeOf tile)

/-- The tiles that start when a reset is over. -/
def Reset.tiles (r : Reset) : List Nat :=
  if r.boundary = .device then (List.range 512).map fun k => r.unit * 512 + k
  else if r.boundary = .engine then [] else resetTiles r.boundary r.unit

/-- RESET_COMPLETE: the time of reset `n` of a device is over. Where it covers tiles, wellhead, which the ROM has verified,
first verifies the core runtime image, which the event gives; until one passes, the reset goes on (R411, R428) (log 81,
DESIGN CHOICE) (log 87, DEDUCED). -/
def execResetComplete (device n : Nat) (image : BootImage) (s : State) : Host.Outcome State Fault Refusal :=
  let d := s.device device
  match d.resets[n]? with
  | none => notDue s
  | some r =>
    if s.cycle < r.due || !d.wellhead then notDue s
    else
      let without := fun s : State => s.modDevice device fun d => { d with resets := dropAt d.resets n }
      match r.boundary with
      | .engine => .next (without s)
      | .port => .next ((without s).portBack (r.unit / 32) (r.unit % 32))
      | _ =>
        let s' := s.takeImage device 2 image
        if imagePasses device image then
          .next (r.tiles.foldl (fun s t => s.restartTile image.body t) (without s'))
        else .next s'

/-! Device resets. -/

/-- What stays of a device: its silt record, and events that wait for it. -/
def Device.afterReset (d : Device) (dev cycle : Nat) : Device :=
  { Device.reset with silt := d.silt, siltQ := d.siltQ, siltDrop := d.siltDrop,
                      epoch := Nat.min 0xFFFF (d.epoch + 1), resetAt := cycle,
                      resets := [⟨.device, dev, .matrix, cycle + resetTime .device⟩] }

/-- Row calls of other devices to a device that is reset are lost (log 47, DEDUCED). -/
def State.loseCallsTo (s : State) (dev : Nat) : State :=
  s.cores.foldl (fun s e =>
    if deviceOfCore e.1 = dev then s
    else e.2.contexts.foldl (fun s k =>
      match (s.thread e.1 k).findWait isRowCall with
      | some ⟨m, _, .rowCall op⟩ =>
        if deviceOfTile (tileOfPlace op.msg.place) = dev then s.trapWait e.1 k 0x0A (w64 op.msg.place) m else s
      | _ => s) s) s

/-- Threads of other devices' launches on a device that is reset end as by TKILL. -/
def State.loseMembers (s : State) (dev : Nat) : State :=
  s.cores.foldl (fun s e =>
    if deviceOfCore e.1 ≠ dev then s
    else
      let waiting := s.waitingMembers e.1
      let s := e.2.contexts.foldl (fun s k => s.loseThread e.1 (e.2.thread e.1 k)) s
      let s := e.2.arrivals.foldl (fun s a => s.loseThread e.1 a.1) s
      waiting.foldl (fun s w =>
        { s with net := s.net ++ [Packet.ended w.1 e.1 w.2 true] }.modLaunch w.1 fun l => l.endMember w.2) s) s

/-- Whether a packet is lost with a device: on its way to it, or counted by its dispatchers. -/
def Packet.lostWith (p : Packet) (dev : Nat) : Bool :=
  match p with
  | .credit toCore .. => deviceOfCore toCore = dev
  | .queueEntry _ _ toCore _ _ _ => deviceOfCore toCore = dev
  | .notice core _ => deviceOfCore core = dev
  | .trig handle .. => bitsOf handle 58 48 = dev
  | .ended handle .. => bitsOf handle 58 48 = dev
  | .signal d .. => d = dev
  | .migrant target _ _ _ => deviceOfCore target = dev
  | .wake w => deviceOfCore w.core = dev
  | p => p.onDevice dev

/-- Keys of timers: a place over 8, or a core behind 2^80 or 2^81; those of silt records stay. -/
def timerIn (dev key : Nat) : Bool :=
  if key < 2 ^ 80 then placeIn dev (key * 8) else key < 2 ^ 82 && key % 2 ^ 80 / 1024 = dev

/-- Everything a device holds is lost but for the silt record (R426). -/
def State.eraseDevice (s : State) (dev : Nat) : State :=
  let silt := s.reg (siltSeqReg dev)
  let s := { s with
    mem := s.mem.filter fun c => !placeIn dev c.1,
    marks := s.marks.filter fun m => !placeIn dev (m * 4),
    ecc := s.ecc.filter fun a => !placeIn dev a,
    soft := s.soft.filter fun a => !placeIn dev a,
    posted := s.posted.filter fun p => deviceOfCore p.core ≠ dev,
    net := s.net.filter fun p => !p.lostWith dev,
    regs := s.regs.filter fun e => !placeIn dev (e.1 * 8),
    seepHeld := s.seepHeld.filter fun p => !placeIn dev p,
    timers := s.timers.filter fun e => !timerIn dev e.1,
    cores := s.cores.filter fun e => deviceOfCore e.1 ≠ dev,
    tiles := s.tiles.filter fun e => deviceOfTile e.1 ≠ dev,
    lines := s.lines.filter fun e => !placeIn dev (e.1 * 64),
    launches := s.launches.filter fun l => l.device ≠ dev,
    signals := s.signals.filter fun e => e.1 / 2 ^ 32 / 64 ≠ dev }
  s.setReg (siltSeqReg dev) silt

/-- Links to a device that is reset go down at their other ends too, with their packets and tables (log 43, DEDUCED). -/
def State.dropLinks (s : State) (dev : Nat) : State :=
  s.devices.foldl (fun s e =>
    (List.range 18).foldl (fun s p =>
      if e.1 ≠ dev ∧ (s.linkState e.1 p = 1 ∨ s.linkState e.1 p = 2) ∧ (s.linkPeer e.1 p).1 = dev then
        (s.setPort e.1 p Port.reset).setLinkState e.1 p 0
      else s) s) s

/-- DEVICE_RESET: the device loses everything but its silt record, wellhead writes DOMCFG, and the cores start when the
reset is over (R411, R423, R426, R427). -/
def execDeviceReset (device gsize ngroups : Nat) (s : State) : Host.Outcome State Fault Refusal :=
  if !domainOk device gsize ngroups then notDue s
  else
    let s := ((s.dropLinks device).loseCallsTo device).loseMembers device
    let s := (s.abortTransfers fun t => deviceOfTile t = device).eraseDevice device
    let s := s.modDevice device fun d => d.afterReset device s.cycle
    let s := s.setReg (domcfgReg device) (domcfg device gsize ngroups)
    .next (s.silt device 0x04 6 0 (w64 (spaceBase (device * 512) 0)))

/-! Basin (R429). -/

/-- Whether basin may read a place: the service registers of its chapter, seep counters, PGCTL and SILTSEQ. -/
def basinReads (place : Nat) : Bool :=
  let off := offsetOfPlace place
  spaceOfPlace place = 3 && (basinWrites (tileOfPlace place) off || off = 0x201020 || off = 0x330000)

def State.tellBasin (s : State) (dev : Nat) (r : BasinReply) : State :=
  s.modDevice dev fun d => { d with basin := d.basin ++ [r] }

/-- What basin does, as far as wellhead lets it: it refuses every access to spaces 0 and 1, every write to GMAP, the handle
table, reach tables and region descriptors, and what basin has no use of (R429). Other images are refused where they are
verified. -/
def State.basinAct (s : State) (dev : Nat) (a : BasinAct) : State :=
  match a with
  | .read place =>
    if deviceOfTile (tileOfPlace place) = dev && basinReads place then
      let r := s.readReg (place / 8 * 8)
      r.2.tellBasin dev (.word place r.1)
    else s.tellBasin dev (.refused place)
  | .write place v =>
    let tile := tileOfPlace place
    if deviceOfTile tile ≠ dev || spaceOfPlace place ≠ 3 then s.tellBasin dev (.refused place)
    else if basinWrites tile (offsetOfPlace place) then s.writeReg (place / 8 * 8) v false
    else if offsetOfPlace place = 0x201020 && bitOf v 63 then s.requestGate (computeOf tile) (bitsOf v 31 0)
    else s.tellBasin dev (.refused place)
  | .tier n => s.modDevice dev fun d => { d with tier := some n }
  | .silt seq => s.tellBasin dev (.silt ((s.device dev).silt.find? fun e => e.seq = seq))
  | .reset b unit eng =>
    if b = .device || resetDevice b unit ≠ dev then s
    else s.raiseReset dev b unit (if b = .engine then eng else .matrix)

end Sys2Proof.Machine
end

