-- ==== Sys2Proof/Machine/Dispatch.lean ====
section
/-! DEFINITION. Dispatch.lean: one arm per instruction and per event of the opcode table. -/

namespace Sys2Proof.Machine

def exec (i : Instr) (s : State) : Host.Outcome State Fault Refusal :=
  match i with
  | .add o => Sys2Proof.Machine.execAdd o s
  | .sub o => Sys2Proof.Machine.execSub o s
  | .and o => Sys2Proof.Machine.execAnd o s
  | .or o => Sys2Proof.Machine.execOr o s
  | .xor o => Sys2Proof.Machine.execXor o s
  | .andn o => Sys2Proof.Machine.execAndn o s
  | .sll o => Sys2Proof.Machine.execSll o s
  | .srl o => Sys2Proof.Machine.execSrl o s
  | .sra o => Sys2Proof.Machine.execSra o s
  | .rol o => Sys2Proof.Machine.execRol o s
  | .min o => Sys2Proof.Machine.execMin o s
  | .max o => Sys2Proof.Machine.execMax o s
  | .minu o => Sys2Proof.Machine.execMinu o s
  | .maxu o => Sys2Proof.Machine.execMaxu o s
  | .addi o => Sys2Proof.Machine.execAddi o s
  | .andi o => Sys2Proof.Machine.execAndi o s
  | .ori o => Sys2Proof.Machine.execOri o s
  | .xori o => Sys2Proof.Machine.execXori o s
  | .slli o => Sys2Proof.Machine.execSlli o s
  | .srli o => Sys2Proof.Machine.execSrli o s
  | .srai o => Sys2Proof.Machine.execSrai o s
  | .roli o => Sys2Proof.Machine.execRoli o s
  | .li o => Sys2Proof.Machine.execLi o s
  | .lpc o => Sys2Proof.Machine.execLpc o s
  | .mul o => Sys2Proof.Machine.execMul o s
  | .mulh o => Sys2Proof.Machine.execMulh o s
  | .mulhu o => Sys2Proof.Machine.execMulhu o s
  | .div o => Sys2Proof.Machine.execDiv o s
  | .divu o => Sys2Proof.Machine.execDivu o s
  | .rem o => Sys2Proof.Machine.execRem o s
  | .remu o => Sys2Proof.Machine.execRemu o s
  | .cmpeq o => Sys2Proof.Machine.execCmpeq o s
  | .cmpne o => Sys2Proof.Machine.execCmpne o s
  | .cmplt o => Sys2Proof.Machine.execCmplt o s
  | .cmple o => Sys2Proof.Machine.execCmple o s
  | .cmpltu o => Sys2Proof.Machine.execCmpltu o s
  | .cmpleu o => Sys2Proof.Machine.execCmpleu o s
  | .sel o => Sys2Proof.Machine.execSel o s
  | .slt o => Sys2Proof.Machine.execSlt o s
  | .sltu o => Sys2Proof.Machine.execSltu o s
  | .clz o => Sys2Proof.Machine.execClz o s
  | .ctz o => Sys2Proof.Machine.execCtz o s
  | .popc o => Sys2Proof.Machine.execPopc o s
  | .bswap o => Sys2Proof.Machine.execBswap o s
  | .brev o => Sys2Proof.Machine.execBrev o s
  | .bfx o => Sys2Proof.Machine.execBfx o s
  | .bfxu o => Sys2Proof.Machine.execBfxu o s
  | .bfi o => Sys2Proof.Machine.execBfi o s
  | .bins o => Sys2Proof.Machine.execBins o s
  | .bffcs o => Sys2Proof.Machine.execBffcs o s
  | .bplim o => Sys2Proof.Machine.execBplim o s
  | .pand o => Sys2Proof.Machine.execPand o s
  | .por o => Sys2Proof.Machine.execPor o s
  | .pxor o => Sys2Proof.Machine.execPxor o s
  | .pandn o => Sys2Proof.Machine.execPandn o s
  | .pnot o => Sys2Proof.Machine.execPnot o s
  | .br o => Sys2Proof.Machine.execBr o s
  | .beq o => Sys2Proof.Machine.execBeq o s
  | .bne o => Sys2Proof.Machine.execBne o s
  | .blt o => Sys2Proof.Machine.execBlt o s
  | .bge o => Sys2Proof.Machine.execBge o s
  | .bltu o => Sys2Proof.Machine.execBltu o s
  | .bgeu o => Sys2Proof.Machine.execBgeu o s
  | .call o => Sys2Proof.Machine.execCall o s
  | .jmp o => Sys2Proof.Machine.execJmp o s
  | .callr o => Sys2Proof.Machine.execCallr o s
  | .ret o => Sys2Proof.Machine.execRet o s
  | .mfs o => Sys2Proof.Machine.execMfs o s
  | .mts o => Sys2Proof.Machine.execMts o s
  | .nop o => Sys2Proof.Machine.execNop o s
  | .lbpurge o => Sys2Proof.Machine.execLbpurge o s
  | .swtrap o => Sys2Proof.Machine.execSwtrap o s
  | .track o => Sys2Proof.Machine.execTrack o s
  | .tkill o => Sys2Proof.Machine.execTkill o s
  | .ld o => Sys2Proof.Machine.execLd o s
  | .ldu o => Sys2Proof.Machine.execLdu o s
  | .st o => Sys2Proof.Machine.execSt o s
  | .ldbf o => Sys2Proof.Machine.execLdbf o s
  | .ldbfs o => Sys2Proof.Machine.execLdbfs o s
  | .stbf o => Sys2Proof.Machine.execStbf o s
  | .bset o => Sys2Proof.Machine.execBset o s
  | .bget o => Sys2Proof.Machine.execBget o s
  | .badd o => Sys2Proof.Machine.execBadd o s
  | .vadd o => Sys2Proof.Machine.execVadd o s
  | .vsub o => Sys2Proof.Machine.execVsub o s
  | .vmul o => Sys2Proof.Machine.execVmul o s
  | .vmin o => Sys2Proof.Machine.execVmin o s
  | .vmax o => Sys2Proof.Machine.execVmax o s
  | .vand o => Sys2Proof.Machine.execVand o s
  | .vor o => Sys2Proof.Machine.execVor o s
  | .vxor o => Sys2Proof.Machine.execVxor o s
  | .vsll o => Sys2Proof.Machine.execVsll o s
  | .vsrl o => Sys2Proof.Machine.execVsrl o s
  | .vsra o => Sys2Proof.Machine.execVsra o s
  | .vadds o => Sys2Proof.Machine.execVadds o s
  | .vfadd o => Sys2Proof.Machine.execVfadd o s
  | .vfsub o => Sys2Proof.Machine.execVfsub o s
  | .vfmul o => Sys2Proof.Machine.execVfmul o s
  | .vfmin o => Sys2Proof.Machine.execVfmin o s
  | .vfmax o => Sys2Proof.Machine.execVfmax o s
  | .vfma o => Sys2Proof.Machine.execVfma o s
  | .vfabs o => Sys2Proof.Machine.execVfabs o s
  | .vfneg o => Sys2Proof.Machine.execVfneg o s
  | .vcmpeq o => Sys2Proof.Machine.execVcmpeq o s
  | .vcmpne o => Sys2Proof.Machine.execVcmpne o s
  | .vcmplt o => Sys2Proof.Machine.execVcmplt o s
  | .vcmple o => Sys2Proof.Machine.execVcmple o s
  | .vfcmpeq o => Sys2Proof.Machine.execVfcmpeq o s
  | .vfcmplt o => Sys2Proof.Machine.execVfcmplt o s
  | .vfcmple o => Sys2Proof.Machine.execVfcmple o s
  | .vfcmpun o => Sys2Proof.Machine.execVfcmpun o s
  | .vperm o => Sys2Proof.Machine.execVperm o s
  | .vbcast o => Sys2Proof.Machine.execVbcast o s
  | .vextr o => Sys2Proof.Machine.execVextr o s
  | .vins o => Sys2Proof.Machine.execVins o s
  | .vrot o => Sys2Proof.Machine.execVrot o s
  | .vsel o => Sys2Proof.Machine.execVsel o s
  | .vcvt o => Sys2Proof.Machine.execVcvt o s
  | .vredadd o => Sys2Proof.Machine.execVredadd o s
  | .vfredadd o => Sys2Proof.Machine.execVfredadd o s
  | .vredmin o => Sys2Proof.Machine.execVredmin o s
  | .vredmax o => Sys2Proof.Machine.execVredmax o s
  | .vfdot o => Sys2Proof.Machine.execVfdot o s
  | .vrcp o => Sys2Proof.Machine.execVrcp o s
  | .vrsq o => Sys2Proof.Machine.execVrsq o s
  | .vexp2 o => Sys2Proof.Machine.execVexp2 o s
  | .vlog2 o => Sys2Proof.Machine.execVlog2 o s
  | .vmovi o => Sys2Proof.Machine.execVmovi o s
  | .vdiv o => Sys2Proof.Machine.execVdiv o s
  | .vfdiv o => Sys2Proof.Machine.execVfdiv o s
  | .vfsqrt o => Sys2Proof.Machine.execVfsqrt o s
  | .spawn o => Sys2Proof.Machine.execSpawn o s
  | .reap o => Sys2Proof.Machine.execReap o s
  | .yield o => Sys2Proof.Machine.execYield o s
  | .halt o => Sys2Proof.Machine.execHalt o s
  | .migr o => Sys2Proof.Machine.execMigr o s
  | .launch o => Sys2Proof.Machine.execLaunch o s
  | .trig o => Sys2Proof.Machine.execTrig o s
  | .share o => Sys2Proof.Machine.execShare o s
  | .slice o => Sys2Proof.Machine.execSlice o s
  | .bar o => Sys2Proof.Machine.execBar o s
  | .vmld o => Sys2Proof.Machine.execVmld o s
  | .vmst o => Sys2Proof.Machine.execVmst o s
  | .vmgat o => Sys2Proof.Machine.execVmgat o s
  | .vmsct o => Sys2Proof.Machine.execVmsct o s
  | .tld o => Sys2Proof.Machine.execTld o s
  | .rowopen o => Sys2Proof.Machine.execRowopen o s
  | .rowclose o => Sys2Proof.Machine.execRowclose o s
  | .vldx o => Sys2Proof.Machine.execVldx o s
  | .vlda o => Sys2Proof.Machine.execVlda o s
  | .vst o => Sys2Proof.Machine.execVst o s
  | .vfloor o => Sys2Proof.Machine.execVfloor o s
  | .phase o => Sys2Proof.Machine.execPhase o s
  | .amoAdd o => Sys2Proof.Machine.execAmoAdd o s
  | .amoAnd o => Sys2Proof.Machine.execAmoAnd o s
  | .amoOr o => Sys2Proof.Machine.execAmoOr o s
  | .amoXor o => Sys2Proof.Machine.execAmoXor o s
  | .amoMin o => Sys2Proof.Machine.execAmoMin o s
  | .amoMax o => Sys2Proof.Machine.execAmoMax o s
  | .amoMinu o => Sys2Proof.Machine.execAmoMinu o s
  | .amoMaxu o => Sys2Proof.Machine.execAmoMaxu o s
  | .amoSwap o => Sys2Proof.Machine.execAmoSwap o s
  | .amoCas o => Sys2Proof.Machine.execAmoCas o s
  | .amoBins o => Sys2Proof.Machine.execAmoBins o s
  | .amoBffcs o => Sys2Proof.Machine.execAmoBffcs o s
  | .amoBplim o => Sys2Proof.Machine.execAmoBplim o s
  | .lr o => Sys2Proof.Machine.execLr o s
  | .sc o => Sys2Proof.Machine.execSc o s
  | .waitres o => Sys2Proof.Machine.execWaitres o s
  | .waitaddr o => Sys2Proof.Machine.execWaitaddr o s
  | .rget o => Sys2Proof.Machine.execRget o s
  | .rput o => Sys2Proof.Machine.execRput o s
  | .radd o => Sys2Proof.Machine.execRadd o s
  | .rcas o => Sys2Proof.Machine.execRcas o s
  | .rcall o => Sys2Proof.Machine.execRcall o s
  | .rchins o => Sys2Proof.Machine.execRchins o s
  | .rchinv o => Sys2Proof.Machine.execRchinv o s
  | .rchspl o => Sys2Proof.Machine.execRchspl o s
  | .rchmrg o => Sys2Proof.Machine.execRchmrg o s
  | .rchrd o => Sys2Proof.Machine.execRchrd o s
  | .mmabf o => Sys2Proof.Machine.execMmabf o s
  | .mmafh o => Sys2Proof.Machine.execMmafh o s
  | .mmai8 o => Sys2Proof.Machine.execMmai8 o s
  | .mmatw o => Sys2Proof.Machine.execMmatw o s
  | .mmasp o => Sys2Proof.Machine.execMmasp o s
  | .gath o => Sys2Proof.Machine.execGath o s
  | .sparsify o => Sys2Proof.Machine.execSparsify o s
  | .drev o => Sys2Proof.Machine.execDrev o s
  | .bfly o => Sys2Proof.Machine.execBfly o s
  | .twset o => Sys2Proof.Machine.execTwset o s
  | .twmul o => Sys2Proof.Machine.execTwmul o s
  | .azero o => Sys2Proof.Machine.execAzero o s
  | .amov o => Sys2Proof.Machine.execAmov o s
  | .ast o => Sys2Proof.Machine.execAst o s
  | .ald o => Sys2Proof.Machine.execAld o s
  | .xfer o => Sys2Proof.Machine.execXfer o s
  | .ringset o => Sys2Proof.Machine.execRingset o s
  | .ringwait o => Sys2Proof.Machine.execRingwait o s
  | .ibind o => Sys2Proof.Machine.execIbind o s
  | .iunbind o => Sys2Proof.Machine.execIunbind o s
  | .qpush o => Sys2Proof.Machine.execQpush o s
  | .qpop o => Sys2Proof.Machine.execQpop o s
  | .qfree o => Sys2Proof.Machine.execQfree o s
  | .bxf o => Sys2Proof.Machine.execBxf o s
  | .semsig o => Sys2Proof.Machine.execSemsig o s
  | .semwait o => Sys2Proof.Machine.execSemwait o s
  | .semset o => Sys2Proof.Machine.execSemset o s
  | .repb o => Sys2Proof.Machine.execRepb o s
  | .repstop o => Sys2Proof.Machine.execRepstop o s
  | .cfopen o => Sys2Proof.Machine.execCfopen o s
  | .cfclose o => Sys2Proof.Machine.execCfclose o s
  | .shset o => Sys2Proof.Machine.execShset o s
  | .shrd o => Sys2Proof.Machine.execShrd o s
  | .mark o => Sys2Proof.Machine.execMark o s
  | .brkpt o => Sys2Proof.Machine.execBrkpt o s
  | .gsel o => Sys2Proof.Machine.execGsel o s
  | .grd o => Sys2Proof.Machine.execGrd o s
  | .siltrd o => Sys2Proof.Machine.execSiltrd o s
  | .divideResult core slot => Sys2Proof.Machine.execDivideResult core slot s
  | .vectorLongResult core slot => Sys2Proof.Machine.execVectorLongResult core slot s
  | .yieldExpiry core slot => Sys2Proof.Machine.execYieldExpiry core slot s
  | .barNotification core slot => Sys2Proof.Machine.execBarNotification core slot s
  | .tileRowDelivery core slot => Sys2Proof.Machine.execTileRowDelivery core slot s
  | .tldStallTimeout core slot => Sys2Proof.Machine.execTldStallTimeout core slot s
  | .amoReply core slot => Sys2Proof.Machine.execAmoReply core slot s
  | .amoResend core slot => Sys2Proof.Machine.execAmoResend core slot s
  | .waitBoundExpiry core slot => Sys2Proof.Machine.execWaitBoundExpiry core slot s
  | .rchinvComplete core => Sys2Proof.Machine.execRchinvComplete core s
  | .gatherComplete core slot => Sys2Proof.Machine.execGatherComplete core slot s
  | .engineOperationEnd tile => Sys2Proof.Machine.execEngineOperationEnd tile s
  | .astRecordWrite tile => Sys2Proof.Machine.execAstRecordWrite tile s
  | .ringwaitWake core slot => Sys2Proof.Machine.execRingwaitWake core slot s
  | .transformCommandComplete core slot => Sys2Proof.Machine.execTransformCommandComplete core slot s
  | .semaphoreGrant tile sem => Sys2Proof.Machine.execSemaphoreGrant tile sem s
  | .semaphoreStall core slot => Sys2Proof.Machine.execSemaphoreStall core slot s
  | .sequencerIssue core => Sys2Proof.Machine.execSequencerIssue core s
  | .brkptComplete core slot failed => Sys2Proof.Machine.execBrkptComplete core slot failed s
  | .lineArrival core slot => Sys2Proof.Machine.execLineArrival core slot s
  | .loadReply core slot => Sys2Proof.Machine.execLoadReply core slot s
  | .seepLeak place => Sys2Proof.Machine.execSeepLeak place s
  | .storePerformed n => Sys2Proof.Machine.execStorePerformed n s
  | .releaseDrained core slot => Sys2Proof.Machine.execReleaseDrained core slot s
  | .threadEnd core slot => Sys2Proof.Machine.execThreadEnd core slot s
  | .headInboxMessage n => Sys2Proof.Machine.execHeadInboxMessage n s
  | .dispatchOpportunity device stack => Sys2Proof.Machine.execDispatchOpportunity device stack s
  | .wakeMessage n runtime => Sys2Proof.Machine.execWakeMessage n runtime s
  | .trigCount n => Sys2Proof.Machine.execTrigCount n s
  | .endNotice n => Sys2Proof.Machine.execEndNotice n s
  | .successorSignal n => Sys2Proof.Machine.execSuccessorSignal n s
  | .lqtailWrite device queue value => Sys2Proof.Machine.execLqtailWrite device queue value s
  | .lqEnable device queue value => Sys2Proof.Machine.execLqEnable device queue value s
  | .migrationSend core slot => Sys2Proof.Machine.execMigrationSend core slot s
  | .migrationArrival n => Sys2Proof.Machine.execMigrationArrival n s
  | .migrationPlacement core => Sys2Proof.Machine.execMigrationPlacement core s
  | .rowIdleClose tile bank => Sys2Proof.Machine.execRowIdleClose tile bank s
  | .refreshStart tile bank => Sys2Proof.Machine.execRefreshStart tile bank s
  | .refreshEnd tile bank => Sys2Proof.Machine.execRefreshEnd tile bank s
  | .bankSleep tile bank => Sys2Proof.Machine.execBankSleep tile bank s
  | .bankWakeComplete tile bank => Sys2Proof.Machine.execBankWakeComplete tile bank s
  | .rowRepairStart tile bank row => Sys2Proof.Machine.execRowRepairStart tile bank row s
  | .rowRepairComplete tile bank row => Sys2Proof.Machine.execRowRepairComplete tile bank row s
  | .sensorReport tile bank degrees quarters => Sys2Proof.Machine.execSensorReport tile bank degrees quarters s
  | .bankRetirement tile bank => Sys2Proof.Machine.execBankRetirement tile bank s
  | .dredgerReinterleave tile => Sys2Proof.Machine.execDredgerReinterleave tile s
  | .reinterleaveComplete tile => Sys2Proof.Machine.execReinterleaveComplete tile s
  | .dredgerMove tile src dst => Sys2Proof.Machine.execDredgerMove tile src dst s
  | .moveCopied tile => Sys2Proof.Machine.execMoveCopied tile s
  | .drgackWrite tile value => Sys2Proof.Machine.execDrgackWrite tile value s
  | .gmapWrite tile word value => Sys2Proof.Machine.execGmapWrite tile word value s
  | .rowCallMessage n => Sys2Proof.Machine.execRowCallMessage n s
  | .agentMessageStart tile => Sys2Proof.Machine.execAgentMessageStart tile s
  | .agentVaultOperation tile n => Sys2Proof.Machine.execAgentVaultOperation tile n s
  | .rcallHandlerEnd tile => Sys2Proof.Machine.execRcallHandlerEnd tile s
  | .rowCallReply n => Sys2Proof.Machine.execRowCallReply n s
  | .backwaterReplay tile => Sys2Proof.Machine.execBackwaterReplay tile s
  | .regionEnable tile region value => Sys2Proof.Machine.execRegionEnable tile region value s
  | .regionDisable tile region value => Sys2Proof.Machine.execRegionDisable tile region value s
  | .vrfloorWrite tile region value => Sys2Proof.Machine.execVrfloorWrite tile region value s
  | .directoryAdmission core slot => Sys2Proof.Machine.execDirectoryAdmission core slot s
  | .versionRead core slot => Sys2Proof.Machine.execVersionRead core slot s
  | .floorChange core slot => Sys2Proof.Machine.execFloorChange core slot s
  | .sealVersion core slot => Sys2Proof.Machine.execSealVersion core slot s
  | .versionTimeout core slot => Sys2Proof.Machine.execVersionTimeout core slot s
  | .streamerRequest n => Sys2Proof.Machine.execStreamerRequest n s
  | .streamerStart tile => Sys2Proof.Machine.execStreamerStart tile s
  | .streamerBlock tile n block => Sys2Proof.Machine.execStreamerBlock tile n block s
  | .transferComplete tile n => Sys2Proof.Machine.execTransferComplete tile n s
  | .inflowBlock n => Sys2Proof.Machine.execInflowBlock n s
  | .queueEntryArrival n => Sys2Proof.Machine.execQueueEntryArrival n s
  | .queueCreditArrival n => Sys2Proof.Machine.execQueueCreditArrival n s
  | .riserArrival tile up => Sys2Proof.Machine.execRiserArrival tile up s
  | .queueStall core slot => Sys2Proof.Machine.execQueueStall core slot s
  | .queueEnable core ep value => Sys2Proof.Machine.execQueueEnable core ep value s
  | .queueDisable core ep value => Sys2Proof.Machine.execQueueDisable core ep value s
  | .ringEnable tile ring value => Sys2Proof.Machine.execRingEnable tile ring value s
  | .ringDisable tile ring value => Sys2Proof.Machine.execRingDisable tile ring value s
  | .ridxStore tile ring value => Sys2Proof.Machine.execRidxStore tile ring value s
  | .handleEntryWrite device index word value => Sys2Proof.Machine.execHandleEntryWrite device index word value s
  | .swapCommand core value => Sys2Proof.Machine.execSwapCommand core value s
  | .swapTakeEffect core => Sys2Proof.Machine.execSwapTakeEffect core s
  | .spillRecordWritten core => Sys2Proof.Machine.execSpillRecordWritten core s
  | .fillCommand core value => Sys2Proof.Machine.execFillCommand core value s
  | .fillComplete core => Sys2Proof.Machine.execFillComplete core s
  | .gateRequest core dl => Sys2Proof.Machine.execGateRequest core dl s
  | .gateRequestLapse core => Sys2Proof.Machine.execGateRequestLapse core s
  | .gateAck core => Sys2Proof.Machine.execGateAck core s
  | .dieGated core => Sys2Proof.Machine.execDieGated core s
  | .dieUngate core => Sys2Proof.Machine.execDieUngate core s
  | .gateRestoreComplete core => Sys2Proof.Machine.execGateRestoreComplete core s
  | .traceEnable core value => Sys2Proof.Machine.execTraceEnable core value s
  | .traceRecordWrite core => Sys2Proof.Machine.execTraceRecordWrite core s
  | .droopTrip tile compute => Sys2Proof.Machine.execDroopTrip tile compute s
  | .siltEntryWrite device => Sys2Proof.Machine.execSiltEntryWrite device s
  | .deviceReset device gsize ngroups => Sys2Proof.Machine.execDeviceReset device gsize ngroups s
  | .partitionReset boundary unit eng lost => Sys2Proof.Machine.execPartitionReset boundary unit eng lost s
  | .resetComplete device n image => Sys2Proof.Machine.execResetComplete device n image s
  | .imageVerify device image head body => Sys2Proof.Machine.execImageVerify device image head body s
  | .attestationRequest device nonce => Sys2Proof.Machine.execAttestationRequest device nonce s
  | .vbusBeatResend tile riser => Sys2Proof.Machine.execVbusBeatResend tile riser s
  | .vbusTest tile riser failing => Sys2Proof.Machine.execVbusTest tile riser failing s
  | .vbusRetrain tile riser => Sys2Proof.Machine.execVbusRetrain tile riser s
  | .linkPacketReceive device port packet crcOk => Sys2Proof.Machine.execLinkPacketReceive device port packet crcOk s
  | .linkAckReceive device port seq => Sys2Proof.Machine.execLinkAckReceive device port seq s
  | .linkNakReceive device port seq => Sys2Proof.Machine.execLinkNakReceive device port seq s
  | .linkReplayTimeout device port => Sys2Proof.Machine.execLinkReplayTimeout device port s
  | .linkRetrain device port lane => Sys2Proof.Machine.execLinkRetrain device port lane s
  | .linkRetrainEnd device port ok => Sys2Proof.Machine.execLinkRetrainEnd device port ok s
  | .hwrite device place bytes => Sys2Proof.Machine.execHwrite device place bytes s
  | .hread device place n => Sys2Proof.Machine.execHread device place n s
  | .hlaunch device handle place => Sys2Proof.Machine.execHlaunch device handle place s
  | .checkpointQuiesced device => Sys2Proof.Machine.execCheckpointQuiesced device s
  | .checkpointLive device => Sys2Proof.Machine.execCheckpointLive device s
  | .registerWrite place value head => Sys2Proof.Machine.execRegisterWrite place value head s
  | .reinterleaveGranuleDone tile => Sys2Proof.Machine.execReinterleaveGranuleDone tile s
  | .vbusRetrainEnd bus => Sys2Proof.Machine.execVbusRetrainEnd bus s
  | .levelSourceSample core => Sys2Proof.Machine.execLevelSourceSample core s
  | .modulePowerOn device => Sys2Proof.Machine.execModulePowerOn device s
  | .checkpointCopyBack device => Sys2Proof.Machine.execCheckpointCopyBack device s

end Sys2Proof.Machine
end

