-- ==== Sys2Proof/Machine/Cycles.lean ====
section
/-! DEFINITION. Cycles.lean: what is due in a cycle, and the passing of cycles (R62, R96, R154, R158, R219, R235, R246, R247,
R269, R270, R289, R302, R338, R380, R402). -/

namespace Sys2Proof.Machine

/-- The cycle in which a bound that counts from `at0` runs out, none for a bound of 0. -/
def boundEnd (at0 bound : Nat) : Option Nat := if bound = 0 then none else some (at0 + bound)

/-- The first cycle in which the wait of a slot on a semaphore goes on, as the unit stands: at its grant, in the cycle after
it, or as a stall (R258, R269, R270). -/
def State.semEnd (s : State) (core slot n w at0 : Nat) (granted : Option Nat) : Option Nat :=
  match granted with
  | some c => some (c + 1)
  | none => if s.semReady core slot n w then some (at0 + 1) else boundEnd at0 (s.semLimit (tileOfCore core))

/-- The row that a tile load delivers next, by its place. -/
def State.nextRowPlace (s : State) (tile t place gen : Nat) (clear : Bool) : Option Nat :=
  (if clear then some 0 else (List.range 32).find? fun i => !((s.engRegs tile gen).fill t).getLsbD i).map
    fun i => place + 64 * i

/-- The cycle in which a tile load that a hold or a throttle stops has stood still for more than 4,096 cycles (R235). -/
def State.tileStall (s : State) (tile t place last gen : Nat) (clear : Bool) : Option Nat :=
  match s.nextRowPlace tile t place gen clear with
  | some p =>
    let b := (s.bankAt p).1
    if spaceOfPlace p = 0 && (s.bankHeld tile b || s.bankThrottled tile b) then some (last + 4097) else none
  | none => none

/-- The cycle in which a wait of a context ends, or goes on, for a reason that the passing of cycles or the order of the
cycle alone settles; none for a wait that another party ends in a cycle of its own. -/
def State.waitEnd (s : State) (core slot : Nat) (w : Waiting) : Option Nat :=
  let tile := tileOfCore core
  match w.op with
  | .divide _ _ due | .vector _ _ due | .yielding due => some due
  | .release (.xfer _ false) => some w.at0
  | .sem n k _ granted => s.semEnd core slot n k w.at0 granted
  | .engineFull _ => if s.admittable tile then some s.cycle else none
  | .vld op => boundEnd w.at0 op.bound
  | .waitres _ bound => boundEnd w.at0 bound
  | .waitaddr _ _ _ _ bound _ => if s.armed core slot then boundEnd w.at0 bound else none
  | .ringwait _ _ _ bound => boundEnd w.at0 bound
  | .queuePush .. | .queuePop .. | .inflow .. => boundEnd w.at0 (s.queueLimit core)
  | .tileLoad t place _ _ last gen _ clear _ _ => s.tileStall tile t place last gen clear
  | _ => none

/-- The cycle in which a swap of a core begins or takes effect (R380, R381). -/
def State.swapNext (s : State) (core : Nat) : Option Nat :=
  match (s.core core).swapRun with
  | some cmd => some (cmd.at0 + 24)
  | none => if (s.core core).swapPend.isSome then (s.core core).swapAt else none

/-- The first cycle in which something of a core is due apart from its issues: a wait of one of its contexts, its swap, the
samples of its level sources. -/
def State.nextWait (s : State) (core : Nat) : Option Nat :=
  lowest (((s.core core).contexts.flatMap fun k => (s.thread core k).waits.filterMap (s.waitEnd core k))
    ++ (s.swapNext core).toList ++ (s.levelNext core).toList)

/-- Up to `n` cycles pass: none in which a core still has its issue (R96), or something of it is due. -/
def State.tick (s : State) (n : Nat) : State :=
  let due := s.ticking.filterMap s.nextIssue ++ s.ticking.filterMap s.nextWait
  { s with cycle := due.foldl (fun c x => min c (max s.cycle x)) (s.cycle + n) }

end Sys2Proof.Machine
end

