-- ==== Sys2Proof/Machine/Issue.lean ====
section
/-! DEFINITION. Issue.lean: an issue turn, the issue of one unit, the turns of the agenda, and what moves next (R16 to R20, R36, R38,
R39, R96, R398). -/

namespace Sys2Proof.Machine

/-- The execute and stop tests of R398 on the addresses of a unit. -/
def State.execStop (s : State) (core : Nat) (task : W64) (pcs : List W64) : Option Nat :=
  (List.range 8).find? fun i =>
    let b := s.brk core i
    let k := bitsOf b.ctl 62 60
    bitOf b.ctl 63 && b.tag = task && (k = 4 || (k = 0 && pcs.contains b.addr))

/-- One member after the encoding checks of R19, R48 and R49. -/
def decodeMember (core : Nat) (w : Word96) : Chk Instr :=
  match decodeChecked (isCompute core) w with
  | .ok i => .ok i
  | .error r => .error (.trap 0x01 (w64 r))

/-- The members of a unit after every check of its line and its encoding, or the trap and the member that holds it (R19,
R38). A unit from the retry latch, which a stop or an engine fault may have put there unchecked, is checked with the line
word that the latch holds (R335, R398). -/
def checkUnit (core : Nat) (u : IssueUnit) : Except (Bad × Bool) (Instr × Option Instr) :=
  let one := fun (k : Nat) (w : Word96) => (do lineCheck u.pc u.lineword k w; decodeMember core w : Chk Instr)
  match one (posOf u.pc) u.first with
  | .error b => .error (b, false)
  | .ok i =>
    match u.second with
    | none => .ok (i, none)
    | some w2 =>
      match one (posOf u.pc + 1) w2 with
      | .error b => .error (b, true)
      | .ok j =>
        match pairReason u.first w2 i j with
        | some r => .error (.trap 0x01 (w64 r), false)
        | none => .ok (i, some j)

/-- What ends a pair before its second member, or after it, with no effect of either member, from the state before
the unit: a trap or a stop that member `m` raised, or a line that it waits for, after which the unit issues again
(R17, R28, R39). A line that has failed leaves the buffer (R357). -/
def State.pairEnd (s s' : State) (m : Bool) : Option State :=
  let u := s'.unit
  let s := { s with unit := { s.unit with member := m, defer_ := false, snap := none } }
  match u.trap, u.stop with
  | some (c, x), _ => some ((if c = 0x0C then s.dropLine s.cur.core x else s).raise (.trap c.toNat x))
  | none, some (e, a) => some (s.raise (.stop e a))
  | none, none =>
    match s'.cth.findWait isFetch with
    | some ⟨_, _, .fetch va entry place⟩ => some (s.waitLine va ⟨entry, place⟩)
    | _ => none

/-- The registers that a waiting pair has written take effect when its last member completes (R39, R225, R322). -/
def State.holdPair (s : State) (regs : RegFile) : State :=
  { s with unit := { s.unit with snap := none, defer_ := false } }.modCur fun t =>
    if t.waits = [] then t else t.holdSince regs

/-- A pair: both members read their operands as at issue; if either traps or stops, neither has any effect
(R28, R39). -/
def runPair (i j : Instr) (s : State) : Host.Outcome State Fault Refusal :=
  match exec i { s with unit := { s.unit with snap := some s.cth.regs, defer_ := true } } with
  | .next s1 =>
    match s.pairEnd s1 false with
    | some t => .next t
    | none =>
      match exec j { s1 with unit := { s1.unit with member := true } } with
      | .next s2 =>
        match s.pairEnd s2 true with
        | some t => .next t
        | none => .next (s2.holdPair s.cth.regs)
      | o => o
  | o => o

/-- The unit issues: it has passed every check before its own form's. -/
def runUnit (m : Instr × Option Instr) (s : State) : Host.Outcome State Fault Refusal :=
  match m.2 with
  | none => exec m.1 s
  | some j => runPair m.1 j s

/-- The members of a unit at hand run, or its first failing check is raised (R19, R28, R357). -/
def State.runChecked (s : State) (u : IssueUnit) : Host.Outcome State Fault Refusal :=
  let core := s.cur.core
  match checkUnit core u with
  | .error (b, m) =>
    let s := { s with unit := { s.unit with member := m } }
    match b with
    | .trap 0x0C x =>
      let l : Latch := { s.curLatch with fetch := true }
      .next ((s.dropLine core (lineOf u.pc)).takeTrap core s.cur.slot 0x0C x l)
    | b => .next (s.raise b)
  | .ok m => runUnit m s

/-- Whether an issue of this unit ends a handler (R190): its 4,097th issue, or a form that a handler may not issue. -/
def State.overruns (s : State) (core : Nat) (u : IssueUnit) : Bool :=
  let bad := fun w : Word96 =>
    match decode w with
    | some i => endsHandler i
    | none => false
  4096 ≤ (s.core core).handlerIssues || bad u.first || u.second.any bad

/-- A unit that is at hand issues for the current thread: a stop of an execute entry comes first (R398), and in the
agent's slot the end of a handler that overruns (R190). -/
def State.issueUnit (s : State) (u : IssueUnit) : Host.Outcome State Fault Refusal :=
  let core := s.cur.core
  let slot := s.cur.slot
  let s := (s.markIssue core slot).modThread core slot fun t =>
    { t with skipBreak := false, reissue := false, retry := false, latch := none }
  let s := { s with unit := u }
  let pcs := if u.second.isSome then [u.pc, seqNext u.pc] else [u.pc]
  match if u.skip then none else s.execStop core s.cth.task pcs with
  | some e => .next (s.raise (.stop e none))
  | none =>
    if isAgent core slot then
      if s.overruns core u then .next (s.stopHandler core 1)
      else (s.modCore core fun c => { c with handlerIssues := c.handlerIssues + 1 }).runChecked u
    else s.runChecked u

/-- The unit at pc of a buffered line (R36). -/
def unitAt (t : Thread) (line : BitVec 512) : IssueUnit :=
  let k := posOf t.pc
  let lw := linewordOf line
  { IssueUnit.reset with
    pc := t.pc, first := wordAt line k,
    second := if k ≤ 3 ∧ lw.getLsbD (23 + k) then some (wordAt line (k + 1)) else none,
    lineword := lw, skip := t.skipBreak }

/-- The unit held in the retry latch (R27, R355). -/
def unitOfLatch (t : Thread) (l : Latch) : IssueUnit :=
  { IssueUnit.reset with
    pc := l.pc, first := l.first, second := l.second, lineword := l.lineword, retry := t.retry,
    skip := t.skipBreak }

/-- An engine fault that waits for its thread is taken in place of the thread's next issue; the latch then holds that
unit, which is a retry if it was one (R335). -/
def State.takeEngineFault (s : State) (cause : Byte) (info : W64) (l : Latch) : State :=
  let core := s.cur.core
  let slot := s.cur.slot
  let again := s.cth.retry
  let s := (s.markIssue core slot).modThread core slot fun t => { t with engFault := t.engFault.tail }
  (s.takeTrap core slot cause.toNat info l).modThread core slot fun t =>
    { t with retry := again && t.state == .trapped }

/-- A thread whose run stopped traps in place of its next issue; the record's insn holds the original information
word (R317). The manual says nothing of the record's lineword and its pair and mem bits here: they are 0 (log 111,
DESIGN CHOICE). -/
def State.takeRunFault (s : State) (r : Run) (cause : Byte) (info : W64) : State :=
  let core := s.cur.core
  let slot := s.cur.slot
  let l : Latch := ⟨s.cth.pc, info.setWidth 96, none, 0, false, true⟩
  (s.markIssue core slot).takeTrap core slot 0x20 (r.faultInfo cause) l

/-- The fault that stopped the run of a thread (R317). -/
def Thread.runFault (t : Thread) : Option (Run × Byte × W64) :=
  match t.run with
  | some r => r.fault.map fun f => (r, f)
  | none => none

/-- The current thread issues the unit `u`, or takes the engine fault that waits for it. -/
def State.issueAtHand (s : State) (u : IssueUnit) : Host.Outcome State Fault Refusal :=
  match s.cth.engFault.head? with
  | some (c, x) => .next (s.takeEngineFault c x ⟨u.pc, u.first, u.second, u.lineword, false, false⟩)
  | none => s.issueUnit u

/-- One issue turn of a slot: the agent starts a message when no handler runs (R189); a fault of the thread's run comes
first (R317); else the unit in its latch issues, or the unit at its pc, whose line is fetched when the buffer does
not hold it (log 9, DESIGN CHOICE). A turn that finds the line absent issues nothing: it is no issue under R96 (log 112,
DESIGN CHOICE). -/
def State.issueSlot (s : State) (core slot : Nat) : Host.Outcome State Fault Refusal :=
  if isAgent core slot && (s.tile (tileOfCore core)).handler.isNone then execAgentMessageStart (tileOfCore core) s
  else
    let t := s.thread core slot
    let s := { s with cur := ⟨core, slot⟩ }
    match t.runFault with
    | some (r, c, x) => .next (s.takeRunFault r c x)
    | none =>
      match t.heldUnit with
      | some l => s.issueAtHand (unitOfLatch t l)
      | none =>
        match (s.core core).findLine t.task (lineOf t.pc) with
        | some l => s.issueAtHand (unitAt t l.data)
        | none =>
          let s := { s with unit := { IssueUnit.reset with pc := t.pc, skip := t.skipBreak } }
          match s.fetchCheck (lineOf t.pc) with
          | .ok x => .next (s.waitFetch (lineOf t.pc) x)
          | .error (.trap c i) => .next ((s.markIssue core slot).takeTrap core slot c i ⟨t.pc, 0, none, 0, false, true⟩)
          | .error b => .next (s.raise b)

/-- One issue turn of a core (R96): an idle position leaves the state as it is. -/
def State.issueTurn (s : State) (core : Nat) : Host.Outcome State Fault Refusal :=
  match s.pick core with
  | some slot => s.issueSlot core slot
  | none => .next s

/-- Whether a row of the opcode table is an event of an asynchronous agent. -/
def isEvent (i : Instr) : Bool := (encode i).isNone

/-- What comes about outside the rows of the opcode table. -/
def State.runOutside (s : State) (o : Outside) : State :=
  match o with
  | .upset place soft =>
    if soft then { s with soft := insertNat (codeword place).1 s.soft }
    else { s with ecc := insertNat (codeword place).1 s.ecc }
  | .runtime core => s.runtimeTurn core
  | .send device port packet => s.sendPacket device port packet
  | .copy device place n port => s.copyWords device place n port
  | .host device n => s.hostTurn device n
  | .error e unit eng => s.detect e unit eng
  | .basin a device => s.basinAct device a

/-- One turn: an event, something outside, an issue turn, or the passing of cycles (log 50, DESIGN CHOICE). -/
def State.runTurn (s : State) (t : Turn) : Host.Outcome State Fault Refusal :=
  match t with
  | .outside o => .next (s.runOutside o)
  | .event e => if isEvent e then exec e s else .next s
  | .issue core => s.issueTurn core
  | .tick n => .next (s.tick n)

/-- The meaning of an event of an asynchronous agent. -/
abbrev Event := State → Host.Outcome State Fault Refusal

/-- The events that can end, or move on, a wait of a thread. -/
def waitEvents (core slot : Nat) (w : Wait) : List Event :=
  let tile := tileOfCore core
  match w with
  | .fetch .. => [execLineArrival core slot]
  | .divide .. => [execDivideResult core slot]
  | .vector .. => [execVectorLongResult core slot]
  | .load .. | .shape .. | .siltrd .. => [execLoadReply core slot]
  | .tileLoad .. => [execTileRowDelivery core slot, execTldStallTimeout core slot]
  | .gather .. => [execGatherComplete core slot]
  | .yielding _ => [execYieldExpiry core slot]
  | .release (.ending _) => [execRcallHandlerEnd tile, execThreadEnd core slot]
  | .release _ => [execReleaseDrained core slot]
  | .sealing _ => [execSealVersion core slot, execThreadEnd core slot]
  | .amo _ => [execAmoReply core slot, execAmoResend core slot]
  | .vld _ => [execVersionRead core slot, execVersionTimeout core slot]
  | .vst _ => [execDirectoryAdmission core slot]
  | .vfloor .. => [execFloorChange core slot]
  | .waitres .. | .waitaddr .. => [execLoadReply core slot, execWaitBoundExpiry core slot]
  | .rchinv .. | .rchins .. => [execRchinvComplete core]
  | .sem sem .. => [execSemaphoreGrant tile sem, execSemaphoreStall core slot]
  | .queuePush .. | .queuePop .. | .inflow .. => [execQueueStall core slot]
  | .ringwait .. => [execRingwaitWake core slot]
  | .bxf .. => [execTransformCommandComplete core slot]
  | .seqBusy _ | .repstop | .endAfterRun .. => [execSequencerIssue core]
  | .barred .. => [execBarNotification core slot]
  | .brkpt .. => [execBrkptComplete core slot []]
  | .migrating .. => [execMigrationSend core slot]
  | .engineFull _ => [execEngineOperationEnd tile]
  | .reap _ | .rowCall _ | .xferAccept .. | .triggered => []

/-- The event that delivers what is in transit. -/
def packetEvent (n : Nat) : Packet → Event
  | .message .. => execRowCallMessage n
  | .reply _ => execRowCallReply n
  | .queueEntry .. => execQueueEntryArrival n
  | .credit .. => execQueueCreditArrival n
  | .notice .. => execHeadInboxMessage n
  | .wake _ => execWakeMessage n false
  | .trig .. => execTrigCount n
  | .ended .. => execEndNotice n
  | .signal .. => execSuccessorSignal n
  | .migrant .. => execMigrationArrival n
  | .request .. => execStreamerRequest n
  | .inflow .. => execInflowBlock n

/-- The events of the units of a tile that carry on with work that they have. -/
def Tile.events (t : Tile) (tile : Nat) : List Event :=
  [execEngineOperationEnd tile, execAstRecordWrite tile]
    ++ (List.range t.inflight.length).map (execAgentVaultOperation tile ·)
    ++ [execAgentMessageStart tile, execBackwaterReplay tile, execStreamerStart tile]
    ++ t.strActive.zipIdx.flatMap (fun x =>
        match x.1.todo with
        | b :: _ => [execStreamerBlock tile x.2 b]
        | [] => [execTransferComplete tile x.2])
    ++ [execRiserArrival tile true, execRiserArrival tile false]

/-- What no cycle passes by on a core: the waits of its contexts that end by this cycle, its swap, its samples. -/
def State.endEvents (s : State) (core : Nat) : List Event :=
  ((s.core core).contexts.flatMap fun slot => (s.thread core slot).waits.flatMap fun w =>
      if (s.waitEnd core slot w).any fun c => decide (c ≤ s.cycle) then waitEvents core slot w.op else [])
    ++ [execSwapTakeEffect core, execLevelSourceSample core]

/-- The events that can be due around the core in focus: its threads' waits, the core itself, posted stores, what is in
transit, its tile's units, what no cycle passes by on every core whose rotation the cycles follow, and its device's silt
record and dispatchers. -/
def State.candidates (s : State) : List Event :=
  let core := s.focus
  let tile := tileOfCore core
  let dev := deviceOfCore core
  (s.core core).contexts.flatMap (fun slot => (s.thread core slot).waits.flatMap fun w => waitEvents core slot w.op)
    ++ [execLevelSourceSample core, execSequencerIssue core, execSwapTakeEffect core, execSpillRecordWritten core,
        execFillComplete core, execMigrationPlacement core, execTraceRecordWrite core]
    ++ (List.range s.posted.length).map (execStorePerformed ·)
    ++ s.net.zipIdx.map (fun x => packetEvent x.2 x.1)
    ++ (s.tile tile).events tile
    ++ (s.ticking.filter (· ≠ core)).flatMap (fun c => s.endEvents c)
    ++ [execSiltEntryWrite dev, execDispatchOpportunity dev 0, execDispatchOpportunity dev 1,
        execDispatchOpportunity dev 2, execDispatchOpportunity dev 3]

/-- What an event that is due answers: one that is not due leaves the state as it is. -/
def State.ifDue (s : State) (e : Event) : Option (Host.Outcome State Fault Refusal) :=
  match e s with
  | .next s' => if s' = s then none else some (.next s')
  | o => some o

/-- What happens when the agenda is empty: the core in focus issues; else the first event around it that is due; else
another core issues, or a cycle passes (log 1, DESIGN CHOICE). -/
def State.defaultTurn (s : State) : Host.Outcome State Fault Refusal :=
  match s.pick s.focus with
  | some slot => s.issueSlot s.focus slot
  | none =>
    match s.candidates.findSome? s.ifDue with
    | some o => o
    | none =>
      match s.ticking.find? fun core => (s.pick core).isSome with
      | some core => s.issueTurn core
      | none => .next (s.tick 1)

/-- A line with the instruction at position k, its parity bits, and no pair that begins there (R34 to R36). -/
def lineWith (line : BitVec 512) (k : Nat) (w : Word96) : BitVec 512 :=
  let n := line.toNat % 2 ^ 480 - (wordAt line k).toNat * 2 ^ (96 * k) + w.toNat * 2 ^ (96 * k)
  let keep := (linewordOf line).toNat / 2 ^ 23
  let top := if keep.testBit k then keep - 2 ^ k else keep
  let ip := fun j => bit01 (parityOf 96 (n / 2 ^ (96 * j) % 2 ^ 96)) * 2 ^ (17 + j)
  let lw := top * 2 ^ 23 + bit01 (parityOf 9 top) * 2 ^ 22 + ip 0 + ip 1 + ip 2 + ip 3 + ip 4
  BitVec.ofNat 512 (n + lw * 2 ^ 480)

/-- The staging core of a compute core's tile has made its issue of the cycle, which comes first (R96). -/
def State.passStaging (s : State) (core : Nat) : State :=
  if isCompute core then s.modCore (stagingOf (tileOfCore core)) fun c => { c with lastUnit := some (s.cycle, 0, 0) }
  else s

/-- An instruction placed where the core in focus fetches next. -/
def State.placeWord (s : State) (w : Word96) : State :=
  let r := Raw.unpack w
  let core := if computeOnly r.op.toNat r.fn.toNat then computeOf (tileOfCore s.focus) else s.focus
  let s := { s with agenda := [], focus := core }.passStaging core
  let slot := (s.pick core).getD 0
  let t := s.thread core slot
  let va := lineOf t.pc
  let old := match (s.core core).findLine t.task va with
    | some l => l.data
    | none => 0
  let line := lineWith old (posOf t.pc) w
  let s := s.modCore core fun c =>
    { c with lines := ⟨va, 0, line⟩ :: c.lines.filter fun l => l.va ≠ va }
  match s.checkVa core slot .fetch va 64 with
  | .ok x => (bytesOf 64 line.toNat).zipIdx.foldl (fun s b => s.setByte (x.place + b.2) b.1) s
  | .error _ => s

end Sys2Proof.Machine
end

