-- ==== Sys2Proof/Machine/Step.lean ====
section
/-! DEFINITION. Step.lean: one step of the machine, and the placing of an instruction for its next fetch. -/

namespace Sys2Proof.Machine

/-- One step: the first turn of the agenda, or the default turn when the agenda is empty. A device that
wellhead holds in reset does not leave it by itself (R428). -/
def step (s : State) : Host.Outcome State Fault Refusal :=
  match s.agenda with
  | t :: rest => { s with agenda := rest }.runTurn t
  | [] =>
    if (s.device (deviceOfCore s.focus)).held then .fault (.heldInReset (deviceOfCore s.focus))
    else s.defaultTurn

/-- The state with an instruction where `step` fetches its next one: at the pc of the slot that issues next on
the core in focus (its tile's compute core for a form that Table 2.13 marks compute), in the line buffer
and, where a reach covers the line, in memory, with the parity and without the pairing bit that R35 and R36
ask for (log 95, DESIGN CHOICE). -/
def State.withFetchWord (s : State) (_nbits w : Nat) : State :=
  s.placeWord (BitVec.ofNat 96 w)

end Sys2Proof.Machine
end

