-- ==== Sys2Proof/Safety.lean ====
section
/-! DEFINITION. Safety.lean: the words that statements about the machine use: what a safe step is, the canonical form
of memory as an invariant, which guard an instruction tests as one bit, what a stop of an instruction answers, and what
a state keeps when only one thread of it changes. -/

namespace Sys2Proof.Machine

/-- A step that goes on: neither a fault nor a refusal. -/
def SafeStep (s : State) : Prop := ∃ t, step s = .next t

/-- The memory of a state has its canonical form. -/
def State.memWf (s : State) : Prop := Memory.wf s.mem = true

/-- The magnitude of an encoding without its sign in units of the least subnormal; the encoding of infinity stands for the
value after the largest. -/
def Fmt.steps (f : Fmt) (mag : Nat) : Nat :=
  if mag < 2 ^ f.sb then mag else (2 ^ f.sb + mag % 2 ^ f.sb) * 2 ^ (mag / 2 ^ f.sb - 1)

/-- `mag` encodes the magnitude a / b, in units of the least subnormal, rounded to nearest with ties to even (R128). -/
def Fmt.Nearest (f : Fmt) (a b mag : Nat) : Prop :=
  mag ≤ f.infBits ∧
  (0 < mag → let mid := (f.steps (mag - 1) + f.steps mag) * b; mid < 2 * a ∨ mid = 2 * a ∧ mag % 2 = 0) ∧
  (mag < f.infBits → let mid := (f.steps mag + f.steps (mag + 1)) * b; 2 * a < mid ∨ 2 * a = mid ∧ mag % 2 = 0)

/-- `mag` encodes the magnitude a / b rounded toward zero, and away from it. -/
def Fmt.Toward (f : Fmt) (a b mag : Nat) : Prop :=
  mag < f.infBits ∧ f.steps mag * b ≤ a ∧ (mag + 1 < f.infBits → a < f.steps (mag + 1) * b)
def Fmt.Away (f : Fmt) (a b mag : Nat) : Prop :=
  mag ≤ f.infBits ∧ (mag < f.infBits → a ≤ f.steps mag * b) ∧ (0 < mag → f.steps (mag - 1) * b < a)

/-- `mag` encodes the magnitude a / b of a number of that sign under a rounding code (Table 5.3). -/
def Fmt.Rounded (f : Fmt) (mode : Rnd) (neg : Bool) (a b mag : Nat) : Prop :=
  match mode with
  | .rn => f.Nearest a b mag
  | .rz => f.Toward a b mag
  | .ru => if neg then f.Toward a b mag else f.Away a b mag
  | .rd => if neg then f.Away a b mag else f.Toward a b mag
  | .sat => ∃ m, f.Nearest a b m ∧ mag = Nat.min m (f.infBits - 1)

/-- An encoding's sign bit. -/
def Fmt.signed (f : Fmt) (neg : Bool) (mag : Nat) : Nat := (if neg then f.signBit else 0) + mag

/-- The executing instruction traps with a cause and an information word (R27). -/
def State.traps (s : State) (cause : Nat) (info : W64) : Host.Outcome State Fault Refusal :=
  .next (s.raise (.trap cause info))

/-- The executing instruction writes a scalar register and goes on (R16). -/
def State.gives (s : State) (d : SReg) (v : SVal) : Host.Outcome State Fault Refusal :=
  .next (s.wS d.toNat v).advance

/-- The executing instruction writes a predicate register and goes on. -/
def State.givesP (s : State) (d : PReg) (v : W64) : Host.Outcome State Fault Refusal :=
  .next (s.wP d.toNat v).advance

/-- The executing instruction writes a vector register and goes on. -/
def State.givesV (s : State) (d : VReg) (v : VVal) : Host.Outcome State Fault Refusal :=
  .next (s.wV d.toNat v).advance

/-- Poison in scalar operand `n` is consumed: cause 0x08 with the register's number (R360). -/
def State.trapsPoison (s : State) (n : SReg) : Host.Outcome State Fault Refusal :=
  s.traps 0x08 (poisonInfo n.toNat 0 0)

/-- `new` is the vector register `old` in which each lane of width `w` that is on takes the value and the mark of `f`: a
word is marked when such a lane of it is, clean when every lane that touches it is new, and else keeps its mark (R359). -/
def LanesTake (w : Nat) (old new : VVal) (on : Nat → Bool) (f : Nat → Nat × Bool) : Prop :=
  (∀ i < 1024 / w, laneOf new.bits w i = if on i then (f i).1 % 2 ^ w else laneOf old.bits w i) ∧
  (∀ k < 32, new.poison.getLsbD k =
    let mine := (List.range (1024 / w)).filter fun i => (laneWords w i).contains k
    if mine.any fun i => on i && (f i).2 then true else if mine.all on then false else old.poison.getLsbD k)

/-- `t` is `s` but for one thread: memory, marks, registers of every unit, tiles, devices and what is in transit are
the same, and so is every other thread. -/
structure OnlyThread (s t : State) (core slot : Nat) : Prop where
  bytes : ∀ a, t.byte a = s.byte a
  marks : t.marks = s.marks
  units : t.regs = s.regs ∧ t.tiles = s.tiles ∧ t.devices = s.devices ∧ t.lines = s.lines
  transit : t.posted = s.posted ∧ t.net = s.net
  reaches : ∀ c i, t.reach c i = s.reach c i
  others : ∀ c k, k < 16 → ¬(c = core ∧ k = slot) → t.thread c k = s.thread c k

/-- What every instruction that only computes keeps of its thread: all but the registers that `f` writes and where it
goes on. -/
def Thread.onlyRegs (t u : Thread) (f : RegFile → RegFile) : Prop :=
  ∃ p q, u = { t with regs := f t.regs, pc := p, nextPc := q }

end Sys2Proof.Machine

/-! Instructions by what they write. -/

/-- The guard of a form whose guard tests bit 0 of its predicate (R41). -/
def Sys2Proof.Instr.bitGuard : Sys2Proof.Instr → Option Sys2Proof.Guard
  | .add o | .sub o | .and o | .or o | .xor o | .andn o | .sll o | .srl o | .sra o | .rol o | .min o | .max o
    | .minu o | .maxu o | .mul o | .mulh o | .mulhu o | .div o | .divu o | .rem o | .remu o | .slt o | .sltu o
    | .track o | .tkill o | .migr o | .launch o | .rchspl o | .rchmrg o => some o.g
  | .addi o | .andi o | .ori o | .xori o => some o.g
  | .slli o | .srli o | .srai o | .roli o => some o.g
  | .li o | .lpc o => some o.g
  | .cmpeq o | .cmpne o | .cmplt o | .cmple o | .cmpltu o | .cmpleu o => some o.g
  | .sel o | .bffcs o => some o.g
  | .clz o | .ctz o | .popc o | .bswap o | .brev o | .callr o | .share o | .slice o | .waitres o
    | .rchinv o => some o.g
  | .bfx o | .bfxu o => some o.g
  | .bfi o => some o.g
  | .bins o | .bplim o => some o.g
  | .pand o | .por o | .pxor o | .pandn o => some o.g
  | .pnot o => some o.g
  | .br o => some o.g
  | .beq o | .bne o | .blt o | .bge o | .bltu o | .bgeu o => some o.g
  | .call o => some o.g
  | .jmp o | .ret o | .yield o | .twset o | .cfopen o => some o.g
  | .mfs o => some o.g
  | .mts o => some o.g
  | .nop o | .halt o | .trig o | .repstop o | .cfclose o => some o.g
  | .lbpurge o => some o.g
  | .swtrap o | .mark o => some o.g
  | .ld o | .ldu o => some o.g
  | .st o => some o.g
  | .ldbf o | .ldbfs o => some o.g
  | .stbf o => some o.g
  | .bset o => some o.g
  | .bget o => some o.g
  | .badd o => some o.g
  | .spawn o | .rchins o | .brkpt o => some o.g
  | .reap o => some o.g
  | .bar o | .phase o => some o.g
  | .tld o => some o.g
  | .rowopen o | .rowclose o => some o.g
  | .vst o => some o.g
  | .vldx o => some o.g
  | .vlda o => some o.g
  | .vfloor o => some o.g
  | .amoAdd o | .amoAnd o | .amoOr o | .amoXor o | .amoMin o | .amoMax o | .amoMinu o | .amoMaxu o | .amoSwap o
    | .amoCas o | .amoBins o | .amoBffcs o | .amoBplim o => some o.g
  | .lr o => some o.g
  | .sc o | .waitaddr o => some o.g
  | .rget o | .rput o | .rcas o => some o.g
  | .radd o | .rcall o => some o.g
  | .rchrd o | .siltrd o => some o.g
  | .mmabf o | .mmafh o | .mmai8 o | .mmatw o | .mmasp o => some o.g
  | .gath o => some o.g
  | .sparsify o => some o.g
  | .drev o | .azero o => some o.g
  | .bfly o => some o.g
  | .twmul o => some o.g
  | .amov o => some o.g
  | .ast o => some o.g
  | .ald o => some o.g
  | .xfer o => some o.g
  | .ringset o => some o.g
  | .ringwait o => some o.g
  | .ibind o => some o.g
  | .iunbind o => some o.g
  | .qpush o => some o.g
  | .qpop o => some o.g
  | .qfree o => some o.g
  | .bxf o => some o.g
  | .semsig o | .semwait o => some o.g
  | .semset o => some o.g
  | .repb o => some o.g
  | .shset o => some o.g
  | .shrd o => some o.g
  | .gsel o => some o.g
  | .grd o => some o.g
  | _ => none

/-- The guard of a form whose guard tests a bit of its predicate for each lane (R41, R232, R233). -/
def Sys2Proof.Instr.laneGuard : Sys2Proof.Instr → Option Sys2Proof.Guard
  | .vadd o => some o.g
  | .vsub o => some o.g
  | .vmul o => some o.g
  | .vmin o => some o.g
  | .vmax o => some o.g
  | .vand o => some o.g
  | .vor o => some o.g
  | .vxor o => some o.g
  | .vsll o => some o.g
  | .vsrl o => some o.g
  | .vsra o => some o.g
  | .vadds o => some o.g
  | .vfadd o => some o.g
  | .vfsub o => some o.g
  | .vfmul o => some o.g
  | .vfmin o => some o.g
  | .vfmax o => some o.g
  | .vfma o => some o.g
  | .vfabs o => some o.g
  | .vfneg o => some o.g
  | .vcmpeq o => some o.g
  | .vcmpne o => some o.g
  | .vcmplt o => some o.g
  | .vcmple o => some o.g
  | .vfcmpeq o => some o.g
  | .vfcmplt o => some o.g
  | .vfcmple o => some o.g
  | .vfcmpun o => some o.g
  | .vperm o => some o.g
  | .vbcast o => some o.g
  | .vextr o => some o.g
  | .vins o => some o.g
  | .vrot o => some o.g
  | .vsel o => some o.g
  | .vcvt o => some o.g
  | .vredadd o => some o.g
  | .vfredadd o => some o.g
  | .vredmin o => some o.g
  | .vredmax o => some o.g
  | .vfdot o => some o.g
  | .vrcp o => some o.g
  | .vrsq o => some o.g
  | .vexp2 o => some o.g
  | .vlog2 o => some o.g
  | .vmovi o => some o.g
  | .vdiv o => some o.g
  | .vfdiv o => some o.g
  | .vfsqrt o => some o.g
  | .vmld o => some o.g
  | .vmst o => some o.g
  | .vmgat o => some o.g
  | .vmsct o => some o.g
  | _ => none

/-- Head-only forms (R15), by major opcode and function. -/
def Sys2Proof.Instr.headForm : Sys2Proof.Instr → Option (Nat × Nat)
  | .track _ => some (0x25, 0)
  | .tkill _ => some (0x25, 1)
  | .spawn _ => some (0x60, 0)
  | .reap _ => some (0x60, 1)
  | .migr _ => some (0x60, 4)
  | .rchins _ => some (0x79, 0)
  | .rchinv _ => some (0x79, 1)
  | .rchspl _ => some (0x79, 2)
  | .rchmrg _ => some (0x79, 3)
  | .rchrd _ => some (0x79, 4)
  | .brkpt _ => some (0xB2, 1)
  | .gsel _ => some (0xB2, 2)
  | .siltrd _ => some (0xB2, 4)
  | _ => none

/-- The scalar register that a form writes, of the forms that write that one register and only compute. -/
def Sys2Proof.Instr.scalarResult : Sys2Proof.Instr → Option Sys2Proof.SReg
  | .add o | .sub o | .and o | .or o | .xor o | .andn o | .sll o | .srl o | .sra o | .rol o | .min o | .max o
    | .minu o | .maxu o | .mul o | .mulh o | .mulhu o | .slt o | .sltu o => some o.d
  | .addi o | .andi o | .ori o | .xori o => some o.d
  | .slli o | .srli o | .srai o | .roli o => some o.d
  | .li o | .lpc o => some o.d
  | .sel o => some o.d
  | .clz o | .ctz o | .popc o | .bswap o | .brev o => some o.d
  | .bfx o | .bfxu o => some o.d
  | .bfi o => some o.d
  | .bins o | .bplim o => some o.d
  | .mfs o => some o.d
  | .bget o => some o.d
  | .vextr o => some o.d
  | .vredadd o | .vfredadd o | .vredmin o | .vredmax o => some o.d
  | .vfdot o => some o.d
  | .qfree o => some o.d
  | .shrd o => some o.d
  | .grd o => some o.d
  | _ => none

/-- The vector register that a form writes, of the forms that write lanes of that one register and only compute. -/
def Sys2Proof.Instr.vectorResult : Sys2Proof.Instr → Option Sys2Proof.VReg
  | .vadd o | .vsub o | .vmul o | .vmin o | .vmax o | .vand o | .vor o | .vxor o | .vsll o | .vsrl o | .vsra o
    | .vadds o | .vfadd o | .vfsub o | .vfmul o | .vfmin o | .vfmax o | .vperm o => some o.d
  | .vfma o => some o.d
  | .vfabs o | .vfneg o => some o.d
  | .vbcast o => some o.d
  | .vins o => some o.d
  | .vrot o => some o.d
  | .vsel o => some o.d
  | .vmovi o => some o.d
  | _ => none

/-- The predicate that a form writes, of the forms that write that one predicate. -/
def Sys2Proof.Instr.predicateResult : Sys2Proof.Instr → Option Sys2Proof.PReg
  | .cmpeq o | .cmpne o | .cmplt o | .cmple o | .cmpltu o | .cmpleu o => some o.d
  | .pand o | .por o | .pxor o | .pandn o => some o.d
  | .pnot o => some o.d
  | .vcmpeq o | .vcmpne o | .vcmplt o | .vcmple o | .vfcmpeq o | .vfcmplt o | .vfcmple o | .vfcmpun o => some o.d
  | _ => none
end

