-- ==== Sys2Proof/Certificates/Slice0/Obligations.lean ====
section
/-! DEFINITION. Obligations.lean: the statements about the machine. Their right-hand sides are written from the rules,
with the words of Safety.lean and the operations of Ops.lean. -/

open Sys2Proof Sys2Proof.Machine


/-- Words written out in the manual decode to the instructions that they stand for. -/
def Obligations.DecodeSpecWords : Prop :=
  decode 0x30000518_0000C000_00000000 = some (.ld ⟨⟨false, 0⟩, 20, 24, 0, .d, .dflt, 0⟩) ∧
  decode 0x44000146_00000000_000008A9 = some (.vcvt ⟨⟨false, 0⟩, 5, 6, .bf16, .f32, .rn, 1⟩) ∧
  decode 0x45010544_00000000_00000009 = some (.vfredadd ⟨⟨false, 0⟩, 21, 4, .bf16, false⟩) ∧
  decode 0x96000005_00000000_00000000 = some (.qpush ⟨⟨false, 0⟩, 0, 5⟩) ∧
  decode 0x96020500_00000000_00000000 = some (.qfree ⟨⟨false, 0⟩, 20, 0⟩) ∧
  decode 0xB0000014_00000000_00000000 = some (.cfopen ⟨⟨false, 0⟩, 20⟩) ∧
  decode 0xB0010000_00000000_00000000 = some (.cfclose ⟨⟨false, 0⟩⟩) ∧
  decode 0xB1000085_18000000_00000000 = some (.shset ⟨⟨false, 0⟩, 2, 5, 6⟩) ∧
  decode 0xB10101C2_00000000_00000001 = some (.shrd ⟨⟨false, 0⟩, 7, 2, true⟩) ∧
  decode 0xB2000005_00000000_00001234 = some (.mark ⟨⟨false, 0⟩, 5, 0x1234⟩) ∧
  decode 0xB2010144_18000000_00000000 = some (.brkpt ⟨⟨false, 0⟩, 5, 4, 6⟩) ∧
  decode 0xB2020006_00000000_00000001 = some (.gsel ⟨⟨false, 0⟩, 6, 1⟩) ∧
  decode 0xB2030240_00000000_00000016 = some (.grd ⟨⟨false, 0⟩, 9, 5, 2⟩) ∧
  decode 0xB20401C8_00000000_00000000 = some (.siltrd ⟨⟨false, 0⟩, 7, 8⟩)

/-- Decoding and encoding agree on every instruction: a well-formed instruction's word decodes to it, an instruction
that a word decodes to is well formed and has that word, and exactly the forms, those whose guard tests one bit and
those whose guard tests a bit per lane, have a word: an event has none. -/
def Obligations.EncodeDecodeRoundTrip : Prop :=
  (∀ (i : Instr) (w : Word96), i.wellFormed = true → encode i = some w → decode w = some i) ∧
  (∀ (i : Instr) (w : Word96), decode w = some i → i.wellFormed = true ∧ encode i = some w) ∧
  (∀ (i : Instr), (encode i).isSome = true ↔ (∃ g, i.bitGuard = some g) ∨ ∃ g, i.laneGuard = some g)

/-- R16 to R20, R28, R36, R39, R96, R317, R335 and R398: what an issue turn of a core does for the slot whose turn it
is. When its line is in the buffer and the unit at its pc passes every check, a step runs exactly that instruction, or
that pair, for that thread, with the unit in place and the issue recorded; a unit held in the retry latch runs in its
place. An engine fault that waits for the thread is taken instead of the issue, and before that the fault that stopped
its run, whose record has no line word and no pair and mem bits (the model's choice, log entry 111). A line that is
not in the buffer is fetched, which is no issue (log entry 112), or its fetch traps, with a record whose insn and
lineword are 0 (log entry 9). -/
def Obligations.StepRunsDecodedInstruction : Prop :=
  ∀ (s : State) (core slot : Nat) (rest : List Turn),
    s.agenda = .issue core :: rest → ({ s with agenda := rest } : State).pick core = some slot → isAgent core slot = false →
    let t := s.thread core slot
    let k := posOf t.pc
    let s1 : State := { s with agenda := rest, cur := ⟨core, slot⟩ }
    let s2 := (s1.markIssue core slot).modThread core slot fun t =>
      { t with skipBreak := false, reissue := false, retry := false, latch := none }
    let runs := fun (pcs : List W64) => t.skipBreak = true ∨ ∀ e < 8,
      let b := s.brk core e
      b.ctl.getLsbD 63 = true → b.tag = t.task → b.ctl.toNat / 2 ^ 60 % 8 ≠ 4 ∧ (b.ctl.toNat / 2 ^ 60 % 8 = 0 → b.addr ∉ pcs)
    (∀ r c x, t.runFault = some (r, c, x) →
      step s = .next ((s1.markIssue core slot).takeTrap core slot 0x20 (r.faultInfo c) ⟨t.pc, x.setWidth 96, none, 0, false, true⟩)) ∧
    (t.runFault = none → ∀ l : Latch, t.heldUnit = some l → t.engFault = [] → runs [l.pc] → l.second = none →
      wordParity l.lineword (posOf l.pc) l.first = true → l.lineword.setWidth 17 = 0 → ∀ i, decodeChecked (isCompute core) l.first = .ok i →
      step s = exec i { s2 with
        unit := { IssueUnit.reset with pc := l.pc, first := l.first, lineword := l.lineword, retry := t.retry, skip := t.skipBreak } }) ∧
    (t.runFault = none → t.heldUnit = none → ∀ l : BufLine, (s.core core).findLine t.task (lineOf t.pc) = some l →
      let lw := linewordOf l.data
      (∀ c x more, t.engFault = (c, x) :: more →
        ∃ w2, w2 = (if k ≤ 3 ∧ lw.getLsbD (23 + k) = true then some (wordAt l.data (k + 1)) else none) ∧
        step s = .next ((((s1.markIssue core slot).modThread core slot fun t => { t with engFault := more }).takeTrap
          core slot c.toNat x ⟨t.pc, wordAt l.data k, w2, lw, false, false⟩).modThread core slot fun u =>
            { u with retry := t.retry && u.state == .trapped })) ∧
      (t.engFault = [] → lw.setWidth 17 = 0 → parityOk l.data k = true →
        ∀ i, decodeChecked (isCompute core) (wordAt l.data k) = .ok i →
        let u := { IssueUnit.reset with pc := t.pc, first := wordAt l.data k, lineword := lw, skip := t.skipBreak }
        (3 < k ∨ lw.getLsbD (23 + k) = false → runs [t.pc] → step s = exec i { s2 with unit := u }) ∧
        (k ≤ 3 → lw.getLsbD (23 + k) = true → runs [t.pc, seqNext t.pc] → posOf t.pc + 1 = k + 1 →
          parityOk l.data (k + 1) = true → ∀ j, decodeChecked (isCompute core) (wordAt l.data (k + 1)) = .ok j →
          pairReason (wordAt l.data k) (wordAt l.data (k + 1)) i j = none →
          step s = runPair i j { s2 with unit := { u with second := some (wordAt l.data (k + 1)) } }))) ∧
    (t.runFault = none → t.heldUnit = none → (s.core core).findLine t.task (lineOf t.pc) = none →
      let s3 : State := { s1 with unit := { IssueUnit.reset with pc := t.pc, skip := t.skipBreak } }
      (∀ x, s3.fetchCheck (lineOf t.pc) = .ok x → step s = .next (s3.waitFetch (lineOf t.pc) x)) ∧
      (∀ c x, s3.fetchCheck (lineOf t.pc) = .error (.trap c x) →
        step s = .next ((s3.markIssue core slot).takeTrap core slot c x ⟨t.pc, 0, none, 0, false, true⟩)))

/-- The agenda of the model: events of the agents, what comes from outside, issue turns of the cores and cycles that
pass, in any order (the model's choice, log entry 1). An event runs its own meaning; an issue turn issues for the slot
that the rotation gives, and changes nothing when it gives none; a tick moves the clock alone, by as many cycles as it
says unless a core that it follows has an issue to make, or a wait, a bound, a swap or a sample of its falls due,
before (R96 and R97). With the agenda empty the core in focus issues; a device that wellhead holds in reset does
nothing (log entry 87). R19, R38, R48 and R49: the checks of a unit, before anything of it executes, wherever the unit
comes from. A line word that fails R35 for the position traps as line storage error and the line leaves the buffer; a
line word with a nonzero bit among bits 16:0 traps as illegal line; a word that decodes to nothing, or to a form of
another kind of core, as illegal instruction with the reason of the first check that fails; the second member after
the first, and then the pair, by its classes and by the registers that both members write. R7, R28 and R39: both
members of a pair read the registers as they were at the issue. If the first raises a trap or a stop, it is taken as
that member's from the state before the pair, and the second does not run; the same if the second does, which is then
named; otherwise both have run, and what they wrote is held back while one of them waits. A line storage error, which
a member meets on a line that it captures, takes the line out of the buffer as well (R357). -/
def Obligations.TurnsAndIllegalWords : Prop :=
  ((∀ (s : State) (n : Nat) (rest : List Turn), s.agenda = .tick n :: rest →
      let s0 : State := { s with agenda := rest }
      let due := fun x => ∃ core ∈ s0.ticking, s0.nextIssue core = some x ∨ s0.nextWait core = some x
      ∃ c, step s = .next { s0 with cycle := c } ∧ s.cycle ≤ c ∧ c ≤ s.cycle + n ∧ (∀ x, due x → c ≤ max s.cycle x) ∧
        (c = s.cycle + n ∨ ∃ x, due x ∧ c = max s.cycle x) ∧ ((∃ core ∈ s0.ticking, s0.pick core ≠ none) → c = s.cycle)) ∧
    (∀ (s : State) (e : Instr) (rest : List Turn), s.agenda = .event e :: rest → encode e = none →
      step s = exec e { s with agenda := rest }) ∧
    (∀ (s : State) (o : Outside) (rest : List Turn), s.agenda = .outside o :: rest →
      step s = .next (({ s with agenda := rest } : State).runOutside o)) ∧
    (∀ (s : State) (core : Nat) (rest : List Turn), s.agenda = .issue core :: rest →
      let s0 : State := { s with agenda := rest }
      (s0.pick core = none → step s = .next s0) ∧ ∀ slot, s0.pick core = some slot → step s = s0.issueSlot core slot) ∧
    (∀ (s : State) (core slot : Nat), s.pick core = some slot → slot < 16 ∧ (s.core core).stopped = false ∧
      (s.thread core slot).state = .ready ∧ (s.thread core slot).readyAt ≤ s.cycle ∧
      (∀ c, (s.thread core slot).lastIssue = some c → c + 16 ≤ s.cycle) ∧
      ∀ d, d < 16 → slot = (s.now (deviceOfCore core) + d) % 16 →
        ∀ e < d, s.eligible core ((s.now (deviceOfCore core) + e) % 16) = false) ∧
    (∀ (s : State) (slot : Nat), s.agenda = [] → (s.device (deviceOfCore s.focus)).held = false → s.pick s.focus = some slot →
      step s = s.issueSlot s.focus slot) ∧
    (∀ (s : State), s.agenda = [] → (s.device (deviceOfCore s.focus)).held = true →
      step s = .fault (.heldInReset (deviceOfCore s.focus)))) ∧
  ((∀ (u : IssueUnit) (s : State), s.unit.member = false →
      let k := posOf u.pc
      let s1 : State := { s with unit := { s.unit with member := true } }
      let broken := fun s : State => Host.Outcome.next (φ := Fault) (ρ := Refusal)
        ((s.dropLine s.cur.core (lineOf u.pc)).takeTrap s.cur.core s.cur.slot 0x0C (lineOf u.pc) { s.curLatch with fetch := true })
      (wordParity u.lineword k u.first = false → s.runChecked u = broken s) ∧
      (wordParity u.lineword k u.first = true →
        (u.lineword.setWidth 17 ≠ 0 → s.runChecked u = .next (s.raise (.trap 0x02 (u.lineword.setWidth 64)))) ∧
        (u.lineword.setWidth 17 = 0 →
          (∀ r, decodeChecked (isCompute s.cur.core) u.first = .error r →
            s.runChecked u = .next (s.raise (.trap 0x01 (BitVec.ofNat 64 r)))) ∧
          (∀ i, decodeChecked (isCompute s.cur.core) u.first = .ok i → u.second = none → s.runChecked u = exec i s) ∧
          ∀ i w2, decodeChecked (isCompute s.cur.core) u.first = .ok i → u.second = some w2 →
            (wordParity u.lineword (k + 1) w2 = false → s.runChecked u = broken s1) ∧
            (wordParity u.lineword (k + 1) w2 = true →
              (∀ r, decodeChecked (isCompute s.cur.core) w2 = .error r →
                s.runChecked u = .next (s1.raise (.trap 0x01 (BitVec.ofNat 64 r)))) ∧
              ∀ j, decodeChecked (isCompute s.cur.core) w2 = .ok j →
                (∀ r, pairReason u.first w2 i j = some r → s.runChecked u = .next (s.raise (.trap 0x01 (BitVec.ofNat 64 r)))) ∧
                (pairReason u.first w2 i j = none → s.runChecked u = runPair i j s))))) ∧
    (∀ (s : State) (core : Nat) (va : W64),
      ((s.dropLine core va).core core).lines = (s.core core).lines.filter fun x => x.va ≠ va) ∧
    (∀ (w : Word96) (i : Instr), decode w = some i →
      computeOnly (Raw.unpack w).op.toNat (Raw.unpack w).fn.toNat = true →
      decodeChecked false w = .error 5 ∧ decodeChecked true w = .ok i) ∧
    (∀ (w : Word96) (compute : Bool), decode w = none →
      let op := (Raw.unpack w).op.toNat
      let fn := (Raw.unpack w).fn.toNat
      decodeChecked compute w = .error (if opAllocated op = false then 1 else if fnAllocated op fn = false then 2
        else if computeOnly op fn = true ∧ compute = false then 5 else (rangeReason (Raw.unpack w)).getD 3)) ∧
    (∀ (w1 w2 : Word96) (i j : Instr),
      let c1 := pairClass (Raw.unpack w1).op.toNat
      let c2 := pairClass (Raw.unpack w2).op.toNat
      let legal := (c1, c2) ∈ [(PairClass.s, PairClass.v), (.v, .s), (.s, .m), (.m, .s), (.v, .e), (.e, .v)]
      (¬legal → pairReason w1 w2 i j = some 8) ∧
      (legal → (∃ r ∈ writesOf i, r ∈ writesOf j ∧ r ≠ .s 0 ∧ r ≠ .p 0) → pairReason w1 w2 i j = some 9) ∧
      (legal → (∀ r ∈ writesOf i, r ∈ writesOf j → r = .s 0 ∨ r = .p 0) → pairReason w1 w2 i j = none))) ∧
  (∀ (i j : Instr) (s s1 : State), s.unit.member = false → s.unit.snap = none → s.unit.defer_ = false →
      exec i { s with unit := { s.unit with snap := some s.cth.regs, defer_ := true } } = .next s1 →
      (∀ c x, s1.unit.trap = some (c, x) → 
        runPair i j s = .next ((if c = 0x0C then s.dropLine s.cur.core x else s).takeTrap s.cur.core s.cur.slot c.toNat x s.curLatch)) ∧
      (∀ e a, s1.unit.trap = none → s1.unit.stop = some (e, a) →
        runPair i j s = .next (s.takeStop s.cur.core s.cur.slot e a s.curLatch)) ∧
      (s1.unit.trap = none → s1.unit.stop = none → s1.cth.findWait isFetch = none → ∀ s2,
        exec j { s1 with unit := { s1.unit with member := true } } = .next s2 →
        let sm : State := { s with unit := { s.unit with member := true } }
        (∀ c x, s2.unit.trap = some (c, x) →
          runPair i j s = .next ((if c = 0x0C then sm.dropLine s.cur.core x else sm).takeTrap s.cur.core s.cur.slot c.toNat x sm.curLatch)) ∧
        (∀ e a, s2.unit.trap = none → s2.unit.stop = some (e, a) →
          runPair i j s = .next (sm.takeStop s.cur.core s.cur.slot e a sm.curLatch)) ∧
        (s2.unit.trap = none → s2.unit.stop = none → s2.cth.findWait isFetch = none →
          ∃ t, runPair i j s = .next t ∧ t.mem = s2.mem ∧ t.posted = s2.posted ∧ t.net = s2.net ∧ t.regs = s2.regs ∧
            (s2.cth.waits = [] → t.cth = s2.cth) ∧
            (s2.cth.waits ≠ [] → t.cth.regs = s.cth.regs ∧ t.cth.waits = s2.cth.waits ∧ t.cth.state = s2.cth.state ∧
              t.cth.held = s2.cth.held.over (RegFile.since s.cth.regs s2.cth.regs)))))

/-- R23 and R41: a form whose guard tests bit 0 and finds it off only advances the pc, in either mode: of its checks
only those of R19 apply (of a head-only form, log entry 10). R15: a head-only form whose guard is on traps in task
mode as privileged instruction with its opcode and function. -/
def Obligations.GuardsAndModes : Prop :=
  (∀ (i : Instr) (g : Guard) (s : State), i.bitGuard = some g → s.guardBit g = false → exec i s = .next s.advance) ∧
  (∀ (i : Instr) (op fn : Nat) (g : Guard) (s : State), i.headForm = some (op, fn) → i.bitGuard = some g → s.guardBit g = true →
      s.cur.slot ≠ 0 → exec i s = s.traps 0x04 (BitVec.ofNat 64 (op * 256 + fn)))

/-- R11, R95 and R411: at reset every head slot is ready at address 0 and every agent slot at 0x40, both with task
0xFFFF, every other slot is idle; the reach tables hold the four entries of Table 18.1; of every slot the scalar,
vector, bit address and predicate registers are zero, but p0 that reads as ones, and no coffer is open; memory has its
canonical form. (The zero of a register to which R11 gives no value is the model's choice: log entry 6.) -/
def Obligations.ResetState : Prop :=
  (∀ core, let t := State.reset.thread core 0
    t.state = .ready ∧ t.pc = 0 ∧ t.task = 0xFFFF) ∧
  (∀ core, isCompute core = false → let t := State.reset.thread core 15
    t.state = .ready ∧ t.pc = 0x40 ∧ t.task = 0xFFFF) ∧
  (∀ core slot, 0 < slot → slot < 16 → ¬(slot = 15 ∧ isCompute core = false) →
    (State.reset.thread core slot).state = .idle) ∧
  (∀ core i, 4 ≤ i → (State.reset.reach core i).valid = false) ∧
  (∀ core, let e := State.reset.reach core 0
    e.w0 = 1 ∧ e.w1 = 0x200000 ∧ e.w2 = BitVec.ofNat 64 (spaceBase (tileOfCore core) 0) ∧ e.w3 = 0xFFFF000000002005) ∧
  (∀ core, let e := State.reset.reach core 1
    e.w0 = 0x100000001 ∧ e.w1 = 0x100400000 ∧ e.w2 = BitVec.ofNat 64 (spaceBase (tileOfCore core) 1) ∧ e.w3 = 0xFFFF000000008003) ∧
  (∀ core, let e := State.reset.reach core 2
    e.w0 = 0x200000001 ∧ e.w1 = 0x200010000 ∧ e.w2 = BitVec.ofNat 64 (spaceBase (tileOfCore core) 2) ∧ e.w3 = 0xFFFF00000000C003) ∧
  (∀ core, let e := State.reset.reach core 3
    e.w0 = 0x300000001 ∧ e.w1 = 0x301000000 ∧ e.w2 = BitVec.ofNat 64 (spaceBase (tileOfCore core) 3) ∧ e.w3 = 0xFFFF00000000C003) ∧
  (∀ core, (State.reset.core core).trapBase = 0 ∧ (State.reset.core core).trapWidx = 0) ∧
  (∀ core slot n, slot < 16 → (State.reset.thread core slot).regs.getS n = ⟨0, false⟩ ∧
    (State.reset.thread core slot).regs.getV n = ⟨0, 0⟩ ∧ (State.reset.thread core slot).regs.getB n = 0 ∧
    (State.reset.thread core slot).regs.getP n = (if n = 0 then BitVec.allOnes 64 else 0)) ∧
  (∀ core slot, slot < 16 → let t := State.reset.thread core slot
    t.phase = 0 ∧ t.coffers = [] ∧ t.resv = [] ∧ t.latch = none ∧ t.handle = 0 ∧ t.dzt = false ∧ t.lastcause = 0) ∧
  (∀ core, (State.reset.core core).stopped = false ∧ (State.reset.core core).lines = [] ∧ (State.reset.core core).inbox = []) ∧
  State.reset.memWf

/-- R9, R10 and R69: reading a register gives the last value written to it, a write to one leaves every other, and s0
and p0 keep reading as zero and as all ones whatever is written to them. A byte of memory reads as it was last written
and every other byte keeps its value; two memories in canonical form that read alike are equal data; a copied range
reads as its source (R6, log entry 2). -/
def Obligations.RegistersAndMemory : Prop :=
  ((∀ (r : RegFile) (m n : Nat) (v : SVal),
      (r.setS m v).getS n = if n = 0 then ⟨0, false⟩ else if n = m then v else r.getS n) ∧
    (∀ (r : RegFile) (m n : Nat) (v : VVal), (r.setV m v).getV n = if n = m then v else r.getV n) ∧
    (∀ (r : RegFile) (m n : Nat) (v : W64),
      (r.setP m v).getP n = if n = 0 then BitVec.allOnes 64 else if n = m then v else r.getP n) ∧
    (∀ (r : RegFile) (m n : Nat) (v : BitVec 40), (r.setB m v).getB n = if n = m then v else r.getB n) ∧
    (∀ (r : RegFile) (m n : Nat) (v : SVal), (r.setS m v).getV n = r.getV n ∧ (r.setS m v).getP n = r.getP n ∧
      (r.setS m v).getB n = r.getB n)) ∧
  ((∀ (m : List Host.Cell) (a b : Nat) (v : Byte), Memory.wf m = true →
      memRead (memWrite m a v) b = if b = a then v else memRead m b) ∧
    (∀ (m : List Host.Cell) (k : List Host.Cell), Memory.wf m = true → Memory.wf k = true →
      (∀ a, memRead m a = memRead k a) → m = k) ∧
    (∀ (m : List Host.Cell) (src dst n a : Nat), Memory.wf m = true → (src + n ≤ dst ∨ dst + n ≤ src) →
      memRead (copyCells m src dst n) a =
        if dst ≤ a ∧ a < dst + n then memRead m (a - dst + src) else memRead m a))

/-- Every step of the machine keeps memory in its canonical form. -/
def Obligations.StepKeepsMemoryCanonical : Prop :=
  ∀ (s t : State), s.memWf → step s = .next t → t.memWf

/-- R178 to R180: an access is checked in the order of R179, and its first failure gives the cause and the information
word: no entry, beyond its limit, a permission that the entry does not grant, outside the space, an absent granule.
For a row call the sender checks a vault of 2 GiB and no granule (log entry 16, DEDUCED). R309: of a compressed entry
every form but tld and bxf makes a misaligned access or a permission fault; tld applies the checks to the offset table
entry of its logical tile, and then, as bxf does, to the reservation that this entry names (log entry 119, DEDUCED:
its limit, and the address that it names). -/
def Obligations.AccessChecks : Prop :=
  (∀ (s : State) (core slot n : Nat) (need : Need) (va : W64) (i : Nat), i < 32 →
    let task := (s.thread core slot).task.toNat % 2 ^ 16
    let hits := fun (e : Reach) => e.w0.getLsbD 0 = true ∧ (e.w3.toNat / 2 ^ 48 = 0 ∨ e.w3.toNat / 2 ^ 48 = task) ∧
      e.w0.toNat / 64 * 64 ≤ va.toNat ∧ va.toNat < e.w1.toNat / 64 * 64
    hits (s.reach core i) → (∀ j < i, ¬hits (s.reach core j)) → (s.reach core i).w3.getLsbD 5 = true →
    s.checkVa core slot need va n =
      .error (.trap (if (va.toNat - (s.reach core i).w0.toNat / 64 * 64) % 2048 = 0 then 0x11 else 0x05) va)) ∧
  (∀ (s : State) (i : Nat) (va : W64),
    let e := s.reach s.cur.core i
    let d := va.toNat - e.w0.toNat / 64 * 64
    let p := e.w2.toNat % 2 ^ 63 / 64 * 64 + d / 2048 * 8
    (d % 2048 ≠ 0 → s.tileThroughZ i va = .error (.trap 0x05 va)) ∧
    (d % 2048 = 0 → e.grants .load s.isHead = false → s.tileThroughZ i va = .error (.trap 0x11 va)) ∧
    (d % 2048 = 0 → e.grants .load s.isHead = true →
      (s.spaceSize (tileOfPlace p) (spaceOfPlace p) false < offsetOfPlace p + 8 →
        s.tileThroughZ i va = .error (.trap 0x14 (BitVec.ofNat 64 p))) ∧
      (offsetOfPlace p + 8 ≤ s.spaceSize (tileOfPlace p) (spaceOfPlace p) false → spaceOfPlace p ≠ 0 →
        s.tileThroughZ i va = .ok ⟨i, p⟩))) ∧
  (∀ (s : State) (base len p : Nat) (va w : W64) (mine : Bool),
    let off := w.toNat % 2 ^ 32
    let n := w.toNat / 2 ^ 40 % 2 ^ 8 * 64
    let broken := w.toNat / 2 ^ 56 % 2 ^ 7 ≠ 0 ∨ w.toNat / 2 ^ 32 % 2 ^ 8 ≠ 0 ∨ off % 64 ≠ 0 ∨ n = 0 ∨ 37 * 64 < n ∨
      (mine = false ∧ w.getLsbD 63 = false)
    (broken → s.entryNames base len va p mine w = .error (0x1E, BitVec.ofNat 64 (4 + p % 2 ^ 22 * 2 ^ 32))) ∧
    (¬broken → len < off + n → s.entryNames base len va p mine w = .error (0x12, va)) ∧
    (¬broken → off + n ≤ len →
      (s.spaceSize (tileOfPlace base) (spaceOfPlace base) false < offsetOfPlace base + off + n →
        s.entryNames base len va p mine w = .error (0x14, BitVec.ofNat 64 (base + off))) ∧
      (offsetOfPlace base + off + n ≤ s.spaceSize (tileOfPlace base) (spaceOfPlace base) false →
        s.entryNames base len va p mine w = .ok (base + off, OffEntry.ofWord w)))) ∧
  ∀ (s : State) (core slot n : Nat) (need : Need) (va : W64), 0 < n →
    let task := (s.thread core slot).task.toNat % 2 ^ 16
    let hits := fun (e : Reach) => e.w0.getLsbD 0 = true ∧ (e.w3.toNat / 2 ^ 48 = 0 ∨ e.w3.toNat / 2 ^ 48 = task) ∧
      e.w0.toNat / 64 * 64 ≤ va.toNat ∧ va.toNat < e.w1.toNat / 64 * 64
    ((∀ i < 32, ¬hits (s.reach core i)) → s.checkVa core slot need va n = .error (.trap 0x10 va)) ∧
    ∀ i < 32, hits (s.reach core i) → (∀ j < i, ¬hits (s.reach core j)) → (s.reach core i).w3.getLsbD 5 = false →
      let e := s.reach core i
      let base := e.w0.toNat / 64 * 64
      let limit := e.w1.toNat / 64 * 64
      let p := e.w2.toNat % 2 ^ 63 / 64 * 64 + (va.toNat - base)
      let allowed := (need.r = true → e.w3.getLsbD 0 = true) ∧ (need.w = true → e.w3.getLsbD 1 = true) ∧
        (need.x = true → e.w3.getLsbD 2 = true) ∧ need.c = e.w3.getLsbD 3 ∧ need.v = e.w3.getLsbD 4 ∧
        (slot % 16 = 0 ∨ spaceOfPlace e.place ≠ 3)
      (limit < va.toNat + n → s.checkVa core slot need va n = .error (.trap 0x12 va)) ∧
      (va.toNat + n ≤ limit → ¬allowed → s.checkVa core slot need va n = .error (.trap 0x11 va)) ∧
      (va.toNat + n ≤ limit → allowed → s.spaceSize (tileOfPlace p) (spaceOfPlace p) need.c < offsetOfPlace p + n →
        s.checkVa core slot need va n = .error (.trap 0x14 (BitVec.ofNat 64 p))) ∧
      (va.toNat + n ≤ limit → allowed → offsetOfPlace p + n ≤ s.spaceSize (tileOfPlace p) (spaceOfPlace p) need.c →
        (need.c = false → spaceOfPlace p = 0 → ∀ g, offsetOfPlace p / 2 ^ 21 ≤ g → g ≤ (offsetOfPlace p + n - 1) / 2 ^ 21 →
          s.granule (tileOfPlace p) g = 0 → (∀ h, offsetOfPlace p / 2 ^ 21 ≤ h → h < g → s.granule (tileOfPlace p) h ≠ 0) →
          s.checkVa core slot need va n = .error (.trap 0x13 (BitVec.ofNat 64 (spaceBase (tileOfPlace p) 0 + g * 2 ^ 21)))) ∧
        ((need.c = true ∨ spaceOfPlace p ≠ 0 ∨
            ∀ g, offsetOfPlace p / 2 ^ 21 ≤ g → g ≤ (offsetOfPlace p + n - 1) / 2 ^ 21 → s.granule (tileOfPlace p) g ≠ 0) →
          s.checkVa core slot need va n = .ok ⟨i, p⟩))

/-- R27, R29 and R245: a trap of a task thread that unwinds no coffer, of any cause, leaves the thread trapped at the
unit's address with the unit in its retry latch, its registers as they were and its reservations gone, writes one
record to the ring and advances widx, and discards what a waiting pair had held back; the trap flag stays set unless a
head slot that waits takes it. A trap of the head slot, or without a ring, stops the core and raises the reset of its
tile (R425); a thread outside the active bank is trapped when it is back. A stop writes no record and tells the head
slot. -/
def Obligations.TakingATrap : Prop :=
  (∀ (s : State) (core slot cause ring : Nat) (info : W64) (l : Latch), 0 < slot → slot < 16 → cause < 256 →
    (s.thread core slot).state ≠ .swapped → (s.thread core slot).coffers = [] → s.trapRing core = some ring →
    let t := s.takeTrap core slot cause info l
    let new := t.thread core slot
    let old := s.thread core slot
    new.state = .trapped ∧ new.latch = some l ∧ new.pc = l.pc ∧ new.trapCause = BitVec.ofNat 8 cause ∧ new.trapInfo = info ∧
    new.regs = old.regs ∧ new.task = old.task ∧ new.phase = old.phase ∧ new.coffers = [] ∧
    new.resv = [] ∧ new.waits = [] ∧ new.held = RegFile.reset ∧
    (t.core core).trapWidx = (s.core core).trapWidx + 1 ∧ (t.core core).trapSeq = (s.core core).trapSeq + 1 ∧
    ((s.thread core 0).waits = [] → (t.core core).trapFlag = true) ∧ (t.core core).trapBase = (s.core core).trapBase ∧
    (s.memWf → ∀ a, t.byte a = if ring + 64 * (s.core core).trapWidx.toNat ≤ a ∧
        a < ring + 64 * (s.core core).trapWidx.toNat + 64 then
      (trapRecord (s.core core).trapSeq.toNat core slot cause l info old.task
        (BitVec.ofNat 64 (s.now (deviceOfCore core)))).getD (a - (ring + 64 * (s.core core).trapWidx.toNat)) 0 else s.byte a)) ∧
  (∀ (s : State) (core slot cause : Nat) (info : W64) (l : Latch), slot < 16 →
    (s.thread core slot).state ≠ .swapped → (s.thread core slot).coffers = [] → slot = 0 ∨ s.trapRing core = none →
    let t := s.takeTrap core slot cause info l
    (t.core core).stopped = true ∧ (.tile, tileOfCore core, .matrix) ∈ (t.device (deviceOfCore core)).raised ∧ (t.thread core slot).state = .trapped ∧ t.mem = s.mem ∧
    (t.core core).trapWidx = (s.core core).trapWidx) ∧
  (∀ (s : State) (core slot cause : Nat) (info : W64) (l : Latch),
    (s.thread core slot).state = .swapped → (s.thread core slot).coffers = [] →
    let t := s.takeTrap core slot cause info l
    let new := t.thread core slot
    new.state = .swapped ∧ new.saved = .trapped ∧ new.latch = some l ∧ new.trapCause = BitVec.ofNat 8 cause ∧ new.resv = [] ∧
      new.waits = [] ∧ new.regs = (s.thread core slot).regs ∧ t.mem = s.mem ∧
      (cause ≠ 0x0A → cause ≠ 0x0C → cause ≠ 0x15 → OnlyThread s t core slot)) ∧
  (∀ (s : State) (core slot entry : Nat) (addr : Option W64) (l : Latch), slot < 16 →
    let t := s.takeStop core slot entry addr l
    (t.thread core slot).state = .trapped ∧ (t.thread core slot).latch = some l ∧ (t.thread core slot).stopHeld = true ∧
    t.mem = s.mem ∧ (t.core core).trapWidx = (s.core core).trapWidx ∧
    t.net = s.net ++ [.notice core ⟨0x19, slot, 0, [BitVec.ofNat 64 entry, (s.thread core slot).task, l.pc] ++ addr.toList⟩])

/-- R31: a trap record is 64 bytes with the fields of Table 1.7 in their places. -/
def Obligations.TrapRecordLayout : Prop :=
  ∀ (seq core slot cause : Nat) (l : Latch) (info task cycle : W64), seq < 2 ^ 32 → slot < 16 → cause < 256 →
    let b := trapRecord seq core slot cause l info task cycle
    let field := fun (off n : Nat) => natOfBytes ((b.drop off).take n)
    b.length = 64 ∧ field 0 1 = cause ∧ field 4 4 = seq ∧ field 0 2 / 2 ^ 8 % 16 = slot ∧
    field 0 2 / 2 ^ 12 % 2 = (if l.mem then 1 else 0) ∧ field 0 2 / 2 ^ 13 = (if l.second.isSome then 1 else 0) ∧
    field 2 2 = core % 1024 ∧ field 8 8 = l.pc.toNat ∧ field 16 8 = info.toNat ∧ field 24 8 = task.toNat ∧
    field 32 12 = (if l.mem then (l.second.getD 0).toNat else l.first.toNat) ∧ field 44 4 = l.lineword.toNat ∧
    field 48 8 = cycle.toNat ∧ field 56 8 = 0

/-- A form that writes one scalar register and only computes traps, or writes no more than that register: every byte
of memory, mark, register of a unit, tile, device, reach and other thread stays, and of its own thread all but that
register and the pc. The same for the forms that write lanes of one vector register, and for those that write one
predicate. -/
def Obligations.FramesOfResults : Prop :=
  (∀ (i : Instr) (d : SReg) (s t : State), i.scalarResult = some d → exec i s = .next t →
      (∃ b, t = s.raise b) ∨
      (OnlyThread s t s.cur.core s.cur.slot ∧ ∃ f : RegFile → RegFile, (f = id ∨ ∃ v, f = fun r => r.setS d.toNat v) ∧
        (s.thread s.cur.core s.cur.slot).onlyRegs (t.thread s.cur.core s.cur.slot) f)) ∧
  ((∀ (i : Instr) (d : VReg) (s t : State), i.vectorResult = some d → exec i s = .next t →
      (∃ b, t = s.raise b) ∨
      (OnlyThread s t s.cur.core s.cur.slot ∧ ∃ f : RegFile → RegFile, (f = id ∨ ∃ v, f = fun r => r.setV d.toNat v) ∧
        (s.thread s.cur.core s.cur.slot).onlyRegs (t.thread s.cur.core s.cur.slot) f)) ∧
    (∀ (i : Instr) (d : PReg) (s t : State), i.predicateResult = some d → exec i s = .next t →
      (∃ b, t = s.raise b) ∨
      (OnlyThread s t s.cur.core s.cur.slot ∧ ∃ f : RegFile → RegFile, (f = id ∨ ∃ v, f = fun r => r.setP d.toNat v) ∧
        (s.thread s.cur.core s.cur.slot).onlyRegs (t.thread s.cur.core s.cur.slot) f)) ∧
    (∀ (o : BsetF) (s t : State), exec (.bset o) s = .next t →
      (∃ b, t = s.raise b) ∨
      (OnlyThread s t s.cur.core s.cur.slot ∧ ∃ f : RegFile → RegFile, (f = id ∨ ∃ v, f = fun r => r.setB o.d.toNat v) ∧
        (s.thread s.cur.core s.cur.slot).onlyRegs (t.thread s.cur.core s.cur.slot) f)) ∧
    (∀ (o : BaddF) (s t : State), exec (.badd o) s = .next t →
      (∃ b, t = s.raise b) ∨
      (OnlyThread s t s.cur.core s.cur.slot ∧ ∃ f : RegFile → RegFile, (f = id ∨ ∃ v, f = fun r => r.setB o.d.toNat v) ∧
        (s.thread s.cur.core s.cur.slot).onlyRegs (t.thread s.cur.core s.cur.slot) f)))

/-- R26 and R197: a store form changes no byte of memory and no register when it issues (stbf.inc alone advances its
bit address): what it stores is posted, and of the posted bytes each lies in the bytes that the form addresses. -/
def Obligations.FrameOfStores : Prop :=
  (∀ (o : StF) (s t : State), exec (.st o) s = .next t →
    (∃ b, t = s.raise b) ∨
    ((∀ a, t.byte a = s.byte a) ∧ t.regs = s.regs ∧ (∀ c k, (t.thread c k).regs = (s.thread c k).regs) ∧
      ∀ p ∈ t.posted, p ∈ s.posted ∨ ∃ x, s.access Need.store
          ((s.rS o.a.toNat).bits + (s.rS o.b.toNat).bits * BitVec.ofNat 64 o.size.bytes + o.off.signExtend 64) o.size.bytes = .ok x ∧
        ∀ w ∈ p.bytes, x.place ≤ w.addr ∧ w.addr < x.place + o.size.bytes)) ∧
  (∀ (o : StbfF) (s t : State), exec (.stbf o) s = .next t →
    (∃ b, t = s.raise b) ∨
    ((∀ a, t.byte a = s.byte a) ∧ t.regs = s.regs ∧
      (∀ p ∈ t.posted, p ∈ s.posted ∨ (s.bitAccess (spaceBase s.curTile 1 + (s.rB o.a.toNat).toNat / 8)
          (((s.rB o.a.toNat).toNat + o.w.toNat - 1) / 8 - (s.rB o.a.toNat).toNat / 8 + 1) Need.store = .ok p.entry ∧
        ∀ w ∈ p.bytes, spaceBase s.curTile 1 + (s.rB o.a.toNat).toNat / 8 ≤ w.addr ∧
          w.addr ≤ spaceBase s.curTile 1 + ((s.rB o.a.toNat).toNat + o.w.toNat - 1) / 8)) ∧
      (∀ c k n, (t.thread c k).regs.getS n = (s.thread c k).regs.getS n ∧ (t.thread c k).regs.getV n = (s.thread c k).regs.getV n))) ∧
  (∀ (o : VmstF) (s t : State), exec (.vmst o) s = .next t →
    (∃ b, t = s.raise b) ∨
    ((∀ a, t.byte a = s.byte a) ∧ t.regs = s.regs ∧ (∀ c k, (t.thread c k).regs = (s.thread c k).regs) ∧
      ∀ p ∈ t.posted, p ∈ s.posted ∨ ∃ x, s.access Need.store
          ((s.rS o.a.toNat).bits + (s.rS o.b.toNat).bits * BitVec.ofNat 64 o.size.bytes + o.off.signExtend 64) o.size.bytes = .ok x ∧
        ∀ w ∈ p.bytes, x.place ≤ w.addr ∧ w.addr < x.place + o.size.bytes)) ∧
  (∀ (o : SctF) (s t : State), exec (.vmsct o) s = .next t →
    (∃ b, t = s.raise b) ∨
    ((∀ a, t.byte a = s.byte a) ∧ t.regs = s.regs ∧ (∀ c k, (t.thread c k).regs = (s.thread c k).regs) ∧
      ∀ p ∈ t.posted, p ∈ s.posted ∨ ∃ lane, ∃ x,
        let n := o.size.bytes
        s.laneOn o.g (laneTy n) lane = true ∧
        s.access Need.store ((s.rS o.a.toNat).bits + sext64 (8 * n) (laneOf (s.rV o.b.toNat).bits (8 * n) lane) *
          BitVec.ofNat 64 n + o.off.signExtend 64) n = .ok x ∧
        ∀ w ∈ p.bytes, x.place ≤ w.addr ∧ w.addr < x.place + n))

/-- A form issued in task mode changes no reach entry of any core and no trap queue base: only the head slot, through
the reach forms and mts, does (R15, R30, R176). -/
def Obligations.TaskModeKeepsTranslation : Prop :=
  ∀ (i : Instr) (s t : State), (encode i).isSome = true → s.cur.slot % 16 ≠ 0 → exec i s = .next t →
    ∀ core, (t.core core).trapBase = (s.core core).trapBase ∧ ∀ k, t.reach core k = s.reach core k

/-- R63, Table 3.2, with the marks of R359: the register and immediate forms of 0x01 and 0x02. A shift counts by the
low six bits. R64 and R65: constants, the pc-relative address, and the products; mulh takes the upper half of the
exact product. R71 to R74: fields are extracted and inserted at pos with width w; bins takes the mask's bits from b;
bffcs sets the lowest bit of the mask that the word lacks and says whether there is one, or traps on poison, of a
before b (log entry 8, DEDUCED); bplim sets bits of the mask in ascending order until L = min(s[c], 64) bits are set.
-/
def Obligations.ScalarResults : Prop :=
  ((∀ (o : SSS) (s : State), s.guardBit o.g = true →
      let x := s.rS o.a.toNat
      let y := s.rS o.b.toNat
      let n := y.bits.toNat % 64
      let put := fun w : W64 => s.gives o.d ⟨w, x.poison || y.poison⟩
      exec (.add o) s = put (x.bits + y.bits) ∧
      exec (.sub o) s = put (x.bits - y.bits) ∧
      exec (.and o) s = put (x.bits &&& y.bits) ∧
      exec (.or o) s = put (x.bits ||| y.bits) ∧
      exec (.xor o) s = put (x.bits ^^^ y.bits) ∧
      exec (.andn o) s = put (x.bits &&& ~~~y.bits) ∧
      exec (.sll o) s = put (x.bits <<< n) ∧
      exec (.srl o) s = put (x.bits >>> n) ∧
      exec (.sra o) s = put (x.bits.sshiftRight n) ∧
      exec (.rol o) s = put (x.bits.rotateLeft n) ∧
      exec (.min o) s = put (if x.bits.toInt ≤ y.bits.toInt then x.bits else y.bits) ∧
      exec (.max o) s = put (if x.bits.toInt ≤ y.bits.toInt then y.bits else x.bits) ∧
      exec (.minu o) s = put (if x.bits.toNat ≤ y.bits.toNat then x.bits else y.bits) ∧
      exec (.maxu o) s = put (if x.bits.toNat ≤ y.bits.toNat then y.bits else x.bits)) ∧
    (∀ (o : SSI) (s : State), s.guardBit o.g = true →
      let x := s.rS o.a.toNat
      let put := fun w : W64 => s.gives o.d ⟨w, x.poison⟩
      exec (.addi o) s = put (x.bits + o.imm) ∧
      exec (.andi o) s = put (x.bits &&& o.imm) ∧
      exec (.ori o) s = put (x.bits ||| o.imm) ∧
      exec (.xori o) s = put (x.bits ^^^ o.imm)) ∧
    (∀ (o : SSN) (s : State), s.guardBit o.g = true →
      let x := s.rS o.a.toNat
      let put := fun w : W64 => s.gives o.d ⟨w, x.poison⟩
      exec (.slli o) s = put (x.bits <<< o.n.toNat) ∧
      exec (.srli o) s = put (x.bits >>> o.n.toNat) ∧
      exec (.srai o) s = put (x.bits.sshiftRight o.n.toNat) ∧
      exec (.roli o) s = put (x.bits.rotateLeft o.n.toNat))) ∧
  ((∀ (o : SI) (s : State), s.guardBit o.g = true →
      exec (.li o) s = s.gives o.d ⟨o.imm, false⟩ ∧
      exec (.lpc o) s = s.gives o.d ⟨s.memberPc + o.imm, false⟩) ∧
    (∀ (o : SSS) (s : State), s.guardBit o.g = true →
      let x := s.rS o.a.toNat
      let y := s.rS o.b.toNat
      let put := fun w : W64 => s.gives o.d ⟨w, x.poison || y.poison⟩
      exec (.mul o) s = put (x.bits * y.bits) ∧
      exec (.mulh o) s = put (BitVec.ofInt 64 (x.bits.toInt * y.bits.toInt / 2 ^ 64)) ∧
      exec (.mulhu o) s = put (BitVec.ofNat 64 (x.bits.toNat * y.bits.toNat / 2 ^ 64)))) ∧
  ((∀ (o : BfxF) (s : State), s.guardBit o.g = true → fieldOk o.pos o.w = true →
      let x := s.rS o.a.toNat
      let f := x.bits.extractLsb' o.pos.toNat o.w.toNat
      exec (.bfx o) s = s.gives o.d ⟨f.signExtend 64, x.poison⟩ ∧
      exec (.bfxu o) s = s.gives o.d ⟨f.setWidth 64, x.poison⟩) ∧
    (∀ (o : BfiF) (s : State), s.guardBit o.g = true → fieldOk o.pos o.w = true →
      let x := s.rS o.a.toNat
      let y := s.rS o.b.toNat
      ∃ w : W64, exec (.bfi o) s = s.gives o.d ⟨w, x.poison || y.poison⟩ ∧
        ∀ k < 64, w.getLsbD k =
          if o.pos.toNat ≤ k ∧ k < o.pos.toNat + o.w.toNat then y.bits.getLsbD (k - o.pos.toNat)
          else x.bits.getLsbD k) ∧
    (∀ (o : SSSS) (s : State), s.guardBit o.g = true →
      let x := s.rS o.a.toNat
      let y := s.rS o.b.toNat
      let z := s.rS o.c.toNat
      let put := fun w : W64 => s.gives o.d ⟨w, x.poison || y.poison || z.poison⟩
      let free := (List.range 64).filter fun k => y.bits.getLsbD k && !x.bits.getLsbD k
      let have_ := ((List.range 64).filter fun k => x.bits.getLsbD k).length
      exec (.bins o) s = put ((x.bits &&& ~~~z.bits) ||| (y.bits &&& z.bits)) ∧
      exec (.bplim o) s = put ((free.take (min z.bits.toNat 64 - have_)).foldl
        (fun w k => w ||| BitVec.twoPow 64 k) x.bits)) ∧
    (∀ (o : SSSP) (s : State), s.guardBit o.g = true →
      let x := s.rS o.a.toNat
      let m := s.rS o.b.toNat
      let free := (List.range 64).filter fun k => m.bits.getLsbD k && !x.bits.getLsbD k
      let put := fun (w : W64) (b : Bool) => Host.Outcome.next (φ := Fault) (ρ := Refusal)
        ((s.wS o.d.toNat ⟨w, false⟩).wP o.c.toNat (if b then BitVec.allOnes 64 else 0)).advance
      exec (.bffcs o) s =
        if x.poison then s.trapsPoison o.a
        else if m.poison then s.trapsPoison o.b
        else match free with
          | k :: _ => put (x.bits ||| BitVec.twoPow 64 k) true
          | [] => put x.bits false))

/-- R70: counts of leading, trailing and set bits; the bytes and the bits in reverse order. -/
def Obligations.BitCountResults : Prop :=
  ∀ (o : SS) (s : State), s.guardBit o.g = true →
    let x := s.rS o.a.toNat
    let put := fun n : Nat => s.gives o.d ⟨BitVec.ofNat 64 n, x.poison⟩
    exec (.clz o) s = put ((List.range 64).takeWhile fun k => !x.bits.getLsbD (63 - k)).length ∧
    exec (.ctz o) s = put ((List.range 64).takeWhile fun k => !x.bits.getLsbD k).length ∧
    exec (.popc o) s = put ((List.range 64).filter fun k => x.bits.getLsbD k).length ∧
    (∃ w : W64, exec (.bswap o) s = s.gives o.d ⟨w, x.poison⟩ ∧
      ∀ k < 8, w.extractLsb' (8 * k) 8 = x.bits.extractLsb' (56 - 8 * k) 8) ∧
    (∃ w : W64, exec (.brev o) s = s.gives o.d ⟨w, x.poison⟩ ∧
      ∀ k < 64, w.getLsbD k = x.bits.getLsbD (63 - k))

/-- R67 to R69: a compare writes all ones or zero to its predicate, or traps on poison, of a before b (log entry 8,
DEDUCED); the predicate forms and the selects. -/
def Obligations.PredicateResults : Prop :=
  (∀ (o : PSS) (s : State), s.guardBit o.g = true →
    let x := s.rS o.a.toNat
    let y := s.rS o.b.toNat
    let put := fun b : Bool =>
      if x.poison then s.trapsPoison o.a
      else if y.poison then s.trapsPoison o.b
      else s.givesP o.d (if b then BitVec.allOnes 64 else 0)
    exec (.cmpeq o) s = put (x.bits = y.bits) ∧
    exec (.cmpne o) s = put (x.bits ≠ y.bits) ∧
    exec (.cmplt o) s = put (x.bits.toInt < y.bits.toInt) ∧
    exec (.cmple o) s = put (x.bits.toInt ≤ y.bits.toInt) ∧
    exec (.cmpltu o) s = put (x.bits.toNat < y.bits.toNat) ∧
    exec (.cmpleu o) s = put (x.bits.toNat ≤ y.bits.toNat)) ∧
  (∀ (o : PPP) (s : State), s.guardBit o.g = true →
    let x := s.rP o.a.toNat
    let y := s.rP o.b.toNat
    exec (.pand o) s = s.givesP o.d (x &&& y) ∧
    exec (.por o) s = s.givesP o.d (x ||| y) ∧
    exec (.pxor o) s = s.givesP o.d (x ^^^ y) ∧
    exec (.pandn o) s = s.givesP o.d (x &&& ~~~y)) ∧
  (∀ (o : PP) (s : State), s.guardBit o.g = true →
    exec (.pnot o) s = s.givesP o.d (~~~(s.rP o.a.toNat))) ∧
  (∀ (o : SSSP) (s : State), s.guardBit o.g = true →
    exec (.sel o) s =
      s.gives o.d (if (s.rP o.c.toNat).getLsbD 0 then s.rS o.a.toNat else s.rS o.b.toNat)) ∧
  (∀ (o : SSS) (s : State), s.guardBit o.g = true →
    let x := s.rS o.a.toNat
    let y := s.rS o.b.toNat
    let put := fun w : W64 => s.gives o.d ⟨w, x.poison || y.poison⟩
    exec (.slt o) s = put (if x.bits.toInt < y.bits.toInt then 1 else 0) ∧
    exec (.sltu o) s = put (if x.bits.toNat < y.bits.toNat then 1 else 0))

/-- R66 with R62: with dzt set a zero divisor traps with cause 0x06; else the thread waits, and the core delivers the
quotient rounded toward zero, or the remainder with the sign of the dividend, once 40 cycles have passed. R39, R141,
R142 and R154: a long vector form with a lane on waits 32 cycles, vdiv 40, for lanes computed from the registers at
issue; with no lane on it only goes on (log entry 132, DESIGN CHOICE). With dzt set a zero divisor in a lane that is
on traps. Quotients, reciprocals, square roots and their reciprocals of finite operands are the exact values rounded
once to nearest even; 2^n and log2 of a power of two are exact (between those, log entry 7, DESIGN CHOICE, says how
vexp2 and vlog2 find the rounded value). -/
def Obligations.LongClassResults : Prop :=
  ((∀ (o : SSS) (s : State), s.guardBit o.g = true →
      let x := s.rS o.a.toNat
      let y := s.rS o.b.toNat
      let ones := BitVec.allOnes 64
      let later := fun w : W64 => Host.Outcome.next (φ := Fault) (ρ := Refusal)
        (s.waitOn .waitingMemory (.divide o.d.toNat ⟨w, x.poison || y.poison⟩ (s.cycle + 40)))
      let out := fun w : W64 => if y.bits = 0 ∧ s.cth.dzt = true then s.traps 0x06 0 else later w
      exec (.div o) s = out (if y.bits = 0 then ones else BitVec.ofInt 64 (x.bits.toInt.tdiv y.bits.toInt)) ∧
      exec (.divu o) s = out (if y.bits = 0 then ones else BitVec.ofNat 64 (x.bits.toNat / y.bits.toNat)) ∧
      exec (.rem o) s = out (if y.bits = 0 then x.bits else BitVec.ofInt 64 (x.bits.toInt.tmod y.bits.toInt)) ∧
      exec (.remu o) s = out (if y.bits = 0 then x.bits else BitVec.ofNat 64 (x.bits.toNat % y.bits.toNat))) ∧
    (∀ (core slot d due at0 : Nat) (m : Bool) (v : SVal) (s : State),
      (s.thread core slot).findWait isDivide = some ⟨m, at0, .divide d v due⟩ → due ≤ s.cycle →
      exec (.divideResult core slot) s = .next (s.endWait core slot isDivide fun t => t.setS d v))) ∧
  ((∀ f ∈ [Fmt.f16, Fmt.bf16, Fmt.f32], ∀ (x y : Nat) (m n e k : Int),
      f.decode x = .fin m e → f.decode y = .fin n k →
      let up := fun i : Int => 2 ^ i.toNat
      (∃ mag, f.div x y = f.signed (decide (m < 0) != decide (n < 0)) mag ∧
        f.Nearest (m.natAbs * up (e - k - f.minExp)) (n.natAbs * up (f.minExp - (e - k))) mag) ∧
      (∃ mag, f.rcp y = f.signed (decide (n < 0)) mag ∧ f.Nearest (up (-k - f.minExp)) (n.natAbs * up (f.minExp + k)) mag) ∧
      (m < 0 → f.sqrt x = f.nanBits ∧ f.rsqrt x = f.nanBits) ∧
      (0 < m → ∃ mag, f.sqrt x = mag ∧ mag < f.infBits ∧
        let a := 4 * m.natAbs * up (e - 2 * f.minExp)
        (0 < mag → let t := f.steps (mag - 1) + f.steps mag; t * t < a ∨ t * t = a ∧ mag % 2 = 0) ∧
        (let t := f.steps mag + f.steps (mag + 1); a < t * t ∨ a = t * t ∧ mag % 2 = 0)) ∧
      (0 < m → ∃ mag, f.rsqrt x = mag ∧ mag < f.infBits ∧
        let a := 4 * up (-(e + 2 * f.minExp))
        let b := m.natAbs * up (e + 2 * f.minExp)
        (0 < mag → let t := f.steps (mag - 1) + f.steps mag; t * t * b < a ∨ t * t * b = a ∧ mag % 2 = 0) ∧
        (let t := f.steps mag + f.steps (mag + 1); a < t * t * b ∨ a = t * t * b ∧ mag % 2 = 0)) ∧
      (∀ i : Int, -1000 ≤ i → i ≤ 1000 → (if 0 ≤ e then i = m * up e else m = i * up (-e)) →
        f.exp2 x = f.rne (.fin 1 i)) ∧
      (∀ i : Nat, m = 2 ^ i → f.log2 x = if (i : Int) + e = 0 then 0 else f.rne (.fin (i + e) 0))) ∧
    (∀ (o : VV) (s : State),
      let w := o.ty.bits
      let f := fmtOf o.ty
      let x := s.rV o.a.toNat
      let waits := fun v : VVal => s.waitOn .waitingMemory (.vector o.d.toNat v (s.cycle + 32))
      let takes := fun (v : VVal) (h : Nat → Nat) =>
        LanesTake w (s.cth.regs.getV o.d.toNat) v (s.laneOn o.g o.ty) fun k => (h (laneOf x.bits w k), x.lanePoison w k)
      (s.lanesOn o.g o.ty = [] →
        exec (.vrcp o) s = .next s.advance ∧ exec (.vrsq o) s = .next s.advance ∧ exec (.vexp2 o) s = .next s.advance ∧
        exec (.vlog2 o) s = .next s.advance ∧ exec (.vfsqrt o) s = .next s.advance) ∧
      (s.lanesOn o.g o.ty ≠ [] →
        (∃ v, exec (.vrcp o) s = .next (waits v) ∧ takes v f.rcp) ∧
        (∃ v, exec (.vrsq o) s = .next (waits v) ∧ takes v f.rsqrt) ∧
        (∃ v, exec (.vexp2 o) s = .next (waits v) ∧ takes v f.exp2) ∧
        (∃ v, exec (.vlog2 o) s = .next (waits v) ∧ takes v f.log2) ∧
        (∃ v, exec (.vfsqrt o) s = .next (waits v) ∧ takes v f.sqrt))) ∧
    (∀ (o : VVV) (s : State),
      let w := o.ty.bits
      let f := fmtOf o.ty
      let x := s.rV o.a.toNat
      let y := s.rV o.b.toNat
      let int := fun n => laneInt o.ty o.uns n
      let zero := (s.lanesOn o.g o.ty).any fun i => laneOf y.bits w i = 0
      let waits := fun (v : VVal) (cycles : Nat) =>
        s.waitOn .waitingMemory (.vector o.d.toNat v (s.cycle + cycles))
      let takes := fun (v : VVal) (h : Nat → Nat → Nat) =>
        LanesTake w (s.cth.regs.getV o.d.toNat) v (s.laneOn o.g o.ty) fun k =>
          (h (laneOf x.bits w k) (laneOf y.bits w k), x.lanePoison w k || y.lanePoison w k)
      (s.lanesOn o.g o.ty = [] → exec (.vfdiv o) s = .next s.advance ∧ exec (.vdiv o) s = .next s.advance) ∧
      (s.lanesOn o.g o.ty ≠ [] → ∃ v, exec (.vfdiv o) s = .next (waits v 32) ∧ takes v f.div) ∧
      (s.cth.dzt = true → zero = true → exec (.vdiv o) s = s.traps 0x06 0) ∧
      (s.cth.dzt = false ∨ zero = false → s.lanesOn o.g o.ty ≠ [] →
        ∃ v, exec (.vdiv o) s = .next (waits v 40) ∧ takes v fun a b =>
          if int b = 0 then 2 ^ w - 1 else ((int a).tdiv (int b) % 2 ^ w).toNat)) ∧
    (∀ (core slot d due at0 : Nat) (m : Bool) (v : VVal) (s : State),
      (s.thread core slot).findWait isVector = some ⟨m, at0, .vector d v due⟩ → due ≤ s.cycle →
      exec (.vectorLongResult core slot) s = .next (s.endWait core slot isVector fun t => t.setV d v)))

/-- R16 and R39: pc moves to the next position, over the line word from the last one; while another member of the pair
waits, the thread only notes where it goes on. A pair's members read the registers as at issue. R19, R75 to R77 and
R101: a taken transfer whose target is the exit address of a task thread ends the thread; an illegal position, or one
whose branch-target bit is clear, traps as bad branch target with the target; a line that the buffer does not hold is
fetched first; else the link is written and pc set. (A position is judged before its line is fetched: log entry 11,
DEDUCED; the head slot has no exit address: log entry 14, DEDUCED.) R46 and R75 to R78: with a good target that is not
the exit address, br and a conditional branch whose condition holds set pc to the form's own address plus four times
the offset; a condition that does not hold goes on under R16, and poison in a compared register, of a before b (log
entry 8, DEDUCED), or in that of jmp, ret and callr, traps; call and callr also write the link, jmp, callr and ret go
to the register's address. Jumps, returns and calls leave their control records (R394). -/
def Obligations.ControlFlow : Prop :=
  ((∀ s : State, s.unit.member = false → s.unit.past = 0 → s.cth.waits = [] →
      s.advance = s.modCur fun t =>
        { t with pc := if s.unit.pc.toNat % 64 = 48 then s.unit.pc + 16 else s.unit.pc + 12 }) ∧
    (∀ s : State, s.cth.waits ≠ [] → s.advance = s.modCur fun t => { t with nextPc := s.nextOf }) ∧
    (∀ (s : State) (r : RegFile) (n : Nat), s.unit.snap = some r →
      s.rS n = r.getS n ∧ s.rV n = r.getV n ∧ s.rP n = r.getP n ∧ s.rB n = r.getB n)) ∧
  (∀ (s : State) (t : W64) (link kind : Option Nat),
      (s.isHead = false → t = s.cth.exit → s.transfer t link kind = .ok (.go (s.beginEnd 2 (kind.map fun k => (k, t))))) ∧
      (s.isHead = true ∨ t ≠ s.cth.exit →
        (t.toNat % 64 ∉ [0, 12, 24, 36, 48] → s.transfer t link kind = .error (.trap 0x03 t)) ∧
        (t.toNat % 64 ∈ [0, 12, 24, 36, 48] →
          (∀ l, (s.core s.cur.core).findLine s.cth.task (lineOf t) = some l →
            ((linewordOf l.data).getLsbD (27 + t.toNat % 64 / 12) = false →
              s.transfer t link kind = .error (.trap 0x03 t)) ∧
            ((linewordOf l.data).getLsbD (27 + t.toNat % 64 / 12) = true →
              ∃ s1, s.transfer t link kind = .ok (.go (s1.modCur fun th => { th with pc := t })) ∧
                (link = none → kind = none → s1 = s) ∧
                (∀ d, link = some d → kind = none → s1 = s.wClean d (seqNext s.memberPc)))) ∧
          ((s.core s.cur.core).findLine s.cth.task (lineOf t) = none →
            (∀ x, s.fetchCheck (lineOf t) = .ok x → s.transfer t link kind = .ok (.go (s.waitLine (lineOf t) x))) ∧
            (∀ b, s.fetchCheck (lineOf t) = .error b → s.transfer t link kind = .error b))))) ∧
  ((∀ (o : BrF) (s : State), s.guardBit o.g = true →
      let t := s.memberPc + o.off.signExtend 64 * 4
      s.endsAt t = false → s.checkTarget t = .ok .good →
      exec (.br o) s = .next (s.modCur fun th => { th with pc := t })) ∧
    (∀ (o : BrSS) (s : State), s.guardBit o.g = true →
      let x := s.rS o.a.toNat
      let y := s.rS o.b.toNat
      let t := s.memberPc + o.off.signExtend 64 * 4
      s.endsAt t = false → s.checkTarget t = .ok .good →
      let goes := fun c : Bool =>
        if x.poison then s.trapsPoison o.a
        else if y.poison then s.trapsPoison o.b
        else .next (if c then s.modCur fun th => { th with pc := t } else s.advance)
      exec (.beq o) s = goes (x.bits = y.bits) ∧
      exec (.bne o) s = goes (x.bits ≠ y.bits) ∧
      exec (.blt o) s = goes (x.bits.toInt < y.bits.toInt) ∧
      exec (.bge o) s = goes (y.bits.toInt ≤ x.bits.toInt) ∧
      exec (.bltu o) s = goes (x.bits.toNat < y.bits.toNat) ∧
      exec (.bgeu o) s = goes (y.bits.toNat ≤ x.bits.toNat)) ∧
    (∀ (o : CallF) (s : State), s.guardBit o.g = true →
      let t := s.memberPc + o.off.signExtend 64 * 4
      s.endsAt t = false → s.checkTarget t = .ok .good →
      exec (.call o) s =
        .next (((s.wS o.d.toNat ⟨seqNext s.memberPc, false⟩).traceControl s.cur.core s.cur.slot (some (2, t))).modCur fun th => { th with pc := t })) ∧
    (∀ (o : A1) (s : State), s.guardBit o.g = true →
      let t := (s.rS o.a.toNat).bits
      let record := fun type : Nat => s.traceControl s.cur.core s.cur.slot (some (type, t))
      ((s.rS o.a.toNat).poison = true → exec (.jmp o) s = s.trapsPoison o.a ∧ exec (.ret o) s = s.trapsPoison o.a) ∧
      ((s.rS o.a.toNat).poison = false → s.endsAt t = false → s.checkTarget t = .ok .good →
        exec (.jmp o) s = .next ((record 0).modCur fun th => { th with pc := t }) ∧
        exec (.ret o) s = .next ((record 1).modCur fun th => { th with pc := t }))) ∧
    (∀ (o : SS) (s : State), s.guardBit o.g = true →
      let t := (s.rS o.a.toNat).bits
      ((s.rS o.a.toNat).poison = true → exec (.callr o) s = s.trapsPoison o.a) ∧
      ((s.rS o.a.toNat).poison = false → s.endsAt t = false → s.checkTarget t = .ok .good → exec (.callr o) s =
        .next (((s.wS o.d.toNat ⟨seqNext s.memberPc, false⟩).traceControl s.cur.core s.cur.slot (some (2, t))).modCur fun th => { th with pc := t }))))

/-- R12, R14, R30 and R79 with Table 1.1: mfs reads each of the eight special registers, %trapptr in head mode only;
mts writes %task and %trapptr in head mode and dzt of %tsw in both; any other write is privileged, and a nonzero
reserved field of %tsw or %trapptr is refused, after the source's poison has trapped (log entry 8, DEDUCED). R82 to
R84: nop only goes on; swtrap traps with s[a]; lbpurge waits for the thread's stores, and then, at its release,
removes every buffered line that overlaps [s[a], s[a] + s[b]), or all of them, and the thread goes on. (swtrap and
lbpurge use the bits of a poisoned operand: log entry 33, DEDUCED.) R354 and R355: in head mode track and tkill give
the first failing status of Table 15.1 for the slot and the tag they name; status 0 acknowledges the trap or ends the
thread. A thread that track acknowledges is ready in the next cycle, with its cause in lastcause unless a stop held it
(R399). (Poisoned operands give their bits: log entry 33, DEDUCED.) -/
def Obligations.SystemForms : Prop :=
  ((∀ (o : MfsF) (s : State), s.guardBit o.g = true →
      let t := s.cth
      let put := fun w : W64 => s.gives o.d ⟨w, false⟩
      (o.x = 0 → exec (.mfs o) s = put (BitVec.ofNat 64 s.cur.core)) ∧
      (o.x = 1 → exec (.mfs o) s = put (BitVec.ofNat 64 s.cur.slot)) ∧
      (o.x = 2 → exec (.mfs o) s = put t.task) ∧
      (o.x = 3 → exec (.mfs o) s = put t.phase) ∧
      (o.x = 4 → exec (.mfs o) s = put (BitVec.ofNat 64 t.coffers.length)) ∧
      (o.x = 5 → exec (.mfs o) s = put (BitVec.ofNat 64
        (t.lastcause.toNat * 256 + (if t.dzt then 4 else 0) + if s.cur.slot = 0 then 1 else 0))) ∧
      (o.x = 6 → exec (.mfs o) s = put (BitVec.ofNat 64 (s.now (deviceOfCore s.cur.core)))) ∧
      (o.x = 7 → s.cur.slot = 0 → exec (.mfs o) s = put (BitVec.ofNat 64
        ((s.core s.cur.core).trapBase.toNat * 4096 + (s.core s.cur.core).trapWidx.toNat * 64))) ∧
      (o.x = 7 → s.cur.slot ≠ 0 → exec (.mfs o) s = s.traps 0x04 0x72300)) ∧
    (∀ (o : MtsF) (s : State), s.guardBit o.g = true →
      let v := s.rS o.a.toNat
      let may : Bool := o.x = 5 || (s.cur.slot = 0 && (o.x = 2 || o.x = 7))
      (may = false → exec (.mts o) s = s.traps 0x04 (BitVec.ofNat 64 (o.x.toNat * 65536 + 0x2301))) ∧
      (may = true → v.poison = true → exec (.mts o) s = s.trapsPoison o.a) ∧
      (may = true → v.poison = false →
        (o.x = 2 → exec (.mts o) s = .next (s.modCur fun t => { t with task := v.bits }).advance) ∧
        (o.x = 5 → v.bits &&& 0xFFFFFFFFFFFF00FA = 0 →
          exec (.mts o) s = .next (s.modCur fun t => { t with dzt := v.bits.getLsbD 2 }).advance) ∧
        (o.x = 5 → v.bits &&& 0xFFFFFFFFFFFF00FA ≠ 0 → exec (.mts o) s = s.traps 0x01 0x06) ∧
        (o.x = 7 → v.bits.toNat % 64 = 0 →
          exec (.mts o) s =
            .next (s.modCore s.cur.core fun c => { c with trapBase := v.bits.extractLsb' 12 52 }).advance) ∧
        (o.x = 7 → v.bits.toNat % 64 ≠ 0 → exec (.mts o) s = s.traps 0x01 0x06)))) ∧
  ((∀ (o : G0) (s : State), exec (.nop o) s = .next s.advance) ∧
    (∀ (o : CodeF) (s : State), s.guardBit o.g = true → exec (.swtrap o) s = s.traps 0x07 (s.rS o.a.toNat).bits) ∧
    (∀ (o : PurgeF) (s : State), s.guardBit o.g = true →
      exec (.lbpurge o) s = .next (s.waitOn .waitingMemory
        (.release (.purge (s.rS o.a.toNat).bits (s.rS o.b.toNat).bits o.all)))) ∧
    (∀ (core slot at0 : Nat) (m : Bool) (lo len : W64) (all : Bool) (s : State),
      (s.thread core slot).findWait isRelease = some ⟨m, at0, .release (.purge lo len all)⟩ →
      s.drained core slot (s.thread core slot).uid = true →
      exec (.releaseDrained core slot) s = .next ((s.purge core lo len all).endWait core slot isRelease id)) ∧
    (∀ (s : State) (core : Nat) (lo len : W64) (all : Bool),
      (∀ e ∈ (s.core core).away, ∀ w ∈ (s.thread core (e.1 + 32)).waits, isFetch w.op = false) →
      ((s.purge core lo len all).core core).lines = (s.core core).lines.filter fun l =>
        !all && (len = 0 || !(decide ((l.va - lo).toNat < len.toNat) || decide ((lo - l.va).toNat < 64))))) ∧
  ((∀ (o : SSS) (s : State), s.cur.slot = 0 → s.guardBit o.g = true →
      let core := s.cur.core
      let slot := (s.rS o.a.toNat).bits.toNat
      let task := (s.rS o.b.toNat).bits
      let st : W64 :=
        if slot = 0 ∨ 15 < slot then 1
        else if (s.thread core slot).state ≠ .trapped then 2
        else if (s.thread core slot).task ≠ task then 3
        else 0
      exec (.track o) s = .next ((if st = 0 then s.trackSlot core slot else s).wS o.d.toNat ⟨st, false⟩).advance ∧
      exec (.tkill o) s = .next ((if st = 0 then s.killSlot core slot else s).wS o.d.toNat ⟨st, false⟩).advance) ∧
    (∀ (s : State) (core slot : Nat), slot < 16 →
      let t := s.thread core slot
      let u := (s.trackSlot core slot).thread core slot
      u.state = .ready ∧ u.readyAt = s.cycle + 1 ∧
        u.lastcause = (if t.stopHeld then t.lastcause else t.trapCause) ∧ u.regs = t.regs ∧ u.task = t.task))

/-- R364 and R366: cfopen with fewer than four levels open checks the handler's address as a branch target and opens a
level that holds it and s2 (a poisoned address is consumed: log entry 32, DEDUCED); a fifth level is refused with
reason 0x0C. cfclose with none open is refused with reason 0x0D; an inner level folds its count and its deferred flag
into the level around it; the outermost closes, after its deferred seals when it has any. R368: with a coffer open,
consumed poison, a shore violation, an uncorrectable error or an engine fault of one of them unwinds the innermost
level: s4 to s7 and s2 as the rule gives them, every other scalar register and every vector register as it was, the pc
at the handler, no record. R370: shset takes a control of bits 6:0 whose act is not 3, with a listed type and bounds
that are values of that type and do not cross, and refuses any other operand value; shrd reads the bounds or the
control back. R371 to R374, the check of a stored access: bytes whose register is off pass. Of one element, a poisoned
one passes unchecked; one covered in part violates; one covered whole violates when it lies below lo, above hi or is a
NaN, compared as exact values. A violation under flag is written and sets the flag; under clamp, where the element is
whole, the bound is written and the flag set; else the write traps with the element's address. The elements of a write
are taken in order, and the first that traps ends it (shset accepts no type narrower than a byte). -/
def Obligations.CoffersAndShores : Prop :=
  ((∀ (o : A1) (s : State), s.guardBit o.g = true →
      let h := s.rS o.a.toNat
      (4 ≤ s.cth.coffers.length → exec (.cfopen o) s = s.traps 0x01 0x0C) ∧
      (s.cth.coffers.length < 4 → h.poison = true → exec (.cfopen o) s = s.trapsPoison o.a) ∧
      (s.cth.coffers.length < 4 → h.poison = false →
        (s.checkTarget h.bits = .ok .bad → exec (.cfopen o) s = s.traps 0x03 h.bits) ∧
        (s.checkTarget h.bits = .ok .good → exec (.cfopen o) s =
          .next (s.modCur fun t => { t with coffers := t.coffers ++ [⟨h.bits, s.rS 2, 0, false⟩] }).advance))) ∧
    (∀ (o : G0) (s : State), s.guardBit o.g = true →
      (s.cth.coffers = [] → exec (.cfclose o) s = s.traps 0x01 0x0D) ∧
      (∀ x, s.cth.coffers = [x] →
        exec (.cfclose o) s = .next (if x.deferred then s.waitOn .waitingMemory (.release .cfclose)
          else (s.modCur fun t => { t with coffers := [] }).advance)) ∧
      (∀ l x y, s.cth.coffers = l ++ [x, y] →
        exec (.cfclose o) s = .next ((s.refileVersions s.cth.uid (l.length + 2)).modCur fun t =>
          { t with coffers := foldCoffer t.coffers }).advance)) ∧
    (∀ l x y, foldCoffer (l ++ [x, y]) =
      l ++ [{ x with count := BitVec.ofNat 32 (min 0xFFFFFFFF (x.count.toNat + y.count.toNat)),
                     deferred := x.deferred || y.deferred }])) ∧
  (∀ (s : State) (core slot cause : Nat) (info : W64) (l : Latch) (outer : List Coffer) (c : Coffer), slot < 16 →
      (s.thread core slot).state = .ready → (s.thread core slot).coffers = outer ++ [c] →
      cause = 0x08 ∨ cause = 0x09 ∨ cause = 0x0A ∨ (cause = 0x21 ∧ (info.toNat % 256 = 0x08 ∨ info.toNat % 256 = 0x09 ∨ info.toNat % 256 = 0x0A)) →
      let old := s.thread core slot
      let t := s.takeTrap core slot cause info l
      let new := t.thread core slot
      new.state = .ready ∧ new.readyAt = s.cycle + 1 ∧ new.pc = c.handler ∧ new.coffers = outer ∧ new.resv = [] ∧
      (∀ n, new.regs.getS n = if n = 2 then c.savedS2 else if n = 4 then ⟨BitVec.ofNat 64 cause, false⟩
        else if n = 5 then ⟨info, false⟩ else if n = 6 then ⟨c.count.setWidth 64, false⟩ else if n = 7 then ⟨l.pc, false⟩
        else old.regs.getS n) ∧
      (∀ n, new.regs.getV n = old.regs.getV n ∧ new.regs.getP n = old.regs.getP n) ∧
      t.mem = s.mem ∧ (t.core core).trapWidx = (s.core core).trapWidx) ∧
  ((∀ (o : ShsetF) (s : State), s.guardBit o.g = true →
      let a := s.rS o.a.toNat
      let b := s.rS o.b.toNat
      a.poison = false → b.poison = false →
      (shoreOk a.bits b.bits = false → exec (.shset o) s = s.traps 0x01 0x0A) ∧
      let h : Shore := ⟨a.bits.setWidth 32, a.bits.extractLsb' 32 32, b.bits.setWidth 8⟩
      (shoreOk a.bits b.bits = true → exec (.shset o) s =
        .next (s.modCur fun t => { t with shores := SMap.set t.shores o.d.toNat h }).advance)) ∧
    (∀ (o : ShrdF) (s : State), s.guardBit o.g = true →
      let h := s.cth.shore o.a.toNat
      exec (.shrd o) s = s.gives o.d ⟨if o.ctl then h.ctl.setWidth 64 else h.hi ++ h.lo, false⟩) ∧
    (∀ a b : W64,
      let c := b.toNat
      let ty := c % 16
      let lo : BitVec 32 := a.setWidth 32
      let hi : BitVec 32 := a.extractLsb' 32 32
      let val := fun x : BitVec 32 => Fmt.f32.decode x.toNat
      (128 ≤ c ∨ c / 16 % 4 = 3 ∨ ty ∉ [0, 1, 2, 3, 8, 9, 10] → shoreOk a b = false) ∧
      (c < 128 → c / 16 % 4 ≠ 3 →
        (∀ w : Nat, (ty, w) ∈ [(0, 8), (2, 16), (3, 32)] → shoreOk a b =
          decide (-(2 ^ (w - 1) : Int) ≤ lo.toInt ∧ lo.toInt ≤ hi.toInt ∧ hi.toInt < 2 ^ (w - 1))) ∧
        (ty = 1 → shoreOk a b = decide (lo.toNat ≤ hi.toNat ∧ hi.toNat < 256)) ∧
        (ty = 10 → shoreOk a b = (!(val lo).isNan && !(val hi).isNan && !(val hi).lt (val lo))) ∧
        (ty = 8 ∨ ty = 9 →
          let f := if ty = 8 then Fmt.f16 else Fmt.bf16
          ((val lo).isNan = true ∨ (val hi).isNan = true ∨ (val hi).lt (val lo) = true → shoreOk a b = false) ∧
          (∀ x ∈ [lo, hi], (∀ y < 2 ^ 16, Fmt.f32.rne (f.decode y) ≠ x.toNat) → shoreOk a b = false))))) ∧
  ((∀ (s : State) (ls : List (List VByte)),
      (∀ l ∈ ls, ∀ b ∈ l, (s.cth.shore (b.va / 2 ^ 61 % 8)).en = false) →
      s.shoreCheck ls = .ok (ls, s.modCur fun t => t)) ∧
    (∀ (s : State) (l : List VByte) (tag u n : Nat),
      let h := s.cth.shore tag
      let data := l.map VByte.data
      h.en = true → n = h.ty.bits / 8 → 0 < n → l ≠ [] → (∀ b ∈ l, b.va / 2 ^ 61 % 8 = tag ∧ b.va / n * n = u) →
      let flags := fun bytes : List VByte => Except.ok (ε := Bad) ([bytes], s.modCur fun t => t.flagShores [tag])
      let trap := Except.error (α := List (List VByte) × State) (Bad.trap 0x09 (BitVec.ofNat 64 u))
      (poisoned data = true → s.shoreCheck [l] = .ok ([l], s.modCur fun t => t)) ∧
      (poisoned data = false → l.length < n → s.shoreCheck [l] = if h.act = 0 then flags l else trap) ∧
      (poisoned data = false → l.length = n →
        let v := shoreViolates h (numberOf data)
        (v = (false, false, false) → s.shoreCheck [l] = .ok ([l], s.modCur fun t => t)) ∧
        (v ≠ (false, false, false) →
          (h.act = 0 → s.shoreCheck [l] = flags l) ∧
          (h.act = 1 → ∃ bytes, s.shoreCheck [l] = flags bytes ∧ bytes.map VByte.va = l.map VByte.va ∧
            bytes.map VByte.data =
              (bytesOf n (boundBits h (if v.2.1 then h.hi else h.lo))).map fun b => (b, false)) ∧
          (2 ≤ h.act → s.shoreCheck [l] = trap)))) ∧
    (∀ (h : Shore) (x : Nat),
      (h.ty.isFloat = true → shoreViolates h x =
        let v := (fmtOf h.ty).decode x
        (v.lt (Fmt.f32.decode h.lo.toNat), (Fmt.f32.decode h.hi.toNat).lt v, v.isNan)) ∧
      (h.ty.isFloat = false → h.ty ≠ .u8 → shoreViolates h x =
        (decide (signedOf h.ty.bits x < h.lo.toInt), decide (h.hi.toInt < signedOf h.ty.bits x), false)) ∧
      (h.ty = .u8 → shoreViolates h x = (decide (x < h.lo.toNat), decide (h.hi.toNat < x), false))) ∧
    (∀ (hs : Nat → Shore) (b : VByte) (mine rest : List VByte) (n : Nat), (∀ k < 8, 8 ≤ (hs k).ty.bits) →
      let tag := b.va / 2 ^ 61 % 8
      let joined := fun (l : List VByte) => match shoreAccess hs l, shoreAccess hs rest with
        | .ok (a, f), .ok (c, g) => Except.ok (a ++ c, f ++ g)
        | .error e, _ => .error e
        | _, .error e => .error e
      ((hs tag).en = false → shoreAccess hs (b :: rest) = joined [b]) ∧
      ((hs tag).en = true → n = (hs tag).ty.bits / 8 → 0 < n → (∀ x ∈ mine, x.va < b.va / n * n + n) →
        (∀ x, rest.head? = some x → b.va / n * n + n ≤ x.va) →
        shoreAccess hs ((b :: mine) ++ rest) = joined (b :: mine))) ∧
    (∀ (hs : Nat → Shore) (l : List VByte) (r : List (List VByte)),
      shoreAll hs (l :: r) = match shoreAccess hs l, shoreAll hs r with
        | .ok (a, f), .ok (c, g) => .ok (a :: c, f ++ g)
        | .error e, _ => .error e
        | _, .error e => .error e) ∧
    (∀ (t : Thread) (tag k : Nat), (t.flagShores [tag]).shore k =
      if k = tag then { t.shore tag with ctl := (t.shore tag).ctl ||| 0x80 } else t.shore k))

/-- R16, R22, R39 and R94: an instruction that waits takes its thread out of rotation with pc at its unit and the unit
in the latch. When the last member of the unit that waits completes, its results are written, those of a member that
completed before it take effect, and the thread is ready in the next cycle at the address that follows the unit; while
the other member waits, the registers stay as they are and the results of the one that completes are held. R22, R94
and R25: a form that waits takes its thread out of rotation in the waiting state with the unit in its latch, and keeps
every register, every byte of memory, and every other thread, of a thread that is not traced. -/
def Obligations.WaitingAndReply : Prop :=
  ((∀ (s : State) (st : SlotState) (w : Wait), s.cur.slot < 16 → s.cth.waits = [] → st ≠ .ready →
      let t := s.cth
      (s.waitOn st w).cth = { t with state := st, waits := [⟨s.unit.member, s.cycle, w⟩], pc := s.unit.pc,
                                     nextPc := s.nextOf, latch := some s.curLatch }) ∧
    (∀ (s : State) (core slot : Nat) (p : Wait → Bool) (f : Thread → Thread) (w : Waiting), slot < 16 →
      (s.thread core slot).waits = [w] → p w.op = true →
      let u := f { s.thread core slot with waits := [] }
      u.waits = [] → u.state ≠ .swapped →
      (s.endWait core slot p f).thread core slot =
        { u with pc := u.nextPc, latch := if u.reissue then u.latch else none, regs := u.regs.over u.held,
                 held := RegFile.reset, state := .ready, readyAt := s.cycle + 1 }) ∧
    (∀ (s : State) (core slot : Nat) (p : Wait → Bool) (f : Thread → Thread) (w x : Waiting), slot < 16 →
      (s.thread core slot).waits = [w, x] → p w.op = true →
      let u := f { s.thread core slot with waits := [x] }
      u.waits ≠ [] →
      (s.endWait core slot p f).thread core slot = u.holdSince (s.thread core slot).regs ∧
        ((s.endWait core slot p f).thread core slot).regs = (s.thread core slot).regs ∧
        ((s.endWait core slot p f).thread core slot).waits = u.waits)) ∧
  (∀ (s : State) (st : SlotState) (w : Wait), s.cur.slot < 16 → s.tracing s.cur.core s.cth.task = false → s.cth.waits = [] →
      st = .waitingMemory ∨ st = .waitingMessage →
      let t := s.waitOn st w
      let old := s.thread s.cur.core s.cur.slot
      let new := t.thread s.cur.core s.cur.slot
      OnlyThread s t s.cur.core s.cur.slot ∧ new.state = st ∧ new.pc = s.unit.pc ∧ new.nextPc = s.nextOf ∧
      new.waits = [⟨s.unit.member, s.cycle, w⟩] ∧ new.latch = some s.curLatch ∧ new.regs = old.regs ∧
      new.task = old.task ∧ new.coffers = old.coffers ∧ new.resv = old.resv ∧ new.phase = old.phase)

/-- R44, R86, R229 and R235: va = s[a] + s[b] × size + sext(off, 44). Poison in an operand, a misaligned address, a
failed translation and a row under repair trap, in this order (of the operands, and of poison before alignment: log
entry 8, DEDUCED); else the thread waits for the bytes. R26, R44, R86, R231 and R359: a store is posted with the low
bytes of s[c], least significant byte first, each with the mark of s[c]; nothing of memory changes yet, and the
innermost coffer counts it. (Poison of a before that of b, and before the alignment: log entry 8, DEDUCED.) R86, R197,
R199 and R359: a load whose home is free and whose thread has no earlier store on its way to it reads its bytes at one
instant, and before that nothing happens; its value is extended to 64 bits and marked when a word read was. -/
def Obligations.ScalarMemoryForms : Prop :=
  (∀ (o : LdF) (s : State), s.guardBit o.g = true →
      let n := o.size.bytes
      let x := s.rS o.a.toNat
      let y := s.rS o.b.toNat
      let va := x.bits + y.bits * BitVec.ofNat 64 n + o.off.signExtend 64
      let both := fun f : Bool → Host.Outcome State Fault Refusal =>
        exec (.ld o) s = f true ∧ exec (.ldu o) s = f false
      (x.poison = true → both fun _ => s.trapsPoison o.a) ∧
      (x.poison = false → y.poison = true → both fun _ => s.trapsPoison o.b) ∧
      (x.poison = false → y.poison = false →
        (va.toNat % n ≠ 0 → both fun _ => s.traps 0x05 va) ∧
        (va.toNat % n = 0 →
          (∀ b, s.access .load va n = .error b → both fun _ => .next (s.raise b)) ∧
          (∀ p, s.access .load va n = .ok p → s.dataStop [(va.toNat, n)] true false = .ok () →
            (s.rowRepairing p.place = true → both fun _ => s.traps 0x15 (BitVec.ofNat 64 (p.place / 2048 * 2048))) ∧
            (s.rowRepairing p.place = false → both fun signed =>
              .next (s.waitOn .waitingMemory (.load (.scalar o.d.toNat n signed p.place) p.entry o.hint))))))) ∧
  (∀ (o : StF) (s : State), s.guardBit o.g = true →
      let n := o.size.bytes
      let x := s.rS o.a.toNat
      let y := s.rS o.b.toNat
      let v := s.rS o.c.toNat
      let va := x.bits + y.bits * BitVec.ofNat 64 n + o.off.signExtend 64
      (x.poison = true → exec (.st o) s = s.trapsPoison o.a) ∧
      (x.poison = false → y.poison = true → exec (.st o) s = s.trapsPoison o.b) ∧
      (x.poison = false → y.poison = false →
        (va.toNat % n ≠ 0 → exec (.st o) s = s.traps 0x05 va) ∧
        (va.toNat % n = 0 →
          (∀ b, s.access .store va n = .error b → exec (.st o) s = .next (s.raise b)) ∧
          (∀ p, s.access .store va n = .ok p → s.dataStop [(va.toNat, n)] false true = .ok () →
            ∃ ws, exec (.st o) s = .next ((s.post p.entry o.hint ws).modCur Thread.bump).advance ∧
              ws.length = n ∧ (∀ k < n, ws[k]? = some ⟨p.place + k, v.bits.extractLsb' (8 * k) 8, 0xFF, v.poison⟩) ∧
              (∀ a, (s.post p.entry o.hint ws).byte a = s.byte a))))) ∧
  ((∀ (core slot at0 d n place e : Nat) (m signed : Bool) (hint : Hint) (s : State),
      let op := LoadOp.scalar d n signed place
      (s.thread core slot).findWait isReplyWait = some ⟨m, at0, .load op e hint⟩ →
      (s.spanBusy place n = false → s.homesClear core slot (s.thread core slot).uid place n = true →
        let r := s.readPlace place n
        let v := numberOf r.2
        exec (.loadReply core slot) s =
          .next (((r.1.touchSpan place n hint).gaugeLoad core slot op (s.cycle - at0)).endWait core slot isLoad fun t =>
            t.setS d ⟨if signed then BitVec.ofInt 64 (signedOf (8 * n) v) else BitVec.ofNat 64 v, r.2.any Prod.snd⟩)) ∧
      (s.spanBusy place n = true ∨ s.homesClear core slot (s.thread core slot).uid place n = false →
        exec (.loadReply core slot) s = .next s)) ∧
    (∀ (s : State) (place n : Nat), spaceOfPlace place < 2 → s.ecc = [] → s.soft = [] →
      s.readPlace place n = (s, (List.range n).map fun k => (s.byte (place + k), s.marked (place + k)))))

/-- R26, R91, R197, R199 and R359: a posted store that no earlier store of its thread stands before, and whose banks
can take it, is performed: each byte takes the bits of its mask and keeps the rest, every byte outside the store reads
as before, and the store is no longer on its way. -/
def Obligations.StorePerformed : Prop :=
  (∀ (n : Nat) (s : State) (p : Posted), s.posted[n]? = some p → s.canLand p = true →
    exec (.storePerformed n) s = .next ({ s with posted := s.posted.filter fun q => q.seq ≠ p.seq }.land p)) ∧
  (∀ (n : Nat) (s t : State) (p : Posted), s.posted[n]? = some p → s.canLand p = true → p.kind = .plain →
    (∀ w ∈ p.bytes, spaceOfPlace w.addr < 2) → (p.bytes.map PWrite.addr).Nodup → s.memWf →
    exec (.storePerformed n) s = .next t →
    (∀ w ∈ p.bytes, t.byte w.addr = (s.byte w.addr &&& ~~~w.mask) ||| (w.data &&& w.mask)) ∧
    (∀ a, (∀ w ∈ p.bytes, w.addr ≠ a) → t.byte a = s.byte a) ∧
    (∀ q ∈ t.posted, q ∈ s.posted ∧ q.seq ≠ p.seq))

/-- R88: a bit address register takes the low 40 bits of a scalar, gives its value zero-extended, and adds modulo
2^40. R90 and R91: a field of w bits at bit address x of the tile's own scratchpad is (x + w - 1)/8 - x/8 + 1 bytes at
place x/8; a range beyond the scratchpad's 4 MiB, and one that no entry of the thread's covers, trap as no reach, and
one that no covering entry grants traps as a failed permission, with the place; an entry with z set covers none (log
entry 131, DESIGN CHOICE), and no data breakpoint stops the forms (log entry 17, DEDUCED). With inc the bit address
register advances by w, with a store at its issue and with a load when it completes, until when its registers stay
(R7). A store is one posted write of w bits; a load gives bits x mod 8 up of what it read. -/
def Obligations.BitGranularAccess : Prop :=
  ((∀ (o : BsetF) (s : State), s.guardBit o.g = true →
      exec (.bset o) s = if (s.rS o.a.toNat).poison then s.trapsPoison o.a
        else .next (s.wB o.d.toNat ((s.rS o.a.toNat).bits.setWidth 40)).advance) ∧
    (∀ (o : BgetF) (s : State), s.guardBit o.g = true →
      exec (.bget o) s = s.gives o.d ⟨(s.rB o.a.toNat).setWidth 64, false⟩) ∧
    (∀ (o : BaddF) (s : State), s.guardBit o.g = true →
      exec (.badd o) s = if (s.rS o.b.toNat).poison then s.trapsPoison o.b
        else .next (s.wB o.d.toNat (s.rB o.a.toNat + (s.rS o.b.toNat).bits.setWidth 40 + o.imm)).advance)) ∧
  ((∀ (o : LdbfF) (s : State) (e : Nat), s.guardBit o.g = true →
      let w := o.w.toNat
      let x := s.rB o.a.toNat
      let p := spaceBase s.curTile 1 + x.toNat / 8
      let n := (x.toNat + w - 1) / 8 - x.toNat / 8 + 1
      let s' := if o.inc then s.wB o.a.toNat (x + BitVec.ofNat 40 w) else s
      s.bitAccess p n .load = .ok e →
      let waits := fun signed : Bool => s'.waitHolding s.cth.regs .waitingMemory
        (.load (.bits o.d.toNat w signed p (x.toNat % 8) n []) e .dflt)
      exec (.ldbf o) s = .next (waits false) ∧ exec (.ldbfs o) s = .next (waits true)) ∧
    (∀ (s : State) (old : RegFile) (st : SlotState) (w : Wait), s.cur.slot < 16 →
      let t := (s.waitOn st w).cth
      (s.waitHolding old st w).cth = { t with regs := old, held := t.held.over (RegFile.since old t.regs) }) ∧
    (∀ (o : LdbfF) (s : State) (b : Bad), s.guardBit o.g = true →
      let w := o.w.toNat
      let x := s.rB o.a.toNat
      s.bitAccess (spaceBase s.curTile 1 + x.toNat / 8) ((x.toNat + w - 1) / 8 - x.toNat / 8 + 1) .load = .error b →
      exec (.ldbf o) s = .next (s.raise b) ∧ exec (.ldbfs o) s = .next (s.raise b)) ∧
    (∀ (o : StbfF) (s : State) (b : Bad), s.guardBit o.g = true →
      let w := o.w.toNat
      let x := s.rB o.a.toNat
      s.bitAccess (spaceBase s.curTile 1 + x.toNat / 8) ((x.toNat + w - 1) / 8 - x.toNat / 8 + 1) .store = .error b →
      exec (.stbf o) s = .next (s.raise b)) ∧
    (∀ (o : StbfF) (s : State) (e : Nat), s.guardBit o.g = true →
      let w := o.w.toNat
      let x := s.rB o.a.toNat
      let v := s.rS o.b.toNat
      let p := spaceBase s.curTile 1 + x.toNat / 8
      let n := (x.toNat + w - 1) / 8 - x.toNat / 8 + 1
      s.bitAccess p n .store = .ok e →
      ∃ ws s', exec (.stbf o) s = .next (s'.modCur Thread.bump).advance ∧
        s' = (if o.inc then (s.post e .dflt ws).wB o.a.toNat (x + BitVec.ofNat 40 w) else s.post e .dflt ws) ∧
        ws.length = n ∧ ∀ k < n, ∃ b : PWrite, ws[k]? = some b ∧ b.addr = p + k ∧ b.poison = v.poison ∧
          ∀ j < 8, let bit := 8 * k + j
            b.mask.getLsbD j = decide (x.toNat % 8 ≤ bit ∧ bit < x.toNat % 8 + w) ∧
            (b.mask.getLsbD j = true → b.data.getLsbD j = v.bits.getLsbD (bit - x.toNat % 8))) ∧
    (∀ (s : State) (p n : Nat) (need : Need), 2 ^ 22 < p % 2 ^ 40 + n →
      s.bitAccess p n need = .error (.trap 0x10 (BitVec.ofNat 64 (2 ^ 63 + p)))) ∧
    (∀ (s : State) (p n : Nat) (need : Need), p % 2 ^ 40 + n ≤ 2 ^ 22 →
      let covers : Nat → Prop := fun i =>
        let e := s.reach s.cur.core i
        i < 32 ∧ e.valid = true ∧ e.matchesTag s.cth.task = true ∧ e.z = false ∧ e.place ≤ p ∧
          p + n ≤ e.place + (e.limit - e.base)
      let may : Nat → Prop := fun i => covers i ∧ (s.reach s.cur.core i).grants need s.isHead = true
      ((∀ i, ¬covers i) → s.bitAccess p n need = .error (.trap 0x10 (BitVec.ofNat 64 (2 ^ 63 + p)))) ∧
      ((∃ i, covers i) → (∀ i, ¬may i) → s.bitAccess p n need = .error (.trap 0x11 (BitVec.ofNat 64 (2 ^ 63 + p)))) ∧
      ((∃ i, may i) → ∃ i, may i ∧ s.bitAccess p n need = .ok i)) ∧
    (∀ (t : Thread) (d w place shift n : Nat) (signed : Bool) (l : SMap (List PByte)) (got : List PByte),
      t.deliver (.bits d w signed place shift n l) got =
        let f := numberOf got / 2 ^ shift % 2 ^ w
        t.setS d ⟨if signed then BitVec.ofInt 64 (signedOf w f) else BitVec.ofNat 64 f, got.any Prod.snd⟩))

/-- R124, R143, R144, R148, R359 and R41: each lane that is on takes the sum, difference, product, lesser, greater or
saturated sum of the operands' lanes, read as signed unless the form or the type says otherwise, or a bitwise function
or shift by the count modulo the width; the other lanes, and the marks of words that none of its lanes decides, stay.
-/
def Obligations.VectorIntegerResults : Prop :=
  ∀ (o : VVV) (s : State), o.ty.isInt = true →
    let w := o.ty.bits
    let x := s.rV o.a.toNat
    let y := s.rV o.b.toNat
    let sg : Bool := !(o.uns || o.ty = .u8)
    let int := fun n : Nat => if sg then signedOf w n else (n : Int)
    let takes := fun (v : VVal) (f : Nat → Nat → Nat) =>
      LanesTake w (s.cth.regs.getV o.d.toNat) v (s.laneOn o.g o.ty) fun k =>
        (f (laneOf x.bits w k) (laneOf y.bits w k), x.lanePoison w k || y.lanePoison w k)
    (∃ v, exec (.vadd o) s = s.givesV o.d v ∧ takes v fun a b => (a + b) % 2 ^ w) ∧
    (∃ v, exec (.vsub o) s = s.givesV o.d v ∧ takes v fun a b => (a + (2 ^ w - b)) % 2 ^ w) ∧
    (∃ v, exec (.vmul o) s = s.givesV o.d v ∧ takes v fun a b => a * b % 2 ^ w) ∧
    (∃ v, exec (.vmin o) s = s.givesV o.d v ∧ takes v fun a b => if int b < int a then b else a) ∧
    (∃ v, exec (.vmax o) s = s.givesV o.d v ∧ takes v fun a b => if int a < int b then b else a) ∧
    (∃ v, exec (.vand o) s = s.givesV o.d v ∧ takes v fun a b => a &&& b) ∧
    (∃ v, exec (.vor o) s = s.givesV o.d v ∧ takes v fun a b => a ||| b) ∧
    (∃ v, exec (.vxor o) s = s.givesV o.d v ∧ takes v fun a b => a ^^^ b) ∧
    (∃ v, exec (.vsll o) s = s.givesV o.d v ∧ takes v fun a b => a <<< (b % w) % 2 ^ w) ∧
    (∃ v, exec (.vsrl o) s = s.givesV o.d v ∧ takes v fun a b => a >>> (b % w)) ∧
    (∃ v, exec (.vsra o) s = s.givesV o.d v ∧ takes v fun a b => (signedOf w a / 2 ^ (b % w) % 2 ^ w).toNat) ∧
    (∃ v, exec (.vadds o) s = s.givesV o.d v ∧ takes v fun a b =>
      (max (if sg then -(2 ^ (w - 1)) else 0) (min (if sg then 2 ^ (w - 1) - 1 else 2 ^ w - 1) (int a + int b))
        % 2 ^ w).toNat)

/-- R128, R129, R132, R145 and R148: floating lanes are the exact sum, difference, product or fused product-sum of the
values, rounded once to nearest even, and the lesser or greater value; an FP32 pair is a complex number for CF32,
whose parts a sum and a difference compute each by itself. vfabs and vfneg change the sign bit alone. R126 to R128 and
Table 5.3: a finite value is rounded once under its code, into the subnormal range where it falls there; an infinity
keeps its sign, but that .sat gives the largest finite value; and rounding a value that its format holds gives it
back, subnormals, infinities and signed zeros included; every NaN becomes the canonical one. -/
def Obligations.VectorFloatResults : Prop :=
  ((∀ (o : VVV) (s : State), o.ty ≠ .c32 →
      let w := o.ty.bits
      let f := fmtOf o.ty
      let x := s.rV o.a.toNat
      let y := s.rV o.b.toNat
      let takes := fun (v : VVal) (h : Nat → Nat → Nat) =>
        LanesTake w (s.cth.regs.getV o.d.toNat) v (s.laneOn o.g o.ty) fun k =>
          (h (laneOf x.bits w k) (laneOf y.bits w k), x.lanePoison w k || y.lanePoison w k)
      (∃ v, exec (.vfadd o) s = s.givesV o.d v ∧ takes v fun a b => f.rne (.sum [f.decode a, f.decode b])) ∧
      (∃ v, exec (.vfsub o) s = s.givesV o.d v ∧ takes v fun a b => f.rne (.sum [f.decode a, (f.decode b).negate])) ∧
      (∃ v, exec (.vfmul o) s = s.givesV o.d v ∧ takes v fun a b => f.rne ((f.decode a).mul (f.decode b))) ∧
      (∃ v, exec (.vfmin o) s = s.givesV o.d v ∧ takes v f.min) ∧
      (∃ v, exec (.vfmax o) s = s.givesV o.d v ∧ takes v f.max)) ∧
    (∀ (o : VVV) (s : State), o.ty = .c32 →
      let x := s.rV o.a.toNat
      let y := s.rV o.b.toNat
      let parts := fun (v : VVal) (h : Nat → Nat → Nat) =>
        LanesTake 32 (s.cth.regs.getV o.d.toNat) v (fun k => s.laneOn o.g .c32 (k / 2)) fun k =>
          (h (laneOf x.bits 32 k) (laneOf y.bits 32 k), x.lanePoison 32 k || y.lanePoison 32 k)
      (∃ v, exec (.vfadd o) s = s.givesV o.d v ∧ parts v Fmt.f32.add) ∧
      (∃ v, exec (.vfsub o) s = s.givesV o.d v ∧ parts v Fmt.f32.sub) ∧
      (∃ v, exec (.vfmul o) s = s.givesV o.d v ∧
        LanesTake 64 (s.cth.regs.getV o.d.toNat) v (s.laneOn o.g .c32) fun k =>
          let r := cmul32 (laneOf x.bits 32 (2 * k), laneOf x.bits 32 (2 * k + 1))
            (laneOf y.bits 32 (2 * k), laneOf y.bits 32 (2 * k + 1))
          (r.1 + 2 ^ 32 * r.2, x.lanePoison 64 k || y.lanePoison 64 k))) ∧
    (∀ (o : VVVV) (s : State),
      let w := o.ty.bits
      let f := fmtOf o.ty
      let x := s.rV o.a.toNat
      let y := s.rV o.b.toNat
      let z := s.rV o.c.toNat
      ∃ v, exec (.vfma o) s = s.givesV o.d v ∧
        LanesTake w (s.cth.regs.getV o.d.toNat) v (s.laneOn o.g o.ty) fun k =>
          (f.rne (.sum [(f.decode (laneOf x.bits w k)).mul (f.decode (laneOf y.bits w k)), f.decode (laneOf z.bits w k)]),
            x.lanePoison w k || y.lanePoison w k || z.lanePoison w k)) ∧
    (∀ (o : VV) (s : State), o.ty = .f16 ∨ o.ty = .bf16 ∨ o.ty = .f32 →
      let w := o.ty.bits
      let x := s.rV o.a.toNat
      let takes := fun (v : VVal) (h : Nat → Nat) =>
        LanesTake w (s.cth.regs.getV o.d.toNat) v (s.laneOn o.g o.ty) fun k => (h (laneOf x.bits w k), x.lanePoison w k)
      (∃ v, exec (.vfabs o) s = s.givesV o.d v ∧ takes v fun a => a % 2 ^ (w - 1)) ∧
      (∃ v, exec (.vfneg o) s = s.givesV o.d v ∧ takes v fun a => a ^^^ 2 ^ (w - 1)))) ∧
  ((∀ f ∈ [Fmt.f16, Fmt.bf16, Fmt.f32, Fmt.f64], ∀ (mode : Rnd),
      (∀ m e : Int, m ≠ 0 → ∃ mag, f.round mode (.fin m e) = f.signed (decide (m < 0)) mag ∧
        f.Rounded mode (decide (m < 0)) (m.natAbs * 2 ^ (e - f.minExp).toNat) (2 ^ (f.minExp - e).toNat) mag) ∧
      (∀ neg, f.round mode (.inf neg) = f.signed neg (if mode = .sat then f.infBits - 1 else f.infBits)) ∧
      (∀ neg, f.round mode (.zero neg) = f.signed neg 0)) ∧
    ∀ f ∈ [Fmt.f16, Fmt.bf16, Fmt.f32, Fmt.f64], ∀ x < 2 ^ f.bits,
      f.rne (f.decode x) =
        if x / 2 ^ f.sb % 2 ^ f.eb = 2 ^ f.eb - 1 ∧ x % 2 ^ f.sb ≠ 0 then
          (2 ^ f.eb - 1) * 2 ^ f.sb + 2 ^ (f.sb - 1)
        else x)

/-- R144, R150 and R360: a vector compare consumes the words of its on lanes, and traps on the lowest of them that is
poisoned, of a before b (log entry 8, DEDUCED); else bit k of the predicate says whether the condition holds in every
lane that it governs, keeps its value where such a lane is off, and is 0 where it governs none. R149, R151 and R359:
lanes moved within and between registers. An index counts modulo the lanes; vextr and vins act on one lane, if it is
on; a moved lane brings its mark, and so does an index or a scalar that decides it. -/
def Obligations.VectorCompareAndPermute : Prop :=
  (∀ (o : PVV) (s : State),
      let w := o.ty.bits
      let x := s.rV o.a.toNat
      let y := s.rV o.b.toNat
      let on := s.laneOn o.g o.ty
      let used := fun k => (List.range o.ty.lanes).any fun i => on i && (laneWords w i).contains k
      let int := fun n : Nat => if o.uns || o.ty = .u8 then (n : Int) else signedOf w n
      let val := (fmtOf o.ty).decode
      let bits := fun (p : W64) (c : Nat → Nat → Bool) => ∀ k < 64, p.getLsbD k =
        let mine := (List.range o.ty.lanes).filter fun i => gbit o.ty i = k
        if mine = [] then false
        else if mine.all on then mine.all fun i => c (laneOf x.bits w i) (laneOf y.bits w i)
        else (s.cth.regs.getP o.d.toNat).getLsbD k
      (∀ i : Instr, i ∈ [.vcmpeq o, .vcmpne o, .vcmplt o, .vcmple o, .vfcmpeq o, .vfcmplt o, .vfcmple o, .vfcmpun o] →
        (∀ k < 32, used k = true → x.poison.getLsbD k = true → (∀ j < k, used j = true → x.poison.getLsbD j = false) →
          exec i s = s.traps 0x08 (poisonInfo o.a.toNat 1 k)) ∧
        ((∀ j < 32, used j = true → x.poison.getLsbD j = false) →
          ∀ k < 32, used k = true → y.poison.getLsbD k = true → (∀ j < k, used j = true → y.poison.getLsbD j = false) →
          exec i s = s.traps 0x08 (poisonInfo o.b.toNat 1 k))) ∧
      ((∀ j < 32, used j = true → x.poison.getLsbD j = false ∧ y.poison.getLsbD j = false) →
        (∃ p, exec (.vcmpeq o) s = s.givesP o.d p ∧ bits p fun a b => int a = int b) ∧
        (∃ p, exec (.vcmpne o) s = s.givesP o.d p ∧ bits p fun a b => int a ≠ int b) ∧
        (∃ p, exec (.vcmplt o) s = s.givesP o.d p ∧ bits p fun a b => int a < int b) ∧
        (∃ p, exec (.vcmple o) s = s.givesP o.d p ∧ bits p fun a b => int a ≤ int b) ∧
        (∃ p, exec (.vfcmpeq o) s = s.givesP o.d p ∧ bits p fun a b => (val a).eq (val b)) ∧
        (∃ p, exec (.vfcmplt o) s = s.givesP o.d p ∧ bits p fun a b => (val a).lt (val b)) ∧
        (∃ p, exec (.vfcmple o) s = s.givesP o.d p ∧ bits p fun a b => (val a).lt (val b) || (val a).eq (val b)) ∧
        (∃ p, exec (.vfcmpun o) s = s.givesP o.d p ∧ bits p fun a b => (val a).isNan || (val b).isNan))) ∧
  ((∀ (o : VVV) (s : State),
      let w := o.ty.bits
      let x := s.rV o.a.toNat
      let y := s.rV o.b.toNat
      ∃ v, exec (.vperm o) s = s.givesV o.d v ∧
        LanesTake w (s.cth.regs.getV o.d.toNat) v (s.laneOn o.g o.ty) fun i =>
          let j := laneOf y.bits w i % o.ty.lanes
          (laneOf x.bits w j, x.lanePoison w j || y.lanePoison w i)) ∧
    (∀ (o : VST) (s : State),
      ∃ v, exec (.vbcast o) s = s.givesV o.d v ∧
        LanesTake o.ty.bits (s.cth.regs.getV o.d.toNat) v (s.laneOn o.g o.ty) fun _ =>
          ((s.rS o.a.toNat).bits.toNat % 2 ^ o.ty.bits, (s.rS o.a.toNat).poison)) ∧
    (∀ (o : VVST) (s : State),
      let w := o.ty.bits
      let x := s.rV o.a.toNat
      let k := s.rS o.b.toNat
      ∃ v, exec (.vrot o) s = s.givesV o.d v ∧
        LanesTake w (s.cth.regs.getV o.d.toNat) v (s.laneOn o.g o.ty) fun i =>
          let j := (i + k.bits.toNat) % o.ty.lanes
          (laneOf x.bits w j, x.lanePoison w j || k.poison)) ∧
    (∀ (o : VVVP) (s : State),
      let w := o.ty.bits
      let pick := fun i => if (s.rP o.c.toNat).getLsbD (gbit o.ty i) then s.rV o.a.toNat else s.rV o.b.toNat
      ∃ v, exec (.vsel o) s = s.givesV o.d v ∧
        LanesTake w (s.cth.regs.getV o.d.toNat) v (s.laneOn o.g o.ty) fun i =>
          (laneOf (pick i).bits w i, (pick i).lanePoison w i)) ∧
    (∀ (o : SVST) (s : State),
      let w := o.ty.bits
      let x := s.rV o.a.toNat
      let k := s.rS o.b.toNat
      let j := k.bits.toNat % o.ty.lanes
      let e := laneOf x.bits w j
      let r := if o.ty.isInt ∧ o.ty ≠ .u8 then BitVec.ofInt 64 (signedOf w e) else BitVec.ofNat 64 e
      exec (.vextr o) s = if s.laneOn o.g o.ty j then s.gives o.d ⟨r, x.lanePoison w j || k.poison⟩ else .next s.advance) ∧
    (∀ (o : VSST) (s : State),
      let x := s.rS o.a.toNat
      let k := s.rS o.b.toNat
      let j := k.bits.toNat % o.ty.lanes
      ∃ v, exec (.vins o) s = s.givesV o.d v ∧
        LanesTake o.ty.bits (s.cth.regs.getV o.d.toNat) v (fun i => decide (i = j) && s.laneOn o.g o.ty j) fun _ =>
          (x.bits.toNat % 2 ^ o.ty.bits, x.poison || k.poison)) ∧
    (∀ (o : VI) (s : State),
      ∃ v, exec (.vmovi o) s = s.givesV o.d v ∧
        LanesTake 64 (s.cth.regs.getV o.d.toNat) v (s.laneOn o.g .i64) fun _ => (o.imm.toNat, false)))

/-- R130, R131 and R152: with FP64 on neither side, lanes convert one by one; a narrowing writes the part of the
destination that it names, a widening reads the part of the source. With FP64 on a side, vcvt converts a scalar
register. A floating value goes to another format with one rounding under the code; on its way to an integer it is
rounded to an integer under the code, .sat as .rn, and saturates in every code, and a NaN gives 0. An integer is
rounded once under the code on its way to a floating format; to another integer type it keeps its low bits, or with
.sat is clamped. R138 to R140 and R153: a reduction adds, or takes the least or the greatest of, the lanes that are
on, from the value that changes nothing; an integer sum is exact and wraps at 64 bits; a floating sum is the tree over
all lanes with -0 in those that are off; vfdot adds the trees of blocks of 32 products to the accumulator. The result
is marked when a lane that is on, or the accumulator, is. -/
def Obligations.ConversionsAndReductions : Prop :=
  ((∀ (o : CvtF) (s : State), o.dst ≠ .f64 → o.src ≠ .f64 →
      let ns := o.src.lanes
      let nd := o.dst.lanes
      let x := s.rV o.a.toNat
      let p := o.part.toNat
      let elem := fun i => (cvtElem o.dst o.src o.rnd (laneOf x.bits o.src.bits i), x.lanePoison o.src.bits i)
      ∃ v, exec (.vcvt o) s = .next (s.wV o.d.toNat v).advance ∧
        LanesTake o.dst.bits (s.cth.regs.getV o.d.toNat) v
          (fun j => s.laneOn o.g o.dst j && (nd ≤ ns || (p * ns ≤ j && j < p * ns + ns)))
          (fun j => if ns < nd then elem (j - p * ns) else elem (p * nd + j))) ∧
    (∀ (o : CvtF) (s : State), s.guardBit o.g = true → o.dst = .f64 ∨ o.src = .f64 →
      let x := s.rS o.a.toNat
      let r := cvtElem o.dst o.src o.rnd (x.bits.toNat % 2 ^ o.src.bits)
      exec (.vcvt o) s = s.gives o.d
        ⟨if o.dst.isInt ∧ o.dst ≠ .u8 then BitVec.ofInt 64 (signedOf o.dst.bits r) else BitVec.ofNat 64 r, x.poison⟩) ∧
    (∀ (dst src : ElemTy) (rnd : Rnd) (x : Nat),
      (src.isInt = false → dst.isInt = false → cvtElem dst src rnd x = (fmtOf dst).round rnd ((fmtOf src).decode x)) ∧
      let w := dst.bits
      let lo : Int := if dst = .u8 then 0 else -(2 ^ (w - 1))
      let hi : Int := if dst = .u8 then 2 ^ w - 1 else 2 ^ (w - 1) - 1
      let put := fun k : Int => (max lo (min hi k) % 2 ^ w).toNat
      let int := if src = .u8 then ((x % 2 ^ src.bits : Nat) : Int) else signedOf src.bits x
      (src.isInt = false → dst.isInt = true →
        (∀ neg, (fmtOf src).decode x = .inf neg → cvtElem dst src rnd x = put (if neg then lo else hi)) ∧
        ((fmtOf src).decode x = .nan ∨ (∃ neg, (fmtOf src).decode x = .zero neg) → cvtElem dst src rnd x = 0) ∧
        (∀ m e, (fmtOf src).decode x = .fin m e → ∃ k : Int, cvtElem dst src rnd x = put k ∧
          let n := m * 2 ^ e.toNat
          let d : Int := 2 ^ (-e).toNat
          (rnd = .rz → k = if 0 ≤ m then n / d else -(-n / d)) ∧ (rnd = .ru → k = -(-n / d)) ∧ (rnd = .rd → k = n / d) ∧
          (rnd = .rn ∨ rnd = .sat → 2 * (n - k * d) ≤ d ∧ 2 * (k * d - n) ≤ d ∧
            (2 * (n - k * d) = d ∨ 2 * (k * d - n) = d → k % 2 = 0)))) ∧
      (src.isInt = true → dst.isInt = false →
        cvtElem dst src rnd x = if int = 0 then 0 else (fmtOf dst).round rnd (.fin int 0)) ∧
      (src.isInt = true → dst.isInt = true →
        cvtElem dst src rnd x = if rnd = .sat then put int else (int % 2 ^ w).toNat))) ∧
  ((∀ (o : SVT) (s : State),
      let w := o.ty.bits
      let x := s.rV o.a.toNat
      let on := s.lanesOn o.g o.ty
      let f := fmtOf o.ty
      let sg : Bool := !(o.uns || o.ty = .u8)
      let int := fun i => laneInt o.ty o.uns (laneOf x.bits w i)
      let put := fun r : W64 => s.gives o.d ⟨r, on.any (x.lanePoison w)⟩
      exec (.vredadd o) s = put (BitVec.ofInt 64 (on.map int).sum) ∧
      (o.ty.isInt = true →
        (∃ r : Int, exec (.vredmin o) s = put (BitVec.ofInt 64 r) ∧
          (∀ i ∈ on, r ≤ int i) ∧ (on ≠ [] → ∃ i ∈ on, r = int i) ∧ (on = [] → r = intMax w sg)) ∧
        (∃ r : Int, exec (.vredmax o) s = put (BitVec.ofInt 64 r) ∧
          (∀ i ∈ on, int i ≤ r) ∧ (on ≠ [] → ∃ i ∈ on, r = int i) ∧ (on = [] → r = intMin w sg))) ∧
      (o.ty.isInt = false →
        exec (.vredmin o) s = put (BitVec.ofNat 64 (f.min f.infBits
          (reduceBy f.min f.infBits (on.map (laneOf x.bits w))))) ∧
        exec (.vredmax o) s = put (BitVec.ofNat 64 (f.max (f.signBit + f.infBits)
          (reduceBy f.max (f.signBit + f.infBits) (on.map (laneOf x.bits w)))))) ∧
      exec (.vfredadd o) s = put (BitVec.ofNat 64 (treeSum add32 0 6 ((List.range o.ty.lanes).map fun i =>
        if s.laneOn o.g o.ty i then Fmt.f32.rne (f.decode (laneOf x.bits w i)) else 0x80000000)))) ∧
    (∀ (o : DotF) (s : State),
      let w := o.ty.bits
      let f := fmtOf o.ty
      let x := s.rV o.a.toNat
      let y := s.rV o.b.toNat
      let z := s.rS o.c.toNat
      let prod := fun i => if s.laneOn o.g o.ty i then
        Fmt.f32.rne ((f.decode (laneOf x.bits w i)).mul (f.decode (laneOf y.bits w i))) else 0x80000000
      let l := (List.range o.ty.lanes).map prod
      let marked := (s.lanesOn o.g o.ty).any fun i => x.lanePoison w i || y.lanePoison w i
      let acc := z.bits.toNat % 2 ^ 32
      let put := fun r : Nat => s.gives o.d ⟨BitVec.ofNat 64 r, z.poison || marked⟩
      (o.ty.lanes = 32 → exec (.vfdot o) s = put (add32 acc (tree32 l))) ∧
      (o.ty.lanes = 64 → exec (.vfdot o) s = put (add32 (add32 acc (tree32 (l.take 32))) (tree32 (l.drop 32))))))

/-- R11, R95 and R156: in head mode spawn gives the first failing status: a slot that is no task slot, one that is not
idle, an illegal pc, a nonzero last lane; else it starts a thread there, ready in the next cycle, with s1 to s3 and
its fields from the lanes and every other register zero. R99 and R157: a message reaches the end of the inbox of its
core's head slot. In head mode reap takes the trap flag first, else the oldest message; with neither it waits, or with
.poll gives kind 0. A waiting reap takes the message that arrives when the head slot takes messages, and the trap flag
that a trap record of its core sets (R27). -/
def Obligations.SpawnAndReap : Prop :=
  ((∀ (o : SVS) (s : State), s.cur.slot = 0 → s.guardBit o.g = true →
      let v := s.rV o.a.toNat
      let slot := (s.rS o.b.toNat).bits
      let l := fun i => v.bits.extractLsb' (64 * i) 64
      v.poison = 0 → (s.rS o.b.toNat).poison = false →
      let st : W64 :=
        if slot = 0 ∨ (if isCompute s.cur.core then 15 else 14) < slot.toNat then 1
        else if (s.thread s.cur.core slot.toNat).state ≠ .idle then 2
        else if (l 0).toNat % 64 ∉ [0, 12, 24, 36, 48] then 3
        else if l 15 ≠ 0 then 4
        else 0
      exec (.spawn o) s = .next
        ((if st = 0 then s.startSlot s.cur.core slot.toNat l else s).wS o.d.toNat ⟨st, false⟩).advance) ∧
    (∀ (s : State) (core slot : Nat) (l : Nat → W64), slot < 16 →
      let t := (s.startSlot core slot l).thread core slot
      t.state = .ready ∧ t.readyAt = s.cycle + 1 ∧ t.pc = l 0 ∧ t.exit = l 1 ∧ t.task = l 4 ∧ t.handle = l 5 ∧ t.shape = l 6 ∧
      (∀ n, t.regs.getS n = if n = 1 then ⟨l 1, false⟩ else if n = 2 then ⟨l 2, false⟩ else if n = 3 then ⟨l 3, false⟩ else ⟨0, false⟩) ∧
      (∀ n, t.regs.getV n = ⟨0, 0⟩) ∧ (∀ n, n ≠ 0 → t.regs.getP n = 0) ∧ (∀ n, t.regs.getB n = 0) ∧
      t.coffers = [] ∧ t.waits = [] ∧ t.resv = [] ∧ t.phase = 0 ∧ t.lastcause = 0)) ∧
  ((∀ (o : ReapF) (s : State), s.cur.slot = 0 → s.guardBit o.g = true →
      let c := s.core s.cur.core
      (c.trapFlag = true →
        exec (.reap o) s = .next ((s.setCore s.cur.core { c with trapFlag := false }).wV o.d.toNat
          (noticeVec 1 0 0 [c.trapWidx.setWidth 64])).advance) ∧
      (∀ n r, c.trapFlag = false → c.inbox = n :: r →
        exec (.reap o) s = .next ((s.setCore s.cur.core { c with inbox := r }).wV o.d.toNat
          (noticeVec n.kind n.slot n.manner n.lanes)).advance) ∧
      (c.trapFlag = false → c.inbox = [] →
        exec (.reap o) s = if o.poll then .next (s.wV o.d.toNat (noticeVec 0 0 0 [])).advance
          else .next (s.waitOn .waitingMessage (.reap o.d.toNat)))) ∧
    (∀ (n core : Nat) (x : Notice) (s : State), s.net[n]? = some (.notice core x) →
      let s1 := { s with net := s.net.take n ++ s.net.drop (n + 1) }
      exec (.headInboxMessage n) s =
        .next ((s1.modCore core fun c => { c with inbox := c.inbox ++ [x] }).wakeReap core)) ∧
    (∀ (core at0 d : Nat) (m : Bool) (x : Notice) (s : State),
      (s.thread core 0).findWait isReap = some ⟨m, at0, .reap d⟩ → s.takesMessages core = true →
      (s.core core).trapFlag = false → (s.core core).inbox = [x] →
      s.wakeReap core = (s.setCore core { s.core core with inbox := [] }).finishWait core 0 isReap fun t =>
        t.setV d (noticeVec x.kind x.slot x.manner x.lanes)) ∧
    (∀ (core at0 d : Nat) (m : Bool) (s : State),
      (s.thread core 0).findWait isReap = some ⟨m, at0, .reap d⟩ → s.takesMessages core = true →
      let c := s.core core
      c.trapFlag = true →
      s.wakeReap core = (s.setCore core { c with trapFlag := false }).finishWait core 0 isReap fun t =>
        t.setV d (noticeVec 1 0 0 [c.trapWidx.setWidth 64])) ∧
    (∀ (s : State) (core slot cause ring : Nat) (info task : W64) (l : Latch),
      let c := s.core core
      let bytes := trapRecord c.trapSeq.toNat core slot cause l info task (BitVec.ofNat 64 (s.now (deviceOfCore core)))
      s.recordFor core slot cause info task l ring =
        ((s.perform (cleanWrites (ring + 64 * c.trapWidx.toNat) bytes) none).modCore core fun c =>
          { c with trapWidx := c.trapWidx + 1, trapSeq := c.trapSeq + 1, trapFlag := true }).wakeReap core) ∧
    (∀ (kind slot manner : Nat) (l : List W64), kind < 256 → slot < 256 → manner < 256 → l.length ≤ 15 →
      let v := noticeVec kind slot manner l
      v.poison = 0 ∧ lane64 v.bits 0 = BitVec.ofNat 64 (kind + 256 * slot + 65536 * manner) ∧
      ∀ i < 15, lane64 v.bits (i + 1) = (l[i]?).getD 0))

/-- R101, R158, R159 and R367: yield waits min(s[a], 0x100000) cycles; halt ends a task thread, and in head mode stops
the core; an ending thread whose stores have been performed, with nothing open, leaves its slot idle (or swapped,
while a swap of the slot runs; until then its slot waits for memory: log entry 19, DEDUCED), and its head slot, and
the dispatcher of its launch, are told how it ended. -/
def Obligations.YieldHaltAndThreadEnd : Prop :=
  (∀ (o : A1) (s : State), s.guardBit o.g = true →
    exec (.yield o) s = .next (s.waitOn .waitingMemory
      (.yielding (s.cycle + min (s.rS o.a.toNat).bits.toNat 0x100000)))) ∧
  (∀ (core slot at0 due : Nat) (m : Bool) (s : State),
    (s.thread core slot).findWait isYield = some ⟨m, at0, .yielding due⟩ → due ≤ s.cycle →
    exec (.yieldExpiry core slot) s = .next (s.endWait core slot isYield id)) ∧
  (∀ (o : G0) (s : State), s.guardBit o.g = true →
    (s.cur.slot ≠ 0 → exec (.halt o) s = .next (s.beginEnd 0 none)) ∧
    (s.cur.slot = 0 → ∃ t, exec (.halt o) s = .next t ∧ (t.core s.cur.core).stopped = true ∧
      (∀ k < 16, t.thread s.cur.core k = s.thread s.cur.core k) ∧ ∀ a, t.byte a = s.byte a)) ∧
  (∀ (s : State) (manner : Nat),
    (s.cth.runActive = true → s.beginEnd manner none = s.waitOn .waitingMemory (.endAfterRun manner none)) ∧
    (s.cth.runActive = false → s.beginEnd manner none =
      if s.endsNow s.cur.core s.cur.slot manner then s.finishEnd s.cur.core s.cur.slot manner
      else s.waitOn .waitingMemory (.release (.ending manner)))) ∧
  (∀ (core slot at0 manner : Nat) (m : Bool) (s : State),
    (s.thread core slot).findWait isEnding = some ⟨m, at0, .release (.ending manner)⟩ →
    s.drained core slot (s.thread core slot).uid = true →
    manner = 1 ∨ s.openedBy (s.thread core slot).uid (fun _ => true) = [] →
    exec (.threadEnd core slot) s = .next (s.finishEnd core slot manner)) ∧
  (∀ (core slot manner : Nat) (s : State), slot < 16 → manner ≠ 1 →
    let t := s.thread core slot
    let u := s.finishEnd core slot manner
    let swapping := (s.core core).swapRun.any fun c => c.mask.getLsbD slot
    u.thread core slot = (if swapping then { Thread.reset with state := .swapped, saved := .idle, task := t.task }
      else { Thread.reset with idleAt := s.cycle + 1 }) ∧
    u.net = s.net ++ [.notice core ⟨2, slot, manner, [t.task, t.handle]⟩] ++
      (if t.handle = 0 then [] else [.ended t.handle core t.indices false]))

/-- R104, R105 and R160: in head mode migr gives the first failing status, and with status 0 the thread leaves
rotation, its reservations dropped; a migr that the named slot holds in its latch goes on past itself, to the target
of either form, and takes the same status. Once the thread's stores have been performed, and the bank holds nothing
that the spill engine has to write first (R381), its context leaves the core, its slot is idle, and the head slot is
told; at the target it takes the lowest task slot that is idle after the core's issue of the cycle and is ready in the
next cycle. -/
def Obligations.Migration : Prop :=
  (∀ (o : SSS) (s : State), s.cur.slot = 0 → s.guardBit o.g = true →
    let core := s.cur.core
    let target := (s.rS o.a.toNat).bits
    let slot := (s.rS o.b.toNat).bits
    let t := s.thread core slot.toNat
    (s.rS o.a.toNat).poison = false → (s.rS o.b.toNat).poison = false → t.heldMigr = none →
    let st : W64 :=
      if target.toNat / 1024 ≥ 2048 ∨ s.inDomain (deviceOfCore core) (target.toNat / 1024) = false then 1
      else if target.toNat = core then 2
      else if slot = 0 ∨ (if isCompute core then 15 else 14) < slot.toNat ∨ (t.state ≠ .ready ∧ t.state ≠ .trapped) then 3
      else if t.coffers ≠ [] then 4
      else if (List.range 4).any (fun i => (SMap.get ⟨false, 0, 0, []⟩ t.inflows i).bound) then 5
      else 0
    let left := (s.setThread core slot.toNat
      { t with waits := [⟨false, s.cycle, .migrating target.toNat none⟩], resv := [] }).enterState core slot.toNat .swapped 0
    exec (.migr o) s = .next ((if st = 0 then left else s).wS o.d.toNat ⟨st, false⟩).advance) ∧
  (∀ (o h : SSS) (s : State), s.cur.slot = 0 → s.guardBit o.g = true →
    let core := s.cur.core
    let slot := (s.rS o.b.toNat).bits
    let t := s.thread core slot.toNat
    (s.rS o.a.toNat).poison = false → (s.rS o.b.toNat).poison = false → isTaskSlot core slot.toNat = true →
    t.heldMigr = some h →
    let a := (s.rS o.a.toNat).bits
    let target := if a = BitVec.allOnes 64 then (t.regs.getS h.a.toNat).bits else a
    let st := s.migrStatus core target slot
    let past := { t with pc := seqNext t.pc, nextPc := seqNext t.pc, latch := none, stopHeld := false }
    exec (.migr o) s = .next ((if st = 0 then
        (s.setThread core slot.toNat { past with
          waits := [⟨false, s.cycle, .migrating target.toNat (some h.d.toNat)⟩], resv := [] }).enterState core slot.toNat .swapped 0
      else (s.setThread core slot.toNat (past.setS h.d.toNat ⟨BitVec.ofNat 64 st, false⟩)).enterState core slot.toNat
        .ready 0).wS o.d.toNat ⟨BitVec.ofNat 64 st, false⟩).advance) ∧
  (∀ (core slot at0 target : Nat) (m : Bool) (dst : Option Nat) (s : State), slot < 16 →
    let t := s.thread core slot
    t.findWait isMigrating = some ⟨m, at0, .migrating target dst⟩ → s.drained core slot t.uid = true → t.runActive = false →
    (s.core core).swapRun = none → (s.core core).anyHeld = false →
    ∃ u, exec (.migrationSend core slot) s = .next u ∧
      u.thread core slot = { Thread.reset with idleAt := s.cycle + 1 } ∧
      u.net = s.net ++ [.notice core ⟨4, slot, 0, [t.task, BitVec.ofNat 64 target]⟩,
        .migrant target core { t with waits := [], resv := [] } dst]) ∧
  (∀ (n target source : Nat) (ctx : Thread) (dst : Option Nat) (s : State),
    s.net[n]? = some (.migrant target source ctx dst) →
    let s1 := { s with net := s.net.take n ++ s.net.drop (n + 1) }
    let arrived := match dst with
      | some d => ctx.setS d ⟨0, false⟩
      | none => ctx
    exec (.migrationArrival n) s =
      .next (s1.modCore target fun c => { c with arrivals := c.arrivals ++ [(arrived, source)] })) ∧
  (∀ (core slot source : Nat) (ctx : Thread) (rest : List (Thread × Nat)) (s : State), 1 ≤ slot → slot < 16 →
    slot ≤ (if isCompute core then 15 else 14) → (s.core core).arrivals = (ctx, source) :: rest →
    (s.thread core slot).state = .idle → (∀ k, 1 ≤ k → k < slot → (s.thread core k).state ≠ .idle) →
    s.takesMessages core = true → s.turnOf core = none →
    ∃ u, exec (.migrationPlacement core) s = .next u ∧
      let t := u.thread core slot
      t.state = .ready ∧ t.readyAt = s.cycle + 1 ∧ t.pc = ctx.pc ∧ t.regs = ctx.regs ∧ t.task = ctx.task ∧ t.uid = ctx.uid ∧
      (u.core core).arrivals = rest ∧ u.net = s.net ++ [.notice core ⟨3, slot, 0, [ctx.task, BitVec.ofNat 64 source]⟩])

/-- R113 and R163: share and slice wait for the shape record, that of the launch's entry in the shape window or the
one at the thread's shape place, whose 8-byte words a window gives each at its own instant, and write start, count and
stride; a thread with no record, and a dimension at or above ndims, get three zeros. share applies the share stage of
the record's dimension, slice the slice stage within the share, each with the thread's index and the extent at the
level that its control word names, whose number of levels comes from the highest nonzero extent (log entry 30,
DEDUCED). The parts of a block-wise stage follow one another and cover the extent; those of a cyclic stage take every
block in turn. R161, R162 and R164 with R201: launch, trig of a thread that has a launch (log entry 29, DEDUCED), and
bar wait for the thread's posted stores; then launch reads its record, of the scratchpad one word at an instant, and
copies it once the bank of the ring entry can take it, trig sends its count to the dispatcher, and bar enters its next
episode, which a thread of no launch, and the only member of its group, completes at once. A launch to a queue outside
the domain, one that is off or one that is full gives its code and copies nothing; a record that holds poison traps
(log entry 91, DEDUCED); else tail advances and the result is the sequence number. The members of a group are those of
one unit of the scope, ranked by their indices; one that runs has reached the rounds that it has entered and no later
one. (Each scope counts its own episodes: log entry 31, DEDUCED.) -/
def Obligations.LaunchesSharesAndBarriers : Prop :=
  ((∀ (o : SS) (s : State), s.guardBit o.g = true →
      let v := s.rS o.a.toNat
      exec (.share o) s = .next (s.waitOn .waitingMemory (.shape o.d.toNat v.bits.toNat false v.poison none [])) ∧
      exec (.slice o) s = .next (s.waitOn .waitingMemory (.shape o.d.toNat v.bits.toNat true v.poison none []))) ∧
    (∀ (core slot at0 d dim : Nat) (m slice poison : Bool) (place : Option Nat) (got : SMap (List PByte)) (s : State),
      let t := s.thread core slot
      t.findWait isReplyWait = some ⟨m, at0, .shape d dim slice poison place got⟩ →
      (place = none → s.shapeRecord core t = none →
        exec (.loadReply core slot) s = .next (s.endWait core slot isShape fun t =>
          ((t.setS d ⟨0, poison⟩).setS (d + 1) ⟨0, poison⟩).setS (d + 2) ⟨0, poison⟩)) ∧
      (∀ p, place = none → s.shapeRecord core t = some p → spaceOfPlace p ≠ 1 → got = [] →
        s.bankBusy p = false → s.homesClear core slot t.uid p 256 = true →
        let r := s.readBytes p 256
        let s1 := if spaceOfPlace p = 0 then r.1.touchRow p .dflt else r.1
        exec (.loadReply core slot) s = .next (s1.endWait core slot isShape fun t =>
          t.setPart d (t.partition (r.2.map Prod.fst) dim slice) (poison || r.2.any Prod.snd))) ∧
      (∀ p, place = some p ∨ place = none ∧ s.shapeRecord core t = some p → spaceOfPlace p = 1 →
        let free := fun i : Nat => !s.bankBusy (p + 8 * i) && s.homesClear core slot t.uid (p + 8 * i) 8
        (∃ i ∈ wordsLeft 256 got, free i = true) → ∃ i ∈ wordsLeft 256 got, free i = true ∧
          let r := State.readBytes { s with fresh := s.fresh + 1 } (p + 8 * i) 8
          let all := SMap.set got i r.2
          let l := wordBytes 256 all
          exec (.loadReply core slot) s = .next (
            if wordsLeft 256 all = [] then r.1.endWait core slot isShape fun t =>
              t.setPart d (t.partition (l.map Prod.fst) dim slice) (poison || l.any Prod.snd)
            else r.1.modThread core slot fun t => t.modWait isShape fun _ => .shape d dim slice poison (some p) all))) ∧
    (∀ (s : State) (core : Nat) (t : Thread),
      let owns := fun i : Nat => i < 8 ∧ t.handle ≠ 0 ∧ s.word (shapeWindow core + 256 * i + 0xF8) = t.handle
      ((∀ i, ¬owns i) → s.shapeRecord core t = if t.shape = 0 then none else some t.shape.toNat) ∧
      (∀ i, owns i → (∀ j < i, ¬owns j) → s.shapeRecord core t = some (shapeWindow core + 256 * i))) ∧
    (∀ (t : Thread) (d start count stride : Nat) (q : Bool), t.setPart d (start, count, stride) q =
      ((t.setS d ⟨BitVec.ofNat 64 start, q⟩).setS (d + 1) ⟨BitVec.ofNat 64 count, q⟩).setS (d + 2)
        ⟨BitVec.ofNat 64 stride, q⟩) ∧
    (∀ (t : Thread) (bytes : List Byte) (dim : Nat),
      let num := fun at0 n => natOfBytes ((bytes.drop at0).take n)
      let x := num (0x10 + 16 * dim) 8
      let c := BitVec.ofNat 64 (num (0x18 + 16 * dim) 8)
      let g := max 1 (c.extractLsb' 16 32).toNat
      let part := fun (x lev : Nat) (cyclic : Bool) => partStage x g (t.levelPart lev).2 (t.levelPart lev).1 cyclic
      (num 0 1 % 16 ≤ dim → ∀ slice, t.partition bytes dim slice = (0, 0, 0)) ∧
      (dim < num 0 1 % 16 → dim < 8 →
        let share := part x (c.extractLsb' 0 3).toNat (c.getLsbD 8)
        t.partition bytes dim false = share ∧
        t.partition bytes dim true = part share.2.1 (c.extractLsb' 4 3).toNat (c.getLsbD 9))) ∧
    (∀ (t : Thread) (lev : Nat),
      ((∀ k, lev ≤ k → k < 8 → SMap.get 0 t.weaveExt k = 0) → t.levelPart lev = (0, 1)) ∧
      ((∃ k, lev ≤ k ∧ k < 8 ∧ SMap.get 0 t.weaveExt k ≠ 0) →
        t.levelPart lev = ((SMap.get 0 t.weaveIdx lev).toNat, max 1 (SMap.get 0 t.weaveExt lev).toNat))) ∧
    (∀ x g p j : Nat, 0 < g → j < p →
      let a := partStage x g p j false
      a.1 % g = 0 ∧ a.1 + a.2.1 ≤ max x a.1 ∧ a.2.2 = 1 ∧
      (partStage x g p 0 false).1 = 0 ∧ (j + 1 < p → 0 < (partStage x g p (j + 1) false).2.1 →
        (partStage x g p (j + 1) false).1 = a.1 + a.2.1) ∧
      (j + 1 = p → x ≤ a.1 + a.2.1)) ∧
    (∀ x g p j : Nat, 0 < g → j < p →
      let a := partStage x g p j true
      a.1 = j * g ∧ a.2.2 = p * g ∧
      a.2.1 = ((List.range ((x + g - 1) / g)).filter fun b => b % p = j).foldl (fun n b => n + min g (x - b * g)) 0)) ∧
  ((∀ (o : SSS) (s : State) (x : Xlat), s.guardBit o.g = true →
      let q := s.rS o.a.toNat
      let va := s.rS o.b.toNat
      q.poison = false → va.poison = false → va.bits.toNat % 256 = 0 → s.access .load va.bits 256 = .ok x →
      s.dataStop [(va.bits.toNat, 256)] true false = .ok () →
      exec (.launch o) s =
        .next (s.waitOn .waitingMemory (.release (.launch o.d.toNat q.bits x.place x.entry [])))) ∧
    (∀ (o : G0) (s : State), s.guardBit o.g = true →
      exec (.trig o) s = if s.cth.handle = 0 then .next s.advance else .next (s.waitOn .waitingMessage (.release .trig))) ∧
    (∀ (o : ScopeF) (s : State), s.guardBit o.g = true →
      exec (.bar o) s = .next (s.waitOn .waitingMessage (.release (.bar (match o.scope with
        | .none => 0 | .tile => 1 | .group => 2 | .stack => 3 | .device => 4 | .domain => 5))))) ∧
    (∀ (core slot at0 : Nat) (m : Bool) (op : ReleaseOp) (s : State),
      let t := s.thread core slot
      t.findWait isRelease = some ⟨m, at0, .release op⟩ → s.drained core slot t.uid = true →
      (op = .trig → exec (.releaseDrained core slot) s =
        let s1 := s.modThread core slot fun t => t.modWait isRelease fun _ => .triggered
        .next { s1 with net := s1.net ++ [.trig t.handle core slot t.uid] }) ∧
      (∀ scope, op = .bar scope → s.memberOf t = none →
        exec (.releaseDrained core slot) s = .next (s.endWait core slot isBar id)) ∧
      (∀ scope l me, op = .bar scope → s.memberOf t = some (l, me) →
        let e := (me.progress scope).1 + 1
        let s1 := s.modLaunch t.handle fun l => l.setProgress me.idx scope (e, 0)
        exec (.releaseDrained core slot) s = .next (if (barGroup l scope me).length ≤ 1 then s1.endWait core slot isBar id
          else s1.modThread core slot fun t => t.modWait isBar fun _ => .barred scope e 0)) ∧
      (∀ d target record e got, op = .launch d target record e got →
        exec (.releaseDrained core slot) s = .next (s.releaseLaunch core slot d target record e got m))) ∧
    (∀ (s : State) (core slot d record entry : Nat) (target : W64) (got : SMap (List PByte)) (member : Bool),
      let r := if wordsLeft 256 got = [] then (s, got) else s.readRecord record got
      let busy := r.1.enqueueBusy (deviceOfCore core) target
      let bytes := wordBytes 256 r.2
      let x := r.1.enqueueRecord (deviceOfCore core) target bytes
      let waits := r.1.modThread core slot fun t => t.modWait isRelease fun _ => .release (.launch d target record entry r.2)
      let goes := s.releaseLaunch core slot d target record entry got member
      (wordsLeft 256 r.2 ≠ [] → goes = waits) ∧
      (wordsLeft 256 r.2 = [] → busy ≠ [] → goes = waits.callBanks busy) ∧
      (wordsLeft 256 r.2 = [] → busy = [] →
        (x.2.getLsbD 63 = true ∨ bytes.findIdx? Prod.snd = none →
          goes = x.1.endWait core slot isRelease fun t => t.setS d ⟨x.2, false⟩) ∧
        (∀ i, x.2.getLsbD 63 = false → bytes.findIdx? Prod.snd = some i →
          goes = r.1.trapWait core slot 0x0A (BitVec.ofNat 64 (codeword (record + i)).1) member))) ∧
    (∀ (s : State) (record : Nat) (got : SMap (List PByte)),
      let free := fun i : Nat => s.bankBusy (record + 8 * i) = false
      (spaceOfPlace record = 1 → (∃ i ∈ wordsLeft 256 got, free i) → ∃ i ∈ wordsLeft 256 got, free i ∧
        let r := State.readBytes { s with fresh := s.fresh + 1 } (record + 8 * i) 8
        s.readRecord record got = (r.1, SMap.set got i r.2)) ∧
      (spaceOfPlace record = 0 → s.spanBusy record 256 = true → s.readRecord record got = (s, got)) ∧
      (spaceOfPlace record = 0 → s.spanBusy record 256 = false →
        let r := s.readBytes record 256
        (s.readRecord record []).1 = r.1.touchSpan record 256 .dflt ∧ wordBytes 256 (s.readRecord record []).2 = r.2)) ∧
    (∀ (s : State) (own : Nat) (target : W64) (bytes : List PByte),
      let dev := (target.extractLsb' 48 11).toNat
      let q := (target.extractLsb' 40 6).toNat
      let tail := s.lqTail dev q
      s.enqueueRecord own target bytes =
        if s.inDomain own dev = false then (s, 0x8000000000000003)
        else if s.lqOn dev q = false then (s, 0x8000000000000001)
        else if s.lqSize dev q ≤ (tail + 2 ^ 32 - s.lqHead dev q) % 2 ^ 32 then (s, 0x8000000000000002)
        else (((s.perform (markedWrites (s.lqPlace dev q tail) bytes) none).touchSpan (s.lqPlace dev q tail) 256 .dflt).writeLqtail dev q
          (BitVec.ofNat 64 ((tail + 1) % 2 ^ 32)), BitVec.ofNat 64 tail)) ∧
    (∀ (l : Launch) (scope : Nat) (me x : Member),
      x ∈ barGroup l scope me ↔ x ∈ l.members ∧ scopeUnit scope x.core = scopeUnit scope me.core) ∧
    (∀ (l : Launch) (scope : Nat) (me : Member),
      (barGroup l scope me).Pairwise fun x y => idxKey x.idx ≤ idxKey y.idx) ∧
    (∀ (g : List Member) (scope rounds fuel q e k : Nat) (x : Member), g[q]? = some x →
      let p := x.progress scope
      (e < p.1 ∨ e = p.1 ∧ k ≤ p.2 → barDone g scope rounds (fuel + 1) q e k = true) ∧
      (¬(e < p.1 ∨ e = p.1 ∧ k ≤ p.2) → x.ended = false → barDone g scope rounds (fuel + 1) q e k = false)) ∧
    (∀ (n core slot uid : Nat) (handle : W64) (s : State), s.net[n]? = some (.trig handle core slot uid) →
      let s1 := { s with net := s.net.take n ++ s.net.drop (n + 1) }
      let s2 := match s.launches.find? fun l => l.handle = handle with
        | some l => s1.triggerLaunch l
        | none => s1
      let k := s2.locate core slot uid
      exec (.trigCount n) s = if (s2.thread core k).uid = uid then .next (s2.endWait core k isTrigWait id) else .next s2) ∧
    (∀ (core slot at0 scope e k : Nat) (m : Bool) (l : Launch) (me : Member) (s : State),
      let t := s.thread core slot
      let g := barGroup l scope me
      let n := g.length
      t.findWait isBar = some ⟨m, at0, .barred scope e k⟩ → s.memberOf t = some (l, me) →
      barDone g scope (barRounds n) ((e + 1) * (barRounds n + 2)) ((g.findIdx (fun x => x.idx = me.idx) + n - 2 ^ k % n) % n) e k = true →
      let s1 := s.modLaunch t.handle fun l => l.setProgress me.idx scope (e, k + 1)
      exec (.barNotification core slot) s =
        if barRounds n ≤ k + 1 then .next (s1.endWait core slot isBar id)
        else .next (s1.modThread core slot fun t => t.modWait isBar fun _ => .barred scope e (k + 1))))

/-- R117 to R120 and Table 4.11: enabling a queue empties it; a write of tail enqueues when there is room, whatever
its reserved bits hold (log entry 69, DEDUCED); an end notice and a successor signal are counted, once the bank of the
completion word takes them. A head record in its place since an earlier cycle is rejected with the first failing
status of Table 4.8, waits for its signals, or starts on its points; in a cycle that is a multiple of 32 a dispatcher
that has not served yet takes the best ranked of the records whose banks it can reach: a higher priority first, and of
one priority the next queue after the one last served. R100, R115, R186, R187 and R412: a wake, unless the share of
another one waits at its core for slots, reaches the head slot's inbox. What the core runtime does with it: a share
whose task tag is 0xFFFF, or whose environment block is refused, is refused, and each of its threads counts as ended
by TKILL; the block is applied once, and with idle slots enough the share's threads start in the lowest of them, each
with its own index at level 0; with too few the share waits, and displaces others when it may (log 73, DESIGN CHOICE).
-/
def Obligations.DispatchersAndWakes : Prop :=
  ((∀ (dev q : Nat) (v : W64) (s : State), q < 64 → v.getLsbD 0 = true → s.lqOn dev q = false →
      let t := s.writeLqctl dev q v
      exec (.lqEnable dev q v) s = .next t ∧ t.lqOn dev q = true ∧ t.lqHead dev q = 0 ∧ t.lqTail dev q = 0 ∧
        (4 ≤ (v.extractLsb' 8 4).toNat → t.lqSize dev q = 2 ^ (v.extractLsb' 8 4).toNat)) ∧
    (∀ (dev q : Nat) (v : W64) (s : State), q < 64 →
      exec (.lqtailWrite dev q v) s = .next (s.writeLqtail dev q v)) ∧
    (∀ (dev q : Nat) (v : W64) (s : State),
      let used := (s.lqTail dev q + 2 ^ 32 - s.lqHead dev q) % 2 ^ 32
      let n := (v.toNat % 2 ^ 32 + 2 ^ 32 - s.lqTail dev q) % 2 ^ 32
      (1 ≤ n ∧ n + used ≤ s.lqSize dev q → (s.writeLqtail dev q v).lqTail dev q = v.toNat % 2 ^ 32) ∧
      (n = 0 ∨ s.lqSize dev q < n + used → s.writeLqtail dev q v = s.lqFlag dev q 1)) ∧
    (∀ (n core : Nat) (handle : W64) (idx : List Nat) (killed : Bool) (s : State),
      s.net[n]? = some (.ended handle core idx killed) →
      (∀ p, s.doneBusy handle = some p → exec (.endNotice n) s = .next (s.callBanks [(p, 8)])) ∧
      (s.doneBusy handle = none →
        exec (.endNotice n) s = .next (State.updateLaunch { s with net := s.net.take n ++ s.net.drop (n + 1) } handle
          fun l => { l with counted := l.counted + 1, killed := l.killed + if killed then 1 else 0 }))) ∧
    (∀ (n dev q seq : Nat) (sender : W64) (s : State), s.net[n]? = some (.signal dev q seq sender) →
      let s1 := { s with net := s.net.take n ++ s.net.drop (n + 1) }
      (∀ p, s.doneBusy sender = some p → exec (.successorSignal n) s = .next (s.callBanks [(p, 8)])) ∧
      (s.doneBusy sender = none →
        (s.lqOn dev q = false → exec (.successorSignal n) s = .next ((s1.lqFlag dev q 3).updateLaunch sender fun l =>
          { l with pending := l.pending - 1, siglost := true })) ∧
        (s.lqOn dev q = true → gap32 seq (s.lqHead dev q) < gap32 (s.lqTail dev q) (s.lqHead dev q) + 256 →
          ∃ t : State,
            exec (.successorSignal n) s = .next (t.updateLaunch sender fun l => { l with pending := l.pending - 1 }) ∧
            SMap.get 0 t.signals (signalKey dev q seq) = (SMap.get 0 s.signals (signalKey dev q seq) + 1 : Nat) ∧
            t.net = s1.net ∧ t.mem = s.mem ∧ t.cores = s.cores))) ∧
    (∀ (dev q : Nat) (s : State),
      let head := s.lqHead dev q
      let r := s.launchRecord (s.lqPlace dev q head)
      let signals := SMap.get 0 s.signals (signalKey dev q head)
      let st := s.recordStatus dev r
      (s.lqOn dev q = false ∨ head = s.lqTail dev q ∨ s.cycle < SMap.get 0 (s.device dev).since q →
        s.candidate dev q = none) ∧
      (s.lqOn dev q = true → head ≠ s.lqTail dev q → SMap.get 0 (s.device dev).since q ≤ s.cycle →
        s.candidate dev q =
          if st ≠ 0 then some (r, .error st)
          else if signals < r.depcount then none
          else if r.levels.any (fun l => l.extent = 0) then some (r, .ok [])
          else (s.placeRecord dev r).map fun p => (r, .ok p))) ∧
    (∀ (dev : Nat) (r : LaunchRecord) (s : State),
      let l := r.levels
      let place := fun n align : Nat => n ≠ 0 ∧ s.placeOfData dev n align = false
      let bad : Nat → Prop := fun st => match st with
        | 0x10 => r.reserved = true
        | 0x11 => r.nlev = 0 ∨ 8 < r.nlev ∨ ∃ w ∈ r.weave.drop r.nlev, w ≠ 0
        | 0x12 => ∃ k x y, l[k]? = some x ∧ l[k + 1]? = some y ∧ y.dom ≤ x.dom
        | 0x13 => ∃ x ∈ l, s.levelCapacity dev r.die x < x.extent
        | 0x14 => ∃ x ∈ l, x.scope < minScope x.dom ∨ 5 < x.scope
        | 0x15 => legalPc r.entry = false ∨ r.stksize % 16 ≠ 0 ∨ 0x100000 < r.stksize ∨ r.die = 3
        | 0x16 => s.inDomain dev (r.anchor / 1024) = false ∨ 2 ^ 21 ≤ r.anchor
        | 0x17 => place r.done 8 ∨ place r.shape 256 ∨ place r.env 64
        | _ => False
      ((∀ st, ¬bad st) → s.recordStatus dev r = 0) ∧
      (∀ st, bad st → (∀ k < st, ¬bad k) → s.recordStatus dev r = st)) ∧
    (∀ (dev stack q q' prio prio' : Nat) (s : State),
      (prio' < prio → prio ≤ 3 → s.serveRank dev stack q prio < s.serveRank dev stack q' prio') ∧
      (∀ k < 16, SMap.get 0 (s.device dev).lastServed (stack * 4 + prio) = k + 1 → q % 16 = (k + 1) % 16 →
        q' % 16 ≠ q % 16 → s.serveRank dev stack q prio < s.serveRank dev stack q' prio)) ∧
    (∀ (dev stack k : Nat) (r : LaunchRecord) (what : Except Nat (List Point)) (s : State), stack < 4 → k < 16 →
      s.now dev % 32 = 0 → SMap.get 0 (s.device dev).served stack ≠ s.cycle + 1 → (s.device dev).ckpt ≠ .quiescing →
      let q := stack * 16 + k
      let blocked := fun q => s.spanBusy (s.lqPlace dev q (s.lqHead dev q)) 256
      let busy := s.headsBusy dev stack
      blocked q = false → s.candidate dev q = some (r, what) →
      (∀ j < 16, j ≠ k → blocked (stack * 16 + j) = false → ∀ c, s.candidate dev (stack * 16 + j) = some c →
        s.serveRank dev stack q r.prio < s.serveRank dev stack (stack * 16 + j) c.1.prio) →
      let spans := s.dispatchSpans dev q r
      ((∃ x ∈ spans, s.spanBusy x.1 x.2 = true) →
        exec (.dispatchOpportunity dev stack) s = .next (s.callBanks (busy ++ spans))) ∧
      ((∀ x ∈ spans, s.spanBusy x.1 x.2 = false) →
        let s1 := s.modDevice dev fun d =>
          { d with served := SMap.set d.served stack (s.cycle + 1),
                   lastServed := SMap.set d.lastServed (stack * 4 + r.prio) (k + 1) }
        let s2 := spans.foldl (fun s x => s.touchSpan x.1 x.2 .dflt) (s1.callBanks busy)
        exec (.dispatchOpportunity dev stack) s = .next (match what with
          | .error st => (s2.rejectRecord dev q st r).advanceHead dev q
          | .ok pts => (s2.startRecord dev q (s.lqHead dev q) r pts).advanceHead dev q))) ∧
    (∀ (dev q st : Nat) (r : LaunchRecord) (s : State),
      let w := s.reg (lqReg dev q 1)
      let s1 := s.setReg (lqReg dev q 1) (setBit (setBits w 23 16 st) 2 true)
      s.rejectRecord dev q st r = (if r.done ≠ 0 ∧ s1.placeOfData dev r.done 8 = true then
        (s1.perform (cleanWrites r.done (bytesOf 8 (BitVec.ofNat 64 st).toNat)) none).touchSpan r.done 8 .dflt else s1).signalAll dev r) ∧
    (∀ (dev q seq : Nat) (r : LaunchRecord) (pts : List Point) (s : State),
      let handle := BitVec.ofNat 64 (2 ^ 63 + dev * 2 ^ 48 + q * 2 ^ 40 + seq)
      let wakes := (sharesOf pts).map fun x => Packet.wake (wakeOf r (s.lqPlace dev q seq) handle x)
      (pts = [] → s.startRecord dev q seq r pts =
        (if r.done = 0 then s else (s.perform (cleanWrites r.done (bytesOf 8 0)) none).touchSpan r.done 8 .dflt).signalAll dev r) ∧
      (pts ≠ [] → ∃ l : Launch, l.handle = handle ∧ l.done = r.done ∧ l.succ = r.succ ∧ l.trigcount = r.trigcount ∧
        l.trigs = 0 ∧ l.early = false ∧ l.siglost = false ∧ l.pending = 0 ∧ l.counted = 0 ∧ l.killed = 0 ∧
        l.members = pts.map (fun p => ⟨p.1, p.2, false, []⟩) ∧
        let s1 := (sharesOf pts).foldl (fun s x => s.copyShape r.shape handle x.1) { s with launches := s.launches ++ [l] }
        s.startRecord dev q seq r pts = { s1 with net := s1.net ++ wakes }))) ∧
  ((∀ (n : Nat) (w : Wake) (s : State), s.net[n]? = some (.wake w) →
      (∀ m x, m ≠ n → s.net[m]? = some (.wake x) → x.core = w.core → x.applied = false) →
      let s1 := { s with net := s.net.take n ++ s.net.drop (n + 1) }
      let starts := fun t : State => if (t.idleSlots w.core).length < w.count then
          State.displace { t with net := t.net.set n (.wake { w with applied := true }) } w
        else State.startShare { t with net := t.net.take n ++ t.net.drop (n + 1) } w
      let opened := fun t : State => w.envSpans.foldl (fun s x => s.touchSpan x.1 x.2 .dflt) t
      (exec (.wakeMessage n false) s =
        .next ((s1.modCore w.core fun c => { c with inbox := c.inbox ++ [w.notice] }).wakeReap w.core)) ∧
      (s.takesMessages w.core = true →
        (w.applied = true → exec (.wakeMessage n true) s = .next (starts s)) ∧
        (w.applied = false → bitsOf w.task 15 0 = 0xFFFF → exec (.wakeMessage n true) s = .next (s1.refuseShare w)) ∧
        (w.applied = false → bitsOf w.task 15 0 ≠ 0xFFFF →
          ((∃ x ∈ w.envSpans, s.spanBusy x.1 x.2 = true) →
            exec (.wakeMessage n true) s = .next (s.callBanks w.envSpans)) ∧
          ((∀ x ∈ w.envSpans, s.spanBusy x.1 x.2 = false) →
            (s.applyEnv w.core w.env = .refused → exec (.wakeMessage n true) s = .next ((opened s1).refuseShare w)) ∧
            (s.applyEnv w.core w.env = .waits → exec (.wakeMessage n true) s = .next s) ∧
            (∀ t, s.applyEnv w.core w.env = .applied t → exec (.wakeMessage n true) s = .next (starts (opened t))))))) ∧
    (∀ (w : Wake) (s : State),
      (s.refuseShare w).net =
        s.net ++ (List.range w.count).map fun j => .ended w.handle w.core (w.idx.set 0 (w.first + j)) true) ∧
    (∀ (core env : Nat) (s : State),
      (env = 0 → s.applyEnv core env = .applied s) ∧
      (env ≠ 0 → s.envRecords env = none → s.applyEnv core env = .refused)) ∧
    (∀ (w : Wake) (s : State) (j slot : Nat), ((s.idleSlots w.core).take w.count)[j]? = some slot →
      let t := (s.startShare w).thread w.core slot
      t.state = .ready ∧ t.readyAt = s.cycle + 1 ∧ t.pc = w.entry ∧ t.exit = w.exit ∧ t.task = w.task ∧
        t.handle = w.handle ∧ t.shape = BitVec.ofNat 64 w.shape ∧ t.regs.getS 1 = ⟨w.exit, false⟩ ∧
        t.regs.getS 3 = ⟨w.args, false⟩ ∧ (w.stksize = 0 → t.regs.getS 2 = ⟨0, false⟩) ∧
        SMap.get 0 t.weaveIdx 0 = BitVec.ofNat 32 ((w.idx.set 0 (w.first + j)).getD 0 0) ∧
        (∀ k < 8, 1 ≤ k → SMap.get 0 t.weaveIdx k = BitVec.ofNat 32 (w.idx.getD k 0)) ∧
        (∀ k < 8, SMap.get 0 t.weaveExt k = BitVec.ofNat 32 (w.ext.getD k 0))))

/-- R231, R232, R235, R359 and R371: vmld and vmst move the 32-bit lanes that are on between a register and bytes from
an address that is a multiple of 64; poison in an address register, a misaligned address, a failed access, a row under
repair and a violation of a shore trap (of the operands, and of poison before alignment: log entry 8, DEDUCED). With
no lane on a load only goes on; a store completes, which counts in the innermost coffer (log entry 98). A load from a
vault reads all its lanes at one instant and leaves the other lanes as they were; a store is posted as one access
after its shore check. -/
def Obligations.VectorLoadAndStore : Prop :=
  (∀ (o : VmldF) (s : State),
    let n := o.size.bytes
    let on := (List.range (n / 4)).filter (s.laneOn o.g .i32)
    let va := (s.rS o.a.toNat).bits + (s.rS o.b.toNat).bits * BitVec.ofNat 64 n + o.off.signExtend 64
    (on = [] → exec (.vmld o) s = .next s.advance) ∧
    (on ≠ [] → (s.rS o.a.toNat).poison = true → exec (.vmld o) s = s.trapsPoison o.a) ∧
    (on ≠ [] → (s.rS o.a.toNat).poison = false → (s.rS o.b.toNat).poison = true → exec (.vmld o) s = s.trapsPoison o.b) ∧
    (on ≠ [] → (s.rS o.a.toNat).poison = false → (s.rS o.b.toNat).poison = false →
      (va.toNat % 64 ≠ 0 → exec (.vmld o) s = s.traps 0x05 va) ∧
      (va.toNat % 64 = 0 → (∀ b, s.access .load va n = .error b → exec (.vmld o) s = .next (s.raise b)) ∧
        ∀ p, s.access .load va n = .ok p → s.dataStop (on.map fun i => (va.toNat + 4 * i, 4)) true false = .ok () →
          (s.rowRepairing p.place = true →
            exec (.vmld o) s = s.traps 0x15 (BitVec.ofNat 64 (p.place / 2048 * 2048))) ∧
          (s.rowRepairing p.place = false → s.rowRepairing (p.place + n - 1) = true →
            exec (.vmld o) s = s.traps 0x15 (BitVec.ofNat 64 ((p.place + n - 1) / 2048 * 2048))) ∧
          (s.rowRepairing p.place = false → s.rowRepairing (p.place + n - 1) = false → exec (.vmld o) s =
            .next (s.waitOn .waitingMemory (.load (.vector o.d.toNat on p.place n []) p.entry o.hint)))))) ∧
  (∀ (core slot at0 d place n e : Nat) (m : Bool) (on : List Nat) (hint : Hint) (s : State),
    let op := LoadOp.vector d on place n []
    let t := s.thread core slot
    t.findWait isReplyWait = some ⟨m, at0, .load op e hint⟩ → on ≠ [] → (∀ i ∈ on, i < 32) → on.Nodup →
    s.ecc = [] → s.soft = [] →
    (∀ i ∈ on, spaceOfPlace (place + 4 * i) = 0 ∧ s.spanBusy (place + 4 * i) 4 = false ∧
      s.homesClear core slot t.uid (place + 4 * i) 4 = true) →
    ∃ (s1 : State) (v : Thread → VVal), exec (.loadReply core slot) s =
      .next ((s1.gaugeLoad core slot op (s.cycle - at0)).endWait core slot isLoad fun t => t.setV d (v t)) ∧
      s1.mem = s.mem ∧ s1.cores = s.cores ∧
      ∀ u : Thread, LanesTake 32 (u.regs.getV d) (v u) (fun i => on.contains i)
        fun i => (s.peekNat (place + 4 * i) 4, (List.range 4).any fun k => s.marked (place + 4 * i + k))) ∧
  (∀ (o : VmstF) (s : State),
    let n := o.size.bytes
    let on := (List.range (n / 4)).filter (s.laneOn o.g .i32)
    let va := (s.rS o.a.toNat).bits + (s.rS o.b.toNat).bits * BitVec.ofNat 64 n + o.off.signExtend 64
    let bytes := (vbytes va.toNat ((s.rV o.c.toNat).bytes n)).filter fun b => on.contains ((b.va - va.toNat) / 4)
    (on = [] → exec (.vmst o) s = .next (s.modCur Thread.bump).advance) ∧
    (on ≠ [] → (s.rS o.a.toNat).poison = true → exec (.vmst o) s = s.trapsPoison o.a) ∧
    (on ≠ [] → (s.rS o.a.toNat).poison = false → (s.rS o.b.toNat).poison = true → exec (.vmst o) s = s.trapsPoison o.b) ∧
    (on ≠ [] → (s.rS o.a.toNat).poison = false → (s.rS o.b.toNat).poison = false →
      (va.toNat % 64 ≠ 0 → exec (.vmst o) s = s.traps 0x05 va) ∧
      (va.toNat % 64 = 0 → (∀ b, s.access .store va n = .error b → exec (.vmst o) s = .next (s.raise b)) ∧
        ∀ p, s.access .store va n = .ok p → s.dataStop (on.map fun i => (va.toNat + 4 * i, 4)) false true = .ok () →
          (∀ b, s.shoreCheck [bytes] = .error b → exec (.vmst o) s = .next (s.raise b)) ∧
          (∀ r, s.shoreCheck [bytes] = .ok r →
            exec (.vmst o) s = .next ((r.2.post p.entry o.hint (r.1.flatten.map fun b =>
              ⟨p.place + (b.va - va.toNat), b.data.1, 0xFF, b.data.2⟩)).modCur Thread.bump).advance))))

/-- R233, R235 and R360: a gather and a scatter act on the lanes that are on at s[a] + sext(index) × size + off.
Poison in s[a], and then in the lowest index word that is used, traps (log entry 8, DEDUCED); each address is checked
in ascending lane order, so the first lane whose address is misaligned, or whose access fails, decides the trap; so
does the first lane of a gather whose row is under repair. With no lane on a gather only goes on and a scatter counts
in the coffer (log entry 98). A scatter posts each lane's bytes, in ascending lane order, at the place of its address.
R234, R235, R260 and R335: a fresh tile load clears the fill mask, at once or, on a compute core while accepted
instructions read the register, before its first row; one that TRACK retries keeps it. Its rows arrive in ascending
order, the lowest missing row next, and the last one ends the wait. A row under repair ends the load with its mask;
one that has stood still for more than 4,096 cycles, from its issue or its last row (log entry 37, DEDUCED), under a
hold or throttle of its bank traps with cause 0x16. (When the mask clears, and which rows the check of row repair
covers: log entry 99, DEDUCED.) -/
def Obligations.GatherScatterAndTileLoad : Prop :=
  ((∀ (o : GatF) (s : State),
      let n := o.size.bytes
      let on := s.lanesOn o.g (laneTy n)
      let x := s.rV o.b.toNat
      let accesses := s.laneAccesses .load (s.rS o.a.toNat).bits x.bits n o.off on
      (on = [] → exec (.vmgat o) s = .next s.advance) ∧
      (on ≠ [] → (s.rS o.a.toNat).poison = true → exec (.vmgat o) s = s.trapsPoison o.a) ∧
      (on ≠ [] → (s.rS o.a.toNat).poison = false →
        (∀ k ∈ wordsOf (8 * n) on, x.poison.getLsbD k = true →
          (∀ j ∈ wordsOf (8 * n) on, j < k → x.poison.getLsbD j = false) →
          exec (.vmgat o) s = s.traps 0x08 (poisonInfo o.b.toNat 1 k)) ∧
        ((∀ k ∈ wordsOf (8 * n) on, x.poison.getLsbD k = false) →
          (∀ b, accesses = .error b → exec (.vmgat o) s = .next (s.raise b)) ∧
          (∀ l, accesses = .ok l → s.dataStop (l.map fun e => (e.2.1.toNat, n)) true false = .ok () →
            (∀ before e after, l = before ++ e :: after → (∀ e ∈ before, s.rowRepairing e.2.2.place = false) →
              s.rowRepairing e.2.2.place = true →
              exec (.vmgat o) s = s.traps 0x15 (BitVec.ofNat 64 (e.2.2.place / 2048 * 2048))) ∧
            ((∀ e ∈ l, s.rowRepairing e.2.2.place = false) →
              exec (.vmgat o) s = .next (s.waitOn .waitingMemory (.load
                (.gather o.d.toNat n (l.map fun e => (e.1, e.2.2.place, e.2.2.entry)) [])
                ((l.map fun e => e.2.2.entry).headD 0) .dflt))))))) ∧
    (∀ (o : SctF) (s : State),
      let n := o.size.bytes
      let on := s.lanesOn o.g (laneTy n)
      let x := s.rV o.b.toNat
      let v := s.rV o.c.toNat
      let accesses := s.laneAccesses .store (s.rS o.a.toNat).bits x.bits n o.off on
      let data := fun e : Nat × W64 × Xlat => vbytes e.2.1.toNat
        ((bytesOf n (laneOf v.bits (8 * n) e.1)).map fun b => (b, v.lanePoison (8 * n) e.1))
      (on = [] → exec (.vmsct o) s = .next (s.modCur Thread.bump).advance) ∧
      (on ≠ [] → (s.rS o.a.toNat).poison = true → exec (.vmsct o) s = s.trapsPoison o.a) ∧
      (on ≠ [] → (s.rS o.a.toNat).poison = false →
        (∀ k ∈ wordsOf (8 * n) on, x.poison.getLsbD k = true →
          (∀ j ∈ wordsOf (8 * n) on, j < k → x.poison.getLsbD j = false) →
          exec (.vmsct o) s = s.traps 0x08 (poisonInfo o.b.toNat 1 k)) ∧
        ((∀ k ∈ wordsOf (8 * n) on, x.poison.getLsbD k = false) →
          (∀ b, accesses = .error b → exec (.vmsct o) s = .next (s.raise b)) ∧
          (∀ l, accesses = .ok l → s.dataStop (l.map fun e => (e.2.1.toNat, n)) false true = .ok () →
            (∀ b, s.shoreCheck (l.map data) = .error b → exec (.vmsct o) s = .next (s.raise b)) ∧
            (∀ r, s.shoreCheck (l.map data) = .ok r →
              exec (.vmsct o) s = .next ((r.2.postLanes (l.zip r.1)).modCur Thread.bump).advance))))) ∧
    (∀ (s : State) (nd : Need) (base : W64) (idx : W1024) (n : Nat) (off : BitVec 44) (on : List Nat),
      let va := fun i => base + BitVec.ofInt 64 (signedOf (8 * n) (laneOf idx (8 * n) i)) * BitVec.ofNat 64 n +
        off.signExtend 64
      (∀ l, s.laneAccesses nd base idx n off on = .ok l →
        l.map Prod.fst = on ∧ ∀ e ∈ l, e.2.1 = va e.1 ∧ e.2.1.toNat % n = 0 ∧ s.access nd e.2.1 n = .ok e.2.2) ∧
      (∀ before i after l, on = before ++ i :: after → s.laneAccesses nd base idx n off before = .ok l →
        ((va i).toNat % n ≠ 0 → s.laneAccesses nd base idx n off on = .error (.trap 0x05 (va i))) ∧
        ((va i).toNat % n = 0 → ∀ b, s.access nd (va i) n = .error b →
          s.laneAccesses nd base idx n off on = .error b))) ∧
    (∀ (s : State) (i : Nat) (va : W64) (x : Xlat) (l : List VByte) (r : List ((Nat × W64 × Xlat) × List VByte)),
      s.postLanes [] = s ∧
      s.postLanes (((i, va, x), l) :: r) = (s.post x.entry .dflt (l.map fun b =>
        ⟨x.place + (b.va - va.toNat), b.data.1, 0xFF, b.data.2⟩)).postLanes r)) ∧
  ((∀ (o : TldF) (s : State), s.guardBit o.g = true →
      let va := (s.rS o.a.toNat).bits + (s.rS o.b.toNat).bits * 2048 + o.off.signExtend 64
      let tile := s.curTile
      let gen := (s.tile tile).engGen
      ((s.rS o.a.toNat).poison = true → exec (.tld o) s = s.trapsPoison o.a) ∧
      ((s.rS o.a.toNat).poison = false → (s.rS o.b.toNat).poison = true → exec (.tld o) s = s.trapsPoison o.b) ∧
      ((s.rS o.a.toNat).poison = false → (s.rS o.b.toNat).poison = false →
        (va.toNat % 64 ≠ 0 → exec (.tld o) s = s.traps 0x05 va) ∧
        (va.toNat % 64 = 0 → (∀ b, s.tileAccess va = .error b → exec (.tld o) s = .next (s.raise b)) ∧
          ∀ x, s.tileAccess va = .ok x → s.dataStop [(va.toNat, 2048)] true false = .ok () →
            let z := (s.reach s.cur.core x.entry).z
            (z = false → s.unit.retry = false → s.rowRepairing x.place = true →
              exec (.tld o) s = s.traps 0x15 (BitVec.ofNat 64 (x.place / 2048 * 2048))) ∧
            (z = true ∨ s.rowRepairing x.place = false ∧ s.rowRepairing (x.place + 2047) = false →
              let later := z || (isCompute s.cur.core && s.engReads tile o.d.toNat s.nextUid)
              let s1 := if s.unit.retry || later then s else s.setEng tile gen ((s.engRegs tile gen).setFill o.d.toNat 0)
              exec (.tld o) s = .next (s1.waitOn .waitingMemory (.tileLoad o.d.toNat x.place va x.entry s.cycle gen s.nextUid
                (later && !s.unit.retry) [] o.hint)))))) ∧
    (∀ (core slot at0 t place e last gen fence : Nat) (m clear : Bool) (va : W64) (rows : List (List PByte)) (hint : Hint)
        (s : State),
      let tile := tileOfCore core
      let read := isCompute core && s.engReads tile t fence
      (s.thread core slot).findWait isTileLoad = some ⟨m, at0, .tileLoad t place va e last gen fence clear rows hint⟩ →
      (s.reach core e).z = false →
      (read = true → exec (.tileRowDelivery core slot) s = .next s) ∧
      (read = false → clear = true → exec (.tileRowDelivery core slot) s =
        .next ((s.setEng tile gen ((s.engRegs tile gen).setFill t 0)).modTileLoad core slot false rows)) ∧
      (∀ i < 32, clear = false → ((s.engRegs tile gen).fill t).getLsbD i = false →
        (∀ j < i, ((s.engRegs tile gen).fill t).getLsbD j = true) →
        let p := place + 64 * i
        (read = false → s.rowRepairing p = true →
          exec (.tileRowDelivery core slot) s = .next (s.trapWait core slot 0x15 (BitVec.ofNat 64 (p / 2048 * 2048)) m)) ∧
        (read = false → s.rowRepairing p = false → s.bankBusy p = false →
          s.homesClear core slot (s.thread core slot).uid p 64 = true →
          let r := s.readBytes p 64
          exec (.tileRowDelivery core slot) s = .next ((r.1.touchRow p hint).deliverRow core slot t gen i at0 r.2)) ∧
        (last + 4096 < s.cycle → spaceOfPlace p = 0 →
          s.bankHeld tile (s.bankAt p).1 = true ∨ s.bankThrottled tile (s.bankAt p).1 = true →
          exec (.tldStallTimeout core slot) s = .next (s.trapWait core slot 0x16 (BitVec.ofNat 64 p) m)))) ∧
    (∀ (core slot t gen i at0 : Nat) (l : List PByte) (s : State),
      let e := (s.engRegs (tileOfCore core) gen).deliver t i l
      let s1 := s.setEng (tileOfCore core) gen e
      e.fill t = BitVec.allOnes 32 → s.deliverRow core slot t gen i at0 l =
        (s1.gaugeLatency core slot 0x07 (s.cycle - at0)).endWait core slot isTileLoad id) ∧
    (∀ (e : EngineRegs) (t i : Nat) (l : List PByte), i < 32 →
      let f := e.deliver t i l
      f.row t i = BitVec.ofNat 512 (numberOf l) ∧ f.fill t = e.fill t ||| BitVec.twoPow 32 i ∧
      ∀ j, j ≠ i → j < 32 → f.row t j = e.row t j))

/-- R202, R214, R219, R238 to R242 and R374: the version forms trap on poison in the address, a misaligned address and
a failed access, in this order (log entry 8, DEDUCED), and vst on a violation of a shore; then they wait for the
directory, vst with its shore flags still to be set. phase waits for the thread's stores; the trace records its scope
as written (beside the ring: log entry 114, DESIGN CHOICE). -/
def Obligations.VersionForms : Prop :=
  (∀ (o : VldxF) (s : State), s.guardBit o.g = true →
    let n := o.size.bytes
    let va := (s.rS o.a.toNat).bits + o.off.signExtend 64
    let nd := { Need.load with v := true }
    ((s.rS o.a.toNat).poison = true → exec (.vldx o) s = s.trapsPoison o.a) ∧
    ((s.rS o.a.toNat).poison = false →
      (va.toNat % n ≠ 0 → exec (.vldx o) s = s.traps 0x05 va) ∧
      (va.toNat % n = 0 → (∀ b, s.access nd va n = .error b → exec (.vldx o) s = .next (s.raise b)) ∧
        ∀ x, s.access nd va n = .ok x → s.dataStop [(va.toNat, n)] true false = .ok () →
          exec (.vldx o) s = .next (s.waitOn .waitingMemory (.vld ⟨o.d.toNat, true,
            (s.rS o.c.toNat).bits.toNat % 2 ^ 32, n, linesOf x.place n, x.entry, (s.rS o.b.toNat).bits.toNat⟩))))) ∧
  (∀ (o : VldaF) (s : State), s.guardBit o.g = true →
    let n := o.size.bytes
    let va := (s.rS o.a.toNat).bits + o.off.signExtend 64
    let nd := { Need.load with v := true }
    ((s.rS o.a.toNat).poison = true → exec (.vlda o) s = s.trapsPoison o.a) ∧
    ((s.rS o.a.toNat).poison = false →
      (va.toNat % n ≠ 0 → exec (.vlda o) s = s.traps 0x05 va) ∧
      (va.toNat % n = 0 → (∀ b, s.access nd va n = .error b → exec (.vlda o) s = .next (s.raise b)) ∧
        ∀ x, s.access nd va n = .ok x → s.dataStop [(va.toNat, n)] true false = .ok () →
          exec (.vlda o) s = .next (s.waitOn .waitingMemory (.vld ⟨o.d.toNat, false,
            (s.rS o.c.toNat).bits.toNat % 2 ^ 32, n, linesOf x.place n, x.entry, 0⟩))))) ∧
  (∀ (o : VstF) (s : State), s.guardBit o.g = true →
    let n := o.size.bytes
    let va := (s.rS o.a.toNat).bits + o.off.signExtend 64
    let nd := { Need.store with v := true }
    let writes := s.shoreWrites [vbytes va.toNat ((s.rV o.c.toNat).bytes n)]
    ((s.rS o.a.toNat).poison = true → exec (.vst o) s = s.trapsPoison o.a) ∧
    ((s.rS o.a.toNat).poison = false →
      (va.toNat % n ≠ 0 → exec (.vst o) s = s.traps 0x05 va) ∧
      (va.toNat % n = 0 → (∀ b, s.access nd va n = .error b → exec (.vst o) s = .next (s.raise b)) ∧
        ∀ x, s.access nd va n = .ok x → s.dataStop [(va.toNat, n)] false true = .ok () →
          (∀ b, writes = .error b → exec (.vst o) s = .next (s.raise b)) ∧
          (∀ r, writes = .ok r → exec (.vst o) s = .next (s.waitOn .waitingMemory (.vst
            { flags := r.2, v := (s.rS o.b.toNat).bits.toNat % 2 ^ 32, place := x.place, entry := x.entry,
              data := r.1.flatten.map VByte.data })))))) ∧
  (∀ (s : State) (ls : List (List VByte)),
    (∀ b, s.shoreWrites ls = .error b → s.shoreCheck ls = .error b) ∧
    (∀ r, s.shoreWrites ls = .ok r → s.shoreCheck ls = .ok (r.1, s.modCur fun t => t.flagShores r.2))) ∧
  (∀ (o : VfloorF) (s : State), s.guardBit o.g = true →
    let va := (s.rS o.a.toNat).bits + o.off.signExtend 64
    let nd := { Need.store with v := true }
    ((s.rS o.a.toNat).poison = true → exec (.vfloor o) s = s.trapsPoison o.a) ∧
    ((s.rS o.a.toNat).poison = false →
      (∀ b, s.access nd va 1 = .error b → exec (.vfloor o) s = .next (s.raise b)) ∧
      (∀ x, s.access nd va 1 = .ok x → s.dataStop [(va.toNat, 1)] false true = .ok () →
        exec (.vfloor o) s = .next (s.waitOn .waitingMemory
          (.vfloor x.place ((s.rS o.c.toNat).bits.toNat % 2 ^ 32) x.entry))))) ∧
  (∀ (o : ScopeF) (s : State), s.guardBit o.g = true →
    let scope := match o.scope with
      | .none => 0 | .tile => 1 | .group => 2 | .stack => 3 | .device => 4 | .domain => 5
    exec (.phase o) s = .next ((s.traceScope s.cur.core s.cur.slot scope).waitOn .waitingMemory (.release .phase))) ∧
  (∀ (s : State) (core slot scope : Nat),
    let recorded := s.tracing core (s.thread core slot).task = true ∧ (s.core core).traceFrom < s.cycle
    (recorded → ((s.traceScope core slot scope).core core).traceScopes = (s.core core).traceScopes ++ [(s.cycle, slot, scope)] ∧
      ∀ c k, (s.traceScope core slot scope).thread c k = s.thread c k) ∧
    (¬recorded → s.traceScope core slot scope = s))

/-- R211, R213, R215 to R218, R220 and Tables 8.3 and 8.4: what one line does. A version that opens copies the newest
sealed one that is live; a seal makes it the newest and reclaims the oldest beyond the depth, and itself when it lies
below the floor; a rise of the floor reclaims what lies below it. What a read finds, row by row. Sealed versions stand
in ascending order, at most the newest, below any open version, and every change of a line keeps that. R209 to R224:
what the directory does. It takes the operations of one cycle by core and slot, with floor changes last, a head-mode
store of a floor field among them, and none while the vault holds a fetch of the line. A vst is admitted to every
line, the lower one first, or refused with the first reason; its data then go out. A version read gives the values of
its lines, traps or waits, and a wait bound ends it on the lowest line that blocks; the floor only rises; the open
version of a line seals once its data has been written (several lines in ascending order: log entry 20; a trap of the
higher line while the lower one blocks: 36; the line that a timeout names: 106, all DEDUCED or DESIGN CHOICE); a
region that is enabled well starts empty, and one that is disabled is emptied. -/
def Obligations.DirectoryEvents : Prop :=
  ((∀ (l : Line) (f v : Nat) (task : W64),
      l.admitsWrite f v task =
        if v < f then .error 1
        else if l.ns = some 0xFFFFFFFF then .error 5
        else if ∃ n, l.ns = some n ∧ v ≤ n then .error 2
        else match l.opened with
          | none => .ok true
          | some u => if u.number ≠ v then .error 4 else if u.owner ≠ task then .error 3 else .ok false) ∧
    (∀ (l : Line) (v opener level : Nat) (task : W64),
      let r := l.openAt v task opener level
      r.sealed = l.sealed ∧ r.ns = l.ns ∧ r.lost = l.lost ∧ ∃ data poison, r.opened = some ⟨v, data, poison, task, opener, level⟩ ∧
        (∀ n x, l.ns = some n → l.sealedAt n = some x → data = x.data ∧ poison = x.poison) ∧
        (l.ns = none ∨ (∃ n, l.ns = some n ∧ l.sealedAt n = none) → data = 0 ∧ poison = 0)) ∧
    (∀ (l : Line) (depth f : Nat) (u : OpenVer), l.opened = some u →
      let r := l.sealOpen depth f
      let all := l.sealed ++ [⟨u.number, u.data, u.poison⟩]
      let kept := if depth < all.length then all.tail else all
      r.opened = none ∧ r.ns = some u.number ∧
      (f ≤ u.number → r.sealed = kept ∧ r.lost = if depth < all.length then all.head?.map Sealed.number else l.lost) ∧
      (u.number < f → r.sealed = kept.filter (fun x => x.number ≠ u.number) ∧ r.lost = some u.number)) ∧
    (∀ (l : Line) (f : Nat),
      let r := l.raise f
      r.opened = l.opened ∧ r.ns = l.ns ∧ r.sealed = l.sealed.filter (fun x => f ≤ x.number) ∧
      r.lost = match (l.sealed.filter fun x => x.number < f).getLast? with
        | some x => some x.number
        | none => l.lost) ∧
    (∀ (l : Line) (f v uid : Nat),
      let mine := ∃ u, l.opened = some u ∧ u.number = v ∧ u.opener = uid
      let isOpen := ∃ u, l.opened = some u ∧ u.number = v
      let below := ∃ n, l.ns = some n ∧ v ≤ n
      (v < f → l.readExact f v uid = .bad 0x19 1) ∧
      (f ≤ v → mine → l.readExact f v uid = .bad 0x18 6) ∧
      (f ≤ v → ¬mine → ∀ x, l.sealedAt v = some x → l.readExact f v uid = .value x.data x.poison) ∧
      (f ≤ v → ¬mine → l.sealedAt v = none → below → ¬isOpen →
        ((l.lost = none ∨ ∃ n, l.lost = some n ∧ n < v) → l.readExact f v uid = .bad 0x19 2) ∧
        ((∃ n, l.lost = some n ∧ v ≤ n) → l.readExact f v uid = .bad 0x19 3)) ∧
      (f ≤ v → ¬mine → l.sealedAt v = none → ¬below ∨ isOpen → l.readExact f v uid = .block)) ∧
    (∀ (l : Line) (f v : Nat),
      let best := (l.sealed.filter fun x => x.number ≤ v).getLast?
      (v < f → l.readAtMost f v = .bad 0x19 1) ∧
      (f ≤ v → ∀ x, best = some x → l.readAtMost f v = .value x.data x.poison) ∧
      (f ≤ v → best = none → l.readAtMost f v = if l.lost = none then .value 0 0 else .bad 0x19 3)) ∧
    (∀ (l : Line) (f depth v opener level : Nat) (task : W64),
      let ordered := fun l : Line => l.sealed.Pairwise (fun x y => x.number < y.number) ∧
        (∀ x ∈ l.sealed, ∃ n, l.ns = some n ∧ x.number ≤ n) ∧ ∀ u n, l.opened = some u → l.ns = some n → n < u.number
      ordered Line.reset ∧ (ordered l → ordered (l.raise f) ∧ ordered (l.sealOpen depth f) ∧
        (l.admitsWrite f v task = .ok true → ordered (l.openAt v task opener level))))) ∧
  ((∀ (core slot : Nat) (floor : Bool) (lines : List Nat) (s : State),
      let unit := directoryUnit (tileOfPlace (lines.headD 0 * 64))
      let key := directoryKey core slot floor
      ((∃ line ∈ lines, s.lineHeld line = true) ∨ s.inOrder unit key = false →
        s.reachDirectory core slot floor lines = none) ∧
      ((∀ line ∈ lines, s.lineHeld line = false) → s.inOrder unit key = true → s.ecc = [] →
        s.reachDirectory core slot floor lines = some (s.ordered unit key))) ∧
    (∀ (c k c' k' unit : Nat) (s : State), k < 16 → k' < 16 → c < 2 ^ 21 → c' < 2 ^ 21 →
      (directoryKey c k false < directoryKey c' k' false ↔ c < c' ∨ c = c' ∧ k < k') ∧
      directoryKey c k false < directoryKey c' k' true ∧
      ((s.ordered unit (directoryKey c k false)).inOrder unit (directoryKey c' k' false) =
        !decide (c' < c ∨ c' = c ∧ k' < k))) ∧
    (∀ (p : Posted) (w : PWrite) (rest : List PWrite) (tile : Nat) (s : State), p.kind = .plain → p.head = true →
      p.bytes = w :: rest → floorOf w.addr = some tile → s.canLand p = true →
      s.inOrder (directoryUnit tile) (directoryKey p.core p.slot true) = true) ∧
    (∀ (tile i k : Nat), i < 16 → k < 8 → floorOf (spaceBase tile 2 + 0x100 + 32 * i + 24 + k) = some tile) ∧
    (∀ (core slot at0 : Nat) (m : Bool) (op : VstOp) (s s0 : State),
      let t := s.thread core slot
      let lines := linesOf op.place op.data.length
      t.findWait isVst = some ⟨m, at0, .vst op⟩ →
      (s.reachDirectory core slot false lines = none → exec (.directoryAdmission core slot) s = .next s) ∧
      (s.reachDirectory core slot false lines = some s0 →
        (∀ c i, s0.admitLines op t.task = .error (c, i) →
          exec (.directoryAdmission core slot) s = .next (s0.trapWait core slot c i m)) ∧
        (∀ l, s0.admitLines op t.task = .ok l →
          let s1 := l.foldl (fun s line =>
            s.setLine line ((s.line line).openAt op.v t.task t.uid t.coffers.length)) s0
          exec (.directoryAdmission core slot) s =
            .next ((s1.postVersion core slot t.uid op).endWait core slot isVst fun t => t.flagShores op.flags)))) ∧
    (∀ (core slot uid : Nat) (op : VstOp) (s : State),
      let t := s.postVersion core slot uid op
      t.mem = s.mem ∧ t.lines = s.lines ∧ ∃ l, t.posted = s.posted ++ l ∧
        l.map Posted.kind = (linesOf op.place op.data.length).map (fun line => .version line op.v) ∧
        ∀ p ∈ l, p.core = core ∧ p.slot = slot ∧ p.uid = uid ∧ ∀ w ∈ p.bytes, p.kind = .version (w.addr / 64) op.v) ∧
    (∀ (line : Nat) (s : State),
      (s.regionOf (line * 64) = none → s.lineRegion line = .error (0x19, varveInfo (line * 64) 4)) ∧
      (∀ i, s.regionOf (line * 64) = some i →
        let tile := tileOfPlace (line * 64)
        (∀ p, s.regionBroken tile i = some p → s.lineRegion line = .error (0x0A, BitVec.ofNat 64 p)) ∧
        (∀ p, s.regionBroken tile i = none → (s.line line).damaged = some p →
          s.lineRegion line = .error (0x0A, BitVec.ofNat 64 p)) ∧
        (s.regionBroken tile i = none → (s.line line).damaged = none → s.lineRegion line = .ok (s.region tile i)))) ∧
    (∀ (op : VstOp) (task : W64) (s : State) (x y : Nat),
      let one : Nat → Except (Nat × W64) (List Nat) := fun line => match s.lineRegion line with
        | .error e => .error e
        | .ok r => match (s.line line).admitsWrite r.floor op.v task with
          | .error reason => .error (0x18, varveInfo (line * 64) reason)
          | .ok opens => .ok (if opens then [line] else [])
      (linesOf op.place op.data.length = [x] → s.admitLines op task = one x) ∧
      (linesOf op.place op.data.length = [x, y] → s.admitLines op task = match one x, one y with
        | .error e, _ => .error e
        | _, .error e => .error e
        | .ok l, .ok k => .ok (l ++ k))) ∧
    (∀ (op : VldOp) (uid : Nat) (s : State) (x y : Nat),
      let one : Nat → Except (Nat × W64) (Option (BitVec 512 × BitVec 16)) := fun line => match s.lineRegion line with
        | .error e => .error e
        | .ok r => match if op.exact then (s.line line).readExact r.floor op.v uid else (s.line line).readAtMost r.floor op.v with
          | .bad c reason => .error (c, varveInfo (line * 64) reason)
          | .block => .ok none
          | .value d p => .ok (some (d, p))
      (op.lines = [x] → s.readLines op uid = match one x with
        | .error e => .error e
        | .ok r => .ok (r.map fun a => [a])) ∧
      (op.lines = [x, y] → s.readLines op uid = match one x, one y with
        | .error e, _ => .error e
        | _, .error e => .error e
        | .ok (some a), .ok (some b) => .ok (some [a, b])
        | _, _ => .ok none)) ∧
    (∀ (core slot at0 : Nat) (m : Bool) (op : VldOp) (s : State),
      let t := s.thread core slot
      t.findWait isVld = some ⟨m, at0, .vld op⟩ →
      (∀ c i, s.readLines op t.uid = .error (c, i) → s.evalReader core slot = some (s.trapWait core slot c i m)) ∧
      (∀ l, s.readLines op t.uid = .ok (some l) → s.evalReader core slot =
        some ((s.gaugeLatency core slot 0x04 (s.cycle - at0)).endWait core slot isVld fun t =>
          t.setV op.d (versionVec (t.regs.getV op.d) l))) ∧
      (s.readLines op t.uid = .ok none → s.evalReader core slot = none)) ∧
    (∀ (core slot at0 : Nat) (m : Bool) (op : VldOp) (s s0 : State),
      (s.thread core slot).findWait isVld = some ⟨m, at0, .vld op⟩ →
      (s.reachDirectory core slot false op.lines = none → exec (.versionRead core slot) s = .next s) ∧
      (s.reachDirectory core slot false op.lines = some s0 →
        let t := s0.thread core slot
        (∀ u, s0.evalReader core slot = some u → exec (.versionRead core slot) s = .next u) ∧
        (s0.evalReader core slot = none → exec (.versionRead core slot) s =
          .next (if t.state = .swapped then s0.setThread core slot t.withdraw
            else s0.enterState core slot .waitingMessage 0))) ∧
      (op.bound ≠ 0 → at0 + op.bound ≤ s.cycle →
        (∀ u, s.evalReader core slot = some u → exec (.versionTimeout core slot) s = .next u) ∧
        (s.evalReader core slot = none → ∀ before line after, op.lines = before ++ line :: after → op.exact = true →
          let blocks := fun line => ∃ r, s.lineRegion line = .ok r ∧
            (s.line line).readExact r.floor op.v (s.thread core slot).uid = .block
          (∀ l ∈ before, ¬blocks l) → blocks line →
          exec (.versionTimeout core slot) s = .next (s.trapWait core slot 0x1A (varveInfo (line * 64) 0) m)))) ∧
    (∀ (core slot at0 place f e : Nat) (m : Bool) (s s0 : State),
      (s.thread core slot).findWait isVfloor = some ⟨m, at0, .vfloor place f e⟩ →
      s.reachDirectory core slot true [place / 64] = some s0 →
      (s0.regionOf place = none → exec (.floorChange core slot) s =
        .next (s0.trapWait core slot 0x19 (varveInfo place 4) m)) ∧
      (∀ i, s0.regionOf place = some i → s0.regionBroken (tileOfPlace place) i = none →
        exec (.floorChange core slot) s = .next ((s0.raiseFloor (tileOfPlace place) i f).endWait core slot isVfloor id))) ∧
    (∀ (core slot at0 : Nat) (m : Bool) (op : ReleaseOp) (s : State),
      let t := s.thread core slot
      t.findWait isSealing = some ⟨m, at0, .sealing op⟩ →
      (s.heldLines t.uid = [] → exec (.sealVersion core slot) s = .next (s.sealed core slot op)) ∧
      ((∀ line ∈ s.heldLines t.uid, s.lineSettled line = false) → s.heldLines t.uid ≠ [] →
        exec (.sealVersion core slot) s = .next s) ∧
      (∀ before line after s0, s.heldLines t.uid = before ++ line :: after → (∀ l ∈ before, s.lineSettled l = false) →
        s.lineSettled line = true → s.reachDirectory core slot false [line] = some s0 →
        exec (.sealVersion core slot) s = .next ((s0.sealLine line).sealed core slot op))) ∧
    (∀ (line i : Nat) (s : State), s.regionOf (line * 64) = some i →
      let r := s.region (tileOfPlace (line * 64)) i
      s.sealLine line = (s.setLine line ((s.line line).sealOpen (2 ^ (r.depth + 1)) r.floor)).wakeReaders
        (tileOfPlace (line * 64))) ∧
    (∀ (tile i : Nat) (v : W64) (s : State), i < 16 →
      (v.getLsbD 0 = true → (s.region tile i).en = true → exec (.regionEnable tile i v) s = .next s) ∧
      (v.getLsbD 0 = true → (s.region tile i).en = false →
        ∃ t, exec (.regionEnable tile i v) s = .next t ∧
          let s1 := s.setReg (regionReg tile i 0) (setBits (s.reg (regionReg tile i 0)) 30 6 (bitsOf v 30 6))
          (s1.regionError tile i = 0 → (t.region tile i).en = true ∧ ∀ line, tileOfPlace (line * 64) = tile →
            spaceOfPlace (line * 64) = 0 → (s1.region tile i).covers (offsetOfPlace (line * 64)) = true →
            t.line line = Line.reset) ∧
          (s1.regionError tile i ≠ 0 → (t.region tile i).en = false ∧ t.lines = s.lines)) ∧
      (v.getLsbD 0 = false → (s.region tile i).en = true →
        exec (.regionDisable tile i v) s = .next (((s.emptyRegion tile i).setReg (regionReg tile i 0)
          (setBit (s.reg (regionReg tile i 0)) 0 false)).wakeReaders tile)) ∧
      ((s.region tile i).en = true →
        let unit := directoryUnit tile
        (s.inOrder unit lastFloorKey = false → exec (.vrfloorWrite tile i v) s = .next s) ∧
        (s.inOrder unit lastFloorKey = true → exec (.vrfloorWrite tile i v) s =
          .next ((s.ordered unit lastFloorKey).raiseFloor tile i (v.toNat % 2 ^ 32)))) ∧
      (∀ f, f ≤ (s.region tile i).floor → s.raiseFloor tile i f = s) ∧
      (∀ f, (s.region tile i).floor < f → s.raiseFloor tile i f =
        let s1 := s.setReg (regionReg tile i 3) (BitVec.ofNat 64 f)
        let mine := fun line => tileOfPlace (line * 64) = tile && spaceOfPlace (line * 64) = 0 &&
          (s.region tile i).covers (offsetOfPlace (line * 64))
        State.wakeReaders { s1 with lines := s1.lines.map fun e => if mine e.1 then (e.1, e.2.raise f) else e } tile)))

/-- R203, R243, R244 and R360: an atomic consumes its address registers, its data and, where its function reads it
(cas, bins and bplim: log entry 61, DEDUCED), s[d], in this order (log entry 8, DEDUCED); poison in one of them, a
misaligned address and a failed access trap; else it goes to its home, after the thread's stores when it has a scope.
R197, R243 and Table 9.4: an atomic at a scratchpad bank is a read and a write at one instant; it returns the old
value, which its function and its operands make the new one (of a register word likewise: log entry 41, DEDUCED). A
vault atomic completes with the old value that the agent returns, traps when its access is lost, and goes out again
256 cycles after a full backwater. -/
def Obligations.Atomics : Prop :=
  (∀ (o : AmoF) (s : State), s.guardBit o.g = true →
      let n := o.size.bytes
      let va := (s.rS o.a.toNat).bits + (s.rS o.b.toNat).bits * BitVec.ofNat 64 n + o.off.signExtend 64
      let v := s.rS o.c.toNat
      let q := s.rS o.d.toNat
      let readsQ : List Instr := [.amoCas o, .amoBins o, .amoBplim o]
      let others : List Instr := [.amoAdd o, .amoAnd o, .amoOr o, .amoXor o, .amoMin o, .amoMax o, .amoMinu o, .amoMaxu o,
        .amoSwap o, .amoBffcs o]
      (∀ i ∈ readsQ ++ others,
        ((s.rS o.a.toNat).poison = true → exec i s = s.trapsPoison o.a) ∧
        ((s.rS o.a.toNat).poison = false → (s.rS o.b.toNat).poison = true → exec i s = s.trapsPoison o.b) ∧
        ((s.rS o.a.toNat).poison = false → (s.rS o.b.toNat).poison = false → v.poison = true →
          exec i s = s.trapsPoison o.c)) ∧
      ((s.rS o.a.toNat).poison = false → (s.rS o.b.toNat).poison = false → v.poison = false →
        (∀ i ∈ readsQ, q.poison = true → exec i s = s.trapsPoison o.d) ∧
        (∀ i ∈ readsQ ++ others, i ∈ others ∨ q.poison = false →
          (va.toNat % n ≠ 0 → exec i s = s.traps 0x05 va) ∧
          (va.toNat % n = 0 → ∀ b, s.access .both va n = .error b → exec i s = .next (s.raise b))) ∧
        (∀ x, va.toNat % n = 0 → s.access .both va n = .ok x → s.dataStop [(va.toNat, n)] true true = .ok () →
          let goes := fun fn : Nat =>
            let op : AmoOp := ⟨o.d.toNat, fn, n, x.place, x.entry, ⟨v.bits, false⟩, ⟨q.bits, false⟩, false, none⟩
            if o.scope = .none then (s.sendAmo s.cur.core s.cur.slot op).waitOn .waitingMemory (.amo op)
            else s.waitOn .waitingMemory (.release (.amo op))
          exec (.amoAdd o) s = .next (goes 0) ∧ exec (.amoAnd o) s = .next (goes 1) ∧ exec (.amoOr o) s = .next (goes 2) ∧
          exec (.amoXor o) s = .next (goes 3) ∧ exec (.amoMin o) s = .next (goes 4) ∧ exec (.amoMax o) s = .next (goes 5) ∧
          exec (.amoMinu o) s = .next (goes 6) ∧ exec (.amoMaxu o) s = .next (goes 7) ∧
          exec (.amoSwap o) s = .next (goes 8) ∧ exec (.amoBffcs o) s = .next (goes 11) ∧
          (q.poison = false → exec (.amoCas o) s = .next (goes 9) ∧ exec (.amoBins o) s = .next (goes 10) ∧
            exec (.amoBplim o) s = .next (goes 12))))) ∧
  ((∀ (core slot at0 : Nat) (m : Bool) (op : AmoOp) (s : State),
      let t := s.thread core slot
      t.findWait isAmo = some ⟨m, at0, .amo op⟩ →
      (spaceOfPlace op.place = 1 → op.sc = false → s.homesClear core slot t.uid op.place op.n = true →
        let r := s.performAmo op.place op.fn op.n op.v.bits op.q.bits
        exec (.amoReply core slot) s = .next (r.1.endWait core slot isAmo fun t => (t.setS op.d r.2).bump)) ∧
      (2 ≤ spaceOfPlace op.place → op.sc = false → s.homesClear core slot t.uid op.place op.n = true →
        exec (.amoReply core slot) s = .next (s.performRegAmo core slot op)) ∧
      (spaceOfPlace op.place = 0 → ∀ i r, findReply t.uid s.net = some (i, r) →
        let s1 := { s with net := s.net.take i ++ s.net.drop (i + 1) }
        exec (.amoReply core slot) s = .next (if r.status = 0 then
          s1.endWait core slot isAmo fun t => (t.setS op.d ⟨r.data.bits.extractLsb' 0 64, r.data.poison.getLsbD 0⟩).bump
          else s1.trapWait core slot 0x0A (BitVec.ofNat 64 op.place) m)) ∧
      (∀ c, op.refused = some c → c + 256 ≤ s.cycle → exec (.amoResend core slot) s = .next
        ((s.modThread core slot fun t => t.modWait isAmo fun _ => .amo { op with refused := none }).sendAmo core slot
          { op with refused := none }))) ∧
    (∀ (s : State) (place fn n : Nat) (v q : W64), s.ecc = [] → s.soft = [] → 0 < n →
      spaceOfPlace place = 1 → s.memWf →
      let r := s.performAmo place fn n v q
      let old := s.peekNat place n
      r.2 = ⟨BitVec.ofNat 64 old, (List.range n).any fun k => s.marked (place + k)⟩ ∧
      r.1.peekNat place n = amoNew fn (8 * n) old (v.toNat % 2 ^ (8 * n)) (q.toNat % 2 ^ (8 * n)) % 2 ^ (8 * n) ∧
      ∀ a, (a < place ∨ place + n ≤ a) → r.1.byte a = s.byte a) ∧
    (∀ w old v q : Nat, 0 < w → old < 2 ^ w → v < 2 ^ w → q < 2 ^ w →
      amoNew 0 w old v q = (old + v) % 2 ^ w ∧ amoNew 1 w old v q = old &&& v ∧ amoNew 2 w old v q = old ||| v ∧
      amoNew 3 w old v q = old ^^^ v ∧
      amoNew 4 w old v q = (if signedOf w old ≤ signedOf w v then old else v) ∧
      amoNew 5 w old v q = (if signedOf w old ≤ signedOf w v then v else old) ∧
      amoNew 6 w old v q = min old v ∧ amoNew 7 w old v q = max old v ∧ amoNew 8 w old v q = v ∧
      amoNew 9 w old v q = (if old = q then v else old) ∧
      (∀ k < w, (amoNew 10 w old v q).testBit k = if q.testBit k then v.testBit k else old.testBit k) ∧
      ((∀ k < w, v.testBit k = true → old.testBit k = true) → amoNew 11 w old v q = old) ∧
      (∀ k < w, v.testBit k = true → old.testBit k = false → (∀ j < k, v.testBit j = true → old.testBit j = true) →
        amoNew 11 w old v q = old ||| 2 ^ k) ∧
      (let free := (List.range w).filter fun k => v.testBit k && !old.testBit k
       let have_ := ((List.range w).filter fun k => old.testBit k).length
       amoNew 12 w old v q = (free.take (min q w - have_)).foldl (fun x k => x ||| 2 ^ k) old)))

/-- R245 to R247 and R398: lr reads and reserves a scratchpad word, sc writes when the word's reservation is valid and
empties the set either way, waitres and waitaddr wait. Poison in an address, or in the data of an sc, a misaligned
address and a failed access trap; so does a place outside the scratchpad for lr and sc, or a register place for
waitaddr, once no breakpoint stops the access. A wait whose bound has passed returns status 2, or the flags, with bit
4 where the set did not let it return before. (The order of poisoned operands and of poison before alignment: log
entry 8; a wait that returns at once does so by a reply: log entry 63, both DEDUCED.) -/
def Obligations.ReservationsAndMemoryWaits : Prop :=
  (∀ (o : LrF) (s : State), s.guardBit o.g = true →
    let n := o.size.bytes
    let va := (s.rS o.a.toNat).bits + (s.rS o.b.toNat).bits * BitVec.ofNat 64 n + o.off.signExtend 64
    ((s.rS o.a.toNat).poison = true → exec (.lr o) s = s.trapsPoison o.a) ∧
    ((s.rS o.a.toNat).poison = false → (s.rS o.b.toNat).poison = true → exec (.lr o) s = s.trapsPoison o.b) ∧
    ((s.rS o.a.toNat).poison = false → (s.rS o.b.toNat).poison = false →
      (va.toNat % n ≠ 0 → exec (.lr o) s = s.traps 0x05 va) ∧
      (va.toNat % n = 0 → (∀ b, s.access .both va n = .error b → exec (.lr o) s = .next (s.raise b)) ∧
        ∀ x, s.access .both va n = .ok x → s.dataStop [(va.toNat, n)] true false = .ok () →
          (spaceOfPlace x.place ≠ 1 → exec (.lr o) s = s.traps 0x11 va) ∧
          (spaceOfPlace x.place = 1 → exec (.lr o) s =
            .next (s.waitOn .waitingMemory (.load (.reserve o.d.toNat n x.place) x.entry .dflt)))))) ∧
  (∀ (o : ScF) (s : State), s.guardBit o.g = true →
    let n := o.size.bytes
    let va := (s.rS o.a.toNat).bits + (s.rS o.b.toNat).bits * BitVec.ofNat 64 n + o.off.signExtend 64
    ((s.rS o.a.toNat).poison = true → exec (.sc o) s = s.trapsPoison o.a) ∧
    ((s.rS o.a.toNat).poison = false → (s.rS o.b.toNat).poison = true → exec (.sc o) s = s.trapsPoison o.b) ∧
    ((s.rS o.a.toNat).poison = false → (s.rS o.b.toNat).poison = false → (s.rS o.c.toNat).poison = true →
      exec (.sc o) s = s.trapsPoison o.c) ∧
    ((s.rS o.a.toNat).poison = false → (s.rS o.b.toNat).poison = false → (s.rS o.c.toNat).poison = false →
      (va.toNat % n ≠ 0 → exec (.sc o) s = s.traps 0x05 va) ∧
      (va.toNat % n = 0 → (∀ b, s.access .both va n = .error b → exec (.sc o) s = .next (s.raise b)) ∧
        ∀ x, s.access .both va n = .ok x → s.dataStop [(va.toNat, n)] true true = .ok () →
          (spaceOfPlace x.place ≠ 1 → exec (.sc o) s = s.traps 0x11 va) ∧
          (spaceOfPlace x.place = 1 → exec (.sc o) s = .next (s.waitOn .waitingMemory (.amo
            ⟨o.d.toNat, 0, n, x.place, x.entry, ⟨(s.rS o.c.toNat).bits, false⟩, ⟨0, false⟩, true, none⟩)))))) ∧
  (∀ (core slot : Nat) (op : AmoOp) (s : State),
    let valid := (s.thread core slot).resv.any fun e => e.word = op.place / 8 * 8 && e.valid
    let s1 := s.modThread core slot fun t => { t with resv := [] }
    (valid = false → s.performSc core slot op = s1.endWait core slot isAmo fun t => t.setS op.d ⟨1, false⟩) ∧
    (valid = true → s.performSc core slot op =
      (s1.perform (cleanWrites op.place (bytesOf op.n op.v.bits.toNat)) (some (core, slot))).endWait core slot isAmo
        fun t => (t.setS op.d ⟨0, false⟩).bump)) ∧
  (∀ (o : SS) (s : State), s.guardBit o.g = true →
    exec (.waitres o) s =
      .next (s.waitOn .waitingMessage (.waitres o.d.toNat (s.rS o.a.toNat).bits.toNat))) ∧
  (∀ (o : ScF) (s : State), s.guardBit o.g = true →
    let n := o.size.bytes
    let va := (s.rS o.a.toNat).bits + o.off.signExtend 64
    ((s.rS o.a.toNat).poison = true → exec (.waitaddr o) s = s.trapsPoison o.a) ∧
    ((s.rS o.a.toNat).poison = false →
      (va.toNat % n ≠ 0 → exec (.waitaddr o) s = s.traps 0x05 va) ∧
      (va.toNat % n = 0 → (∀ b, s.access .load va n = .error b → exec (.waitaddr o) s = .next (s.raise b)) ∧
        ∀ x, s.access .load va n = .ok x → s.dataStop [(va.toNat, n)] true false = .ok () →
          (2 ≤ spaceOfPlace x.place → exec (.waitaddr o) s = s.traps 0x11 va) ∧
          (spaceOfPlace x.place < 2 → s.rowRepairing x.place = true →
            exec (.waitaddr o) s = s.traps 0x15 (BitVec.ofNat 64 (x.place / 2048 * 2048))) ∧
          (spaceOfPlace x.place < 2 → s.rowRepairing x.place = false →
            exec (.waitaddr o) s = .next (s.waitOn .waitingMessage (.waitaddr o.d.toNat x.place n
              ((s.rS o.c.toNat).bits.toNat % 2 ^ (8 * n)) (s.rS o.b.toNat).bits.toNat x.entry)))))) ∧
  (∀ (core slot at0 d bound : Nat) (m : Bool) (s : State),
    let t := s.thread core slot
    t.findWait isReplyWait = some ⟨m, at0, .waitres d bound⟩ →
    exec (.loadReply core slot) s = .next (if t.resv = [] ∨ t.resv.any (fun e => !e.valid) = true then
      s.endWait core slot isWaitres fun u => u.setS d ⟨resvFlags u.resv false, false⟩ else s)) ∧
  (∀ (core slot at0 d place n v bound e : Nat) (m : Bool) (s : State),
    let t := s.thread core slot
    let tile := tileOfCore core
    t.findWait isReplyWait = some ⟨m, at0, .waitaddr d place n v bound e⟩ → s.armed core slot = false →
    s.bankBusy place = false → s.homesClear core slot t.uid place n = true →
    let r := s.readBytes place n
    let s1 := r.1.touchRow place .dflt
    exec (.loadReply core slot) s = .next (
      if 32 ≤ (s.tile tile).monitors.length then s.endWait core slot isWaitaddr fun u => u.setS d ⟨3, false⟩
      else if numberOf r.2 ≠ v then s1.endWait core slot isWaitaddr fun u => u.setS d ⟨1, false⟩
      else s1.modTile tile fun x => { x with monitors := x.monitors ++ [⟨core, slot, place, n⟩] })) ∧
  (∀ (core slot at0 d bound : Nat) (m : Bool) (s : State),
    (s.thread core slot).waits.find? (fun w => isWaitres w.op || isWaitaddr w.op) = some ⟨m, at0, .waitres d bound⟩ →
    bound ≠ 0 → at0 + bound ≤ s.cycle →
    exec (.waitBoundExpiry core slot) s =
      .next (s.endWait core slot isWaitres fun u =>
        u.setS d ⟨resvFlags u.resv (decide (u.resv ≠ []) && u.resv.all Resv.valid), false⟩)) ∧
  (∀ (core slot at0 d place n v bound e : Nat) (m : Bool) (s : State),
    (s.thread core slot).waits.find? (fun w => isWaitres w.op || isWaitaddr w.op) =
      some ⟨m, at0, .waitaddr d place n v bound e⟩ →
    bound ≠ 0 → at0 + bound ≤ s.cycle → s.armed core slot = true →
    exec (.waitBoundExpiry core slot) s =
      .next ((s.leaveLists core slot).endWait core slot isWaitaddr fun u => u.setS d ⟨2, false⟩)) ∧
  (∀ (t : Thread) (d n place : Nat) (got : List PByte),
    let u := t.setS d ⟨BitVec.ofInt 64 (signedOf (8 * n) (numberOf got)), got.any Prod.snd⟩
    t.deliver (.reserve d n place) got =
      if t.state = .swapped then u else { u with resv := reserveWord (place / 8 * 8) t.resv }) ∧
  (∀ (word : Nat) (l : List Resv), l.length ≤ 4 →
    (reserveWord word l).length ≤ 4 ∧ ⟨word, true⟩ ∈ reserveWord word l) ∧
  (∀ (r : List Resv) (expired : Bool), r.length ≤ 4 →
    (∀ k < 4, (resvFlags r expired).getLsbD k = match r[k]? with
      | some e => !e.valid
      | none => false) ∧
    (resvFlags r expired).getLsbD 4 = expired ∧ (resvFlags r expired).getLsbD 5 = r.isEmpty)

/-- R188, R204 and R248 to R252: a row call whose address passes its checks goes to the agent of its place, after the
thread's stores when it has a scope, and its thread waits for the reply. Poison in the address, in s[b] or in the
compare value, a misaligned address and a failed access trap, in this order (log entry 8, DEDUCED); radd and rcall
refuse a malformed s[b]. R189 to R191, R249 to R252 and Table 7.13, what an agent does for a message. It starts one
that passes its checks and refuses another with the first status that applies. The operation reads, writes, adds or
compares at one instant, and an rcall runs the handler that its table names, or is refused with status 6 (log entry
64, DEDUCED). The agent's slot is ready while its oldest message can start, and else waits for a message (log entry
27, DEDUCED). The reply writes the status and, with status 0, the vector lanes that the call gives; every call but an
rget counts as a published store (also with status 5 or 6: log entry 66, DEDUCED). R188 to R195, R252 and Table 7.13:
a message enters the inbox of its agent, or a slot of the backwater heap while that holds some or 56 wait, or is
refused when the heap has no room; the oldest of the heap enters an inbox of 32 or fewer. It starts in order at the
agent's turn, a turn without one that can start makes the agent's slot wait (log entry 27, DEDUCED); it is performed
at one instant, and its reply completes the call with status 0, 5 or 6, or makes the sender trap. A handler that has
ended replies with v4, or with status 6. -/
def Obligations.RowCallsAndAgents : Prop :=
  ((∀ (o : RcF) (s : State), s.guardBit o.g = true →
      let n := o.size.bytes
      let va := (s.rS o.a.toNat).bits + o.off.signExtend 64
      let v := s.rV o.c.toNat
      let compares := (List.range (n / 4)).map (2 + ·)
      let clean := ∀ k ∈ compares, v.poison.getLsbD k = false
      let rd := { Need.load with c := true }
      let wr := { Need.store with c := true }
      let both := { Need.both with c := true }
      let sends := fun r : RcOp => Host.Outcome.next (φ := Fault) (ρ := Refusal)
        (if o.scope = .none then (s.sendRowCall r).waitOn .waitingMessage (.rowCall r)
        else s.waitOn .waitingMessage (.release (.rowCall r)))
      ((s.rS o.a.toNat).poison = true → exec (.rget o) s = s.trapsPoison o.a ∧ exec (.rput o) s = s.trapsPoison o.a ∧
        exec (.rcas o) s = s.trapsPoison o.a) ∧
      ((s.rS o.a.toNat).poison = false →
        (∀ k ∈ compares, v.poison.getLsbD k = true → (∀ j ∈ compares, j < k → v.poison.getLsbD j = false) →
          exec (.rcas o) s = s.traps 0x08 (poisonInfo o.c.toNat 1 k)) ∧
        (va.toNat % n ≠ 0 → exec (.rget o) s = s.traps 0x05 va ∧ exec (.rput o) s = s.traps 0x05 va ∧
          (clean → exec (.rcas o) s = s.traps 0x05 va)) ∧
        (va.toNat % n = 0 →
          (∀ b, s.access rd va n = .error b → exec (.rget o) s = .next (s.raise b)) ∧
          (∀ b, s.access wr va n = .error b → exec (.rput o) s = .next (s.raise b)) ∧
          (∀ b, clean → s.access both va n = .error b → exec (.rcas o) s = .next (s.raise b)) ∧
          (∀ x, s.access rd va n = .ok x → s.dataStop [(va.toNat, n)] true false = .ok () →
            exec (.rget o) s = sends (s.rowCallOp o.d.toNat o.c.toNat n va.toNat x .rget 0 n 0 ⟨0, 0⟩)) ∧
          (∀ x, s.access wr va n = .ok x → s.dataStop [(va.toNat, n)] false true = .ok () →
            exec (.rput o) s = sends (s.rowCallOp o.d.toNat o.c.toNat n va.toNat x .rput 0 n 0 (v.low n))) ∧
          (∀ x, clean → s.access both va n = .ok x → s.dataStop [(va.toNat, n)] true true = .ok () →
            exec (.rcas o) s = sends (s.rowCallOp o.d.toNat o.c.toNat n va.toNat x .rcas 0 n
              (BitVec.ofNat 64 ((v.bits.extractLsb' 64 64).toNat % 2 ^ (8 * n))) (v.low 16)))))) ∧
    (∀ (o : RcbF) (s : State), s.guardBit o.g = true →
      let va := (s.rS o.a.toNat).bits + o.off.signExtend 64
      let b := (s.rS o.b.toNat).bits
      let ty := b.toNat / 256 % 16
      let count := b.toNat % 32
      let w := if ty = 4 then 8 else 4
      let both := { Need.both with c := true }
      let sends := fun r : RcOp => Host.Outcome.next (φ := Fault) (ρ := Refusal)
        (if o.scope = .none then (s.sendRowCall r).waitOn .waitingMessage (.rowCall r)
        else s.waitOn .waitingMessage (.release (.rowCall r)))
      (∀ i : Instr, i ∈ [.radd o, .rcall o] →
        ((s.rS o.a.toNat).poison = true → exec i s = s.trapsPoison o.a) ∧
        ((s.rS o.a.toNat).poison = false → (s.rS o.b.toNat).poison = true → exec i s = s.trapsPoison o.b)) ∧
      ((s.rS o.a.toNat).poison = false → (s.rS o.b.toNat).poison = false →
        (raddRefused b o.size.bytes = true → exec (.radd o) s = s.traps 0x01 0x0A) ∧
        (raddRefused b o.size.bytes = false →
          (va.toNat % w ≠ 0 ∨ 128 < va.toNat % 128 + count * w → exec (.radd o) s = s.traps 0x05 va) ∧
          (va.toNat % w = 0 → va.toNat % 128 + count * w ≤ 128 →
            (∀ e, s.access both va (count * w) = .error e → exec (.radd o) s = .next (s.raise e)) ∧
            (∀ x, s.access both va (count * w) = .ok x → s.dataStop [(va.toNat, count * w)] true true = .ok () →
              exec (.radd o) s = sends (s.rowCallOp o.d.toNat o.c.toNat (count * w) va.toNat x .radd ty count 0
                ((s.rV o.c.toNat).low (count * w)))))) ∧
        (63 < b.toNat → exec (.rcall o) s = s.traps 0x01 0x0A) ∧
        (b.toNat ≤ 63 →
          (∀ e, s.access both va 1 = .error e → exec (.rcall o) s = .next (s.raise e)) ∧
          (∀ x, s.access both va 1 = .ok x → s.dataStop [(va.toNat, 1)] true true = .ok () →
            exec (.rcall o) s =
              sends (s.rowCallOp o.d.toNat o.c.toNat 1 va.toNat x .rcall 0 128 b (s.rV o.c.toNat))))))) ∧
  ((∀ (tile : Nat) (m : Msg) (rest : List Msg) (s : State),
      let off := m.place % 2 ^ 40
      let g := s.granule tile (off / 2 ^ 21)
      let s1 := s.modTile tile fun t => { t with inbox := rest }
      let starts := s1.modAgent tile fun t => { t with inflight := t.inflight ++ [⟨m⟩] }
      let st := if bitsOf (s.reg2 tile 0x08) 31 0 ≤ off then 2
        else if g = 0 then 1
        else if g ≠ 2 ∧ tileOfCore m.src ≠ tile then 3
        else if s.rowRepairing m.place = true then 4
        else 0
      (∀ fn n v q, m.op = .amo fn n v q → s.startMessage tile m rest = starts) ∧
      (m.op ∈ [MsgOp.rget, .rput, .radd, .rcas, .rcall] →
        s.startMessage tile m rest = if st = 0 then starts else (s1.sendReply m st ⟨0, 0⟩).agentState tile)) ∧
    (∀ (tile : Nat) (s : State) (f : Tile → Tile), s.modAgent tile f = (s.modTile tile f).agentState tile ∧
      (s.agentState tile).mem = s.mem ∧ (s.agentState tile).net = s.net ∧ (s.agentState tile).tiles = s.tiles ∧
      let st := (s.thread (stagingOf tile) 15).state
      ((s.agentState tile).thread (stagingOf tile) 15).state =
        if (s.tile tile).handler = none ∧ (st = .ready ∨ st = .waitingMessage) then
          (if s.canStart tile then .ready else .waitingMessage) else st) ∧
    (∀ (m : Msg) (s : State),
      let old := s.readBytes m.place m.len
      let elems := s.readBytes m.place m.bytes
      (m.op = .rget → s.vaultOperation m = (old.1, vecOfMarked old.2)) ∧
      (m.op = .rput → s.vaultOperation m = (s.perform (markedWrites m.place (m.data.bytes m.len)) none, ⟨0, 0⟩)) ∧
      (m.op = .radd → s.vaultOperation m =
        (elems.1.perform (markedWrites m.place (raddNew m elems.2)) none, vecOfMarked elems.2)) ∧
      (m.op = .rcas → s.vaultOperation m = (
        if numberOf old.2 = m.arg.toNat then old.1.perform (markedWrites m.place
          (((m.data.bytes 128).take m.len).map fun b => (b.1, b.2 || old.2.any Prod.snd))) none else old.1,
        vecOfMarked old.2)) ∧
      (∀ fn n v q, m.op = .amo fn n v q →
        let r := s.performAmo m.place fn n v.bits q.bits
        (s.vaultOperation m).1 = r.1 ∧ (s.vaultOperation m).2.bits.extractLsb' 0 64 = r.2.bits)) ∧
    (∀ (m : Msg) (old : List PByte) (i : Nat), i < m.len → m.len ≤ 16 →
      let w := if m.ty = 4 then 8 else 4
      let x := elemAt old w i
      let y := elemAt (m.data.bytes 128) w i
      elemAt (raddNew m old) w i =
        ((if m.ty = 0xA then Fmt.f32.add x.1 y.1 else x.1 + y.1) % 2 ^ (8 * w), x.2 || y.2)) ∧
    (∀ (tile : Nat) (m : Msg) (s s2 : State),
      let s1 := s.modTile tile fun t => { t with inflight := t.inflight.filter fun f => f.msg ≠ m }
      (s1.handlerEntry tile m.arg = (s2, none) → s.callHandler tile m = (s2.sendReply m 6 ⟨0, 0⟩).agentState tile) ∧
      (∀ h, s1.handlerEntry tile m.arg = (s2, some h) →
        let u := s.callHandler tile m
        let t := u.thread (stagingOf tile) 15
        (u.tile tile).handler = some m ∧ t.pc = h ∧ t.regs.getS 4 = ⟨BitVec.ofNat 64 m.place, false⟩ ∧
        t.regs.getS 5 = ⟨BitVec.ofNat 64 m.src, false⟩ ∧ t.regs.getS 6 = ⟨m.task, false⟩ ∧
        t.regs.getS 7 = ⟨BitVec.ofNat 64 m.slot, false⟩ ∧ t.regs.getS 1 = ⟨t.exit, false⟩ ∧ t.regs.getV 4 = m.data ∧
        (u.core (stagingOf tile)).agentSaved = some (s2.thread (stagingOf tile) 15))) ∧
    (∀ (t : Thread) (op : RcOp) (r : Reply),
      let u := if r.status = 0 then t.setV op.c (replyVector op (t.regs.getV op.c) r.data) else t
      let w := u.setS op.d ⟨BitVec.ofNat 64 r.status, false⟩
      t.takeReply op r = if op.msg.op = .rget then w else w.bump) ∧
    (∀ (op : RcOp) (old data : VVal),
      (op.msg.op ∈ [MsgOp.rget, .rcall] → replyVector op old data = data) ∧
      (op.msg.op = .rput → replyVector op old data = old) ∧
      (op.msg.op = .radd →
        let w := if op.msg.ty = 4 then 64 else 32
        LanesTake w old (replyVector op old data) (fun i => decide (i < op.msg.len)) fun i =>
          (laneOf data.bits w i, data.lanePoison w i)) ∧
      (op.msg.op = .rcas → LanesTake 64 old (replyVector op old data) (fun i => decide (i = 0)) fun _ =>
        (laneOf data.bits 64 0, (data.bytes op.n).any Prod.snd)))) ∧
  ((∀ (n tile : Nat) (msg : Msg) (s : State), s.net[n]? = some (.message tile msg) → s.messageBehind n tile msg.src = false →
      let t := s.tile tile
      let s1 := { s with net := s.net.take n ++ s.net.drop (n + 1) }
      let next := t.heapHead + t.backwater.length
      let room := s.heapUsable tile && decide (t.backwater.length < s.heapRoom tile)
      (t.inbox.length < 56 → t.backwater = [] →
        exec (.rowCallMessage n) s = .next (s1.modAgent tile fun t => { t with inbox := t.inbox ++ [msg] })) ∧
      (56 ≤ t.inbox.length ∨ t.backwater ≠ [] →
        (room = true → s.heapHeld tile next = true →
          exec (.rowCallMessage n) s = .next (s.callBanks [(s.heapSlot tile next, 160)])) ∧
        (room = true → s.heapHeld tile next = false → exec (.rowCallMessage n) s = .next (s1.appendHeap tile msg)) ∧
        (room = false → exec (.rowCallMessage n) s = .next (s1.refuseMessage tile msg)))) ∧
    (∀ (tile : Nat) (m : Msg) (s : State), m.op ∈ [MsgOp.rget, .rput, .radd, .rcas, .rcall] →
      let p := s.heapSlot tile ((s.tile tile).heapHead + (s.tile tile).backwater.length)
      (s.appendHeap tile m = ((s.perform (markedWrites p (m.image 0)) none).touchSpan p 160 .dflt).modTile tile fun t =>
        { t with backwater := t.backwater ++ [m] }) ∧
      (m.image 0).length = 160 ∧ s.refuseMessage tile m = (s.countRefused tile).sendReply m 5 ⟨0, 0⟩) ∧
    (∀ (tile : Nat) (msg : Msg) (rest : List Msg) (s : State),
      let t := s.tile tile
      let p := s.heapSlot tile t.heapHead
      t.backwater = msg :: rest →
      (32 < t.inbox.length → exec (.backwaterReplay tile) s = .next s) ∧
      (t.inbox.length ≤ 32 → s.heapHeld tile t.heapHead = true →
        exec (.backwaterReplay tile) s = .next (s.callBanks [(p, 160)])) ∧
      (t.inbox.length ≤ 32 → s.heapHeld tile t.heapHead = false →
        let x := s.readBytes p 160
        let s1 := (x.1.touchSpan p 160 .dflt).modTile tile fun t => { t with backwater := rest, heapHead := t.heapHead + 1 }
        exec (.backwaterReplay tile) s = .next (
          if (List.range 160).any (fun i => s.ecc.contains (codeword (p + i)).1) then s1.refuseMessage tile msg
          else s1.modAgent tile fun t => { t with inbox := t.inbox ++ [msg.ofImage x.2] }))) ∧
    (∀ (tile : Nat) (msg : Msg) (rest : List Msg) (s : State),
      let core := stagingOf tile
      s.pick core = some 15 → (s.tile tile).handler = none →
      (s.canStart tile = true → (s.tile tile).inbox = msg :: rest →
        exec (.agentMessageStart tile) s = .next ((s.markIssue core 15).startMessage tile msg rest)) ∧
      (s.canStart tile = false → exec (.agentMessageStart tile) s = .next ((s.markIssue core 15).agentState tile))) ∧
    (∀ (tile n : Nat) (msg : Msg) (s : State), (s.tile tile).inflight[n]? = some ⟨msg⟩ →
      (msg.op ≠ .rcall → s.arrivesAtomic msg = true →
        exec (.agentVaultOperation tile n) s = .next (s.holdAt msg.place (.atomic msg))) ∧
      (msg.op ≠ .rcall → s.arrivesAtomic msg = false → (∀ p ∈ chunksOf msg.place msg.bytes, s.bankStops p = false) →
        (∀ h, (s.heldFor msg.place).head? = some h → h = .atomic msg) →
        (∀ fn k v q, msg.op = .amo fn k v q → s.homesClear msg.src msg.slot msg.uid msg.place msg.len = true) →
        let r := s.vaultOperation msg
        ∃ t, exec (.agentVaultOperation tile n) s = .next t ∧ t.mem = r.1.mem ∧
          t.net = r.1.net ++ [.reply ⟨msg.src, msg.slot, msg.uid, 0, msg.place, r.2⟩]) ∧
      (msg.op = .rcall → (∀ p, s.handlerPlace tile msg.arg = some p → s.bankBusy p = false) →
        exec (.agentVaultOperation tile n) s = .next (s.callHandler tile msg))) ∧
    (∀ (tile manner at0 : Nat) (m : Bool) (msg : Msg) (back : Thread) (s : State),
      let core := stagingOf tile
      let t := s.thread core 15
      (s.tile tile).handler = some msg → t.findWait isEnding = some ⟨m, at0, .release (.ending manner)⟩ →
      s.drained core 15 t.uid = true → (s.core core).agentSaved = some back →
      ∃ u, exec (.rcallHandlerEnd tile) s = .next u ∧ (u.tile tile).handler = none ∧
        (u.thread core 15).state = (if u.canStart tile then .ready else .waitingMessage) ∧ (u.thread core 15).regs = back.regs ∧ (u.thread core 15).waits = back.waits ∧
        u.net = s.net ++ [.reply ⟨msg.src, msg.slot, msg.uid, if manner = 2 then 0 else 6, msg.place,
          if manner = 2 then t.regs.getV 4 else ⟨0, 0⟩⟩]) ∧
    (∀ (n at0 : Nat) (m : Bool) (r : Reply) (op : RcOp) (s : State), s.net[n]? = some (.reply r) →
      let slot := s.locate r.core r.slot r.uid
      let t := s.thread r.core slot
      t.uid = r.uid → t.findWait isRowCall = some ⟨m, at0, .rowCall op⟩ →
      let s1 := ({ s with net := s.net.take n ++ s.net.drop (n + 1) } : State).gaugeLatency r.core slot 0x03 (s.cycle - at0)
      exec (.rowCallReply n) s = .next (match r.status with
        | 1 => s1.trapWait r.core slot 0x13 (BitVec.ofNat 64 (r.place / 2 ^ 21 * 2 ^ 21)) m
        | 2 => s1.trapWait r.core slot 0x14 (BitVec.ofNat 64 r.place) m
        | 3 => s1.trapWait r.core slot 0x11 op.va m
        | 4 => s1.trapWait r.core slot 0x15 (BitVec.ofNat 64 (r.place / 2048 * 2048)) m
        | _ => s1.endWait r.core slot isRowCall fun t => t.takeReply op r)))

/-- R177, R181 to R183, R254, R255 and Table 9.5: in head mode the reach forms give the first failing status, or
change the entries that they name and no other; an install and an invalidation wait for the accesses in flight through
the entry. -/
def Obligations.ReachForms : Prop :=
  (∀ (o : SVS) (s : State), s.cur.slot = 0 → s.guardBit o.g = true →
    let v := s.rV o.a.toNat
    let i := (s.rS o.b.toNat).bits.toNat
    let w := fun k => v.bits.extractLsb' (64 * k) 64
    let e : Reach := ⟨w 0, w 1, w 2, w 3⟩
    let st := s.installStatus s.cur.core i e
    v.poison = 0 → (s.rS o.b.toNat).poison = false →
    (st ≠ 0 → exec (.rchins o) s = s.gives o.d ⟨BitVec.ofNat 64 st, false⟩) ∧
    (st = 0 → s.entryBusy s.cur.core i = true →
      exec (.rchins o) s = .next (s.waitOn .waitingMemory (.rchins o.d.toNat i (w 0) (w 1) (w 2) (w 3)))) ∧
    (st = 0 → s.entryBusy s.cur.core i = false →
      exec (.rchins o) s = (s.setReach s.cur.core i e).gives o.d ⟨0, false⟩)) ∧
  (∀ (o : SS) (s : State), s.cur.slot = 0 → s.guardBit o.g = true →
    let i := (s.rS o.a.toNat).bits.toNat
    let e := s.reach s.cur.core i
    (31 < i → exec (.rchinv o) s = s.gives o.d ⟨1, false⟩) ∧
    (i ≤ 31 → e.valid = false → exec (.rchinv o) s = s.gives o.d ⟨3, false⟩) ∧
    (i ≤ 31 → e.valid = true → ∃ w : W64, exec (.rchinv o) s =
      .next ((s.setReach s.cur.core i { e with w0 := w }).waitOn .waitingMemory (.rchinv o.d.toNat i)) ∧
      w.getLsbD 0 = false ∧ ∀ k < 64, k ≠ 0 → w.getLsbD k = e.w0.getLsbD k)) ∧
  (∀ (o : SSS) (s : State), s.cur.slot = 0 → s.guardBit o.g = true →
    let i := (s.rS o.a.toNat).bits.toNat
    let x := (s.rS o.b.toNat).bits
    let core := s.cur.core
    let e := s.reach core i
    let bad : Bool := x.toNat % 64 ≠ 0 || x.toNat ≤ e.base || e.limit ≤ x.toNat
    let free := fun j => !(s.reach core j).valid && !s.entryBusy core j
    (31 < i → exec (.rchspl o) s = s.gives o.d ⟨1, false⟩) ∧
    (i ≤ 31 → e.valid = false → exec (.rchspl o) s = s.gives o.d ⟨3, false⟩) ∧
    (i ≤ 31 → e.valid = true → bad = true → exec (.rchspl o) s = s.gives o.d ⟨7, false⟩) ∧
    (i ≤ 31 → e.valid = true → bad = false → (∀ j < 32, free j = false) → exec (.rchspl o) s = s.gives o.d ⟨8, false⟩) ∧
    (∀ j < 32, i ≤ 31 → e.valid = true → bad = false → free j = true → (∀ k < j, free k = false) →
      exec (.rchspl o) s =
        ((s.setReach core i { e with w1 := x }).setReach core j (e.upper x)).gives o.d ⟨BitVec.ofNat 64 (j * 256), false⟩ ∧
      (e.upper x).valid = true ∧ (e.upper x).base = x.toNat ∧ (e.upper x).limit = e.limit ∧ (e.upper x).w3 = e.w3)) ∧
  (∀ (o : SSS) (s : State), s.cur.slot = 0 → s.guardBit o.g = true →
    let i := (s.rS o.a.toNat).bits.toNat
    let j := (s.rS o.b.toNat).bits.toNat
    let core := s.cur.core
    let e := s.reach core i
    let f := s.reach core j
    let st : W64 := if 31 < i ∨ 31 < j then 1 else if e.valid = false ∨ f.valid = false then 3
      else if i = j ∨ e.merges f = false then 9 else 0
    (st ≠ 0 → exec (.rchmrg o) s = s.gives o.d ⟨st, false⟩) ∧
    (st = 0 → exec (.rchmrg o) s = ((s.setReach core i { e with w1 := f.w1 }).setReach core j
      { f with w0 := setBit f.w0 0 false }).gives o.d ⟨0, false⟩)) ∧
  (∀ (o : VS) (s : State), s.cur.slot = 0 → s.guardBit o.g = true →
    let i := (s.rS o.a.toNat).bits.toNat
    let e := s.reach s.cur.core i
    ∃ v : W1024, exec (.rchrd o) s = s.givesV o.d ⟨v, 0⟩ ∧
      (31 < i → v = 0) ∧
      (i ≤ 31 → v.extractLsb' 0 64 = e.w0 ∧ v.extractLsb' 64 64 = e.w1 ∧ v.extractLsb' 128 64 = e.w2 ∧
        v.extractLsb' 192 64 = e.w3 ∧ v.extractLsb' 256 768 = 0)) ∧
  (∀ (core at0 d i : Nat) (m : Bool) (s : State), s.entryBusy core i = false →
    ((s.thread core 0).findWait isRchWait = some ⟨m, at0, .rchinv d i⟩ →
      exec (.rchinvComplete core) s = .next (s.endWait core 0 isRchWait fun t => t.setS d ⟨0, false⟩)) ∧
    (∀ w0 w1 w2 w3, (s.thread core 0).findWait isRchWait = some ⟨m, at0, .rchins d i w0 w1 w2 w3⟩ →
      exec (.rchinvComplete core) s =
        .next ((s.setReach core i ⟨w0, w1, w2, w3⟩).endWait core 0 isRchWait fun t => t.setS d ⟨0, false⟩)))

/-- R258, R261, R269, R321, R332, R334 and R365: an engine form whose operands pass its checks takes the next of 8
queue entries with the control value accepted last; with all occupied its thread waits for one; a form that is refused
traps. A product with a semaphore wait joins the waiters of its semaphore first. An ast counts in the thread's coffer,
and one with a record reserves it. (The order among waiting threads is the model's choice: log entry 128.) R261 and
R361: acceptance refuses a control state that the form needs and does not find, then the first register that it reads
and that is not full, with its mask, then the first that holds a poisoned row, which is named in file 2, and the
operand latch as register 0 of file 3 (log entry 48, DEDUCED). -/
def Obligations.EngineQueueForms : Prop :=
  (∀ (s : State) (g : Guard), s.guardBit g = true →
      let tile := s.curTile
      let q := (s.tile tile).engineQ
      let entered := fun (t : State) (form : EngineForm) (bf : W64) =>
        (t.tile tile).engineQ = q ++ [{ s.engineOp form with bf := bf, fence := s.nextUid }] ∧
        (t.tile tile).eng = (s.tile tile).eng ∧ (t.tile tile).bfAccepted = bf ∧ ∀ a, t.byte a = s.byte a
      let enters := fun (r : Host.Outcome State Fault Refusal) (form : EngineForm) (bf : W64) =>
        (∀ c info, q.length < 8 → s.engineRefusal tile (s.engineOp form) = some (c, info) → r = s.traps c info) ∧
        (8 ≤ q.length → r = .next (s.waitOn .waitingMemory (.engineFull (s.engineOp form)))) ∧
        (q.length < 8 → s.engineRefusal tile (s.engineOp form) = none →
          ∃ t : State, r = .next t.advance ∧ t.cth = s.cth ∧ entered t form bf)
      let bf := (s.tile tile).bfAccepted
      (∀ o : MmaF, o.g = g →
        (o.ww = 0 → enters (exec (.mmabf o) s) (.product 0 o) bf ∧ enters (exec (.mmafh o) s) (.product 1 o) bf ∧
          enters (exec (.mmai8 o) s) (.product 2 o) bf ∧ enters (exec (.mmatw o) s) (.product 3 o) bf ∧
          enters (exec (.mmasp o) s) (.product 4 o) bf) ∧
        (o.ww ≠ 0 →
          let joins := fun fn : Nat => s.waitSem o.ws.toNat o.ww.toNat (some (s.engineOp (.product fn o)))
          exec (.mmabf o) s = .next (joins 0) ∧ exec (.mmafh o) s = .next (joins 1) ∧ exec (.mmai8 o) s = .next (joins 2) ∧
          exec (.mmatw o) s = .next (joins 3) ∧ exec (.mmasp o) s = .next (joins 4))) ∧
      (∀ o : SparF, o.g = g → enters (exec (.sparsify o) s) (.sparsify o) bf) ∧
      (∀ o : Acc1, o.g = g → enters (exec (.drev o) s) (.drev o) bf ∧ enters (exec (.azero o) s) (.azero o) bf) ∧
      (∀ o : BflyF, o.g = g → enters (exec (.bfly o) s) (.bfly o) bf) ∧
      (∀ o : AmovF, o.g = g → enters (exec (.amov o) s) (.amov o) bf) ∧
      (∀ o : A1, o.g = g →
        let x := s.rS o.a.toNat
        (x.poison = true → exec (.twset o) s = s.trapsPoison o.a) ∧
        (x.poison = false → bfOk x.bits = false → exec (.twset o) s = s.traps 0x01 0x0A) ∧
        (x.poison = false → bfOk x.bits = true → enters (exec (.twset o) s) (.twset x.bits) x.bits)) ∧
      (∀ o : TwmulF, o.g = g → (s.rS o.a.toNat).poison = false → (s.rS o.b.toNat).poison = false →
        let t := (s.rS o.a.toNat).bits
        let u := (s.rS o.b.toNat).bits
        (t = 0 ∨ 2 ^ 24 < t.toNat → exec (.twmul o) s = s.traps 0x01 0x0A) ∧
        (t ≠ 0 → t.toNat ≤ 2 ^ 24 → enters (exec (.twmul o) s) (.twmul o t.toNat u.toNat) bf)) ∧
      (∀ o : AldF, o.g = g → (s.rS o.a.toNat).poison = false →
        let va := (s.rS o.a.toNat).bits + o.off.signExtend 64
        (va.toNat % 64 ≠ 0 → exec (.ald o) s = s.traps 0x05 va) ∧
        (∀ c info, va.toNat % 64 = 0 → s.access .load va 4096 = .error (.trap c info) → exec (.ald o) s = s.traps c info) ∧
        (∀ x, va.toNat % 64 = 0 → s.access .load va 4096 = .ok x → s.dataStop [(va.toNat, 4096)] true false = .ok () →
          (2 ≤ spaceOfPlace x.place ∨ tileOfPlace x.place ≠ tile → exec (.ald o) s = s.traps 0x11 va) ∧
          (spaceOfPlace x.place < 2 → tileOfPlace x.place = tile →
            enters (exec (.ald o) s) (.ald o va x.place x.entry [] []) bf))) ∧
      (∀ o : AstF, o.g = g → (s.rS o.a.toNat).poison = false →
        let va := (s.rS o.a.toNat).bits + o.off.signExtend 64
        let n := if o.ty = 0 then 4096 else 2048
        (va.toNat % 64 ≠ 0 → exec (.ast o) s = s.traps 0x05 va) ∧
        (∀ c info, va.toNat % 64 = 0 → s.access .store va n = .error (.trap c info) → exec (.ast o) s = s.traps c info) ∧
        (∀ x, va.toNat % 64 = 0 → s.access .store va n = .ok x → s.dataStop [(va.toNat, n)] false true = .ok () →
          (2 ≤ spaceOfPlace x.place ∨ tileOfPlace x.place ≠ tile → exec (.ast o) s = s.traps 0x11 va) ∧
          (spaceOfPlace x.place < 2 → tileOfPlace x.place = tile →
            let form := fun (seq : Option Nat) (hs : List Shore) => EngineForm.ast o va x.place x.entry seq hs none
            let refused := s.engineRefusal tile (s.engineOp (form none []))
            let hs := (List.range 8).map s.cth.shore
            (∀ c info, q.length < 8 → refused = some (c, info) → exec (.ast o) s = s.traps c info) ∧
            (8 ≤ q.length ∨ refused = none ∧ o.rg = true ∧ s.reserveRing tile o.ring.toNat = none →
              exec (.ast o) s = .next (s.waitOn .waitingMemory (.engineFull (s.engineOp (form none []))))) ∧
            (q.length < 8 → refused = none → o.rg = false →
              ∃ t : State, exec (.ast o) s = .next t.advance ∧ t.cth = s.cth.bump ∧ entered t (form none hs) bf) ∧
            (∀ seq s1, q.length < 8 → refused = none → o.rg = true → s.reserveRing tile o.ring.toNat = some (seq, s1) →
              ∃ t : State, exec (.ast o) s = .next t.advance ∧
                t.cth = (s.cth.setS o.d.toNat ⟨BitVec.ofNat 64 seq, false⟩).bump ∧ entered t (form (some seq) hs) bf))))) ∧
  (∀ (s : State) (tile : Nat) (op : EngineOp),
      let e := s.engRegs tile op.gen
      (s.controlRefused tile op = true → s.engineRefusal tile op = some (0x01, 0x0B)) ∧
      (s.controlRefused tile op = false →
        (∀ l t r, op.form.reads = l ++ t :: r → (∀ x ∈ l, e.fill x = BitVec.allOnes 32) → e.fill t ≠ BitVec.allOnes 32 →
          s.engineRefusal tile op = some (0x1C, BitVec.ofNat 64 (t + 256 * (e.fill t).toNat))) ∧
        ((∀ x ∈ op.form.reads, e.fill x = BitVec.allOnes 32) →
          ((∀ x ∈ op.form.reads, e.rowPoison x = 0) → s.engineRefusal tile op = none) ∧
          (∀ l t r k, op.form.reads = l ++ t :: r → (∀ x ∈ l, e.rowPoison x = 0) → k < 32 →
            (e.rowPoison t).getLsbD k = true → (∀ j < k, (e.rowPoison t).getLsbD j = false) →
            s.engineRefusal tile op = some (0x08, if t = 8 then poisonInfo 0 3 k else poisonInfo t 2 k)))) ∧
      (∀ o : Acc1, op.form = .drev o → (s.controlRefused tile op = true ↔ bfNst (s.tile tile).bfAccepted = 0)) ∧
      (∀ o t u, op.form = .twmul o t u → (s.controlRefused tile op = true ↔ bfNst (s.tile tile).bfAccepted = 0)) ∧
      (∀ o : BflyF, op.form = .bfly o →
        (s.controlRefused tile op = true ↔ bfNst (s.tile tile).bfAccepted ≤ o.stage.toNat)) ∧
      (∀ o : MmaF, op.form = .product 4 o → (s.controlRefused tile op = true ↔ e.ivalid.getLsbD o.a.toNat = false)) ∧
      (∀ o va p en seq hs todo, op.form = .ast o va p en seq hs todo →
        (s.controlRefused tile op = true ↔ o.rg = true ∧ s.ringOn tile o.ring.toNat = false)))

/-- R262 to R265, R275, R285, R330 and R331: what the forms leave of the engine's registers. A product adds to each
element of its accumulator and to no other: exact INT8 products wrapped at 32 bits, or blocks of 32 rounded products
summed by the tree. R258, R259, R268, R332 to R335 and R346: the oldest entry leaves the queue with its effect on the
registers and, for a product, its release signal, which comes behind the signals of the cores in its cycle. An ald
reads its range in ascending accesses of 64 bytes and then fills its accumulator, and poison in it is an engine fault;
an ast checks its data against the shores that its thread had at acceptance and then stores them in ascending
accesses; a completion record is written behind every store that precedes it. An engine fault is kept for the thread
that issued the form, while it is there; else it is recorded, and the record's pc, insn and lineword are 0 by the
model's choice (log entry 127). A form that has waited only for the issues of the cycle enters the queue first. That
operands are read and results written at one instant at the end of the occupancy, and the ascending accesses, are the
model's choice as well (log entry 49). -/
def Obligations.EngineWork : Prop :=
  ((∀ (e : EngineRegs) (o : MmaF) (i j : Nat), i < 32 → j < 32 →
      let d := o.d.toNat
      let a := if o.lat then 8 else o.a.toNat
      let b := o.b.toNat
      let w := 32 * i + j
      let old := e.accWord d w
      ((e.product 2 o).accWord d w : Int) =
        ((old : Int) + ((List.range 64).map fun k => signedOf 8 (rowByte (e.row a i) k) * signedOf 8 (rowByte (e.row b j) k)).sum)
          % 2 ^ 32 ∧
      (∀ fn, fn = 0 ∨ fn = 1 →
        let f := if fn = 1 then Fmt.f16 else Fmt.bf16
        (e.product fn o).accWord d w = add32 old (tree32 ((List.range 32).map fun k =>
          Fmt.f32.rne ((f.decode (half (e.row a i) k)).mul (f.decode (half (e.row b j) k))))) % 2 ^ 32) ∧
      (∀ fn, fn = 3 ∨ fn = 4 →
        let l := e.products fn o i j
        (e.product fn o).accWord d w = add32 (add32 old (tree32 (l.take 32))) (tree32 (l.drop 32)) % 2 ^ 32) ∧
      (∀ fn c k, k < 1024 → c ≠ d → (e.product fn o).accWord c k = e.accWord c k) ∧
      (∀ fn, (e.product fn o).rows = e.rows ∧ (e.product fn o).mask = e.mask)) ∧
    (∀ (e : EngineRegs) (d k : Nat), k < 1024 →
      (e.azero d).accWord d k = 0 ∧ SMap.get 0 (e.azero d).aexp d = 0 ∧ ∀ c, c ≠ d → (e.azero d).accWord c k = e.accWord c k) ∧
    (∀ (e : EngineRegs) (o : AmovF) (i k : Nat), i < 32 → k < 32 →
      let d := o.d.toNat
      half ((e.amov o).row d i) k =
        (halfFmt o.fh).round o.rnd (Fmt.f32.decode (e.accWord o.a.toNat (32 * i + k))) % 2 ^ 16 ∧
      (e.amov o).fill d = BitVec.allOnes 32 ∧ (e.amov o).rowPoison d = 0 ∧ (e.amov o).acc = e.acc) ∧
    (∀ (e : EngineRegs) (bf : W64) (d p : Nat), p < bfN bf → bfN bf ≤ 512 →
      (e.drev bf d).elem d p = e.elem d (drevSource bf p)) ∧
    (∀ (e : EngineRegs) (bf : W64) (d t u k : Nat), k < bfN bf → bfN bf ≤ 512 → 0 < t →
      (k * u % t = 0 → (e.twmul bf d t u).elem d k = e.elem d k) ∧
      (k * u % t ≠ 0 → let r := cmul32 (e.elem d k) (twiddle (bfInv bf) (k * u % t) t)
        (e.twmul bf d t u).elem d k = (r.1 % 2 ^ 32, r.2 % 2 ^ 32))) ∧
    (∀ (e : EngineRegs) (o : SparF) (i g : Nat), i < 32 → g < 16 →
      let d := o.d.toNat
      let x := fun k => e.pairHalf o.a.toNat i (4 * g + k)
      let n := bitsOf ((e.sparsify o).index d i) (4 * g + 3) (4 * g)
      let r := fun k => magRank (halfFmt o.fh) (x k)
      n % 4 < n / 4 ∧ half ((e.sparsify o).row d i) (2 * g) = x (n % 4) % 2 ^ 16 ∧
      half ((e.sparsify o).row d i) (2 * g + 1) = x (n / 4) % 2 ^ 16 ∧
      ∀ k < 4, k ≠ n % 4 → k ≠ n / 4 → r k ≤ r (n % 4) ∧ r k ≤ r (n / 4))) ∧
  ((∀ (tile : Nat) (op : EngineOp) (rest : List EngineOp) (s : State), (s.tile tile).engineQ = op :: rest →
      (s.admittable tile = true → exec (.engineOperationEnd tile) s = .next (s.admitEngine tile)) ∧
      (s.admittable tile = false →
      let e := s.engRegs tile op.gen
      let ends := fun e' : EngineRegs => exec (.engineOperationEnd tile) s = .next ((s.setEng tile op.gen e').retire tile)
      (∀ fn o, op.form = .product fn o →
        (o.rk = 0 → ends (e.product fn o)) ∧
        (o.rk ≠ 0 → s.semPhase tile 1 = true → exec (.engineOperationEnd tile) s = .next
          ((((s.ordered (semUnit tile) 1).setEng tile op.gen (e.product fn o)).semSignal tile o.rs.toNat o.rk.toNat).retire
            tile))) ∧
      (∀ o, op.form = .sparsify o → ends (e.sparsify o)) ∧
      (∀ o, op.form = .drev o → ends (e.drev op.bf o.d.toNat)) ∧
      (∀ o, op.form = .bfly o → ends (e.bfly op.bf o)) ∧
      (∀ v, op.form = .twset v → ends { e with bfctl := v }) ∧
      (∀ o t u, op.form = .twmul o t u → ends (e.twmul op.bf o.d.toNat t u)) ∧
      (∀ o, op.form = .azero o → ends (e.azero o.d.toNat)) ∧
      (∀ o, op.form = .amov o → ends (e.amov o)) ∧
      (∀ o va p en got part, op.form = .ald o va p en got part → s.fenceClear op = true →
        let here := p + got.length
        (got.length < 4096 → spaceOfPlace here = 0 → part = [] → s.bankBusy here = false → s.throttled here = false →
          let r := s.readBytes here 64
          exec (.engineOperationEnd tile) s =
            .next ((r.1.touchRow here .dflt).setOldest tile { op with form := .ald o va p en (got ++ r.2) [] })) ∧
        (got.length < 4096 → spaceOfPlace here = 1 → wordsLeft 64 part ≠ [] →
          ∃ i ∈ wordsLeft 64 part,
            let r := State.readBytes { s with fresh := s.fresh + 1 } (here + 8 * i) 8
            let part' := SMap.set part i r.2
            let form := if wordsLeft 64 part' = [] then EngineForm.ald o va p en (got ++ wordBytes 64 part') []
              else EngineForm.ald o va p en got part'
            exec (.engineOperationEnd tile) s = .next (r.1.setOldest tile { op with form := form })) ∧
        (got.length = 4096 → got.any Prod.snd = false → ends (e.loadAcc o.d.toNat got)) ∧
        (∀ k, got.length = 4096 → got.findIdx? Prod.snd = some k → exec (.engineOperationEnd tile) s =
          .next ((s.engineFault op 0x08 3 (p + k)).retire tile))) ∧
      (∀ o va p en q hs, op.form = .ast o va p en q hs none → s.fenceClear op = true →
        let bytes := (e.astBytes o).map fun b => (b, false)
        let checked := shoreAll (fun i => hs[i]?.getD ⟨0, 0, 0⟩) [vbytes va.toNat bytes]
        (∀ u, checked = .error u →
          let bad := p + (u - va.toNat)
          exec (.engineOperationEnd tile) s =
            .next (((s.engineFault op 0x09 2 bad).recordAst tile op o q 8 0 bad).retire tile)) ∧
        (∀ l flags, checked = .ok (l, flags) →
          let form := EngineForm.ast o va p en q hs (some (chunks 64 64 (storedBytes va.toNat p l.flatten)))
          ∃ t : State, exec (.engineOperationEnd tile) s = .next (t.setOldest tile { op with form := form }) ∧
            (∀ c k, (c, k) ≠ (op.core, op.slot) → t.thread c k = s.thread c k) ∧ t.tiles = s.tiles ∧ t.mem = s.mem ∧
            let h := s.thread op.core op.slot
            t.thread op.core op.slot = if h.uid = op.uid ∧ h.task = op.task then h.flagShores flags else h)) ∧
      (∀ o va p en q hs l, op.form = .ast o va p en q hs (some l) → s.fenceClear op = true →
        let s1 := s.postFor { seq := 0, core := op.core, slot := 48, uid := 0, entry := en, head := false, home := 0,
                              kind := .plain, hint := .dflt, bytes := [] } (l.headD [])
        (l.tail ≠ [] → exec (.engineOperationEnd tile) s =
          .next (s1.setOldest tile { op with form := .ast o va p en q hs (some l.tail) })) ∧
        (l.tail = [] → exec (.engineOperationEnd tile) s =
          .next ((s1.recordAst tile op o q 0 (if o.ty = 0 then 4096 else 2048) 0).retire tile))))) ∧
    (∀ (s : State) (op : EngineOp) (cause fn place : Nat),
      let t := s.thread op.core op.slot
      let info := BitVec.ofNat 64 (cause + fn * 2 ^ 8 + place % 2 ^ 38 * 2 ^ 16)
      let there := t.uid = op.uid ∧ t.task = op.task ∧ t.state ≠ .idle ∧ t.state ≠ .swapped
      (there → s.engineFault op cause fn place =
        s.setThread op.core op.slot { t with engFault := t.engFault ++ [(0x21, info)] }) ∧
      (∀ ring, ¬there → s.trapRing op.core = some ring → s.engineFault op cause fn place =
        s.recordFor op.core op.slot 0x21 info op.task ⟨0, 0, none, 0, false, false⟩ ring) ∧
      (¬there → s.trapRing op.core = none → s.engineFault op cause fn place = s.stopCore op.core 0x21 info)) ∧
    (∀ (tile : Nat) (r : AstRecord) (rest : List AstRecord) (s : State), (s.tile tile).astRecords = r :: rest →
      (∀ p ∈ s.posted, p.core = computeOf tile → p.slot = 48 → r.fence ≤ p.seq) →
      exec (.astRecordWrite tile) s = .next ((s.modTile tile fun t => { t with astRecords := rest }).writeRecord tile r.ring
        (completionRecord r.status r.ring r.done r.fault r.seq r.task false))))

/-- R260, R266, R325 and R398: a gath checks its rows in ascending order and waits, the latch's mask cleared at once
unless an instruction accepted before it still reads the latch. Its words are read one by one, a row reaches the latch
with its last word, rows behind the last one named are zeros, and the full latch ends the wait. Poison of the address
comes before that of an index, and both before the alignment check (log entry 8, DEDUCED). R258, R267, R269, R270 and
R344 to R346: a signal adds to the count, which saturates at 0xFFFF with ovf set; semset writes it. A wait joins the
waiters; the oldest is granted once its count is there, from the cycle after its issue and behind the signals and sets
of the cycle, and its form completes or is accepted in the cycle after. A waiter that is not granted traps after the
stall limit. That the grant comes in the cycle after the wait's issue at the earliest is the model's choice (log entry
129). -/
def Obligations.GatherUnitAndSemaphores : Prop :=
  ((∀ (o : GathF) (s : State), s.guardBit o.g = true →
      let va := (s.rS o.a.toNat).bits
      let idx := s.rV o.b.toNat
      let n := o.n.toNat
      let tile := s.curTile
      let gen := (s.tile tile).engGen
      let later := isCompute s.cur.core && s.engReads tile 8 s.nextUid
      let row := fun k => gatherVa va idx.bits k
      let mine := fun x : Xlat => spaceOfPlace x.place = 1 ∧ tileOfPlace x.place = tile
      ((s.rS o.a.toNat).poison = true → exec (.gath o) s = s.trapsPoison o.a) ∧
      (∀ k < n, (s.rS o.a.toNat).poison = false → idx.poison.getLsbD k = true → (∀ j < k, idx.poison.getLsbD j = false) →
        exec (.gath o) s = s.traps 0x08 (poisonInfo o.b.toNat 1 k)) ∧
      ((s.rS o.a.toNat).poison = false → (∀ k < n, idx.poison.getLsbD k = false) →
        (va.toNat % 64 ≠ 0 → exec (.gath o) s = s.traps 0x05 va) ∧
        (va.toNat % 64 = 0 → s.gatherStop va idx.bits (List.range n) = .ok () →
          (∀ k < n, (∀ j < k, ∃ x, s.access .load (row j) 64 = .ok x ∧ mine x) →
            (∀ c info, s.access .load (row k) 64 = .error (.trap c info) → exec (.gath o) s = s.traps c info) ∧
            (∀ x, s.access .load (row k) 64 = .ok x → ¬mine x → exec (.gath o) s = s.traps 0x11 (row k))) ∧
          (∀ x : Nat → Xlat, (∀ k < n, s.access .load (row k) 64 = .ok (x k) ∧ mine (x k)) →
            exec (.gath o) s = .next
              ((if later then s else s.setEng tile gen ((s.engRegs tile gen).setFill 8 0)).waitOn .waitingMemory
                (.gather ((List.range n).map fun k => (x k).place) ((List.range n).map fun k => (x k).entry) gen s.nextUid
                  later [])))))) ∧
    (∀ (core slot at0 gen fence : Nat) (m : Bool) (places entries : List Nat) (got : SMap (List PByte)) (s : State),
      let tile := tileOfCore core
      let e := s.engRegs tile gen
      isCompute core = false ∨ s.engReads tile 8 fence = false →
      ((s.thread core slot).findWait isGather = some ⟨m, at0, .gather places entries gen fence true got⟩ →
        exec (.gatherComplete core slot) s = .next ((s.setEng tile gen (e.setFill 8 0)).modThread core slot fun t =>
          t.modWait isGather fun _ => .gather places entries gen fence false got)) ∧
      ((s.thread core slot).findWait isGather = some ⟨m, at0, .gather places entries gen fence false got⟩ →
        let wordAt := fun j => places.getD (j / 8) 0 + 8 * (j % 8)
        let ready := fun j => j ∈ gatherLeft places got ∧
          (places.length ≤ j / 8 ∨ s.homesClear core slot (s.thread core slot).uid (wordAt j) 8 = true)
        (∃ j, ready j) → ∃ j, ready j ∧
          let s0 := { s with fresh := s.fresh + 1 }
          let r := if j / 8 < places.length then s0.readBytes (wordAt j) 8 else (s0, [])
          let got' := SMap.set got j r.2
          let s1 := (r.1.modThread core slot fun t => t.modWait isGather fun _ => .gather places entries gen fence false got')
          let s2 := s1.gatherWord tile gen places got' (j / 8)
          exec (.gatherComplete core slot) s =
            .next (if gatherLeft places got' = [] ∧ (s2.engRegs tile gen).fill 8 = BitVec.allOnes 32 then
              s2.endWait core slot isGather id else s2))) ∧
    (∀ (s : State) (tile gen i : Nat) (places : List Nat) (got : SMap (List PByte)),
      (∀ j ∈ gatherLeft places got, j / 8 ≠ i) → s.gatherWord tile gen places got i =
        s.setEng tile gen ((s.engRegs tile gen).deliver 8 i
          (if i < places.length then (List.range 8).flatMap fun k => SMap.get [] got (8 * i + k)
           else List.replicate 64 (0, false)))) ∧
    (∀ (places : List Nat) (got : SMap (List PByte)) (j : Nat),
      j ∈ gatherLeft places got ↔ j / 8 < 32 ∧ (j / 8 < places.length ∨ j % 8 = 0) ∧ ∀ e ∈ got, e.1 ≠ j)) ∧
  ((∀ (o : SemF) (s : State), s.guardBit o.g = true →
      exec (.semsig o) s = .next (s.semSignal s.curTile o.d.toNat o.k.toNat).advance ∧
      exec (.semwait o) s = .next (s.waitSem o.d.toNat o.k.toNat none)) ∧
    (∀ (s : State) (sem w : Nat) (form : Option EngineOp),
      let x : SemWaiter := ⟨sem, s.cycle, s.cur.core, s.cur.slot⟩
      ((s.waitSem sem w form).tile s.curTile).semQ = insertWaiter x (s.tile s.curTile).semQ ∧
      ∃ b ∈ (s.waitSem sem w form).cth.waits, b.op = .sem sem w form none ∧ b.at0 = s.cycle) ∧
    (∀ (s : State) (tile n k : Nat),
      let r := semReg tile n
      let w := (s.semSignal tile n k).reg r
      w.toNat % 2 ^ 16 = min ((s.reg r).toNat % 2 ^ 16 + k) 0xFFFF ∧
      (w.getLsbD 16 = ((s.reg r).getLsbD 16 || decide (0xFFFF < (s.reg r).toNat % 2 ^ 16 + k))) ∧
      (∀ p, p / 8 ≠ r / 8 → (s.semSignal tile n k).reg p = s.reg p)) ∧
    (∀ (o : SemsetF) (s : State), s.guardBit o.g = true →
      let v := (s.rS o.a.toNat).bits
      ((s.rS o.a.toNat).poison = true → exec (.semset o) s = s.trapsPoison o.a) ∧
      ((s.rS o.a.toNat).poison = false → 2 ^ 16 ≤ v.toNat → exec (.semset o) s = s.traps 0x01 0x0A) ∧
      ((s.rS o.a.toNat).poison = false → v.toNat < 2 ^ 16 →
        ∃ t : State, exec (.semset o) s = .next t.advance ∧ t.semCount s.curTile o.d.toNat = v.toNat ∧
          (t.reg (semReg s.curTile o.d.toNat)).getLsbD 16 = (s.reg (semReg s.curTile o.d.toNat)).getLsbD 16 ∧
          t.cth = s.cth)) ∧
    (∀ (tile sem at0 w : Nat) (m : Bool) (form : Option EngineOp) (x : SemWaiter) (s : State),
      s.granted tile sem = none → (s.tile tile).semQ.find? (fun x => x.sem = sem) = some x → tileOfCore x.core = tile →
      (s.thread x.core x.slot).findWait isSem = some ⟨m, at0, .sem sem w form none⟩ →
      w ≤ s.semCount tile sem → at0 < s.cycle → s.semLimit tile = 0 ∨ s.cycle ≤ at0 + s.semLimit tile →
      s.semPhase tile 2 = true →
      ∃ t : State, exec (.semaphoreGrant tile sem) s = .next t ∧ t.semCount tile sem = s.semCount tile sem - w ∧
        (t.tile tile).semQ = (s.tile tile).semQ.filter (fun y => !(y.core = x.core && y.slot = x.slot)) ∧
        (t.thread x.core x.slot).findWait isSem = some ⟨m, at0, .sem sem w form (some s.cycle)⟩ ∧
        (t.thread x.core x.slot).regs = (s.thread x.core x.slot).regs) ∧
    (∀ (tile sem core slot at0 n w c : Nat) (m : Bool) (form : Option EngineOp) (s : State),
      s.granted tile sem = some (core, slot) →
      (s.thread core slot).findWait isSem = some ⟨m, at0, .sem n w form (some c)⟩ →
      (form = none → exec (.semaphoreGrant tile sem) s = .next (s.endWait core slot isSem id)) ∧
      (∀ op, form = some op →
        (∀ a, s.accept (tileOfCore core) op = .ok (some a) →
          exec (.semaphoreGrant tile sem) s = .next (a.s.endWait core slot isSem id)) ∧
        (s.accept (tileOfCore core) op = .ok none → exec (.semaphoreGrant tile sem) s =
          .next ((s.modThread core slot fun t => t.modWait isSem fun _ => .engineFull op).enterState core slot
            .waitingMemory 0)) ∧
        (∀ k info, s.accept (tileOfCore core) op = .error (k, info) → exec (.semaphoreGrant tile sem) s =
          .next ((s.undoGrant (tileOfCore core) op).trapWait core slot k info m)))) ∧
    (∀ (core slot at0 n w : Nat) (m : Bool) (form : Option EngineOp) (s : State),
      let tile := tileOfCore core
      let lim := s.semLimit tile
      (s.thread core slot).findWait isSem = some ⟨m, at0, .sem n w form none⟩ → lim ≠ 0 → at0 + lim ≤ s.cycle →
      s.semReady core slot n w = false ∨ at0 + lim < s.cycle → s.semPhase tile 2 = true →
      exec (.semaphoreStall core slot) s = .next (((s.ordered (semUnit tile) 2).leaveLists core slot).trapWait core slot 0x1D
        (BitVec.ofNat 64 (n + 65536 * w)) m)))

/-- R64 and R314 to R317 and R348: repb captures the words behind its unit, whose lines are fetched like its own, and
gives the run to a free sequencer, or waits for it; each line of theirs is checked as it is captured (log entry 123,
DEDUCED), and any word of a repeatable form is captured, other errors of it being found at its issue (log entry 55,
DEDUCED); an idle position issues the next captured instruction at the address it was captured from; one that traps
stops the run there; a run behind its last instruction ends; repstop ends a run at the end of its iteration, at once
between two (log entry 56, DEDUCED). -/
def Obligations.RepetitionBuffer : Prop :=
  (∀ (o : RepbF) (s : State), s.guardBit o.g = true →
    let core := s.cur.core
    let n := o.nm1.toNat + 1
    let found := s.capture core s.cth.task n s.afterUnit
    (∀ va x, found = .absent va → s.fetchCheck va = .ok x → exec (.repb o) s = .next (s.waitLine va x)) ∧
    (∀ va c info, found = .absent va → s.fetchCheck va = .error (.trap c info) → exec (.repb o) s = s.traps c info) ∧
    (∀ va, found = .broken va → exec (.repb o) s = (s.dropLine core va).traps 0x0C va) ∧
    (∀ lw, found = .illegal lw → exec (.repb o) s = s.traps 0x02 (lw.setWidth 64)) ∧
    (∀ l, found = .words l →
      (l.all repeatable = false → exec (.repb o) s = s.traps 0x01 0x0A) ∧
      (l.all repeatable = true →
        let r := runOf o s.memberPc s.afterUnit l
        let s1 := { s with unit := { s.unit with past := n } }
        (s.runSlot core = none → exec (.repb o) s = .next (s1.startRun core s.cur.slot r).advance) ∧
        (∀ k, s.runSlot core = some k → exec (.repb o) s = .next (s1.waitOn .waitingMemory (.seqBusy r)))))) ∧
  (∀ (o : G0) (s : State), s.guardBit o.g = true →
    ((∀ r, s.cth.run = some r → r.active = false) → exec (.repstop o) s = .next s.advance) ∧
    (∀ r, s.cth.run = some r → r.active = true →
      let s1 := (s.modCur fun t => { t with run := some { r with stopping := true } }).waitOn .waitingMemory .repstop
      exec (.repstop o) s = .next (if r.pos = 0 ∧ r.fault = none then s1.endRun s.cur.core s.cur.slot else s1))) ∧
  (∀ (core slot : Nat) (r : Run) (s : State), s.idlePosition core = true →
    s.runSlot core = some slot → (s.thread core slot).run = some r → (s.thread core slot).runGoes = true → r.fault = none →
    let s1 := s.modCore core fun c => { c with seqOwner := some slot }
    let marked := fun t : State => t.modCore core fun c => { c with lastUnit := some (t.cycle, slot, r.pc) }
    let t := s.thread core slot
    (r.stopping = true → r.pos = 0 → exec (.sequencerIssue core) s = .next (s1.endRun core slot)) ∧
    (r.stopping = false ∨ r.pos ≠ 0 → r.words ≠ [] →
      let w := stepWord r (r.words[r.pos]?.getD 0) r.iter
      let s2 := { s1 with cur := ⟨core, slot⟩, unit := capturedUnit r.pc w }
      let done := fun u : State =>
        let u1 := marked { (u.modThread core slot fun x => { x with pc := t.pc, nextPc := t.nextPc, run := r.next }) with
          unit := s.unit, cur := s.cur }
        if r.next.isNone then u1.endRun core slot else u1
      (∀ x, decodeChecked (isCompute core) w = .error x →
        exec (.sequencerIssue core) s = .next (marked (s1.faultRun core slot r 0x01 (BitVec.ofNat 64 x)))) ∧
      (∀ i u, decodeChecked (isCompute core) w = .ok i → runCaptured i s2 = some (.next u) →
        (∀ c info, u.unit.trap = some (c, info) →
          exec (.sequencerIssue core) s = .next (marked (s1.faultRun core slot r c info))) ∧
        (u.unit.trap = none → (u.thread core slot).waits = (s1.thread core slot).waits →
          exec (.sequencerIssue core) s = .next (done u)))) ∧
    (r.stopping = false → ∀ o, r.words ≠ [] → slot < 16 → t.waits = [] →
      decodeChecked (isCompute core) (stepWord r (r.words[r.pos]?.getD 0) r.iter) = .ok (.add o) →
      let x := t.regs.getS o.a.toNat
      let y := t.regs.getS o.b.toNat
      (t.regs.getP o.g.p.toNat).getLsbD 0 ≠ o.g.neg →
      ∃ u, exec (.sequencerIssue core) s = .next u ∧ (u.thread core slot).pc = t.pc ∧
        (u.thread core slot).regs = t.regs.setS o.d.toNat ⟨x.bits + y.bits, x.poison || y.poison⟩)) ∧
  (∀ (i : Instr) (s : State) (x : Host.Outcome State Fault Refusal), runCaptured i s = some x → x = exec i s) ∧
  (∀ (s : State) (core slot : Nat) (r : Run) (cause : Byte) (info : W64),
    (s.thread core slot).findWait isRunWait = none → ((s.faultRun core slot r cause info).thread core slot).run =
      some { r with fault := some (cause, info) }) ∧
  (∀ r : Run,
    r.pc = skipPos r.pos r.start ∧
    (r.pos + 1 < r.words.length → r.next = some { r with pos := r.pos + 1 }) ∧
    (r.words.length ≤ r.pos + 1 → r.next =
      if r.stopping = true ∨ r.count ≤ r.iter + 1 then none else some { r with pos := 0, iter := r.iter + 1 }))

/-- R287, R289, R292, R293, R336 to R338, R361 and R365: xfer waits for its record, which its ring gives once the
cores of the tile have made their issues of the cycle, or completes at once when none is free; with the record it
waits for its thread's stores, and then its request goes to the streamer of its source, whose acceptance completes it
with the sequence number. ringset moves ridx as far as records have been written; ringwait returns when the ring is
off, its widx differs or its bound has passed. What xfer refuses (log entry 51), that an xfer without a record counts
in the coffer (log entry 117) and that the sending core meets an uncorrectable entry of a handle, in place of the
reservation (log entry 118), are DEDUCED. R288 to R293, R296, R304 and R337: what streamers and rings do. An entry of
the handle table takes a value that keeps its conditions; a request starts when fewer than 4 transfers are active,
with the first failure of its checks in its status; a block is read, whole from a vault and word by word from a
scratchpad, and goes to its destination; a transfer whose blocks have all arrived writes its record, or its queue
entry. A ring that is enabled starts at zero, and is disabled only with no reservation. -/
def Obligations.Transfers : Prop :=
  ((∀ (o : XferF) (s : State), s.guardBit o.g = true → (s.rV o.a.toNat).poison = 0 →
      let v := (s.rV o.a.toNat).bits
      let ring := (descOf v).ring
      let tile := s.curTile
      (descRefused v = true ∨ s.ringOn tile ring = false → exec (.xfer o) s = s.traps 0x01 0x0A) ∧
      (descRefused v = false → s.ringOn tile ring = true → ∃ t : Transfer,
        exec (.xfer o) s = .next (State.waitOn { s with nextUid := s.nextUid + 1 } .waitingMessage (.release (.xfer t false))) ∧
        t.desc = descOf v ∧ t.d = o.d.toNat ∧ t.task = s.cth.task ∧ t.num = s.nextUid ∧ t.core = s.cur.core ∧
        t.slot = s.cur.slot ∧ t.uid = s.cth.uid ∧ t.ringTile = tile)) ∧
    (∀ (s : State) (tile n : Nat),
      let used := (s.ringWidx tile n + 2 ^ 32 - s.ringRidx tile n) % 2 ^ 32 + s.ringResv tile n
      (s.ringRoom tile n ≤ used → s.reserveRing tile n = none) ∧
      (used < s.ringRoom tile n → ∃ t, s.reserveRing tile n = some (s.ringSeq tile n, t) ∧
        t.ringSeq tile n = (s.ringSeq tile n + 1) % 2 ^ 32 ∧ t.ringResv tile n = (s.ringResv tile n + 1) % 2 ^ 13)) ∧
    (∀ (core slot at0 : Nat) (m : Bool) (x : Transfer) (s : State),
      let t := s.thread core slot
      let tile := tileOfCore core
      (t.findWait isRelease = some ⟨m, at0, .release (.xfer x false)⟩ → s.issuesDone tile = true →
        let s1 := s.closeIssues tile
        let broken := (x.desc.uses.filterMap fun u => s.handleBroken (deviceOfCore core) u.h).head?
        (s.reserveRing tile x.desc.ring = none → exec (.releaseDrained core slot) s =
          .next (s1.endWait core slot isUnreserved fun t => (t.setS x.d ⟨0x8000000000000002, false⟩).bump)) ∧
        (∀ q s2, s.reserveRing tile x.desc.ring = some (q, s2) →
          (broken = none → exec (.releaseDrained core slot) s = .next (s2.modThread core slot fun t =>
            t.modWait isUnreserved fun _ => .release (.xfer { x with seq := q } true))) ∧
          (∀ p, broken = some p → exec (.releaseDrained core slot) s =
            .next (s1.trapWait core slot 0x0A (BitVec.ofNat 64 p) m)))) ∧
      (t.findWait isRelease = some ⟨m, at0, .release (.xfer x true)⟩ → s.drained core slot t.uid = true →
        let s1 := s.modThread core slot fun t => t.modWait isRelease fun _ => .xferAccept x.d x.seq
        exec (.releaseDrained core slot) s = .next { s1 with net := s1.net ++ [.request (s1.streamerOf x) x] })) ∧
    (∀ (n tile : Nat) (x : Transfer) (s : State), s.net[n]? = some (.request tile x) → (s.tile tile).strInbox.length < 64 →
      let s1 := { s with net := s.net.take n ++ s.net.drop (n + 1) }
      let s2 := s1.modTile tile fun t => { t with strInbox := t.strInbox ++ [x] }
      exec (.streamerRequest n) s = .next (s2.endWait x.core (s2.locate x.core x.slot x.uid) isXferAccept fun th =>
        (th.setS x.d ⟨BitVec.ofNat 64 x.seq, false⟩).bump)) ∧
    (∀ (o : RingsetF) (s : State), s.guardBit o.g = true → (s.rS o.a.toNat).poison = false →
      let tile := s.curTile
      let n := o.ring.toNat
      let v := (s.rS o.a.toNat).bits.toNat % 2 ^ 32
      let ahead := (v + 2 ^ 32 - s.ringRidx tile n) % 2 ^ 32
      let there := (s.ringWidx tile n + 2 ^ 32 - s.ringRidx tile n) % 2 ^ 32
      (s.ringOn tile n = false → exec (.ringset o) s = s.gives o.d ⟨1, false⟩) ∧
      (s.ringOn tile n = true → there < ahead → exec (.ringset o) s = s.gives o.d ⟨2, false⟩) ∧
      (s.ringOn tile n = true → ahead ≤ there →
        let s1 := s.ordered (ringUnit tile n) (ringKey s.cur.core s.cur.slot)
        exec (.ringset o) s = ((s1.setReg (ringReg tile n 2) (BitVec.ofNat 64 v)).admitEngine tile).gives o.d ⟨0, false⟩)) ∧
    (∀ (o : RingwaitF) (s : State), s.guardBit o.g = true → (s.rS o.a.toNat).poison = false → (s.rS o.b.toNat).poison = false →
      exec (.ringwait o) s = .next (s.waitOn .waitingMessage (.ringwait o.ring.toNat o.d.toNat
        ((s.rS o.a.toNat).bits.setWidth 32) (s.rS o.b.toNat).bits.toNat))) ∧
    (∀ (core slot at0 n d bound : Nat) (m : Bool) (seen : BitVec 32) (s : State),
      let tile := tileOfCore core
      (s.thread core slot).findWait isRingwait = some ⟨m, at0, .ringwait n d seen bound⟩ →
      let widx := s.ringWidx tile n
      let returns := fun x : Nat => exec (.ringwaitWake core slot) s =
        .next (s.endWait core slot isRingwait fun t => t.setS d ⟨BitVec.ofNat 64 (widx + x), false⟩)
      (s.ringOn tile n = false → returns (2 ^ 62)) ∧
      (s.ringOn tile n = true → widx ≠ seen.toNat → returns 0) ∧
      (s.ringOn tile n = true → widx = seen.toNat → bound ≠ 0 → at0 + bound ≤ s.cycle → returns (2 ^ 63)))) ∧
  ((∀ (dev i w : Nat) (v : W64) (s : State), i < 4096 →
      exec (.handleEntryWrite dev i w v) s =
        .next (if s.handleTakes dev i w v then s.setReg (handleReg dev i w) v else s)) ∧
    (∀ (tile : Nat) (x : Transfer) (rest : List Transfer) (s : State), (s.tile tile).strInbox = x :: rest →
      (s.tile tile).strActive.length < 4 →
      (∀ st f, s.transferCheck x = some (st, f) → ∃ t : State, exec (.streamerStart tile) s = .next t ∧
        (t.tile tile).strInbox = rest ∧
        (t.tile tile).strActive = (s.tile tile).strActive ++ [{ x with status := st, fault := f }]) ∧
      (s.transferCheck x = none → ∃ (t : State) (y : Transfer), exec (.streamerStart tile) s = .next t ∧
        (t.tile tile).strInbox = rest ∧ (t.tile tile).strActive = (s.tile tile).strActive ++ [y] ∧
        y.todo = List.range (x.desc.len / 64) ∧ y.passed = true ∧ y.desc = x.desc ∧ y.num = x.num ∧
        y.srcPlace = s.handlePlace (deviceOfCore x.core) x.desc.srch + x.desc.srco.toNat ∧
        y.dstPlace = s.handlePlace (deviceOfCore x.core) x.desc.dsth + x.desc.dsto.toNat)) ∧
    (∀ (tile n block : Nat) (x : Transfer) (s : State), (s.tile tile).strActive[n]? = some x → block ∈ x.todo →
      (x.desc.inflow = true → x.todo.head? = some block → s.inflowBound x.desc.dsth = false →
        exec (.streamerBlock tile n block) s = .next (s.setTransfer tile n { x with status := 7, fault := 0, todo := [] })) ∧
      (x.desc.inflow = false ∨ (x.todo.head? = some block ∧ s.inflowBound x.desc.dsth = true ∧
          (let f := inflowTarget x.desc.dsth; s.inflowLoad f.1 f.2.1 f.2.2.1 f.2.2.2 < 32)) →
        let p := x.srcPlace + 64 * block
        let old := SMap.get [] x.part block
        (spaceOfPlace p = 0 → old = [] → s.bankBusy p = false →
          let r := s.readBytes p 64
          exec (.streamerBlock tile n block) s = .next ((r.1.touchRow p .dflt).sendBlock tile n block x r.2)) ∧
        (spaceOfPlace p = 1 → wordsLeft 64 old ≠ [] → ∃ i ∈ wordsLeft 64 old,
          let r := State.readBytes { s with fresh := s.fresh + 1 } (p + 8 * i) 8
          let got := SMap.set old i r.2
          exec (.streamerBlock tile n block) s = .next (
            if wordsLeft 64 got = [] then r.1.sendBlock tile n block x (wordBytes 64 got)
            else r.1.setTransfer tile n { x with part := SMap.set x.part block got })))) ∧
    (∀ (tile n block : Nat) (x : Transfer) (data : List PByte) (s : State),
      let s1 := s.setTransfer tile n (x.moved block data)
      (x.desc.inflow = false → s.sendBlock tile n block x data =
        s1.postFor { seq := 0, core := stagingOf tile, slot := 50, uid := x.num, entry := 99, head := false, home := 0,
                     kind := .plain, hint := .dflt, bytes := [] } (markedWrites (x.dstPlace + 64 * block) data)) ∧
      (x.desc.inflow = true →
        let f := inflowTarget x.desc.dsth
        s.sendBlock tile n block x data = { s1 with net := s1.net ++ [.inflow f.1 f.2.1 f.2.2.1 f.2.2.2 data tile x.num] })) ∧
    (∀ (x : Transfer) (block : Nat) (data : List PByte),
      let y := x.moved block data
      block ∉ y.todo ∧ y.done = x.done + 64 ∧ (data.any Prod.snd = true → y.status = 4) ∧
      (data.any Prod.snd = false → y.status = x.status ∧ y.fault = x.fault)) ∧
    (∀ (tile n : Nat) (x : Transfer) (s : State), (s.tile tile).strActive[n]? = some x → s.transferDone x = true →
      let core := bitsOf x.desc.qtgt 52 32
      let ep := bitsOf x.desc.qtgt 30 28
      let q := s.qBuf core ep
      let s1 := s.modTile tile fun t => { t with strActive := t.strActive.take n ++ t.strActive.drop (n + 1) }
      let s2 := if x.passed then s1.countBusy x false else s1
      let open_ := ep ≠ 0 ∧ s.qOn core ep = true ∧ s.qRecv core ep = true
      (x.desc.push = false → exec (.transferComplete tile n) s = .next (s2.ringRecord x false)) ∧
      (x.desc.push = true → ¬open_ → exec (.transferComplete tile n) s = .next (s2.ringRecord x true)) ∧
      (x.desc.push = true → open_ → q.held.length < s.qDepth core ep → q.room = [] →
        let s3 := s2.bufferEntry core ep q ⟨completionEntry x, none⟩
        exec (.transferComplete tile n) s =
          .next ((if x.ringDead then s3 else s3.releaseRing x.ringTile x.desc.ring).servePops core ep))) ∧
    (∀ (tile n : Nat) (v : W64) (s : State), n < 16 →
      (v.getLsbD 63 = true → s.ringOn tile n = false → ∃ t, exec (.ringEnable tile n v) s = .next t ∧
        t.ringOn tile n = true ∧ t.ringWidx tile n = 0 ∧ t.ringRidx tile n = 0 ∧ t.ringResv tile n = 0) ∧
      (v.getLsbD 63 = false → s.ringOn tile n = true →
        (s.ringResv tile n ≠ 0 → exec (.ringDisable tile n v) s = .next s) ∧
        (s.ringResv tile n = 0 → ∃ t, exec (.ringDisable tile n v) s = .next t ∧ t.ringOn tile n = false)) ∧
      (s.inOrder (ringUnit tile n) (reserveKey - 1) = true → exec (.ridxStore tile n v) s =
        .next (((s.ordered (ringUnit tile n) (reserveKey - 1)).setReg (ringReg tile n 2) (BitVec.ofNat 64 (v.toNat % 2 ^ 32))).admitEngine tile))))

/-- R295 to R297, R339 and R341: ibind binds an inflow with an empty buffer, iunbind unbinds it, qpop of one takes its
oldest element or waits for it; the blocks of a transfer arrive in the order in which they were sent; one that finds
its inflow bound joins its buffer, and one that does not ends its transfer. -/
def Obligations.Inflows : Prop :=
  (∀ (o : IbindF) (s : State), s.guardBit o.g = true → exec (.ibind o) s = .next (s.modCur fun t =>
    { t with inflows := SMap.set t.inflows o.d.toNat ⟨true, o.wcode.toNat, o.id.toNat, []⟩ }).advance) ∧
  (∀ (o : IunbindF) (s : State), s.guardBit o.g = true → exec (.iunbind o) s = .next (s.modCur fun t =>
    { t with inflows := SMap.set t.inflows o.d.toNat ⟨false, 0, 0, []⟩ }).advance) ∧
  (∀ (o : QpopF) (s : State), s.guardBit o.g = true → o.kind ≠ .queue →
    let i := o.a.toNat % 4
    let f := s.cth.inflow i
    let vec := decide (o.kind = .inflowVector)
    let w := if f.wcode = 4 then 128 else 2 ^ f.wcode
    (f.bound = false ∨ (decide (f.wcode = 4)) ≠ vec → exec (.qpop o) s = s.traps 0x01 0x0B) ∧
    (f.bound = true → decide (f.wcode = 4) = vec →
      (f.buf.length < w → exec (.qpop o) s = .next (s.waitOn .waitingMessage (.inflow i vec o.d.toNat))) ∧
      (w ≤ f.buf.length →
        let x := f.buf.take w
        let t := { s.cth with inflows := SMap.set s.cth.inflows i { f with buf := f.buf.drop w } }
        exec (.qpop o) s = .next (s.setThread s.cur.core s.cur.slot
          (if vec then t.setV o.d.toNat (vecOfMarked x)
           else t.setS o.d.toNat ⟨BitVec.ofNat 64 (numberOf x), x.any Prod.snd⟩)).advance))) ∧
  (∀ (n core slot i id tile num : Nat) (data : List PByte) (s : State),
    s.net[n]? = some (.inflow core slot i id data tile num) →
    let early := (s.net.take n).any fun p =>
      match p with
      | .inflow _ _ _ _ _ _ k => k = num
      | _ => false
    let s1 := { s with net := s.net.take n ++ s.net.drop (n + 1) }
    (early = true → exec (.inflowBlock n) s = .next s) ∧
    (early = false → s1.inflowSlot core slot i id = none → exec (.inflowBlock n) s =
      .next (s1.modTile tile fun x => { x with strActive := x.strActive.map (unboundTransfer num) })) ∧
    (∀ k, early = false → s1.inflowSlot core slot i id = some k → exec (.inflowBlock n) s =
      let more := fun t : Thread => { t.inflow i with buf := (t.inflow i).buf ++ data }
      .next ((s1.modThread core k fun t => { t with inflows := SMap.set t.inflows i (more t) }).serveInflow core k))) ∧
  (∀ (num : Nat) (t : Transfer),
    (t.num ≠ num → unboundTransfer num t = t) ∧
    (t.num = num → (unboundTransfer num t).todo = [] ∧ (t.status ≠ 6 → (unboundTransfer num t).status = 7) ∧
      (t.status = 6 → (unboundTransfer num t).status = 6))) ∧
  (∀ (core slot at0 i d : Nat) (m vec : Bool) (s : State) (t : Thread),
    (s.thread core slot).findWait isInflow = some ⟨m, at0, .inflow i vec d⟩ → s.queueOut core at0 = false →
    (s.thread core slot).takeInflow i vec d = some t →
    s.serveInflow core slot = (((s.setThread core slot t).gaugeLatency core slot 0x06 (s.cycle - at0)).endWait core slot
      isInflow id))

/-- R298 to R302 and R340 to R342: a push on a send endpoint takes a credit and sends its entry to the peer, or waits;
a pop takes the oldest entry, returns its credit and takes in one that waits for room, or waits; q0 is the riser of
the tile. An endpoint that is off, or is of the other kind, is refused. qfree gives the free entries, but for those
that the other core has popped in its cycle, the credits or the entries held. R298 to R302: entries of one sender
arrive in push order; one that reaches its receive endpoint is held, its bytes in the endpoint's buffer, waits for
room, or is dropped with its credit returned; a credit raises its sender's count, both in a later cycle than the one
that sent them (R342); an entry of the riser becomes poppable once it has crossed; a push or a pop that has waited as
long as the limit can only trap; an endpoint that is enabled starts empty, a sender with its credits. Which slot of
the buffer an entry takes is the model's choice (log 115). -/
def Obligations.Queues : Prop :=
  ((∀ (o : QpushF) (s : State), s.guardBit o.g = true → (s.rV o.a.toNat).poison = 0 →
      let core := s.cur.core
      let ep := o.d.toNat
      let v := s.rV o.a.toNat
      let waits := Host.Outcome.next (φ := Fault) (ρ := Refusal) (s.waitOn .waitingMessage (.queuePush ep v))
      (ep = 0 →
        (s.riserFree s.curTile (!isCompute core) = 0 → exec (.qpush o) s = waits) ∧
        (s.riserFree s.curTile (!isCompute core) ≠ 0 → exec (.qpush o) s = .next
          (s.setRiser s.curTile (!isCompute core) ((s.tile s.curTile).riser (!isCompute core) ++ [⟨v, false⟩])).advance)) ∧
      (ep ≠ 0 →
        (s.qOn core ep = false ∨ s.qRecv core ep = true → exec (.qpush o) s = s.traps 0x01 0x0B) ∧
        (s.qOn core ep = true → s.qRecv core ep = false →
          (s.qCount core ep = 0 → exec (.qpush o) s = waits) ∧
          (s.qCount core ep ≠ 0 → ∃ t : State, exec (.qpush o) s = .next t.advance ∧
            t.qCount core ep = s.qCount core ep - 1 ∧ t.cores = s.cores ∧ t.mem = s.mem ∧
            t.net = s.net ++ [.queueEntry core ep (s.qPeer core ep).1 (s.qPeer core ep).2 v s.cycle])))) ∧
    (∀ (o : QpopF) (s : State), s.guardBit o.g = true → o.kind = .queue →
      let core := s.cur.core
      let ep := o.a.toNat
      let take := if ep = 0 then s.riserPop core else s.takeEntry core ep
      (ep ≠ 0 → s.qOn core ep = false ∨ s.qRecv core ep = false → exec (.qpop o) s = s.traps 0x01 0x0B) ∧
      (ep = 0 ∨ (s.qOn core ep = true ∧ s.qRecv core ep = true) →
        (take = none → exec (.qpop o) s = .next (s.waitOn .waitingMessage (.queuePop ep o.d.toNat))) ∧
        (∀ v s1, take = some (v, s1) →
          exec (.qpop o) s = .next ((s1.wV o.d.toNat v).servePushes (otherCore core) 0).advance))) ∧
    (∀ (core : Nat) (s : State) (e : RiserEntry) (r : List RiserEntry),
      (s.tile (tileOfCore core)).riser (isCompute core) = e :: r →
      (e.arrived = false → s.riserPop core = none) ∧
      (e.arrived = true → ∃ t, s.riserPop core = some (e.data, t) ∧ (t.tile (tileOfCore core)).riser (isCompute core) = r ∧
        t.riserFree (tileOfCore core) (isCompute core) = (16 - r.length) % 32)) ∧
    (∀ (core ep : Nat) (s : State) (e : QEntry) (r : List QEntry), (s.qBuf core ep).held = e :: r →
      let q := s.qBuf core ep
      let credit := match e.credit with
        | some (c, k) => [Packet.credit c k core ep s.cycle]
        | none => []
      (q.room = [] → ∃ t, s.takeEntry core ep = some (e.data, t) ∧ (t.qBuf core ep).held = r ∧ t.net = s.net ++ credit) ∧
      (∀ x y, q.room = x :: y → r.length + 1 ≤ s.qDepth core ep → ∃ t, s.takeEntry core ep = some (e.data, t) ∧
        (t.qBuf core ep).held = r ++ [x] ∧ (t.qBuf core ep).room = y)) ∧
    (∀ (o : QfreeF) (s : State), s.guardBit o.g = true →
      let core := s.cur.core
      let ep := o.a.toNat
      let n := if ep = 0 then s.riserFree s.curTile (!isCompute core) - s.popsNow s.curTile (!isCompute core)
        else if s.qOn core ep then s.qCount core ep else 0
      exec (.qfree o) s = s.gives o.d ⟨BitVec.ofNat 64 n, false⟩)) ∧
  ((∀ (n fc fe core ep at0 : Nat) (data : VVal) (s : State), s.net[n]? = some (.queueEntry fc fe core ep data at0) →
      at0 < s.cycle →
      let early := (s.net.take n).any fun p =>
        match p with
        | .queueEntry c e d f _ _ => c = fc && e = fe && d = core && f = ep
        | _ => false
      let s1 := { s with net := s.net.take n ++ s.net.drop (n + 1) }
      let q := s1.qBuf core ep
      let ok : Bool := s.qOn core ep && s.qRecv core ep && s.qPeer core ep = (fc, fe)
      (early = true → exec (.queueEntryArrival n) s = .next s) ∧
      (early = false →
        (ok = false → exec (.queueEntryArrival n) s = .next ((s1.countDrop core ep).sendCredit fc fe core ep)) ∧
        (ok = true → q.held.length < s.qDepth core ep → q.room = [] → exec (.queueEntryArrival n) s =
          .next ((s1.bufferEntry core ep q ⟨data, some (fc, fe)⟩).servePops core ep)) ∧
        (ok = true → s.qDepth core ep ≤ q.held.length ∨ q.room ≠ [] → exec (.queueEntryArrival n) s =
          .next (s1.setQBuf core ep { q with room := q.room ++ [⟨data, some (fc, fe)⟩] })))) ∧
    (∀ (core ep : Nat) (q : QBuf) (e : QEntry) (s : State),
      s.bufferEntry core ep q e =
        (s.perform (markedWrites (s.qPlace core ep q.next) (e.data.bytes 128)) none).setQBuf core ep
          { q with held := q.held ++ [e], next := q.next + 1 }) ∧
    (∀ (core ep : Nat) (q : QBuf) (s : State), ep < 8 → q.held.length < 64 →
      (s.setQBuf core ep q).qBuf core ep = q ∧ (s.setQBuf core ep q).qCount core ep = q.held.length) ∧
    (∀ (n fc fe core ep at0 : Nat) (s : State), s.net[n]? = some (.credit core ep fc fe at0) → at0 < s.cycle →
      let s1 := { s with net := s.net.take n ++ s.net.drop (n + 1) }
      let ok : Bool := s.qOn core ep && !s.qRecv core ep && s.qPeer core ep = (fc, fe)
      exec (.queueCreditArrival n) s = .next (if ok then
        (s1.setQCount core ep (s.qCount core ep + 1)).servePushes core ep else s1.countDrop core ep)) ∧
    (∀ (tile : Nat) (up : Bool) (e : RiserEntry) (a b : List RiserEntry) (s : State),
      (s.tile tile).riser up = a ++ e :: b → (∀ x ∈ a, x.arrived = true) → e.arrived = false → s.busStopped tile true = false →
      let core := if up then computeOf tile else stagingOf tile
      exec (.riserArrival tile up) s = .next (((s.modTile tile fun t => t.setRiser up (a ++ { e with arrived := true } :: b)).servePops
        core 0).servePushes (otherCore core) 0)) ∧
    (∀ (core slot at0 : Nat) (m : Bool) (w : Wait) (x : Nat) (s : State),
      (s.thread core slot).findWait (fun w => (stallInfo w).isSome) = some ⟨m, at0, w⟩ → stallInfo w = some x →
      s.queueLimit core ≠ 0 → at0 + s.queueLimit core ≤ s.cycle →
      exec (.queueStall core slot) s = .next (s.trapWait core slot 0x1F (BitVec.ofNat 64 x) m)) ∧
    (∀ (core slot at0 ep d : Nat) (m : Bool) (v : VVal) (s : State), s.queueLimit core ≠ 0 → at0 + s.queueLimit core ≤ s.cycle →
      ((s.thread core slot).findWait (isPush ep) = some ⟨m, at0, .queuePush ep v⟩ → s.servePush core ep slot = s) ∧
      ((s.thread core slot).findWait (isPop ep) = some ⟨m, at0, .queuePop ep d⟩ → s.servePop core ep slot = s)) ∧
    (∀ (core ep : Nat) (v : W64) (s : State), 1 ≤ ep → ep < 8 →
      (v.getLsbD 63 = true → s.qOn core ep = false → s.waitersOf core (isPush ep) = [] →
        ∃ t, exec (.queueEnable core ep v) s = .next t ∧
        t.qOn core ep = true ∧ t.qRecv core ep = v.getLsbD 62 ∧ t.qBuf core ep = ⟨[], [], 0⟩ ∧
        t.qCount core ep = (if v.getLsbD 62 then 0 else v.toNat % 64)) ∧
      (v.getLsbD 63 = false → s.qOn core ep = true → exec (.queueDisable core ep v) s =
        .next (((s.setReg (queueReg core ep 0) (setBit (s.reg (queueReg core ep 0)) 63 false)).setQBuf core ep
          ⟨[], [], 0⟩).endpointOff core ep))))

/-- R179, R305, R306, R309 to R313, R343 and R398: bxf refuses a command that breaks its conditions, checks its
operands in order and otherwise waits for its unit. The unit makes its accesses one word at one instant, behind every
earlier store of its thread, and when those of a phase are made goes on, completes the bxf or makes it trap. A
compress makes an entry invalid before it reads the source of its piece. The phases, with the whole source read before
the first write, and the offset that an overrun reports are log entry 54 (DEDUCED). A transpose exchanges row and
column; a reduce of INT32 adds modulo 2^32. -/
def Obligations.BankTransforms : Prop :=
  (∀ (o : BxfF) (s : State), s.guardBit o.g = true → (s.rV o.a.toNat).poison = 0 →
    let v := (s.rV o.a.toNat).bits
    (commandOf v = none → exec (.bxf o) s = s.traps 0x01 0x0A) ∧
    (∀ c, commandOf v = some c → commandRefused v c = true → exec (.bxf o) s = s.traps 0x01 0x0A) ∧
    (∀ c, commandOf v = some c → commandRefused v c = false → s.bxfStop c = .ok () →
      let srcs := c.inputs.mapM fun a => s.bxfAccess .load a c.srcBytes c.exp
      let dst := s.bxfAccess .store c.dst c.dstBytes c.cmp
      (∀ b, srcs = .error b → exec (.bxf o) s = .next (s.raise b)) ∧
      (∀ l b, srcs = .ok l → dst = .error b → exec (.bxf o) s = .next (s.raise b)) ∧
      (∀ l x, srcs = .ok l → dst = .ok x → ∃ c2 : BxfOp,
        exec (.bxf o) s = .next (s.waitOn .waitingMemory (.bxf c2 ⟨0, 0, c2.entryReads, [], []⟩)) ∧
          c2.srcPlaces = l.map Xlat.place ∧ c2.dstPlace = x.place ∧ c2.n = c.n ∧ c2.etype = c.etype))) ∧
  (∀ (s : State) (nd : Need) (va : W64) (bytes : Nat) (x : Xlat), s.bxfAccess nd va bytes false = .ok x ↔
    va.toNat % 64 = 0 ∧ s.access nd va bytes = .ok x ∧ tileOfPlace x.place = s.curTile ∧ spaceOfPlace x.place = 1) ∧
  (∀ (core slot at0 : Nat) (m : Bool) (c : BxfOp) (r : BxfRun) (s : State),
    (s.thread core slot).findWait isBxf = some ⟨m, at0, .bxf c r⟩ → s.drained core slot (s.thread core slot).uid = true →
    let s0 := { s with fresh := s.fresh + 1 }
    (r.reads ≠ [] → ∃ x ∈ r.reads,
      let b := s0.readBytes x.2 8
      exec (.transformCommandComplete core slot) s = .next (b.1.setBxf core slot c
        { r with reads := r.reads.filter (· ≠ x), got := SMap.set r.got x.1 b.2 })) ∧
    (∀ g rest, r.reads = [] → r.writes = g :: rest →
      (g = [] → exec (.transformCommandComplete core slot) s = .next (s.setBxf core slot c { r with writes := rest })) ∧
      (g ≠ [] → ∃ w ∈ g,
        exec (.transformCommandComplete core slot) s = .next ((s0.perform w none).setBxf core slot c
          { r with writes := g.filter (· ≠ w) :: rest }))) ∧
    (r.reads = [] → r.writes = [] → exec (.transformCommandComplete core slot) s = .next (match s.bxfNext c r with
      | .more r => s.setBxf core slot c r
      | .done => s.endWait core slot isBxf Thread.bump
      | .fail f => s.trapWait core slot f.1 f.2 m))) ∧
  (∀ (s : State) (c : BxfOp) (r : BxfRun),
    (r.phase = 1 →
      let x := s.commandStream c r.got
      (∀ f, lowestFail x.2 = some f → s.bxfNext c r = .fail f) ∧
      (lowestFail x.2 = none → ∃ r', s.bxfNext c r = .more r' ∧ r'.phase = 2 ∧ r'.reads = [] ∧ r'.writes =
        [wordWrites (markedWrites c.dstPlace (if c.qnt then quantise c x.1 else bytesOfElems c.width x.1))])) ∧
    (r.phase = 2 → s.bxfNext c r = .done) ∧
    (∀ p, (∀ f, s.targetEntry c r.got p = .error f → s.beginPiece c r.got p = .fail f) ∧
      (∀ q e, s.targetEntry c r.got p = .ok (q, e) → ∃ r', s.beginPiece c r.got p = .more r' ∧ r'.phase = 3 ∧
        r'.reads = [] ∧ r'.writes = c.entryWrite p { e with valid := false })) ∧
    (r.phase = 3 → ∃ r', s.bxfNext c r = .more r' ∧ r'.phase = 4 ∧ r'.reads = c.pieceReads r.piece) ∧
    (∀ q e, r.phase = 5 → s.targetEntry c r.got r.piece = .ok (q, e) →
      let n := (c.pieceObject r.got r.piece).1.length / 64
      ∃ r', s.bxfNext c r = .more r' ∧ r'.phase = 6 ∧
        r'.writes = c.entryWrite r.piece { e with valid := decide (n ≤ e.rsv), used := min n e.rsv }) ∧
    (∀ q e, s.targetEntry c r.got r.piece = .ok (q, e) → e.rsv * 64 < (c.pieceObject r.got r.piece).1.length →
      s.endPiece c r.got r.piece = .fail (0x1E, transformInfo 1 0 (c.pieceObject r.got r.piece).2 q))) ∧
  (∀ (l : Elems) (i j : Nat), i < 32 → j < 32 →
    (transposed l)[32 * i + j]? = some (l[32 * j + i]?.getD (0, false))) ∧
  (∀ l : Elems, 2 ≤ l.length → reduceElems .i32 l = ((l.map Prod.fst).sum % 2 ^ 32, l.any Prod.snd)) ∧
  (∀ (f : Fmt) (code : Nat) (bytes : List PByte),
    (numberOf (bytes.take 1) ≠ code → decodeBlock f code bytes = none) ∧
    (numberOf (bytes.take 1) = code → ∃ l, decodeBlock f code bytes = some l ∧ l.length = blockCount code))

/-- R396, R397, R402, R403 and R405: mark records its word when its thread is traced; in head mode brkpt answers a bad
index and a refused entry at once and else waits, gsel writes a gauge and clears it or traps, siltrd waits for the
record; grd reads an item. That the copies of a device change together (log entry 35), and that brkpt, gsel and siltrd
use the bits of a poisoned operand (log entry 33), are DEDUCED. -/
def Obligations.ObservationForms : Prop :=
  (∀ (o : CodeF) (s : State), s.guardBit o.g = true →
    exec (.mark o) s = .next
      (if s.tracing s.cur.core s.cth.task then
        s.tracePush s.cur.core s.cycle (BitVec.ofNat 64
          (1 * 2 ^ 61 + s.cur.slot * 2 ^ 57 + (o.code.toNat * 2 ^ 24 + (s.rS o.a.toNat).bits.toNat % 2 ^ 24)))
       else s).advance) ∧
  (∀ (o : SVS) (s : State), s.cur.slot = 0 → s.guardBit o.g = true →
    let v := (s.rV o.a.toNat).bits
    let i := (s.rS o.b.toNat).bits.toNat
    let w0 := v.extractLsb' 0 64
    let w1 := v.extractLsb' 64 64
    let w2 := v.extractLsb' 128 64
    let kind := w2.toNat / 2 ^ 60 % 8
    let len := w2.toNat % 2 ^ 32
    let bad := w2.toNat / 2 ^ 32 % 2 ^ 28 ≠ 0 ∨ 5 ≤ kind ∨ (1 ≤ kind ∧ kind ≤ 3 ∧ len = 0) ∨
      (kind = 4 ∧ (len ≠ 0 ∨ w1 ≠ 0))
    (7 < i → exec (.brkpt o) s = s.gives o.d ⟨1, false⟩) ∧
    (i ≤ 7 → bad → exec (.brkpt o) s = s.gives o.d ⟨2, false⟩) ∧
    (i ≤ 7 → ¬bad → exec (.brkpt o) s = .next (s.waitOn .waitingMessage (.brkpt o.d.toNat i w0 w1 w2)))) ∧
  (∀ (core slot at0 d i : Nat) (m : Bool) (w0 w1 w2 : W64) (s : State),
    (s.thread core slot).findWait isBrkpt = some ⟨m, at0, .brkpt d i w0 w1 w2⟩ →
    exec (.brkptComplete core slot []) s =
      .next (((s.domainDevices (deviceOfCore core)).foldl (fun s x => s.setBrk i w0 w1 w2 x) s).endWait core slot isBrkpt
        fun t => t.setS d ⟨0, false⟩) ∧
    (∀ failed : List Nat, (failed.any (s.domainDevices (deviceOfCore core)).contains) = true →
      (s.cycle < at0 + 65536 → exec (.brkptComplete core slot failed) s = .next s) ∧
      (at0 + 65536 ≤ s.cycle → exec (.brkptComplete core slot failed) s =
        .next ((((s.domainDevices (deviceOfCore core)).filter fun x => !failed.contains x).foldl
          (fun s x => s.setBrk i w0 w1 w2 x) s).endWait core slot isBrkpt fun t => t.setS d ⟨3, false⟩)))) ∧
  (∀ (s : State) (i dev : Nat) (w0 w1 w2 : W64), i < 8 →
    let t := s.setBrk i w0 w1 w2 dev
    t.reg (brkReg dev i 0) = w0 ∧ t.reg (brkReg dev i 1) = w1 ∧ t.reg (brkReg dev i 2) = w2) ∧
  (∀ (o : GselF) (s : State), s.cur.slot = 0 → s.guardBit o.g = true →
    let v := (s.rS o.a.toNat).bits
    let src := v.toNat / 2 ^ 8 % 2 ^ 8
    exec (.gsel o) s =
      if v.toNat / 2 ^ 16 % 2 ^ 32 ≠ 0 ∨ v.toNat / 2 % 8 ≠ 0 ∨ src = 0 ∨ 0x0B < src ∨ (src = 9 ∧ isCompute s.cur.core = true) then
        s.traps 0x01 0x0A
      else .next (s.modCore s.cur.core fun c =>
        { c with gauges := SMap.set c.gauges o.gauge.toNat ⟨v, 0xFFFFFFFF, 0, 0, []⟩, gaugeAt := SMap.erase c.gaugeAt o.gauge.toNat }).advance) ∧
  (∀ (o : GrdF) (s : State), s.guardBit o.g = true →
    (SMap.get 0 (s.core s.cur.core).gaugeAt o.gauge.toNat : Nat) ≠ s.cycle + 1 →
    let g := (s.core s.cur.core).gauge o.gauge.toNat
    exec (.grd o) s = s.gives o.d ⟨if o.item = 0 then g.min.setWidth 64 else if o.item = 1 then g.max.setWidth 64
      else if o.item = 2 then g.count.setWidth 64 else if o.item = 3 then g.cfg
      else (SMap.get 0 g.bins (o.item.toNat - 4)).setWidth 64, false⟩) ∧
  (∀ (o : GrdF) (s : State), s.guardBit o.g = true →
    (SMap.get 0 (s.core s.cur.core).gaugeAt o.gauge.toNat : Nat) = s.cycle + 1 →
    let g : Gauge := SMap.get Gauge.reset (s.core s.cur.core).gaugeOld o.gauge.toNat
    exec (.grd o) s = s.gives o.d ⟨g.item o.item.toNat, false⟩) ∧
  (∀ (o : VS) (s : State), s.cur.slot = 0 → s.guardBit o.g = true →
    exec (.siltrd o) s = .next (s.waitOn .waitingMemory (.siltrd o.d.toNat (s.rS o.a.toNat).bits)))

/-- R392, R394, R395 and R400 to R403: enabling a trace clears its counters and makes its first record a timestamp;
the oldest waiting record takes its place in the ring and widx advances, and a full ring that does not wrap drops it;
a droop with no capture held captures, once the cores of the group have made their issues of the cycle, and one over a
held capture only counts; level sources are sampled once a cycle, the ready slots of a core among them, from the cycle
in which they can issue. R359, R375, R403, R404 and R405: a seep counter that reaches a nonzero mark sets event, sends
its notice once until it is armed again, and leaks one every 2^(leak + 10) cycles; a corrected codeword adds 1 and an
uncorrectable one 16 to its bank's counter, and leaves the list once it is met, so that it counts once (log entry 18,
DEDUCED); the silt record takes the oldest queued event under its number, once its cycle is over, behind a count of
the dropped ones; siltrd delivers an entry that is held, and zero for one that is not; a sample goes to its bin. -/
def Obligations.TraceSeepAndSilt : Prop :=
  ((∀ (core : Nat) (v : W64) (s : State), v.getLsbD 63 = true → (s.reg (traceReg core 0)).getLsbD 63 = false →
      ∃ t : State, exec (.traceEnable core v) s = .next t ∧
        t.reg (traceReg core 0) = v &&& 0xE00000000000FFFF ∧
        t.reg (traceReg core 0x10) = 0 ∧ t.reg (traceReg core 0x18) = 0 ∧ t.reg (traceReg core 0x20) = 0 ∧
        (t.core core).traceWait =
          [(s.cycle, BitVec.ofNat 64 (3 * 2 ^ 61 + s.now (deviceOfCore core) % 2 ^ 40))] ∧
        (t.core core).traceFrom = s.cycle ∧ (t.core core).traceScopes = []) ∧
    (∀ (core at0 : Nat) (w : W64) (rest : List (Nat × W64)) (s : State),
      (s.core core).traceWait = (at0, w) :: rest → at0 < s.cycle →
      (SMap.get 0 s.timers (traceTimer core) : Nat) ≠ s.cycle + 1 →
      let c := s.core core
      let buf := (s.reg (traceReg core 8)).toNat
      let widx := (s.reg (traceReg core 0x10)).toNat % 2 ^ 32
      let ridx := (s.reg (traceReg core 0x18)).toNat % 2 ^ 32
      let full := (s.reg (traceReg core 0)).getLsbD 62 = false ∧ (widx + 2 ^ 32 - ridx) % 2 ^ 32 = 2 ^ (buf % 16)
      let s1 := { s with timers := SMap.set s.timers (traceTimer core) (s.cycle + 1) }
      (full → ∃ t : State, exec (.traceRecordWrite core) s = .next t ∧
        (t.core core).traceWait = rest ∧ (t.core core).traceDrop = c.traceDrop + 1 ∧ t.mem = s.mem ∧
        (t.reg (traceReg core 0x20)).toNat % 2 ^ 32 = min 0xFFFFFFFF ((s.reg (traceReg core 0x20)).toNat % 2 ^ 32 + 1)) ∧
      (¬full → c.traceDrop = 0 → c.traceLost = false → at0 - c.traceLast ≤ 131071 →
        let place := spaceBase (tileOfCore core) 1 + buf / 64 % 2 ^ 16 * 64 + 8 * (widx % 2 ^ (buf % 16))
        let rec_ := BitVec.ofNat 64 (w.toNat - w.toNat / 2 ^ 40 % 2 ^ 17 * 2 ^ 40 + (at0 - c.traceLast) % 2 ^ 17 * 2 ^ 40)
        exec (.traceRecordWrite core) s =
          .next ((((s1.perform (cleanWrites place (bytesOf 8 rec_.toNat)) none).setReg (traceReg core 0x10)
            (BitVec.ofNat 64 ((widx + 1) % 2 ^ 32))).modCore core fun c => { c with traceLast := at0 }).modCore core fun c =>
              { c with traceWait := rest }))) ∧
    (∀ (tile : Nat) (compute : Bool) (s : State),
      let h := droopReg tile compute 0
      let hdr := (s.reg h).toNat
      hdr % 8 ≠ 0 →
      ((s.reg h).getLsbD 63 = true → exec (.droopTrip tile compute) s =
        .next (s.setReg h (setBits (s.reg h) 47 32 (min 0xFFFF (hdr / 2 ^ 32 % 2 ^ 16 + 1))))) ∧
      ((s.reg h).getLsbD 63 = false → (∃ x ∈ groupTiles tile, s.issuesDone x = false) →
        exec (.droopTrip tile compute) s = .next s) ∧
      ((s.reg h).getLsbD 63 = false → (∀ x ∈ groupTiles tile, s.issuesDone x = true) →
        ∃ t : State, exec (.droopTrip tile compute) s = .next t ∧
        (t.reg h).getLsbD 63 = true ∧ t.reg (h + 8) = BitVec.ofNat 64 (s.now (deviceOfTile tile)) ∧
        (∀ k < 16, t.reg (h + 0x10 + 8 * k) =
          match (s.core (groupCore tile k compute)).lastUnit with
          | some (c, slot, pc) => if s.cycle < c + 16 ∧ s.running (groupCore tile k compute) = true then
              BitVec.ofNat 64 (2 ^ 63 + slot * 2 ^ 52 + pc.toNat % 2 ^ 48) else 0
          | none => 0) ∧
        t.net = s.net ++ [.notice (stagingOf (groupHead tile)) ⟨0x1A, 0, 0, [BitVec.ofNat 64 (s.now (deviceOfTile tile))]⟩])) ∧
    (∀ (core : Nat) (s : State),
      let level := fun g : Gauge => g.cfg.getLsbD 0 = true ∧ 8 ≤ g.cfg.toNat / 2 ^ 8 % 2 ^ 8
      (∃ i < 4, level ((s.core core).gauge i)) → (SMap.get 0 s.timers (levelTimer core) : Nat) ≠ s.cycle + 1 →
      s.levelNext core = some s.cycle ∧ exec (.levelSourceSample core) s =
        .next { s.setCore core ((List.range 4).foldl (fun c i =>
            if level (c.gauge i) then
              c.sampleGauge s.cycle i (s.levelOf core ((c.gauge i).cfg.toNat / 2 ^ 8 % 2 ^ 8)) else c) (s.core core)) with
          timers := SMap.set s.timers (levelTimer core) (s.cycle + 1) }) ∧
    (∀ (core : Nat) (s : State),
      s.levelOf core 8 = (s.tile (tileOfCore core)).engineQ.length ∧ s.levelOf core 9 = (s.tile (tileOfCore core)).inbox.length ∧
      s.levelOf core 0x0A = ((List.range 16).filter fun k =>
        (s.thread core k).state = .ready && decide ((s.thread core k).readyAt ≤ s.cycle)).length)) ∧
  ((∀ (s : State) (place inc : Nat),
      let w := s.reg place
      let fill := min 0xFFFF (w.toNat % 2 ^ 16 + inc)
      let mark := w.toNat / 2 ^ 16 % 2 ^ 16
      (s.seepAdd place inc).reg place =
        setBit (setBits w 15 0 fill) 63 (w.getLsbD 63 || (mark ≠ 0 && mark ≤ fill)) ∧
      (s.seepAdd place inc).net = s.net ++
        if mark ≠ 0 ∧ mark ≤ fill ∧ place ∉ s.seepHeld then
          [.notice (stagingOf (tileOfPlace place)) ⟨0x13, 0, 0, [BitVec.ofNat 64 place, BitVec.ofNat 64 fill]⟩]
        else []) ∧
    (∀ (a : Nat) (s : State), spaceOfPlace a = 0 →
      let cw := a / 32 * 32
      let bank := bankSeep (tileOfPlace a) (s.bankAt a).1
      (cw ∉ s.ecc → cw ∈ s.soft →
        s.meetCodeword a = State.seepAdd { s with soft := s.soft.filter (· ≠ cw) } bank 1) ∧
      (cw ∉ s.ecc → cw ∉ s.soft → s.meetCodeword a = s) ∧
      (cw ∈ s.ecc → cw ∉ s.soft → ∃ t : State, s.meetCodeword a = (t.seepAdd bank 16).seepAdd (groupSeep (tileOfPlace a)) 16 ∧
        t.ecc = s.ecc.filter (· ≠ cw) ∧ t.mem = s.mem ∧ t.regs = s.regs ∧ ∀ i < 8, cw / 4 + i ∈ t.marks)) ∧
    (∀ (place : Nat) (s : State),
      let p := place / 8 * 8
      let w := s.reg p
      let gap := 2 ^ (w.toNat / 2 ^ 32 % 16 + 10)
      w.toNat % 2 ^ 16 ≠ 0 → (SMap.get 0 s.timers (p / 8) : Nat) + gap ≤ s.cycle →
      ∃ t : State, exec (.seepLeak place) s = .next t ∧
        t.reg p = setBits w 15 0 (w.toNat % 2 ^ 16 - 1) ∧
        t.timers = SMap.set s.timers (p / 8) ((SMap.get 0 s.timers (p / 8) : Nat) + gap)) ∧
    (∀ (dev : Nat) (s : State), (SMap.get 0 s.timers (siltTimer dev) : Nat) ≤ s.cycle →
      let d := s.device dev
      (d.siltDrop ≠ 0 → exec (.siltEntryWrite dev) s =
        .next ((s.siltPut dev ⟨0, s.now dev, d.epoch, 0x0F, 0, 0, BitVec.ofNat 64 d.siltDrop⟩).modDevice dev fun d =>
          { d with siltDrop := 0 })) ∧
      (∀ e r, d.siltDrop = 0 → d.siltQ = e :: r → e.epoch = d.epoch → s.now dev ≤ e.cycle →
        exec (.siltEntryWrite dev) s = .next s) ∧
      (∀ e r, d.siltDrop = 0 → d.siltQ = e :: r → e.epoch ≠ d.epoch ∨ e.cycle < s.now dev → exec (.siltEntryWrite dev) s =
        .next ((s.siltPut dev e).modDevice dev fun d => { d with siltQ := r }))) ∧
    (∀ (dev : Nat) (e : Silt) (s : State), (s.device dev).silt.length < 4096 →
      let t := s.siltPut dev e
      let seq := s.reg (siltSeqReg dev)
      t.reg (siltSeqReg dev) = seq + 1 ∧ (t.device dev).silt = (s.device dev).silt ++ [{ e with seq := seq.toNat }]) ∧
    (∀ (core slot at0 d : Nat) (m : Bool) (seq : W64) (s : State),
      (s.thread core slot).findWait isReplyWait = some ⟨m, at0, .siltrd d seq⟩ →
      exec (.loadReply core slot) s =
        .next (s.endWait core slot isSiltrd fun t => t.setV d (s.siltVec (deviceOfCore core) seq))) ∧
    (∀ (dev : Nat) (seq : W64) (s : State), ((s.device dev).silt.find? fun e => e.seq = seq.toNat) = none →
      s.siltVec dev seq = ⟨0, 0⟩) ∧
    (∀ (g : Gauge) (v : Nat), g.count ≠ 0 → g.count ≠ 0xFFFFFFFF → v < 2 ^ 32 →
      let x := v / 2 ^ (g.cfg.toNat / 2 ^ 4 % 16)
      (g.sample v).count = g.count + 1 ∧ (g.sample v).min.toNat = min g.min.toNat v ∧
      (g.sample v).max.toNat = max g.max.toNat v ∧ (g.sample v).cfg = g.cfg ∧
      (SMap.get 0 (g.sample v).bins (if x = 0 then 0 else min 15 (x.log2 + 1)) : BitVec 32) =
        satInc (SMap.get 0 g.bins (if x = 0 then 0 else min 15 (x.log2 + 1)))))

/-- R173, R174, R416 and R419: an idle row is closed, a bank refreshes on the schedule of its step and ends 480 cycles
later, an idle bank falls asleep and the access that wants it wakes it. R173, R236 and R237: rowopen leaves the row of
a usable vault place open, rowclose closes it if it is the open one, and on any other place both only go on. A row
form comes after the thread's earlier stores and row forms to the vault, and, where it has an effect, when its bank
performs accesses (R174, R417): at once when nothing stands in its way, else as a posted form that is performed then.
Poison in the address and a failed check trap. R174, R175, R406 and R407: a row goes under repair when the agent does
not work on it; a load or fetch of it then traps, and a store that arrives is held for every row under repair that it
meets. At the end the repair is written to the silt record and what was held for the row is performed in the order of
arrival, as far as the bank performs accesses. The bank as the unit of the entry (log entry 67), what stays held while
the bank is busy (log entry 79) and several rows under repair (log entry 93) are DEDUCED. -/
def Obligations.DramBanks : Prop :=
  ((∀ (tile bank row : Nat) (s : State), (s.bank tile bank).openRow = some row → (s.bank tile bank).keepOpen = false →
      (s.bank tile bank).last + 1024 ≤ s.cycle →
      exec (.rowIdleClose tile bank) s =
        .next (s.setBank tile bank { s.bank tile bank with openRow := none, keepOpen := false, last := s.cycle })) ∧
    (∀ (tile bank : Nat) (s : State),
      let b := s.bank tile bank
      let step := 2 ^ ((s.reg (sensorReg tile bank)).toNat / 2 ^ 16 % 4)
      s.bankLive tile bank = true → b.asleep = false → b.refreshEnd = none → bank < 32 →
      ((s.now (deviceOfTile tile) : Int) - 195 * bank) % ((6240 / step : Nat) : Int) = 0 → step ≤ 4 →
      ∃ t : State, exec (.refreshStart tile bank) s = .next t ∧ (t.bank tile bank).refreshEnd = some (s.cycle + 480) ∧
        (t.bank tile bank).openRow = none) ∧
    (∀ (tile bank e : Nat) (s : State), (s.bank tile bank).refreshEnd = some e → e ≤ s.cycle →
      exec (.refreshEnd tile bank) s = .next (s.setBank tile bank { s.bank tile bank with refreshEnd := none })) ∧
    (∀ (tile bank : Nat) (s : State),
      let b := s.bank tile bank
      let slp := s.reg3 tile 0x350110
      slp.getLsbD 63 = true → s.bankLive tile bank = true → b.asleep = false → b.openRow = none → b.repairs = [] →
      b.refreshEnd = none →
      max b.last (s.device (deviceOfTile tile)).resetAt + slp.toNat % 2 ^ 32 ≤ s.cycle →
      exec (.bankSleep tile bank) s = .next (s.setAsleep tile bank true)) ∧
    (∀ (tile bank : Nat) (s : State), (s.bank tile bank).asleep = true → s.bankWanted tile bank = true →
      (s.tile tile).inflight = [] →
      ∃ t : State, exec (.bankWakeComplete tile bank) s = .next t ∧ (t.bank tile bank).asleep = false ∧
        (t.tile tile).inbox = (s.tile tile).inbox) ∧
    (∀ (tile bank : Nat) (on : Bool) (s : State), bank < 32 →
      ((s.setAsleep tile bank on).bank tile bank).asleep = on ∧
      (s.setAsleep tile bank on).reg (sensorReg tile bank) = setBit (s.reg (sensorReg tile bank)) 14 on)) ∧
  ((∀ (o : RowF) (s : State), s.guardBit o.g = true →
      let va := (s.rS o.a.toNat).bits + o.off.signExtend 64
      ((s.rS o.a.toNat).poison = true →
        exec (.rowopen o) s = s.trapsPoison o.a ∧ exec (.rowclose o) s = s.trapsPoison o.a) ∧
      ((s.rS o.a.toNat).poison = false →
        (∀ b, s.rowAccess va = .error b →
          exec (.rowopen o) s = .next (s.raise b) ∧ exec (.rowclose o) s = .next (s.raise b)) ∧
        (∀ x, s.rowAccess va = .ok x → s.dataStop [(va.toNat, 1)] true false = .ok () →
          let clear := (s.posted.all fun p => !(p.isOf s.cur.core s.cur.slot s.cth.uid && p.home = homeOf x.place &&
              decide (p.seq < s.nextUid))) && (!s.rowUsable x.place || !s.bankStops x.place)
          (spaceOfPlace x.place = 0 → clear = false →
            exec (.rowopen o) s = .next (s.postAs (.row true) x.entry .dflt [⟨x.place, 0, 0, false⟩]).advance ∧
            exec (.rowclose o) s = .next (s.postAs (.row false) x.entry .dflt [⟨x.place, 0, 0, false⟩]).advance) ∧
          (spaceOfPlace x.place ≠ 0 ∨ clear = true →
            exec (.rowopen o) s = .next (s.rowEffect x.place true).advance ∧
            exec (.rowclose o) s = .next (s.rowEffect x.place false).advance)))) ∧
    (∀ (n : Nat) (s : State) (p : Posted) (w : PWrite) (opens : Bool), s.posted[n]? = some p → s.canLand p = true →
      p.kind = .row opens → p.bytes = [w] →
      exec (.storePerformed n) s =
        .next (State.rowEffect { s with posted := s.posted.filter fun q => q.seq ≠ p.seq } w.addr opens)) ∧
    (∀ (s : State) (place : Nat),
      let br := s.bankAt place
      let tile := tileOfPlace place
      let b := s.bank tile br.1
      (s.rowUsable place = false → ∀ opens, s.rowEffect place opens = s) ∧
      (s.rowUsable place = true →
        ((s.rowEffect place true).bank tile br.1).openRow = some br.2 ∧
        ((s.rowEffect place true).bank tile br.1).keepOpen = false ∧
        ((s.rowEffect place true).bank tile br.1).last = s.cycle ∧ (s.rowEffect place true).mem = s.mem ∧
        (b.openRow = some br.2 →
          s.rowEffect place false = s.setBank tile br.1 { b with openRow := none, keepOpen := false }) ∧
        (b.openRow ≠ some br.2 → s.rowEffect place false = s)))) ∧
  ((∀ (tile bank row : Nat) (s : State), s.bankLive tile bank = true → row < 32768 →
      row ∉ (s.bank tile bank).repairs → (∀ f ∈ (s.tile tile).inflight, s.bankAt f.msg.place ≠ (bank, row)) →
      exec (.rowRepairStart tile bank row) s =
        .next (s.setBank tile bank { s.bank tile bank with repairs := (s.bank tile bank).repairs ++ [row] })) ∧
    (∀ (place : Nat) (s : State), spaceOfPlace place = 0 → s.rowRepairing place = true →
      s.repairCheck place = .error (.trap 0x15 (BitVec.ofNat 64 (place / 2048 * 2048)))) ∧
    (∀ (n a : Nat) (p : Posted) (s : State), s.posted[n]? = some p → s.canLand p = false → s.arrivesHeld p = true →
      a ∈ s.repairPlaces p → exec (.storePerformed n) s = .next (s.holdStore p) ∧
        Held.store p.seq ∈ (s.holdStore p).heldFor a ∧ (s.holdStore p).mem = s.mem ∧ (s.holdStore p).posted = s.posted) ∧
    (∀ (a : Nat) (p : Posted) (s : State), a ∈ s.repairPlaces p ↔
      ∃ w ∈ p.bytes, a = w.addr / 2048 * 2048 ∧ s.rowRepairing a = true) ∧
    (∀ (a : Nat) (h : Held) (s : State),
      let b := s.bankAt a
      ((s.holdAt a h).bank (tileOfPlace a) b.1).held = (s.bank (tileOfPlace a) b.1).held ++ [(b.2, h)]) ∧
    (∀ (tile bank row : Nat) (s : State), row ∈ (s.bank tile bank).repairs →
      let s1 := s.setBank tile bank { s.bank tile bank with repairs := (s.bank tile bank).repairs.filter (· ≠ row) }
      let p := s1.rowAt tile bank row
      let s2 := s1.silt (deviceOfTile tile) 0x06 bank bank (BitVec.ofNat 64 p)
      exec (.rowRepairComplete tile bank row) s = .next (s2.landHeld p (s2.heldFor p))) ∧
    (∀ (place : Nat) (h : Held) (r : List Held) (s : State),
      (s.bankStops place = true → s.landHeld place (h :: r) = s) ∧
      (s.bankStops place = false →
        (∀ p, h = .store p.seq → s.posted.find? (fun q => q.seq = p.seq) = some p → behindIn s.posted p = false →
          (∀ w ∈ p.bytes, s.byteStops p w = false ∧ ∀ h', (s.heldFor w.addr).head? = some h' → h' = h) → s.landHeld place (h :: r) =
            (State.landMemory { s with posted := s.posted.filter fun x => x.seq ≠ p.seq } p).landHeld place r) ∧
        (∀ m : Msg, h = .atomic m → s.homesClear m.src m.slot m.uid m.place m.len = true →
          s.landHeld place (h :: r) = (s.operate (tileOfPlace place) m).landHeld place r))))

/-- R416 to R418: a report of a sound bank sensor writes its reading, its refresh step with 3 °C of hysteresis, its
throttle and its hold (a step falls at 3 °C below its threshold, inclusive: log entry 76, DEDUCED); a reading outside
−40 to 150 °C, or more than 15 °C from the median of the neighbours, fails the sensor, with step ×4; the column sensor
only reports. A held bank performs no access, and a throttled one activates one row in 64 cycles. R172, R180, R185,
R375 and R389: a retirement lowers the capacity and opens the reinterleave; the mark then passes the granules, and the
end closes it; a move is refused with its code, or turns its source absent, copies once the accesses to it are done,
and ends with the destination resident when both acknowledgements are there; DRGSTAT keeps the code of the command
written last. A store of the granule map takes its granules below the capacity. The notices to both cores (log entry
68) and that a refresh only lengthens the copy (log entry 124) are DEDUCED. -/
def Obligations.SensorsRetirementAndDredger : Prop :=
  ((∀ (tile bank : Nat) (c : Int) (q : BitVec 2) (s : State), bank < 32 →
      let r := 4 * c + q.toNat
      s.judgeFailed tile bank r = false →
      let w := s.reg (sensorReg tile bank)
      let step := w.toNat / 2 ^ 16 % 4
      let hold : Bool := 440 ≤ r || (w.getLsbD 13 && 420 ≤ r)
      let thr : Bool := hold || 420 ≤ r || (w.getLsbD 15 && 400 ≤ r)
      let new := if 380 ≤ r ∨ (step = 2 ∧ 368 < r) then 2 else if 340 ≤ r ∨ (1 ≤ step ∧ 328 < r) then 1 else 0
      ∃ t : State, exec (.sensorReport tile bank c q) s = .next t ∧
        t.reg (sensorReg tile bank) =
          setBits (setBit (setBit (setBit (setBits w 11 0 (r % 4096).toNat) 63 false) 13 hold) 15 thr) 17 16 new ∧
        t.net = s.net) ∧
    (∀ (tile bank : Nat) (c : Int) (q : BitVec 2) (s : State), bank < 32 → s.judgeFailed tile bank (4 * c + q.toNat) = true →
      ∃ t : State, exec (.sensorReport tile bank c q) s = .next t ∧
        (t.reg (sensorReg tile bank)).getLsbD 63 = true ∧
        (t.reg (sensorReg tile bank)).toNat / 2 ^ 16 % 4 = 2 ∧
        ((s.reg (sensorReg tile bank)).getLsbD 63 = false → (t.reg (bankSeep tile bank)).getLsbD 63 = true)) ∧
    (∀ (tile sensor : Nat) (r : Int) (s : State),
      (r < -160 ∨ 600 < r → s.judgeFailed tile sensor r = true) ∧
      (s.sensorStill tile sensor r = true → s.judgeFailed tile sensor r = true) ∧
      (∀ m : Int, sensor < 32 → s.neighbourMedian tile sensor = some m → 120 < (2 * r - m).natAbs →
        s.judgeFailed tile sensor r = true)) ∧
    (∀ (tile : Nat) (c : Int) (q : BitVec 2) (s : State),
      let r := 4 * c + q.toNat
      s.judgeFailed tile 32 r = false →
      let b := s.bank tile 32
      let moved := b.reported = false ∨ s.reading tile 32 ≠ r
      exec (.sensorReport tile 32 c q) s =
        .next ((s.setBank tile 32 { b with reported := true, readAt := if moved then s.cycle else b.readAt }).setReg
          (sensorReg tile 32) (setBit (setBits (s.reg (sensorReg tile 32)) 11 0 (r % 4096).toNat) 63 false))) ∧
    (∀ (place c : Nat) (s : State), spaceOfPlace place = 0 →
      let tile := tileOfPlace place
      let br := s.bankAt place
      let w := s.reg (sensorReg tile br.1)
      (w.getLsbD 13 = true → s.bankBusy place = true) ∧
      (w.getLsbD 15 = true → (s.bank tile br.1).openRow ≠ some br.2 → (s.bank tile br.1).lastAct = some c →
        s.cycle < c + 64 → s.bankBusy place = true) ∧
      ((s.bank tile br.1).openRow ≠ some br.2 →
        ((s.touchRow place .dflt).bank tile br.1).lastAct = some s.cycle))) ∧
  ((∀ (tile bank : Nat) (s : State),
      let live := (s.reg2 tile 0).toNat % 2 ^ 32
      let n := popCount 32 live
      s.bankLive tile bank = true → 1 < n → (s.reg2 tile 0x10).getLsbD 63 = false →
      (∀ i < 32, s.granule tile ((n - 1) * 32 + i) = 0) →
      ∃ t : State, exec (.bankRetirement tile bank) s = .next t ∧
        t.reg2 tile 0 = BitVec.ofNat 64 (live - 2 ^ bank) ∧ t.reg2 tile 0x08 = BitVec.ofNat 64 ((n - 1) * 2 ^ 26) ∧
        t.reg2 tile 0x10 = BitVec.ofNat 64 (2 ^ 63) ∧ (t.tile tile).oldLive = some (BitVec.ofNat 32 live) ∧
        t.net = s.net ++
          [.notice (stagingOf tile) ⟨0x16, 0, 0, [BitVec.ofNat 64 bank, t.reg2 tile 0, t.reg2 tile 0x08]⟩,
           .notice (computeOf tile) ⟨0x16, 0, 0, [BitVec.ofNat 64 bank, t.reg2 tile 0, t.reg2 tile 0x08]⟩]) ∧
    (∀ (tile : Nat) (s : State),
      let err := if (s.tile tile).dredge.isSome then 4 else if (s.reg2 tile 0x10).getLsbD 63 then 0 else 5
      (err ≠ 0 → exec (.dredgerReinterleave tile) s =
        .next (s.setReg (drgStat tile) (setBits (s.reg (drgStat tile)) 59 56 err))) ∧
      (err = 0 → ∃ t : State, exec (.dredgerReinterleave tile) s = .next t ∧
        t.reg (drgStat tile) = setBits (setBit (setBits (s.reg (drgStat tile)) 59 56 0) 63 true) 62 60 0 ∧
        (t.tile tile).dredge = some ⟨false, 0, 0, 3, 0⟩)) ∧
    (∀ (tile src dst step : Nat) (acks : BitVec 2) (s : State), (s.tile tile).dredge = some ⟨false, src, dst, step, acks⟩ →
      let w := s.reg2 tile 0x10
      let cap := (s.reg2 tile 0x08).toNat % 2 ^ 32
      let mark := w.toNat % 2 ^ 10
      (mark * 2 ^ 21 < cap → exec (.reinterleaveGranuleDone tile) s = .next (s.setReg2 tile 0x10 (setBits w 9 0 (mark + 1)))) ∧
      (cap ≤ mark * 2 ^ 21 → exec (.reinterleaveComplete tile) s =
        .next (((s.setReg2 tile 0x10 0).modTile tile fun t => { t with oldLive := none }).endDredge tile))) ∧
    (∀ (tile src dst : Nat) (s : State), src < 1024 → dst < 1024 →
      let cap := (s.reg2 tile 0x08).toNat % 2 ^ 32
      let err := if s.granule tile src ≠ 1 then 1 else if s.granule tile dst ≠ 0 then 2
        else if cap ≤ src * 2 ^ 21 ∨ cap ≤ dst * 2 ^ 21 then 3 else if (s.tile tile).dredge.isSome then 4 else 0
      (err ≠ 0 → exec (.dredgerMove tile src dst) s =
        .next (s.setReg (drgStat tile) (setBits (s.reg (drgStat tile)) 59 56 err))) ∧
      (err = 0 → ∃ t : State, exec (.dredgerMove tile src dst) s = .next t ∧ t.granule tile src = 0 ∧
        (∀ g < 1024, g ≠ src → t.granule tile g = s.granule tile g) ∧
        t.reg (drgStat tile) = setBits (setBit (setBits (s.reg (drgStat tile)) 59 56 0) 63 true) 62 60 2 ∧
        (t.tile tile).dredge = some ⟨true, src, dst, 2, 0⟩)) ∧
    (∀ (tile src dst : Nat) (acks : BitVec 2) (s : State), (s.tile tile).dredge = some ⟨true, src, dst, 2, acks⟩ →
      let base := spaceBase tile 0
      (s.granuleBusy tile src = true → exec (.moveCopied tile) s = .next s) ∧
      (s.granuleBusy tile src = false → (∀ b < 32, (s.bank tile b).repairs = []) → s.ecc = [] → s.soft = [] →
        s.spanHeld (base + src * 2 ^ 21) (2 ^ 21) = false → s.spanHeld (base + dst * 2 ^ 21) (2 ^ 21) = false →
        ∃ t : State, exec (.moveCopied tile) s = .next t ∧
          t.mem = copyCells s.mem (base + src * 2 ^ 21) (base + dst * 2 ^ 21) (2 ^ 21) ∧
          (t.tile tile).dredge = some ⟨true, src, dst, 4, 0⟩ ∧
          t.net = s.net ++ [.notice (stagingOf tile) ⟨0x14, 0, 0, [BitVec.ofNat 64 src, BitVec.ofNat 64 dst]⟩,
            .notice (computeOf tile) ⟨0x14, 0, 0, [BitVec.ofNat 64 src, BitVec.ofNat 64 dst]⟩])) ∧
    (∀ (tile src dst : Nat) (acks : BitVec 2) (v : W64) (s : State), (s.tile tile).dredge = some ⟨true, src, dst, 4, acks⟩ →
      exec (.drgackWrite tile v) s =
        if acks ||| v.setWidth 2 = 3 then .next ((s.setGranule tile dst 1).endDredge tile)
        else .next (s.modTile tile fun t => { t with dredge := some ⟨true, src, dst, 4, acks ||| v.setWidth 2⟩ })) ∧
    (∀ (tile word : Nat) (v : W64) (s : State), word < 32 → s.gmapRefused tile word v = false →
      ∃ t : State, exec (.gmapWrite tile word v) s = .next t ∧ t.mem = s.mem ∧ t.cores = s.cores ∧ t.tiles = s.tiles ∧
        (∀ i < 32, let g := word * 32 + i
          t.granule tile g = if (s.reg2 tile 0x08).toNat % 2 ^ 32 ≤ g * 2 ^ 21 then 0 else v.toNat / 4 ^ i % 4) ∧
        ∀ g < 1024, g / 32 ≠ word → t.granule tile g = s.granule tile g) ∧
    (∀ (tile word i : Nat) (v : W64) (s : State), word < 32 → i < 32 →
      2 ≤ s.granule tile (word * 32 + i) → v.toNat / 4 ^ i % 4 = 0 → exec (.gmapWrite tile word v) s = .next s))

/-- R377 to R382: a command is refused with its code, or a swap stops its slots or waits for the held records, and a
fill takes its shadow slots; a slot that stops withdraws the waits that the rule names and empties its reservations;
24 cycles after it began a swap exchanges the slots of its mask and reports it; the end of a spill is reported, with
mask 0 when there was nothing to write (the model's choice, log entry 126), and a pending swap begins in the next
cycle. R380 to R385: the spill engine writes the held records in ascending slot order, each to its save place, then
the tile block; a fill reads its records back behind every held one, and reports what it loaded and what was damaged;
the thread of a damaged record ends, which its launch counts as by tkill (at the fill: log entry 125, DEDUCED). -/
def Obligations.PreemptionBanks : Prop :=
  ((∀ (core : Nat) (v : W64) (s : State), v.toNat / 2 ^ 62 = 1 →
      let mask := setBitsOf 16 (v.toNat % 2 ^ 16)
      let cmd : BankCmd := ⟨v.setWidth 16, v.getLsbD 61, s.cycle⟩
      let err := s.cmdError core 1 (v.getLsbD 61) mask
      let s1 := s.modCore core fun c => { c with swapErr := err }
      exec (.swapCommand core v) s =
        if err ≠ 0 then .next s1
        else if (s.core core).anyHeld = true ∨ (s.core core).swapRun.isSome = true then
          .next (s1.modCore core fun c => { c with swapPend := some cmd })
        else .next (s1.beginSwap core cmd s.cycle)) ∧
    (∀ (core : Nat) (v : W64) (s : State), v.toNat / 2 ^ 62 = 2 →
      let mask := setBitsOf 16 (v.toNat % 2 ^ 16)
      let cmd : BankCmd := ⟨v.setWidth 16, v.getLsbD 61, s.cycle⟩
      let err := s.cmdError core 2 (v.getLsbD 61) mask
      let s1 := s.modCore core fun c => { c with swapErr := err }
      exec (.fillCommand core v) s = if err ≠ 0 then .next s1 else .next (s1.modCore core fun c => c.beginFill cmd)) ∧
    (∀ (core op : Nat) (tile : Bool) (mask : List Nat) (s : State),
      let c := s.core core
      s.cmdError core op tile mask =
        if ∃ k ∈ mask, k = 0 ∨ (if isCompute core then 15 else 14) < k ∨ ((s.thread core k).findWait isMigrating).isSome then 1
        else if ∃ p ∈ s.cmdPlaces core op tile mask, ¬(p.1 % 64 = 0 ∧ tileOfPlace p.1 = tileOfCore core ∧
          spaceOfPlace p.1 = 0 ∧ ∀ g ∈ granulesOf p.1 p.2, s.granule (tileOfCore core) g = 3) then 2
        else if tile = true ∧ isCompute core = false then 3
        else if c.swapPend.isSome = true ∨ (op = 2 ∧ ∃ k ∈ mask, (c.shadowSlot k).state ≠ 0) then 4
        else if op = 1 ∧ ((∃ k ∈ mask, (c.shadowSlot k).state = 3 ∧ (c.shadowSlot k).ctx = none) ∨
          (tile = true ∧ ∃ cmd ∈ c.fillRun, cmd.tile = true)) then 5
        else 0) ∧
    (∀ (core : Nat) (cmd : BankCmd) (s : State), (s.core core).swapRun = some cmd → cmd.at0 + 24 ≤ s.cycle →
      let s1 := (setBitsOf 16 cmd.mask.toNat).foldl (fun s k => s.exchangeSlot core k)
        (s.modCore core fun c => { c with swapRun := none })
      let s2 := if cmd.tile then s1.exchangeTile core else s1
      let s3 := (s2.notify core ⟨0x10, 0, 0, [BitVec.ofNat 64 (cmd.mask.toNat + if cmd.tile then 2 ^ 16 else 0)]⟩).modCore core
        fun c => { c.markSpill with spillMask := c.heldMask }
      exec (.swapTakeEffect core) s = .next ((if (s3.core core).anyHeld then s3 else s3.spillDone core).admitRun core)) ∧
    (∀ (core n : Nat) (cmd : BankCmd) (s : State), (s.core core).swapRun = none → (s.core core).swapPend = some cmd →
      (s.core core).swapAt = some n → n ≤ s.cycle → exec (.swapTakeEffect core) s = .next (s.beginSwap core cmd n)) ∧
    (∀ (core : Nat) (s : State),
      let t := s.spillDone core
      (t.core core).swapAt = (s.core core).swapPend.map (fun _ => s.cycle + 1) ∧
      (t.core core).swapPend = (s.core core).swapPend ∧ (t.core core).swapRun = (s.core core).swapRun ∧
      t.net = s.net ++ [.notice core ⟨0x11, 0, 0, [BitVec.ofNat 64 (s.core core).spillMask]⟩]) ∧
    (∀ (core slot : Nat) (x : Thread) (place : Nat) (stamp : W64) (s : State), slot < 16 →
      (s.core core).shadowSlot slot = ⟨2, some x, place, stamp⟩ → x.saved = .ready →
      let t := s.exchangeSlot core slot
      t.thread core slot = { x with state := .ready, readyAt := s.cycle + 1, lastIssue := none } ∧
      ((s.thread core slot).saved ≠ .idle → (t.core core).shadowSlot slot =
        ⟨1, some { s.thread core slot with resv := [] }, s.savePlace core slot,
          BitVec.ofNat 64 (s.now (deviceOfCore core))⟩)) ∧
    (∀ (core slot : Nat) (s : State), slot < 16 → (s.core core).shadowSlot slot = ⟨0, none, 0, 0⟩ →
      (s.core core).swapRun = none →
      (s.exchangeSlot core slot).thread core slot = { Thread.reset with idleAt := s.cycle + 1 } ∧
      ((s.thread core slot).saved = .idle → ((s.exchangeSlot core slot).core core).shadowSlot slot = ⟨0, none, 0, 0⟩)) ∧
    (∀ (core slot : Nat) (s : State), slot < 16 →
      let t := s.thread core slot
      let u := (s.leaveSlot core slot).thread core slot
      u.state = .swapped ∧ u.resv = [] ∧ u.regs = t.regs ∧
      (t.waits = [] → u.saved = t.state ∧ u.waits = []) ∧
      ((t.waits.any fun w => w.op.withdrawn (t.state = .waitingMessage)) = true →
        u.saved = .ready ∧ u.waits = [] ∧ u.reissue = true))) ∧
  ((∀ (core k : Nat) (t : Thread) (s : State), k < 16 → ((s.core core).shadowSlot k).isHeld = true →
      (∀ j < k, ((s.core core).shadowSlot j).isHeld = false) → ((s.core core).shadowSlot k).ctx = some t →
      let x := (s.core core).shadowSlot k
      s.rangeBusy x.place 5056 = false →
      exec (.spillRecordWritten core) s =
        .next ((((s.perform (markedWrites x.place (t.record x.stamp)) none).touchSpan x.place 5056 .dflt).modCore core fun c =>
          { c with shadow := SMap.set c.shadow k ⟨(s.core core).afterSpill k, none, 0, 0⟩, away := SMap.set c.away (x.place / 64) ⟨t, k, x.place, x.stamp⟩ }).spilled core)) ∧
    (∀ (core : Nat) (e : EngineRegs) (s : State), (∀ k < 16, ((s.core core).shadowSlot k).isHeld = false) →
      (s.core core).shadowTile.isHeld = true → (s.core core).shadowTile.regs = some e →
      let p := (s.core core).shadowTile.place
      s.rangeBusy p 36992 = false → s.tileQuiet (tileOfCore core) = true →
      exec (.spillRecordWritten core) s =
        .next ((((s.perform (markedWrites p e.block) none).touchSpan p 36992 .dflt).modCore core fun c => { c with shadowTile := ⟨(s.core core).afterSpill 16, none, 0⟩ }).spilled core)) ∧
    (∀ (c : Core) (k : Nat),
      (c.fillRun = [] → c.afterSpill k = 0) ∧
      (∀ cmd ∈ c.fillRun, cmd.mask.getLsbD k = true → k < 16 → c.afterSpill k = 3) ∧
      (∀ cmd ∈ c.fillRun, cmd.tile = true → c.afterSpill 16 = 3)) ∧
    (∀ (t : Thread) (stamp : W64), t.coffers.length ≤ 4 → (t.record stamp).length = 5056) ∧
    (∀ (e : EngineRegs), e.block.length = 36992) ∧
    (∀ (core k : Nat) (cmd : BankCmd) (rest : List BankCmd) (s : State), (s.core core).fillRun = cmd :: rest → k < 16 →
      setBitsOf 16 cmd.mask.toNat = [k] → cmd.tile = false → (s.core core).shadowSlot k = ⟨3, none, 0, 0⟩ →
      (s.core core).anyHeld = false → (s.core core).swapRun = none → s.rangeBusy (s.savePlace core k) 5056 = false →
      let s1 := s.modCore core fun c => { c with fillRun := rest }
      let r := s1.fillSlot core k
      exec (.fillComplete core) s = .next (r.1.notify core
        ⟨0x12, 0, 0, [BitVec.ofNat 64 (if r.2 then 2 ^ k else 0), BitVec.ofNat 64 (if r.2 then 0 else 2 ^ k)]⟩)) ∧
    (∀ (core k : Nat) (s : State), k < 16 →
      let place := s.savePlace core k
      let r := s.fillSlot core k
      (s.recordDamaged place = true → r.2 = false ∧ (r.1.core core).shadowSlot k = ⟨0, none, 0, 0⟩ ∧
        let b := s.readBytes place 5056
        let x := (b.1.touchSpan place 5056 .dflt).takeRecord core place b.2
        r.1 = (x.1.modCore core fun c => { c with shadow := SMap.set c.shadow k ⟨0, none, 0, 0⟩ }).endDamaged core x.2.1) ∧
      (s.recordDamaged place = false → r.2 = true ∧ ((r.1.core core).shadowSlot k).state = 2) ∧
      (s.recordDamaged place = false → s.ecc = [] → s.soft = [] →
        ∀ c0, s.awayCore core place = some c0 → ((r.1.core core).shadowSlot k).ctx =
          some (Thread.ofRecord ((s.core c0).awayAt (place / 64)).ctx (s.peek place 5056)))) ∧
    (∀ (core : Nat) (t : Thread) (s : State), t.handle ≠ 0 → (s.openedBy t.uid fun _ => true) = [] →
      s.endDamaged core t = { s with
        net := s.net ++ [.ended t.handle core t.indices true],
        launches := s.launches.map fun l => if l.handle = t.handle then l.endMember t.indices else l }))

/-- R386 to R388 and R410: a gate is requested of a die that is on, and told to the head slot; it lapses, which basin
is told, when the time to acknowledge has run out, and can be acknowledged until then. A die that saves is gated once
its engine queue is empty, nothing is held and the stores of its threads are performed: they end, and the head record
is written to its save place. Ungated, the die reads the head record back, and the head slot resumes in its reap with
kind 0x18 and the cycles gated. A save place that is not usable is neither written nor read, the order of notices, and
what a request does to another die are log entry 57 (DEDUCED). -/
def Obligations.PowerGate : Prop :=
  (∀ (core dl : Nat) (s : State), isCompute core = true → (s.reg (gateReg core)).getLsbD 63 = false →
    s.gateState core = 0 →
    exec (.gateRequest core dl) s =
      .next (((s.setReg (gateReg core) (setBit (s.reg (gateReg core)) 63 true)).modCore core fun c =>
        { c with gateDue := s.cycle + dl }).notify core ⟨0x17, 0, 0, [BitVec.ofNat 64 dl]⟩)) ∧
  (∀ (core : Nat) (s : State), (s.reg (gateReg core)).getLsbD 63 = true →
    ((s.core core).gateDue ≤ s.cycle →
      exec (.gateRequestLapse core) s = .next ((s.setReg (gateReg core) (setBit (s.reg (gateReg core)) 63 false)).modDevice
        (deviceOfCore core) fun d => { d with lapsed := d.lapsed ++ [core] }) ∧
      exec (.gateAck core) s = .next s) ∧
    (s.cycle < (s.core core).gateDue →
      exec (.gateRequestLapse core) s = .next s ∧
      ∃ t : State, exec (.gateAck core) s = .next t ∧ (t.reg (gateReg core)).getLsbD 63 = false ∧ t.gateState core = 1 ∧
        t.cores = s.cores ∧ t.mem = s.mem)) ∧
  (∀ (core : Nat) (s : State), s.gateState core = 1 → (s.tile (tileOfCore core)).engineQ = [] →
    (s.core core).anyHeld = false → (∀ k ∈ s.gateSlots core, s.drained core k (s.thread core k).uid = true) →
    let ok := fun s : State => s.placeOk core (s.headPlace core) 5056 = true
    (ok s → s.spanHeld (s.headPlace core) 5056 = true →
      exec (.dieGated core) s = .next (s.callBanks [(s.headPlace core, 5056)])) ∧
    ((ok s → s.spanHeld (s.headPlace core) 5056 = false) →
      let s1 := (s.gateSlots core).foldl (fun s k => (s.leaveLists core k).finishEnd core k 1) s
      let p := s1.headPlace core
      let head := s1.thread core 0
      let written := (s1.perform (markedWrites p (head.headRecord (BitVec.ofNat 64 (s1.now (deviceOfCore core))))) none).touchSpan
        p 5056 .dflt
      let gated := fun s2 : State => exec (.dieGated core) s = .next (((s2.modCore core fun c =>
        { c with headSaved := some head, gateAt := s1.cycle, swapPend := none, swapAt := none, swapRun := none, fillRun := [],
                 shadow := [], shadowTile := ⟨0, none, 0⟩ }).setGateState core 2).silt (deviceOfCore core) 0x07 0
          (core % 1024) 0)
      (ok s1 → gated written) ∧ (¬ok s1 → gated s1))) ∧
  (∀ (core k : Nat) (s : State), k ∈ s.gateSlots core ↔ k < 32 ∧ k % 16 ≠ 0 ∧
    (k < 16 → s.slotLive core k = true) ∧ (16 ≤ k → ((s.core core).shadowSlot (k - 16)).state = 2)) ∧
  (∀ (core : Nat) (s : State), s.gateState core = 2 →
    ∃ t : State, exec (.dieUngate core) s = .next t ∧ t.gateState core = 3 ∧ t.mem = s.mem ∧
      (t.tile (tileOfCore core)).eng = EngineRegs.reset ∧ (t.core core).gateAt = s.cycle - (s.core core).gateAt ∧
      (t.core core).lines = [] ∧ (t.core core).headSaved = (s.core core).headSaved) ∧
  (∀ (core : Nat) (head : Thread) (s : State), s.gateState core = 3 → (s.core core).headSaved = some head →
    let p := s.headPlace core
    let ok := s.placeOk core p 5056 = true
    let back := fun s1 : State => exec (.gateRestoreComplete core) s = .next (State.resumeHead
      (((s1.modCore core fun c => { c with headSaved := none }).setGateState core 0).silt (deviceOfCore core) 0x07 1
        (core % 1024) (BitVec.ofNat 64 (s.core core).gateAt)) core (s.core core).gateAt)
    (ok → s.spanHeld p 5056 = true → exec (.gateRestoreComplete core) s = .next (s.callBanks [(p, 5056)])) ∧
    (ok → s.spanHeld p 5056 = false →
      let b := s.readBytes p 5056
      back ((b.1.touchSpan p 5056 .dflt).setThread core 0
        { Thread.ofRecord head b.2 with state := head.state, saved := head.saved })) ∧
    (¬ok → back (s.setThread core 0 head))) ∧
  (∀ (core n at0 d : Nat) (m : Bool) (s : State),
    let msg := noticeVec 0x18 0 0 [BitVec.ofNat 64 n]
    ((s.thread core 0).findWait isReap = some ⟨m, at0, .reap d⟩ →
      s.resumeHead core n = s.endWait core 0 isReap fun t => t.setV d msg) ∧
    ((s.thread core 0).findWait isReap = none →
      s.resumeHead core n = s.modCore core fun c => { c with inbox := ⟨0x18, 0, 0, [BitVec.ofNat 64 n]⟩ :: c.inbox })) ∧
  (∀ (core d at0 : Nat) (head : Thread) (m : Bool) (s : State), s.gateState core = 3 →
    (s.core core).headSaved = some head → head.waits = [⟨m, at0, .reap d⟩] → head.held = RegFile.reset →
    head.state = .waitingMessage → s.spanHeld (s.headPlace core) 5056 = false →
    ∃ t : State, exec (.gateRestoreComplete core) s = .next t ∧ t.gateState core = 0 ∧ (t.core core).headSaved = none ∧
      (t.thread core 0).state = .ready ∧
      (t.thread core 0).regs.getV d = noticeVec 0x18 0 0 [BitVec.ofNat 64 (s.core core).gateAt])

/-- R404, R411 and R423 to R428: a device reset leaves only the silt record, counts in the epoch, writes DOMCFG and
lasts its time; a reset that has been raised is performed, or joins a running one that covers it; a port and an engine
reset run their time; when a tile's reset is over and its image passes, its cores start again on the image in granule
0, which is pinned. A core that stops raises the reset of its tile. That memory reads 0 after a device reset (log
entry 2), and that the reset of a tile goes on until an image passes (log entry 81), are the model's choices. -/
def Obligations.Resets : Prop :=
  (∀ (dev gsize ngroups : Nat) (s : State),
    (domainOk dev gsize ngroups = false → exec (.deviceReset dev gsize ngroups) s = .next s) ∧
    (domainOk dev gsize ngroups = true →
      ∃ t : State, exec (.deviceReset dev gsize ngroups) s = .next t ∧
        (t.device dev).silt = (s.device dev).silt ∧ (t.device dev).epoch = min 0xFFFF ((s.device dev).epoch + 1) ∧
        t.now dev = 0 ∧ (t.device dev).resets = [⟨.device, dev, .matrix, s.cycle + 3200000000⟩] ∧
        (t.reg (domcfgReg dev)).getLsbD 63 = true ∧
        (t.reg (domcfgReg dev)).toNat / 2 ^ 43 % 2 ^ 7 = ngroups ∧ (t.reg (domcfgReg dev)).toNat / 2 ^ 38 % 2 ^ 5 = gsize ∧
        (t.reg (domcfgReg dev)).toNat / 2 ^ 27 % 2 ^ 11 = dev ∧
        ((t.reg (domcfgReg dev)).getLsbD 0 = true ↔ dev % 16 = 0) ∧
        t.reg (siltSeqReg dev) = s.reg (siltSeqReg dev) ∧
        (∀ a, a / 2 ^ 52 = dev → t.byte a = 0) ∧
        (∀ core, deviceOfCore core = dev → t.core core = Core.reset ∧ t.running core = false))) ∧
  (∀ (b : Boundary) (unit : Nat) (e : EngineUnit) (lost : List Nat) (s : State), b ≠ .device →
    let dev := resetDevice b unit
    let new : Reset := ⟨b, unit, e, s.cycle + resetTime b⟩
    let s1 := s.modDevice dev fun d => { d with raised := d.raised.filter fun x => x ≠ (b, unit, e) }
    ((b, unit, e) ∉ (s.device dev).raised → exec (.partitionReset b unit e lost) s = .next s) ∧
    ((b, unit, e) ∈ (s.device dev).raised →
      exec (.partitionReset b unit e lost) s =
        if (s.device dev).resets.any (fun r => r.covers b unit e) then .next s1
        else .next ((((s1.applyReset b unit e lost).modDevice dev fun d =>
          { d with resets := (d.resets.filter fun r => !new.covers r.boundary r.unit r.eng) ++ [new] })).silt dev 0x04
            (resetCode b) (resetUnit b unit) (BitVec.ofNat 64 (resetPlace b unit))))) ∧
  (resetTime .engine = 400 ∧ resetTime .tile = 40000 ∧ resetTime .group = 80000 ∧ resetTime .stack = 800000 ∧
    resetTime .port = 32000 ∧ resetTime .device = 3200000000) ∧
  (∀ (core cause : Nat) (info : W64) (s : State),
    let t := s.stopCore core cause info
    (t.core core).stopped = true ∧
    (Boundary.tile, tileOfCore core, EngineUnit.matrix) ∈ (t.device (deviceOfCore core)).raised) ∧
  (∀ (s : State) (e : ErrorClass) (unit : Nat) (eng : EngineUnit),
    ∃ x, (e.boundary, unit, x) ∈ ((s.detect e unit eng).device (resetDevice e.boundary unit)).raised) ∧
  (∀ (tile : Nat) (s : State),
    let t := s.resetTile false tile
    (t.core (stagingOf tile)).stopped = true ∧ (t.core (computeOf tile)).stopped = true ∧
    (t.tile tile).engineQ = [] ∧ (t.tile tile).eng = EngineRegs.reset ∧ (t.tile tile).semQ = [] ∧
    (t.tile tile).backwater = (s.tile tile).backwater) ∧
  (∀ (dev n : Nat) (image : BootImage) (r : Reset) (s : State), (s.device dev).resets[n]? = some r →
    r.due ≤ s.cycle → (s.device dev).wellhead = true →
    let s1 := s.modDevice dev fun d => { d with resets := d.resets.take n ++ d.resets.drop (n + 1) }
    (r.boundary = .engine → exec (.resetComplete dev n image) s = .next s1) ∧
    (r.boundary = .port → exec (.resetComplete dev n image) s = .next (s1.portBack (r.unit / 32) (r.unit % 32))) ∧
    (r.boundary ≠ .engine → r.boundary ≠ .port → imagePasses dev image = false →
      ∃ t : State, exec (.resetComplete dev n image) s = .next t ∧ t.mem = s.mem ∧ t.cores = s.cores ∧
        (t.device dev).resets = (s.device dev).resets) ∧
    (r.boundary = .tile → imagePasses dev image = true →
      ∃ t : State, exec (.resetComplete dev n image) s = .next t ∧
        (t.core (stagingOf r.unit)).stopped = false ∧ (t.core (computeOf r.unit)).stopped = false ∧
        (t.reg3 r.unit 0).toNat % 4 = 3 ∧
        ∀ i (h : i < image.body.length), i < 2 ^ 21 → t.byte (spaceBase r.unit 0 + i) = image.body[i]))

/-- R404 and R428 to R430: an image that passes gives its digest, one that does not writes a firmware event, and
without wellhead the device stays in reset; wellhead signs the evidence of its device, and lets basin neither read nor
write what the rule keeps from it; removing module power clears the silt record. R172, R174, R423, R424 and R431: a
host message comes in at a bridge device whose port 17 is up. It is refused outside exported vault bytes of the domain
(the places of a record: log entry 44; the alignment of other sizes: log entry 92, both DEDUCED); it waits behind
earlier messages of its host to its homes, HLAUNCH behind every earlier HWRITE, and until its banks, which it wakes,
perform accesses; it is performed at one instant, and HLAUNCH enqueues the record. A quiesced checkpoint waits for the
device, a live one copies its words beside its tasks, both to the safe tier that basin names and through the ports
that are up, and the copy back restores the memory of the latest copy there after a device reset. That a quiesced copy
is one instant, and what a port carries while another is down, is log entry 45 (DEDUCED). -/
def Obligations.FirmwareHostAndCheckpoints : Prop :=
  ((∀ (dev image : Nat) (b : BootImage) (s : State),
      let good := imagePasses dev b = true
      let runs := (s.device dev).wellhead = true
      (good ↔ b.signature.length = 29792 ∧ Config.signatureOk b.version b.counter b.length b.digest b.signature = true ∧
        b.length = b.body.length ∧ b.digest = Config.digest b.body ∧ (Config.fusedCounter dev).toNat ≤ b.counter) ∧
      (image ≠ 0 → ¬runs → exec (.imageVerify dev image b.toImageHead b.body) s = .next s) ∧
      (good → image = 0 ∨ runs → exec (.imageVerify dev image b.toImageHead b.body) s =
        .next (s.modDevice dev fun d => { d with digests := SMap.set d.digests image b.digest.toNat })) ∧
      (¬good → image ≠ 0 → runs → exec (.imageVerify dev image b.toImageHead b.body) s = .next (s.firmwareEvent dev)) ∧
      (¬good → image = 0 → ∃ t : State, exec (.imageVerify dev image b.toImageHead b.body) s = .next t ∧ (t.device dev).held = true)) ∧
    (∀ d : Device, d.wellhead = true ↔ d.held = false ∧
      ((∃ r ∈ d.resets, r.boundary = .device) → ∃ e ∈ d.digests, e.1 = 0)) ∧
    (∀ (dev nonce : Nat) (s : State), ∃ body : List Byte,
      exec (.attestationRequest dev nonce) s = .next { s with evidence :=
        s.evidence ++ [⟨dev, body, (List.range 29792).map (Config.signature dev body)⟩] } ∧
      body.length = 0xC8 ∧ natOfBytes (body.take 4) = 1 ∧
      natOfBytes ((body.drop 4).take 4) = (Config.fusedCounter dev).toNat ∧
      natOfBytes ((body.drop 0x18).take 32) = nonce % 2 ^ 256 ∧
      natOfBytes ((body.drop 0xB8).take 8) = (s.reg (domcfgReg dev)).toNat ∧
      natOfBytes ((body.drop 0xC0).take 8) = (s.reg (siltSeqReg dev)).toNat) ∧
    (∀ (dev place : Nat) (v : W64) (s : State), spaceOfPlace place < 2 →
      s.basinAct dev (.read place) = s.tellBasin dev (.refused place) ∧
      s.basinAct dev (.write place v) = s.tellBasin dev (.refused place)) ∧
    (∀ (dev tile off : Nat) (v : W64) (s : State), off < 0x100 ∨ (0x400000 ≤ off ∧ off < 0x420000) →
      s.basinAct dev (.write (spaceBase tile 3 + off) v) = s.tellBasin dev (.refused (spaceBase tile 3 + off))) ∧
    (∀ (dev tile dl : Nat) (s : State), deviceOfTile tile = dev → dl < 2 ^ 32 →
      s.basinAct dev (.write (spaceBase tile 3 + 0x201020) (BitVec.ofNat 64 (2 ^ 63 + dl))) =
        s.requestGate (computeOf tile) dl) ∧
    (∀ (dev : Nat) (s : State), ∃ t : State, exec (.modulePowerOn dev) s = .next t ∧ (t.device dev).silt = [] ∧
      (t.device dev).siltQ = [] ∧ (t.device dev).epoch = 0 ∧ t.reg (siltSeqReg dev) = 0)) ∧
  ((∀ (dev place n : Nat) (target : W64) (bytes : List Byte) (s : State),
      (s.hostIn dev = true ↔ s.isBridge dev = true ∧ s.linkUp dev 17 = true) ∧
      (s.hostIn dev = true →
        (1 ≤ bytes.length → bytes.length ≤ 128 →
          exec (.hwrite dev place bytes) s = .next (s.hostArrive dev (.write place bytes))) ∧
        (1 ≤ n → n ≤ 128 → exec (.hread dev place n) s = .next (s.hostArrive dev (.read place n))) ∧
        exec (.hlaunch dev target place) s = .next (s.hostArrive dev (.launch target place))) ∧
      (s.hostIn dev = false → exec (.hwrite dev place bytes) s = .next s ∧ exec (.hread dev place n) s = .next s ∧
        exec (.hlaunch dev target place) s = .next s)) ∧
    (∀ (dev place n : Nat) (m : HostMsg) (s : State), m.span = (place, n) →
      let ok := s.hostPlace dev place n n = true
      let q := (s.device dev).hostQ
      let wait := s.modDevice dev fun d => { d with hostQ := q ++ [m] }
      let behind := ∃ e ∈ q, m.after e = true
      (¬ok → s.hostArrive dev m = s.hostReply .refused) ∧
      (ok → behind → s.hostArrive dev m = wait) ∧
      (ok → ¬behind → s.hostBusy dev m ≠ [] → s.hostArrive dev m = wait.callBanks (s.hostBusy dev m)) ∧
      (ok → ¬behind → s.hostBusy dev m = [] → s.hostArrive dev m = s.hostDo dev m)) ∧
    (∀ (dev : Nat) (m : HostMsg) (before after : List HostMsg) (s : State),
      (s.device dev).hostQ = before ++ m :: after →
      let gone := s.modDevice dev fun d => { d with hostQ := before ++ after }
      ((∃ e ∈ before, m.after e = true) → s.hostTurn dev before.length = s) ∧
      ((∀ e ∈ before, m.after e = false) → s.hostMay dev m = true → s.hostBusy dev m = [] →
        s.hostTurn dev before.length = gone.hostDo dev m)) ∧
    (∀ m e : HostMsg, m.after e = true ↔ (∃ h ∈ homesOf m.span.1 m.span.2, h ∈ homesOf e.span.1 e.span.2) ∨
      ∃ target record place bytes, m = .launch target record ∧ e = .write place bytes) ∧
    (∀ (dev place n : Nat) (target : W64) (bytes : List Byte) (s : State),
      let own := fun n => if s.spanBusy place n then [(place, n)] else []
      let r := (s.touchSpan place n .dflt).readBytes place n
      let copied := (s.touchSpan place 256 .dflt).readBytes place 256
      let x := copied.1.enqueueRecord dev target copied.2
      s.hostBusy dev (.write place bytes) = own bytes.length ∧ s.hostBusy dev (.read place n) = own n ∧
      s.hostBusy dev (.launch target place) = own 256 ++ s.enqueueBusy dev target ∧
      s.hostDo dev (.write place bytes) =
        ((s.touchSpan place bytes.length .dflt).perform (cleanWrites place bytes) none).hostReply .written ∧
      s.hostDo dev (.read place n) = r.1.hostReply (.data r.2) ∧
      s.hostDo dev (.launch target place) = x.1.hostReply (.launched x.2)) ∧
    (∀ (dev place n align : Nat) (s : State), s.hostPlace dev place n align = true ↔
      0 < n ∧ place % align = 0 ∧ place < 2 ^ 63 ∧ spaceOfPlace place = 0 ∧
      s.inDomain dev (deviceOfTile (tileOfPlace place)) = true ∧
      ∀ g ∈ granulesOf place n, s.granule (tileOfPlace place) g = 2) ∧
    (∀ (place : Nat) (s : State), spaceOfPlace place = 0 → place % 2048 + 8 ≤ 2048 →
      let b := (s.bankAt place).1
      (s.bank (tileOfPlace place) b).asleep = true →
      ((s.callBanks [(place, 8)]).bank (tileOfPlace place) b).wanted = true) ∧
    (∀ (dev : Nat) (s : State),
      ((s.device dev).ckpt = .none →
        exec (.checkpointQuiesced dev) s = .next (s.modDevice dev fun d => { d with ckpt := .quiescing }) ∧
        ∀ tier, (s.device dev).tier = some tier → exec (.checkpointLive dev) s = .next (s.modDevice dev fun d =>
          { d with ckpt := .live, copy := some (⟨dev, true, tier, [], [], [], []⟩, deviceRanges dev) })) ∧
      (∀ tier, (s.device dev).ckpt = .quiescing → (s.device dev).tier = some tier →
        (s.quiesced dev = false ∨ s.tierPorts dev = [] → exec (.checkpointQuiesced dev) s = .next s) ∧
        (s.quiesced dev = true → s.tierPorts dev ≠ [] → exec (.checkpointQuiesced dev) s =
          .next ((s.snapshot dev tier).modDevice dev fun d => { d with ckpt := .none }))) ∧
      (∀ x, (s.device dev).ckpt = .live → (s.device dev).copy = some (x, []) → exec (.checkpointLive dev) s =
        .next (State.modDevice { s with safeTier := s.safeTier ++ [x] } dev fun d => { d with ckpt := .none, copy := none }))) ∧
    (∀ (dev tier : Nat) (s : State), ∃ x : Snapshot, (s.snapshot dev tier).safeTier = s.safeTier ++ [x] ∧
      x.device = dev ∧ x.tier = tier ∧ x.live = false ∧
      ∀ p ∈ s.tierPorts dev, (SMap.get 0 x.shares p : Nat) = deviceBytes / (s.tierPorts dev).length) ∧
    (∀ (dev p : Nat) (s : State), p ∈ s.tierPorts dev ↔ 15 ≤ p ∧ p ≤ 17 ∧ s.linkUp dev p = true) ∧
    (∀ (dev place n port : Nat) (x : Snapshot) (left rest : List (Nat × Nat)) (s : State),
      (s.device dev).copy = some (x, left) → cutRange place n left = some rest → 0 < n → n % 8 = 0 → place % 8 = 0 →
      port ∈ s.tierPorts dev → s.ecc = [] →
      let share := if (s.tierPorts dev).length = 3 then deviceBytes / 3 else deviceBytes
      (SMap.get 0 x.shares port + n ≤ share →
        ((s.copyWords dev place n port).device dev).copy = some (s.captureRange (x.carry port n) place (place + n), rest)) ∧
      (share < SMap.get 0 x.shares port + n → s.copyWords dev place n port = s)) ∧
    (∀ (s : State) (x : Snapshot) (lo hi a : Nat), s.memWf → lo ≤ a → a < hi → (∀ c ∈ x.mem, c.1 ≠ a) →
      memRead (s.captureRange x lo hi).mem a = s.byte a) ∧
    (∀ (dev tier : Nat) (live : Bool) (shares : SMap Nat) (mem : List Host.Cell) (marks : List Nat) (lines : SMap Line)
        (before after : List Snapshot) (s : State),
      s.safeTier = before ++ ⟨dev, live, tier, shares, mem, marks, lines⟩ :: after →
      (∀ x ∈ after, ¬(x.device = dev ∧ x.tier = tier)) → (s.device dev).tier = some tier → s.tierPorts dev ≠ [] →
      s.noTasks dev = true → (s.device dev).ckpt = .none → (s.device dev).inReset = false →
      (s.device dev).blank = true → s.memWf → Memory.wf mem = true → (∀ c ∈ mem, c.1 / 2 ^ 52 = dev) →
      ∃ t : State, exec (.checkpointCopyBack dev) s = .next t ∧ (t.device dev).blank = false ∧
        ∀ a, t.byte a = if a / 2 ^ 52 = dev then memRead mem a else s.byte a))

/-- R413 to R415: a resent beat counts in the seep counter of the group, and among the failures of its lane; a test of
an idle bus, or a lane that has failed 16 times in 2^20 cycles, asks for the retraining of that bus, which is deferred
at most once in the count or runs on spares, and ends. The lane of a beat that fails is the model's free value (log 3,
120); the sixteenth failure counts (log 84, DEDUCED). R420 to R423 and R425: a port sends what its replay buffer of
1,024 flits takes; a receiver accepts only the packet it expects, whose flits pass, and a failed one is answered with
a negative acknowledgement and adds 1 to the seep counter of a lane; an acknowledgement frees the packets up to the
one it names and makes their installs known; a negative acknowledgement and a timeout resend; a packet that has been
resent 8 times or a lane that has failed 16 times in 2^20 cycles (the sixteenth failure included: log entry 84,
DEDUCED) makes the port retrain, and the end of that brings the port up or, the third time it fails, raises its reset.
Each pair of devices of a group is joined by a port of either. The host's end of a port answers freely (the model's
choice, log entry 121), and which port leads where is one too (log entry 42). -/
def Obligations.BusesAndLinks : Prop :=
  ((∀ (tile : Nat) (riser : Bool) (s : State), ∃ lane : W64, exec (.vbusBeatResend tile riser) s =
      .next ((State.seepAdd { s with fresh := s.fresh + 1 } (groupSeep tile) 1).modTile tile fun t =>
        { t with busFails := recordFail t.busFails (laneKey riser lane) s.cycle })) ∧
    (∀ (tile failing : Nat) (riser : Bool) (s : State), (s.reg (busReg tile)).getLsbD 63 = true →
      (if riser then s.riserIdle tile else s.vaultIdle tile) = true → (s.tile tile).retrainOf riser = none → failing ≠ 0 →
      ∃ t : State, exec (.vbusTest tile riser failing) s = .next t ∧
        (t.tile tile).retrainOf riser = some ⟨false, failing, false, s.cycle⟩ ∧ t.regs = s.regs) ∧
    (∀ (tile : Nat) (riser : Bool) (s : State), (s.tile tile).retrainOf riser = none →
      let lanes := s.failingLanes tile riser
      (lanes = [] → exec (.vbusRetrain tile riser) s = .next s) ∧
      (lanes ≠ [] → ∃ t : State, exec (.vbusRetrain tile riser) s = .next t ∧
        (t.tile tile).retrainOf riser = some ⟨false, lanes.length, false, s.cycle⟩ ∧ t.regs = s.regs)) ∧
    (∀ (l : List Nat) (cycle : Nat), failsDue l cycle = true ↔ 16 ≤ (l.filter fun c => cycle < c + 2 ^ 20).length) ∧
    (∀ (tile : Nat) (riser : Bool) (r : Retrain) (s : State), (s.tile tile).retrainOf riser = some r →
      (r.active = false → s.mustDefer tile riser r = false →
        exec (.vbusRetrain tile riser) s = .next (s.startRetrain tile riser r)) ∧
      (r.active = false → s.mustDefer tile riser r = true → r.deferred = false → ∃ t : State,
        exec (.vbusRetrain tile riser) s = .next t ∧
        (t.reg (busReg tile)).toNat % 2 ^ 16 = min 0xFFFF ((s.reg (busReg tile)).toNat % 2 ^ 16 + 1) ∧
        (t.tile tile).retrainOf riser = some { r with deferred := true }) ∧
      (r.active = true → exec (.vbusRetrainEnd ⟨tile, riser⟩) s =
        .next (s.modTile tile fun t => { t with retrain := SMap.erase t.retrain (if riser then 1 else 0) }))) ∧
    (∀ (tile : Nat) (riser : Bool) (r : Retrain) (s : State),
      let key := if riser then 1 else 0
      let used : Nat := SMap.get 0 (s.tile tile).spared key
      let now := min (if riser then 8 else 32) (used + r.lanes)
      let w := s.reg (busReg tile)
      let t := s.startRetrain tile riser r
      (t.tile tile).retrainOf riser = some { r with active := true, at0 := s.cycle } ∧ t.busStopped tile riser = true ∧
      ((t.tile tile).retrainOf (!riser) = (s.tile tile).retrainOf (!riser)) ∧
      ((SMap.get 0 (t.tile tile).spared key : Nat) = now) ∧
      ((t.reg (busReg tile)).toNat / 2 ^ 16 % 2 ^ 16 = min 0xFFFF (w.toNat / 2 ^ 16 % 2 ^ 16 + 1)) ∧
      (now < used + r.lanes → (t.reg (busReg tile)).getLsbD (44 + key) = true))) ∧
  ((∀ (dev port : Nat) (k : LinkPacket) (s : State), s.linkUp dev port = true → (s.port dev port).canSend k = true →
      let x := s.port dev port
      s.sendPacket dev port k = s.setPort dev port
        { x with replay := x.replay ++ [(k, 0)], wire := x.wire ++ [k], txNext := (x.txNext + 1) % 4096,
                 oldest := if x.replay.isEmpty then s.cycle else x.oldest }) ∧
    (∀ (x : Port) (k : LinkPacket), x.canSend k = true → k.seq = x.txNext ∧ 1 ≤ k.flits ∧ x.flits + k.flits ≤ 1024 ∧
      ∀ e, k.header = .index e → (∃ y ∈ x.txTable, y.1 = e) ∧ ∀ y ∈ x.unacked, ∀ pre, y.header ≠ .install pre e) ∧
    (∀ (dev port : Nat) (k : LinkPacket) (s : State), s.linkUp dev port = true →
      let peer := s.linkPeer dev port
      peer.1 = 0x7FF ∨ (s.port peer.1 peer.2).wire.head? = some k →
      let s1 := if peer.1 = 0x7FF then s else
        s.setPort peer.1 peer.2 { s.port peer.1 peer.2 with wire := (s.port peer.1 peer.2).wire.tail }
      let x := s1.port dev port
      (exec (.linkPacketReceive dev port k true) s =
        .next (s1.setPort dev port (if k.seq = x.rxNext then
          { x with rxNext := (x.rxNext + 1) % 4096, rxTable := installHeader x.rxTable k, accepted := x.accepted ++ [k],
                   answers := x.answers ++ [(true, k.seq)] }
        else x))) ∧
      ∃ lane < 8, exec (.linkPacketReceive dev port k false) s =
        .next ((State.setPort { s1 with fresh := s.fresh + 1 } dev port
          { x with answers := x.answers ++ [(false, x.rxNext)], fails := recordFail x.fails lane s.cycle }).seepAdd
            (laneSeep dev port lane) 1)) ∧
    (∀ (dev port seq n : Nat) (done rest : List (LinkPacket × Nat)) (k : LinkPacket) (s : State), s.linkUp dev port = true →
      s.answered dev port true seq = true → (s.port dev port).replay = done ++ (k, n) :: rest → k.seq = seq →
      (∀ x ∈ done, x.1.seq ≠ seq) →
      let x := (s.takeAnswer dev port).port dev port
      exec (.linkAckReceive dev port seq) s = .next ((s.takeAnswer dev port).setPort dev port
        { x with replay := rest, txTable := (done.map Prod.fst ++ [k]).foldl installHeader x.txTable, oldest := s.cycle })) ∧
    (∀ (dev port seq : Nat) (s : State), s.linkUp dev port = true → s.answered dev port false seq = true →
      let s1 := s.takeAnswer dev port
      (s1.canResend dev port = true → exec (.linkNakReceive dev port seq) s = .next (s1.resendAll dev port)) ∧
      (s1.canResend dev port = false → exec (.linkNakReceive dev port seq) s = .next s1)) ∧
    (∀ (dev port : Nat) (s : State), s.canResend dev port = true → (s.port dev port).oldest + 2048 ≤ s.cycle →
      exec (.linkReplayTimeout dev port) s = .next (s.resendAll dev port)) ∧
    (∀ (dev port : Nat) (s : State), s.canResend dev port = true ↔
      s.linkUp dev port = true ∧ (s.port dev port).replay ≠ [] ∧ ∀ k ∈ (s.port dev port).replay, k.2 < 8) ∧
    (∀ (dev port : Nat) (s : State),
      let x := s.port dev port
      let t := s.resendAll dev port
      (t.port dev port).replay = x.replay.map (fun k => (k.1, k.2 + 1)) ∧
      (t.port dev port).wire = x.wire ++ x.replay.map Prod.fst ∧
      (t.reg (linkReg dev port)).toNat % 2 ^ 16 =
        min 0xFFFF ((s.reg (linkReg dev port)).toNat % 2 ^ 16 + x.replay.length)) ∧
    (∀ (dev port lane : Nat) (s : State), port < 18 → lane < 8 → (s.port dev port).training = false →
      (s.port dev port).failed < 3 → s.linkState dev port = 2 →
      let x := s.port dev port
      let due := (∃ k ∈ x.replay, 8 ≤ k.2) ∨ failsDue (SMap.get [] x.fails lane) s.cycle = true
      (¬due → exec (.linkRetrain dev port lane) s = .next s) ∧
      (due → ∃ t : State, exec (.linkRetrain dev port lane) s = .next t ∧
        (t.port dev port).training = true ∧ t.linkState dev port = 1 ∧ (t.port dev port).replay = x.replay ∧
        (t.reg (linkReg dev port)).toNat / 2 ^ 16 % 2 ^ 8 = min 0xFF ((s.reg (linkReg dev port)).toNat / 2 ^ 16 % 2 ^ 8 + 1))) ∧
    (∀ (dev port : Nat) (s : State), (s.port dev port).training = true →
      let x := s.port dev port
      (s.wired dev port = none → exec (.linkRetrainEnd dev port true) s = .next s) ∧
      (∀ peer, s.wired dev port = some peer → ∃ t : State, exec (.linkRetrainEnd dev port true) s = .next t ∧
        t.linkState dev port = 2 ∧ t.port dev port =
          { x with training := false, failed := 0, replay := x.replay.map fun k => (k.1, 0), wire := x.replay.map Prod.fst,
                   oldest := s.cycle }) ∧
      (∃ t : State, exec (.linkRetrainEnd dev port false) s = .next t ∧ t.linkState dev port = 0 ∧
        t.port dev port = { x with training := false, failed := x.failed + 1 } ∧
        (2 ≤ x.failed → (Boundary.port, dev * 32 + port, EngineUnit.matrix) ∈ (t.device dev).raised))) ∧
    (∀ (dev k : Nat) (s : State), k < 16 → k ≠ dev % 16 → k < (s.reg (domcfgReg dev)).toNat / 2 ^ 38 % 2 ^ 5 →
      portTo dev k < 15 ∧
      s.wired dev (portTo dev k) = some (dev / 16 * 16 + k, portTo (dev / 16 * 16 + k) (dev % 16))))

/-- R17, R31, R196 and R357: a line arrives from memory into the buffer and its waiting threads go on, and a poisoned
copy is a line storage error of the instruction that waits; a write of a register word changes no RW field of space 2
when a task-mode thread stores it, no GMAP word, and a head-mode one a register of Table 11.5 or 15.9 as its field
allows. -/
def Obligations.LinesAndRegisterWrites : Prop :=
  (∀ (core slot at0 entry place : Nat) (m : Bool) (va : W64) (s : State),
    (s.thread core slot).findWait isFetch = some ⟨m, at0, .fetch va entry place⟩ → s.bankBusy place = false → s.ecc = [] →
    s.soft = [] →
    (poisoned (s.peek place 64) = false →
      let s1 := s.touchRow place .dflt
      let s2 := s1.modCore core fun c => c.addLine
        ⟨va, BitVec.ofNat 16 (s1.reach core entry).tagsel, BitVec.ofNat 512 (numberOf (s.peek place 64))⟩
      exec (.lineArrival core slot) s = .next ((s2.core core).contexts.foldl (fun s k =>
        match (s.thread core k).findWait isFetch with
        | some ⟨_, _, .fetch va' e' _⟩ => if va' = va ∧ e' = entry then s.endWait core k isFetch id else s
        | _ => s) s2)) ∧
    (∀ l : Latch, poisoned (s.peek place 64) = true → (s.thread core slot).latch = some l →
      exec (.lineArrival core slot) s = .next ((s.takeTrap core slot 0x0C (va + 1) { l with mem := m, fetch := false }).syncAway
        core slot (s.thread core slot)))) ∧
  (∀ (place : Nat) (v : W64) (head : Bool) (s : State), spaceOfPlace place = 2 ∨ spaceOfPlace place = 3 →
    let order := if head then regOrder place else none
    (order = none → exec (.registerWrite place v head) s = .next (s.writeReg place v head)) ∧
    (∀ unit key, order = some (unit, key) →
      (s.inOrder unit key = true → exec (.registerWrite place v head) s = .next ((s.ordered unit key).writeReg place v head)) ∧
      (s.inOrder unit key = false → exec (.registerWrite place v head) s = .next s))) ∧
  (∀ place : Nat, spaceOfPlace place = 2 → (ridxOf place = none → floorOf place = none → regOrder place = none) ∧
    (∀ tile n, ridxOf place = some (tile, n) → regOrder place = some (ringUnit tile n, reserveKey - 1)) ∧
    (∀ tile, ridxOf place = none → floorOf place = some tile → regOrder place = some (directoryUnit tile, lastFloorKey))) ∧
  (∀ (tile off : Nat) (v : W64) (s : State), off % 8 = 0 → off < 2 ^ 40 → s.ecc = [] → ¬(0x300 ≤ off ∧ off < 0x380) →
    s.writeReg (spaceBase tile 2 + off) v false = s) ∧
  (∀ (tile n : Nat) (v : W64) (s : State), n < 32 → s.ecc = [] → s.writeReg (spaceBase tile 3 + 8 * n) v false = s) ∧
  (∀ (tile : Nat) (v : W64) (s : State), s.ecc = [] →
    s.writeReg (spaceBase tile 3 + 0x200010) v true = s.setReg (spaceBase tile 3 + 0x200010) v ∧
    s.writeReg (spaceBase tile 3 + 0x200018) v true = s.setReg (spaceBase tile 3 + 0x200018) v) ∧
  (∀ (tile : Nat) (v : W64) (s : State), (s.tile tile).inbox = [] → (s.tile tile).backwater = [] → s.ecc = [] →
    s.writeReg (spaceBase tile 2 + 0x20) v true =
      s.setReg (spaceBase tile 2 + 0x20) (BitVec.ofNat 64 (v.toNat / 2 ^ 21 % 2 ^ 10 * 2 ^ 21)))
end

