-- ==== Sys2Proof/Laws/State.lean ====
section
/-! SUPPORT. State.lean: each update of the state leaves every field that it does not name, field by field, and reads give
back what was written. -/

namespace Sys2Proof.Machine

/-! Maps. -/

theorem SMap.get_set {α : Type} (d : α) (m : SMap α) (n k : Nat) (v : α) :
    SMap.get d (SMap.set m n v) k = if k = n then v else SMap.get d m k := by
  induction m with
  | nil => simp only [SMap.set, SMap.get]; split <;> simp_all
  | cons e r ih =>
    obtain ⟨x, y⟩ := e
    simp only [SMap.set]
    split
    · subst_vars; simp only [SMap.get]; split <;> simp_all
    · split
      · simp only [SMap.get]; repeat' (first | (exfalso; omega) | rfl | (simp_all; done) | split)
      · simp only [SMap.get, ih]; repeat' (first | (exfalso; omega) | rfl | (simp_all; done) | split)

@[simp] theorem SMap.get_set_same {α : Type} (d : α) (m : SMap α) (n : Nat) (v : α) :
    SMap.get d (SMap.set m n v) n = v := by simp [SMap.get_set]

theorem SMap.get_set_other {α : Type} (d : α) (m : SMap α) (n k : Nat) (v : α) (h : k ≠ n) :
    SMap.get d (SMap.set m n v) k = SMap.get d m k := by simp [SMap.get_set, h]

/-! What each update leaves. -/

@[simp] theorem State.setCore_cycle (s : State) (c : Nat) (x : Core) : (s.setCore c x).cycle = s.cycle := rfl
@[simp] theorem State.setCore_agenda (s : State) (c : Nat) (x : Core) : (s.setCore c x).agenda = s.agenda := rfl
@[simp] theorem State.setCore_focus (s : State) (c : Nat) (x : Core) : (s.setCore c x).focus = s.focus := rfl
@[simp] theorem State.setCore_cur (s : State) (c : Nat) (x : Core) : (s.setCore c x).cur = s.cur := rfl
@[simp] theorem State.setCore_unit (s : State) (c : Nat) (x : Core) : (s.setCore c x).unit = s.unit := rfl
@[simp] theorem State.setCore_fresh (s : State) (c : Nat) (x : Core) : (s.setCore c x).fresh = s.fresh := rfl
@[simp] theorem State.setCore_nextUid (s : State) (c : Nat) (x : Core) : (s.setCore c x).nextUid = s.nextUid := rfl
@[simp] theorem State.setCore_mem (s : State) (c : Nat) (x : Core) : (s.setCore c x).mem = s.mem := rfl
@[simp] theorem State.setCore_marks (s : State) (c : Nat) (x : Core) : (s.setCore c x).marks = s.marks := rfl
@[simp] theorem State.setCore_ecc (s : State) (c : Nat) (x : Core) : (s.setCore c x).ecc = s.ecc := rfl
@[simp] theorem State.setCore_soft (s : State) (c : Nat) (x : Core) : (s.setCore c x).soft = s.soft := rfl
@[simp] theorem State.setCore_order (s : State) (c : Nat) (x : Core) : (s.setCore c x).order = s.order := rfl
@[simp] theorem State.setCore_posted (s : State) (c : Nat) (x : Core) : (s.setCore c x).posted = s.posted := rfl
@[simp] theorem State.setCore_net (s : State) (c : Nat) (x : Core) : (s.setCore c x).net = s.net := rfl
@[simp] theorem State.setCore_regs (s : State) (c : Nat) (x : Core) : (s.setCore c x).regs = s.regs := rfl
@[simp] theorem State.setCore_seepHeld (s : State) (c : Nat) (x : Core) : (s.setCore c x).seepHeld = s.seepHeld := rfl
@[simp] theorem State.setCore_timers (s : State) (c : Nat) (x : Core) : (s.setCore c x).timers = s.timers := rfl
@[simp] theorem State.setCore_tiles (s : State) (c : Nat) (x : Core) : (s.setCore c x).tiles = s.tiles := rfl
@[simp] theorem State.setCore_devices (s : State) (c : Nat) (x : Core) : (s.setCore c x).devices = s.devices := rfl
@[simp] theorem State.setCore_lines (s : State) (c : Nat) (x : Core) : (s.setCore c x).lines = s.lines := rfl
@[simp] theorem State.setCore_launches (s : State) (c : Nat) (x : Core) : (s.setCore c x).launches = s.launches := rfl
@[simp] theorem State.setCore_signals (s : State) (c : Nat) (x : Core) : (s.setCore c x).signals = s.signals := rfl
@[simp] theorem State.setCore_hostReplies (s : State) (c : Nat) (x : Core) : (s.setCore c x).hostReplies = s.hostReplies := rfl
@[simp] theorem State.setCore_safeTier (s : State) (c : Nat) (x : Core) : (s.setCore c x).safeTier = s.safeTier := rfl
@[simp] theorem State.setCore_evidence (s : State) (c : Nat) (x : Core) : (s.setCore c x).evidence = s.evidence := rfl

@[simp] theorem State.modCore_cycle (s : State) (c : Nat) (f : Core → Core) : (s.modCore c f).cycle = s.cycle := rfl
@[simp] theorem State.modCore_agenda (s : State) (c : Nat) (f : Core → Core) : (s.modCore c f).agenda = s.agenda := rfl
@[simp] theorem State.modCore_focus (s : State) (c : Nat) (f : Core → Core) : (s.modCore c f).focus = s.focus := rfl
@[simp] theorem State.modCore_cur (s : State) (c : Nat) (f : Core → Core) : (s.modCore c f).cur = s.cur := rfl
@[simp] theorem State.modCore_unit (s : State) (c : Nat) (f : Core → Core) : (s.modCore c f).unit = s.unit := rfl
@[simp] theorem State.modCore_fresh (s : State) (c : Nat) (f : Core → Core) : (s.modCore c f).fresh = s.fresh := rfl
@[simp] theorem State.modCore_nextUid (s : State) (c : Nat) (f : Core → Core) : (s.modCore c f).nextUid = s.nextUid := rfl
@[simp] theorem State.modCore_mem (s : State) (c : Nat) (f : Core → Core) : (s.modCore c f).mem = s.mem := rfl
@[simp] theorem State.modCore_marks (s : State) (c : Nat) (f : Core → Core) : (s.modCore c f).marks = s.marks := rfl
@[simp] theorem State.modCore_ecc (s : State) (c : Nat) (f : Core → Core) : (s.modCore c f).ecc = s.ecc := rfl
@[simp] theorem State.modCore_soft (s : State) (c : Nat) (f : Core → Core) : (s.modCore c f).soft = s.soft := rfl
@[simp] theorem State.modCore_order (s : State) (c : Nat) (f : Core → Core) : (s.modCore c f).order = s.order := rfl
@[simp] theorem State.modCore_posted (s : State) (c : Nat) (f : Core → Core) : (s.modCore c f).posted = s.posted := rfl
@[simp] theorem State.modCore_net (s : State) (c : Nat) (f : Core → Core) : (s.modCore c f).net = s.net := rfl
@[simp] theorem State.modCore_regs (s : State) (c : Nat) (f : Core → Core) : (s.modCore c f).regs = s.regs := rfl
@[simp] theorem State.modCore_seepHeld (s : State) (c : Nat) (f : Core → Core) : (s.modCore c f).seepHeld = s.seepHeld := rfl
@[simp] theorem State.modCore_timers (s : State) (c : Nat) (f : Core → Core) : (s.modCore c f).timers = s.timers := rfl
@[simp] theorem State.modCore_tiles (s : State) (c : Nat) (f : Core → Core) : (s.modCore c f).tiles = s.tiles := rfl
@[simp] theorem State.modCore_devices (s : State) (c : Nat) (f : Core → Core) : (s.modCore c f).devices = s.devices := rfl
@[simp] theorem State.modCore_lines (s : State) (c : Nat) (f : Core → Core) : (s.modCore c f).lines = s.lines := rfl
@[simp] theorem State.modCore_launches (s : State) (c : Nat) (f : Core → Core) : (s.modCore c f).launches = s.launches := rfl
@[simp] theorem State.modCore_signals (s : State) (c : Nat) (f : Core → Core) : (s.modCore c f).signals = s.signals := rfl
@[simp] theorem State.modCore_hostReplies (s : State) (c : Nat) (f : Core → Core) : (s.modCore c f).hostReplies = s.hostReplies := rfl
@[simp] theorem State.modCore_safeTier (s : State) (c : Nat) (f : Core → Core) : (s.modCore c f).safeTier = s.safeTier := rfl
@[simp] theorem State.modCore_evidence (s : State) (c : Nat) (f : Core → Core) : (s.modCore c f).evidence = s.evidence := rfl

@[simp] theorem State.setThread_cycle (s : State) (c k : Nat) (t : Thread) : (s.setThread c k t).cycle = s.cycle := rfl
@[simp] theorem State.setThread_agenda (s : State) (c k : Nat) (t : Thread) : (s.setThread c k t).agenda = s.agenda := rfl
@[simp] theorem State.setThread_focus (s : State) (c k : Nat) (t : Thread) : (s.setThread c k t).focus = s.focus := rfl
@[simp] theorem State.setThread_cur (s : State) (c k : Nat) (t : Thread) : (s.setThread c k t).cur = s.cur := rfl
@[simp] theorem State.setThread_unit (s : State) (c k : Nat) (t : Thread) : (s.setThread c k t).unit = s.unit := rfl
@[simp] theorem State.setThread_fresh (s : State) (c k : Nat) (t : Thread) : (s.setThread c k t).fresh = s.fresh := rfl
@[simp] theorem State.setThread_nextUid (s : State) (c k : Nat) (t : Thread) : (s.setThread c k t).nextUid = s.nextUid := rfl
@[simp] theorem State.setThread_mem (s : State) (c k : Nat) (t : Thread) : (s.setThread c k t).mem = s.mem := rfl
@[simp] theorem State.setThread_marks (s : State) (c k : Nat) (t : Thread) : (s.setThread c k t).marks = s.marks := rfl
@[simp] theorem State.setThread_ecc (s : State) (c k : Nat) (t : Thread) : (s.setThread c k t).ecc = s.ecc := rfl
@[simp] theorem State.setThread_soft (s : State) (c k : Nat) (t : Thread) : (s.setThread c k t).soft = s.soft := rfl
@[simp] theorem State.setThread_order (s : State) (c k : Nat) (t : Thread) : (s.setThread c k t).order = s.order := rfl
@[simp] theorem State.setThread_posted (s : State) (c k : Nat) (t : Thread) : (s.setThread c k t).posted = s.posted := rfl
@[simp] theorem State.setThread_net (s : State) (c k : Nat) (t : Thread) : (s.setThread c k t).net = s.net := rfl
@[simp] theorem State.setThread_regs (s : State) (c k : Nat) (t : Thread) : (s.setThread c k t).regs = s.regs := rfl
@[simp] theorem State.setThread_seepHeld (s : State) (c k : Nat) (t : Thread) : (s.setThread c k t).seepHeld = s.seepHeld := rfl
@[simp] theorem State.setThread_timers (s : State) (c k : Nat) (t : Thread) : (s.setThread c k t).timers = s.timers := rfl
@[simp] theorem State.setThread_tiles (s : State) (c k : Nat) (t : Thread) : (s.setThread c k t).tiles = s.tiles := rfl
@[simp] theorem State.setThread_devices (s : State) (c k : Nat) (t : Thread) : (s.setThread c k t).devices = s.devices := rfl
@[simp] theorem State.setThread_lines (s : State) (c k : Nat) (t : Thread) : (s.setThread c k t).lines = s.lines := rfl
@[simp] theorem State.setThread_launches (s : State) (c k : Nat) (t : Thread) : (s.setThread c k t).launches = s.launches := rfl
@[simp] theorem State.setThread_signals (s : State) (c k : Nat) (t : Thread) : (s.setThread c k t).signals = s.signals := rfl
@[simp] theorem State.setThread_hostReplies (s : State) (c k : Nat) (t : Thread) : (s.setThread c k t).hostReplies = s.hostReplies := rfl
@[simp] theorem State.setThread_safeTier (s : State) (c k : Nat) (t : Thread) : (s.setThread c k t).safeTier = s.safeTier := rfl
@[simp] theorem State.setThread_evidence (s : State) (c k : Nat) (t : Thread) : (s.setThread c k t).evidence = s.evidence := rfl

@[simp] theorem State.modThread_cycle (s : State) (c k : Nat) (f : Thread → Thread) : (s.modThread c k f).cycle = s.cycle := rfl
@[simp] theorem State.modThread_agenda (s : State) (c k : Nat) (f : Thread → Thread) : (s.modThread c k f).agenda = s.agenda := rfl
@[simp] theorem State.modThread_focus (s : State) (c k : Nat) (f : Thread → Thread) : (s.modThread c k f).focus = s.focus := rfl
@[simp] theorem State.modThread_cur (s : State) (c k : Nat) (f : Thread → Thread) : (s.modThread c k f).cur = s.cur := rfl
@[simp] theorem State.modThread_unit (s : State) (c k : Nat) (f : Thread → Thread) : (s.modThread c k f).unit = s.unit := rfl
@[simp] theorem State.modThread_fresh (s : State) (c k : Nat) (f : Thread → Thread) : (s.modThread c k f).fresh = s.fresh := rfl
@[simp] theorem State.modThread_nextUid (s : State) (c k : Nat) (f : Thread → Thread) : (s.modThread c k f).nextUid = s.nextUid := rfl
@[simp] theorem State.modThread_mem (s : State) (c k : Nat) (f : Thread → Thread) : (s.modThread c k f).mem = s.mem := rfl
@[simp] theorem State.modThread_marks (s : State) (c k : Nat) (f : Thread → Thread) : (s.modThread c k f).marks = s.marks := rfl
@[simp] theorem State.modThread_ecc (s : State) (c k : Nat) (f : Thread → Thread) : (s.modThread c k f).ecc = s.ecc := rfl
@[simp] theorem State.modThread_soft (s : State) (c k : Nat) (f : Thread → Thread) : (s.modThread c k f).soft = s.soft := rfl
@[simp] theorem State.modThread_order (s : State) (c k : Nat) (f : Thread → Thread) : (s.modThread c k f).order = s.order := rfl
@[simp] theorem State.modThread_posted (s : State) (c k : Nat) (f : Thread → Thread) : (s.modThread c k f).posted = s.posted := rfl
@[simp] theorem State.modThread_net (s : State) (c k : Nat) (f : Thread → Thread) : (s.modThread c k f).net = s.net := rfl
@[simp] theorem State.modThread_regs (s : State) (c k : Nat) (f : Thread → Thread) : (s.modThread c k f).regs = s.regs := rfl
@[simp] theorem State.modThread_seepHeld (s : State) (c k : Nat) (f : Thread → Thread) : (s.modThread c k f).seepHeld = s.seepHeld := rfl
@[simp] theorem State.modThread_timers (s : State) (c k : Nat) (f : Thread → Thread) : (s.modThread c k f).timers = s.timers := rfl
@[simp] theorem State.modThread_tiles (s : State) (c k : Nat) (f : Thread → Thread) : (s.modThread c k f).tiles = s.tiles := rfl
@[simp] theorem State.modThread_devices (s : State) (c k : Nat) (f : Thread → Thread) : (s.modThread c k f).devices = s.devices := rfl
@[simp] theorem State.modThread_lines (s : State) (c k : Nat) (f : Thread → Thread) : (s.modThread c k f).lines = s.lines := rfl
@[simp] theorem State.modThread_launches (s : State) (c k : Nat) (f : Thread → Thread) : (s.modThread c k f).launches = s.launches := rfl
@[simp] theorem State.modThread_signals (s : State) (c k : Nat) (f : Thread → Thread) : (s.modThread c k f).signals = s.signals := rfl
@[simp] theorem State.modThread_hostReplies (s : State) (c k : Nat) (f : Thread → Thread) : (s.modThread c k f).hostReplies = s.hostReplies := rfl
@[simp] theorem State.modThread_safeTier (s : State) (c k : Nat) (f : Thread → Thread) : (s.modThread c k f).safeTier = s.safeTier := rfl
@[simp] theorem State.modThread_evidence (s : State) (c k : Nat) (f : Thread → Thread) : (s.modThread c k f).evidence = s.evidence := rfl

@[simp] theorem State.modCur_cycle (s : State) (f : Thread → Thread) : (s.modCur f).cycle = s.cycle := rfl
@[simp] theorem State.modCur_agenda (s : State) (f : Thread → Thread) : (s.modCur f).agenda = s.agenda := rfl
@[simp] theorem State.modCur_focus (s : State) (f : Thread → Thread) : (s.modCur f).focus = s.focus := rfl
@[simp] theorem State.modCur_cur (s : State) (f : Thread → Thread) : (s.modCur f).cur = s.cur := rfl
@[simp] theorem State.modCur_unit (s : State) (f : Thread → Thread) : (s.modCur f).unit = s.unit := rfl
@[simp] theorem State.modCur_fresh (s : State) (f : Thread → Thread) : (s.modCur f).fresh = s.fresh := rfl
@[simp] theorem State.modCur_nextUid (s : State) (f : Thread → Thread) : (s.modCur f).nextUid = s.nextUid := rfl
@[simp] theorem State.modCur_mem (s : State) (f : Thread → Thread) : (s.modCur f).mem = s.mem := rfl
@[simp] theorem State.modCur_marks (s : State) (f : Thread → Thread) : (s.modCur f).marks = s.marks := rfl
@[simp] theorem State.modCur_ecc (s : State) (f : Thread → Thread) : (s.modCur f).ecc = s.ecc := rfl
@[simp] theorem State.modCur_soft (s : State) (f : Thread → Thread) : (s.modCur f).soft = s.soft := rfl
@[simp] theorem State.modCur_order (s : State) (f : Thread → Thread) : (s.modCur f).order = s.order := rfl
@[simp] theorem State.modCur_posted (s : State) (f : Thread → Thread) : (s.modCur f).posted = s.posted := rfl
@[simp] theorem State.modCur_net (s : State) (f : Thread → Thread) : (s.modCur f).net = s.net := rfl
@[simp] theorem State.modCur_regs (s : State) (f : Thread → Thread) : (s.modCur f).regs = s.regs := rfl
@[simp] theorem State.modCur_seepHeld (s : State) (f : Thread → Thread) : (s.modCur f).seepHeld = s.seepHeld := rfl
@[simp] theorem State.modCur_timers (s : State) (f : Thread → Thread) : (s.modCur f).timers = s.timers := rfl
@[simp] theorem State.modCur_tiles (s : State) (f : Thread → Thread) : (s.modCur f).tiles = s.tiles := rfl
@[simp] theorem State.modCur_devices (s : State) (f : Thread → Thread) : (s.modCur f).devices = s.devices := rfl
@[simp] theorem State.modCur_lines (s : State) (f : Thread → Thread) : (s.modCur f).lines = s.lines := rfl
@[simp] theorem State.modCur_launches (s : State) (f : Thread → Thread) : (s.modCur f).launches = s.launches := rfl
@[simp] theorem State.modCur_signals (s : State) (f : Thread → Thread) : (s.modCur f).signals = s.signals := rfl
@[simp] theorem State.modCur_hostReplies (s : State) (f : Thread → Thread) : (s.modCur f).hostReplies = s.hostReplies := rfl
@[simp] theorem State.modCur_safeTier (s : State) (f : Thread → Thread) : (s.modCur f).safeTier = s.safeTier := rfl
@[simp] theorem State.modCur_evidence (s : State) (f : Thread → Thread) : (s.modCur f).evidence = s.evidence := rfl

@[simp] theorem State.setReach_cycle (s : State) (c i : Nat) (e : Reach) : (s.setReach c i e).cycle = s.cycle := rfl
@[simp] theorem State.setReach_agenda (s : State) (c i : Nat) (e : Reach) : (s.setReach c i e).agenda = s.agenda := rfl
@[simp] theorem State.setReach_focus (s : State) (c i : Nat) (e : Reach) : (s.setReach c i e).focus = s.focus := rfl
@[simp] theorem State.setReach_cur (s : State) (c i : Nat) (e : Reach) : (s.setReach c i e).cur = s.cur := rfl
@[simp] theorem State.setReach_unit (s : State) (c i : Nat) (e : Reach) : (s.setReach c i e).unit = s.unit := rfl
@[simp] theorem State.setReach_fresh (s : State) (c i : Nat) (e : Reach) : (s.setReach c i e).fresh = s.fresh := rfl
@[simp] theorem State.setReach_nextUid (s : State) (c i : Nat) (e : Reach) : (s.setReach c i e).nextUid = s.nextUid := rfl
@[simp] theorem State.setReach_mem (s : State) (c i : Nat) (e : Reach) : (s.setReach c i e).mem = s.mem := rfl
@[simp] theorem State.setReach_marks (s : State) (c i : Nat) (e : Reach) : (s.setReach c i e).marks = s.marks := rfl
@[simp] theorem State.setReach_ecc (s : State) (c i : Nat) (e : Reach) : (s.setReach c i e).ecc = s.ecc := rfl
@[simp] theorem State.setReach_soft (s : State) (c i : Nat) (e : Reach) : (s.setReach c i e).soft = s.soft := rfl
@[simp] theorem State.setReach_order (s : State) (c i : Nat) (e : Reach) : (s.setReach c i e).order = s.order := rfl
@[simp] theorem State.setReach_posted (s : State) (c i : Nat) (e : Reach) : (s.setReach c i e).posted = s.posted := rfl
@[simp] theorem State.setReach_net (s : State) (c i : Nat) (e : Reach) : (s.setReach c i e).net = s.net := rfl
@[simp] theorem State.setReach_regs (s : State) (c i : Nat) (e : Reach) : (s.setReach c i e).regs = s.regs := rfl
@[simp] theorem State.setReach_seepHeld (s : State) (c i : Nat) (e : Reach) : (s.setReach c i e).seepHeld = s.seepHeld := rfl
@[simp] theorem State.setReach_timers (s : State) (c i : Nat) (e : Reach) : (s.setReach c i e).timers = s.timers := rfl
@[simp] theorem State.setReach_tiles (s : State) (c i : Nat) (e : Reach) : (s.setReach c i e).tiles = s.tiles := rfl
@[simp] theorem State.setReach_devices (s : State) (c i : Nat) (e : Reach) : (s.setReach c i e).devices = s.devices := rfl
@[simp] theorem State.setReach_lines (s : State) (c i : Nat) (e : Reach) : (s.setReach c i e).lines = s.lines := rfl
@[simp] theorem State.setReach_launches (s : State) (c i : Nat) (e : Reach) : (s.setReach c i e).launches = s.launches := rfl
@[simp] theorem State.setReach_signals (s : State) (c i : Nat) (e : Reach) : (s.setReach c i e).signals = s.signals := rfl
@[simp] theorem State.setReach_hostReplies (s : State) (c i : Nat) (e : Reach) : (s.setReach c i e).hostReplies = s.hostReplies := rfl
@[simp] theorem State.setReach_safeTier (s : State) (c i : Nat) (e : Reach) : (s.setReach c i e).safeTier = s.safeTier := rfl
@[simp] theorem State.setReach_evidence (s : State) (c i : Nat) (e : Reach) : (s.setReach c i e).evidence = s.evidence := rfl

@[simp] theorem State.setTile_cycle (s : State) (n : Nat) (x : Tile) : (s.setTile n x).cycle = s.cycle := rfl
@[simp] theorem State.setTile_agenda (s : State) (n : Nat) (x : Tile) : (s.setTile n x).agenda = s.agenda := rfl
@[simp] theorem State.setTile_focus (s : State) (n : Nat) (x : Tile) : (s.setTile n x).focus = s.focus := rfl
@[simp] theorem State.setTile_cur (s : State) (n : Nat) (x : Tile) : (s.setTile n x).cur = s.cur := rfl
@[simp] theorem State.setTile_unit (s : State) (n : Nat) (x : Tile) : (s.setTile n x).unit = s.unit := rfl
@[simp] theorem State.setTile_fresh (s : State) (n : Nat) (x : Tile) : (s.setTile n x).fresh = s.fresh := rfl
@[simp] theorem State.setTile_nextUid (s : State) (n : Nat) (x : Tile) : (s.setTile n x).nextUid = s.nextUid := rfl
@[simp] theorem State.setTile_mem (s : State) (n : Nat) (x : Tile) : (s.setTile n x).mem = s.mem := rfl
@[simp] theorem State.setTile_marks (s : State) (n : Nat) (x : Tile) : (s.setTile n x).marks = s.marks := rfl
@[simp] theorem State.setTile_ecc (s : State) (n : Nat) (x : Tile) : (s.setTile n x).ecc = s.ecc := rfl
@[simp] theorem State.setTile_soft (s : State) (n : Nat) (x : Tile) : (s.setTile n x).soft = s.soft := rfl
@[simp] theorem State.setTile_order (s : State) (n : Nat) (x : Tile) : (s.setTile n x).order = s.order := rfl
@[simp] theorem State.setTile_posted (s : State) (n : Nat) (x : Tile) : (s.setTile n x).posted = s.posted := rfl
@[simp] theorem State.setTile_net (s : State) (n : Nat) (x : Tile) : (s.setTile n x).net = s.net := rfl
@[simp] theorem State.setTile_regs (s : State) (n : Nat) (x : Tile) : (s.setTile n x).regs = s.regs := rfl
@[simp] theorem State.setTile_seepHeld (s : State) (n : Nat) (x : Tile) : (s.setTile n x).seepHeld = s.seepHeld := rfl
@[simp] theorem State.setTile_timers (s : State) (n : Nat) (x : Tile) : (s.setTile n x).timers = s.timers := rfl
@[simp] theorem State.setTile_cores (s : State) (n : Nat) (x : Tile) : (s.setTile n x).cores = s.cores := rfl
@[simp] theorem State.setTile_devices (s : State) (n : Nat) (x : Tile) : (s.setTile n x).devices = s.devices := rfl
@[simp] theorem State.setTile_lines (s : State) (n : Nat) (x : Tile) : (s.setTile n x).lines = s.lines := rfl
@[simp] theorem State.setTile_launches (s : State) (n : Nat) (x : Tile) : (s.setTile n x).launches = s.launches := rfl
@[simp] theorem State.setTile_signals (s : State) (n : Nat) (x : Tile) : (s.setTile n x).signals = s.signals := rfl
@[simp] theorem State.setTile_hostReplies (s : State) (n : Nat) (x : Tile) : (s.setTile n x).hostReplies = s.hostReplies := rfl
@[simp] theorem State.setTile_safeTier (s : State) (n : Nat) (x : Tile) : (s.setTile n x).safeTier = s.safeTier := rfl
@[simp] theorem State.setTile_evidence (s : State) (n : Nat) (x : Tile) : (s.setTile n x).evidence = s.evidence := rfl

@[simp] theorem State.modTile_cycle (s : State) (n : Nat) (f : Tile → Tile) : (s.modTile n f).cycle = s.cycle := rfl
@[simp] theorem State.modTile_agenda (s : State) (n : Nat) (f : Tile → Tile) : (s.modTile n f).agenda = s.agenda := rfl
@[simp] theorem State.modTile_focus (s : State) (n : Nat) (f : Tile → Tile) : (s.modTile n f).focus = s.focus := rfl
@[simp] theorem State.modTile_cur (s : State) (n : Nat) (f : Tile → Tile) : (s.modTile n f).cur = s.cur := rfl
@[simp] theorem State.modTile_unit (s : State) (n : Nat) (f : Tile → Tile) : (s.modTile n f).unit = s.unit := rfl
@[simp] theorem State.modTile_fresh (s : State) (n : Nat) (f : Tile → Tile) : (s.modTile n f).fresh = s.fresh := rfl
@[simp] theorem State.modTile_nextUid (s : State) (n : Nat) (f : Tile → Tile) : (s.modTile n f).nextUid = s.nextUid := rfl
@[simp] theorem State.modTile_mem (s : State) (n : Nat) (f : Tile → Tile) : (s.modTile n f).mem = s.mem := rfl
@[simp] theorem State.modTile_marks (s : State) (n : Nat) (f : Tile → Tile) : (s.modTile n f).marks = s.marks := rfl
@[simp] theorem State.modTile_ecc (s : State) (n : Nat) (f : Tile → Tile) : (s.modTile n f).ecc = s.ecc := rfl
@[simp] theorem State.modTile_soft (s : State) (n : Nat) (f : Tile → Tile) : (s.modTile n f).soft = s.soft := rfl
@[simp] theorem State.modTile_order (s : State) (n : Nat) (f : Tile → Tile) : (s.modTile n f).order = s.order := rfl
@[simp] theorem State.modTile_posted (s : State) (n : Nat) (f : Tile → Tile) : (s.modTile n f).posted = s.posted := rfl
@[simp] theorem State.modTile_net (s : State) (n : Nat) (f : Tile → Tile) : (s.modTile n f).net = s.net := rfl
@[simp] theorem State.modTile_regs (s : State) (n : Nat) (f : Tile → Tile) : (s.modTile n f).regs = s.regs := rfl
@[simp] theorem State.modTile_seepHeld (s : State) (n : Nat) (f : Tile → Tile) : (s.modTile n f).seepHeld = s.seepHeld := rfl
@[simp] theorem State.modTile_timers (s : State) (n : Nat) (f : Tile → Tile) : (s.modTile n f).timers = s.timers := rfl
@[simp] theorem State.modTile_cores (s : State) (n : Nat) (f : Tile → Tile) : (s.modTile n f).cores = s.cores := rfl
@[simp] theorem State.modTile_devices (s : State) (n : Nat) (f : Tile → Tile) : (s.modTile n f).devices = s.devices := rfl
@[simp] theorem State.modTile_lines (s : State) (n : Nat) (f : Tile → Tile) : (s.modTile n f).lines = s.lines := rfl
@[simp] theorem State.modTile_launches (s : State) (n : Nat) (f : Tile → Tile) : (s.modTile n f).launches = s.launches := rfl
@[simp] theorem State.modTile_signals (s : State) (n : Nat) (f : Tile → Tile) : (s.modTile n f).signals = s.signals := rfl
@[simp] theorem State.modTile_hostReplies (s : State) (n : Nat) (f : Tile → Tile) : (s.modTile n f).hostReplies = s.hostReplies := rfl
@[simp] theorem State.modTile_safeTier (s : State) (n : Nat) (f : Tile → Tile) : (s.modTile n f).safeTier = s.safeTier := rfl
@[simp] theorem State.modTile_evidence (s : State) (n : Nat) (f : Tile → Tile) : (s.modTile n f).evidence = s.evidence := rfl

@[simp] theorem State.setBank_cycle (s : State) (n b : Nat) (x : Bank) : (s.setBank n b x).cycle = s.cycle := rfl
@[simp] theorem State.setBank_agenda (s : State) (n b : Nat) (x : Bank) : (s.setBank n b x).agenda = s.agenda := rfl
@[simp] theorem State.setBank_focus (s : State) (n b : Nat) (x : Bank) : (s.setBank n b x).focus = s.focus := rfl
@[simp] theorem State.setBank_cur (s : State) (n b : Nat) (x : Bank) : (s.setBank n b x).cur = s.cur := rfl
@[simp] theorem State.setBank_unit (s : State) (n b : Nat) (x : Bank) : (s.setBank n b x).unit = s.unit := rfl
@[simp] theorem State.setBank_fresh (s : State) (n b : Nat) (x : Bank) : (s.setBank n b x).fresh = s.fresh := rfl
@[simp] theorem State.setBank_nextUid (s : State) (n b : Nat) (x : Bank) : (s.setBank n b x).nextUid = s.nextUid := rfl
@[simp] theorem State.setBank_mem (s : State) (n b : Nat) (x : Bank) : (s.setBank n b x).mem = s.mem := rfl
@[simp] theorem State.setBank_marks (s : State) (n b : Nat) (x : Bank) : (s.setBank n b x).marks = s.marks := rfl
@[simp] theorem State.setBank_ecc (s : State) (n b : Nat) (x : Bank) : (s.setBank n b x).ecc = s.ecc := rfl
@[simp] theorem State.setBank_soft (s : State) (n b : Nat) (x : Bank) : (s.setBank n b x).soft = s.soft := rfl
@[simp] theorem State.setBank_order (s : State) (n b : Nat) (x : Bank) : (s.setBank n b x).order = s.order := rfl
@[simp] theorem State.setBank_posted (s : State) (n b : Nat) (x : Bank) : (s.setBank n b x).posted = s.posted := rfl
@[simp] theorem State.setBank_net (s : State) (n b : Nat) (x : Bank) : (s.setBank n b x).net = s.net := rfl
@[simp] theorem State.setBank_regs (s : State) (n b : Nat) (x : Bank) : (s.setBank n b x).regs = s.regs := rfl
@[simp] theorem State.setBank_seepHeld (s : State) (n b : Nat) (x : Bank) : (s.setBank n b x).seepHeld = s.seepHeld := rfl
@[simp] theorem State.setBank_timers (s : State) (n b : Nat) (x : Bank) : (s.setBank n b x).timers = s.timers := rfl
@[simp] theorem State.setBank_cores (s : State) (n b : Nat) (x : Bank) : (s.setBank n b x).cores = s.cores := rfl
@[simp] theorem State.setBank_devices (s : State) (n b : Nat) (x : Bank) : (s.setBank n b x).devices = s.devices := rfl
@[simp] theorem State.setBank_lines (s : State) (n b : Nat) (x : Bank) : (s.setBank n b x).lines = s.lines := rfl
@[simp] theorem State.setBank_launches (s : State) (n b : Nat) (x : Bank) : (s.setBank n b x).launches = s.launches := rfl
@[simp] theorem State.setBank_signals (s : State) (n b : Nat) (x : Bank) : (s.setBank n b x).signals = s.signals := rfl
@[simp] theorem State.setBank_hostReplies (s : State) (n b : Nat) (x : Bank) : (s.setBank n b x).hostReplies = s.hostReplies := rfl
@[simp] theorem State.setBank_safeTier (s : State) (n b : Nat) (x : Bank) : (s.setBank n b x).safeTier = s.safeTier := rfl
@[simp] theorem State.setBank_evidence (s : State) (n b : Nat) (x : Bank) : (s.setBank n b x).evidence = s.evidence := rfl

@[simp] theorem State.modDevice_cycle (s : State) (d : Nat) (f : Device → Device) : (s.modDevice d f).cycle = s.cycle := rfl
@[simp] theorem State.modDevice_agenda (s : State) (d : Nat) (f : Device → Device) : (s.modDevice d f).agenda = s.agenda := rfl
@[simp] theorem State.modDevice_focus (s : State) (d : Nat) (f : Device → Device) : (s.modDevice d f).focus = s.focus := rfl
@[simp] theorem State.modDevice_cur (s : State) (d : Nat) (f : Device → Device) : (s.modDevice d f).cur = s.cur := rfl
@[simp] theorem State.modDevice_unit (s : State) (d : Nat) (f : Device → Device) : (s.modDevice d f).unit = s.unit := rfl
@[simp] theorem State.modDevice_fresh (s : State) (d : Nat) (f : Device → Device) : (s.modDevice d f).fresh = s.fresh := rfl
@[simp] theorem State.modDevice_nextUid (s : State) (d : Nat) (f : Device → Device) : (s.modDevice d f).nextUid = s.nextUid := rfl
@[simp] theorem State.modDevice_mem (s : State) (d : Nat) (f : Device → Device) : (s.modDevice d f).mem = s.mem := rfl
@[simp] theorem State.modDevice_marks (s : State) (d : Nat) (f : Device → Device) : (s.modDevice d f).marks = s.marks := rfl
@[simp] theorem State.modDevice_ecc (s : State) (d : Nat) (f : Device → Device) : (s.modDevice d f).ecc = s.ecc := rfl
@[simp] theorem State.modDevice_soft (s : State) (d : Nat) (f : Device → Device) : (s.modDevice d f).soft = s.soft := rfl
@[simp] theorem State.modDevice_order (s : State) (d : Nat) (f : Device → Device) : (s.modDevice d f).order = s.order := rfl
@[simp] theorem State.modDevice_posted (s : State) (d : Nat) (f : Device → Device) : (s.modDevice d f).posted = s.posted := rfl
@[simp] theorem State.modDevice_net (s : State) (d : Nat) (f : Device → Device) : (s.modDevice d f).net = s.net := rfl
@[simp] theorem State.modDevice_regs (s : State) (d : Nat) (f : Device → Device) : (s.modDevice d f).regs = s.regs := rfl
@[simp] theorem State.modDevice_seepHeld (s : State) (d : Nat) (f : Device → Device) : (s.modDevice d f).seepHeld = s.seepHeld := rfl
@[simp] theorem State.modDevice_timers (s : State) (d : Nat) (f : Device → Device) : (s.modDevice d f).timers = s.timers := rfl
@[simp] theorem State.modDevice_cores (s : State) (d : Nat) (f : Device → Device) : (s.modDevice d f).cores = s.cores := rfl
@[simp] theorem State.modDevice_tiles (s : State) (d : Nat) (f : Device → Device) : (s.modDevice d f).tiles = s.tiles := rfl
@[simp] theorem State.modDevice_lines (s : State) (d : Nat) (f : Device → Device) : (s.modDevice d f).lines = s.lines := rfl
@[simp] theorem State.modDevice_launches (s : State) (d : Nat) (f : Device → Device) : (s.modDevice d f).launches = s.launches := rfl
@[simp] theorem State.modDevice_signals (s : State) (d : Nat) (f : Device → Device) : (s.modDevice d f).signals = s.signals := rfl
@[simp] theorem State.modDevice_hostReplies (s : State) (d : Nat) (f : Device → Device) : (s.modDevice d f).hostReplies = s.hostReplies := rfl
@[simp] theorem State.modDevice_safeTier (s : State) (d : Nat) (f : Device → Device) : (s.modDevice d f).safeTier = s.safeTier := rfl
@[simp] theorem State.modDevice_evidence (s : State) (d : Nat) (f : Device → Device) : (s.modDevice d f).evidence = s.evidence := rfl

@[simp] theorem State.silt_cycle (s : State) (d k c u : Nat) (i : W64) : (s.silt d k c u i).cycle = s.cycle := rfl
@[simp] theorem State.silt_agenda (s : State) (d k c u : Nat) (i : W64) : (s.silt d k c u i).agenda = s.agenda := rfl
@[simp] theorem State.silt_focus (s : State) (d k c u : Nat) (i : W64) : (s.silt d k c u i).focus = s.focus := rfl
@[simp] theorem State.silt_cur (s : State) (d k c u : Nat) (i : W64) : (s.silt d k c u i).cur = s.cur := rfl
@[simp] theorem State.silt_unit (s : State) (d k c u : Nat) (i : W64) : (s.silt d k c u i).unit = s.unit := rfl
@[simp] theorem State.silt_fresh (s : State) (d k c u : Nat) (i : W64) : (s.silt d k c u i).fresh = s.fresh := rfl
@[simp] theorem State.silt_nextUid (s : State) (d k c u : Nat) (i : W64) : (s.silt d k c u i).nextUid = s.nextUid := rfl
@[simp] theorem State.silt_mem (s : State) (d k c u : Nat) (i : W64) : (s.silt d k c u i).mem = s.mem := rfl
@[simp] theorem State.silt_marks (s : State) (d k c u : Nat) (i : W64) : (s.silt d k c u i).marks = s.marks := rfl
@[simp] theorem State.silt_ecc (s : State) (d k c u : Nat) (i : W64) : (s.silt d k c u i).ecc = s.ecc := rfl
@[simp] theorem State.silt_soft (s : State) (d k c u : Nat) (i : W64) : (s.silt d k c u i).soft = s.soft := rfl
@[simp] theorem State.silt_order (s : State) (d k c u : Nat) (i : W64) : (s.silt d k c u i).order = s.order := rfl
@[simp] theorem State.silt_posted (s : State) (d k c u : Nat) (i : W64) : (s.silt d k c u i).posted = s.posted := rfl
@[simp] theorem State.silt_net (s : State) (d k c u : Nat) (i : W64) : (s.silt d k c u i).net = s.net := rfl
@[simp] theorem State.silt_regs (s : State) (d k c u : Nat) (i : W64) : (s.silt d k c u i).regs = s.regs := rfl
@[simp] theorem State.silt_seepHeld (s : State) (d k c u : Nat) (i : W64) : (s.silt d k c u i).seepHeld = s.seepHeld := rfl
@[simp] theorem State.silt_timers (s : State) (d k c u : Nat) (i : W64) : (s.silt d k c u i).timers = s.timers := rfl
@[simp] theorem State.silt_cores (s : State) (d k c u : Nat) (i : W64) : (s.silt d k c u i).cores = s.cores := rfl
@[simp] theorem State.silt_tiles (s : State) (d k c u : Nat) (i : W64) : (s.silt d k c u i).tiles = s.tiles := rfl
@[simp] theorem State.silt_lines (s : State) (d k c u : Nat) (i : W64) : (s.silt d k c u i).lines = s.lines := rfl
@[simp] theorem State.silt_launches (s : State) (d k c u : Nat) (i : W64) : (s.silt d k c u i).launches = s.launches := rfl
@[simp] theorem State.silt_signals (s : State) (d k c u : Nat) (i : W64) : (s.silt d k c u i).signals = s.signals := rfl
@[simp] theorem State.silt_hostReplies (s : State) (d k c u : Nat) (i : W64) : (s.silt d k c u i).hostReplies = s.hostReplies := rfl
@[simp] theorem State.silt_safeTier (s : State) (d k c u : Nat) (i : W64) : (s.silt d k c u i).safeTier = s.safeTier := rfl
@[simp] theorem State.silt_evidence (s : State) (d k c u : Nat) (i : W64) : (s.silt d k c u i).evidence = s.evidence := rfl

@[simp] theorem State.setLine_cycle (s : State) (n : Nat) (l : Line) : (s.setLine n l).cycle = s.cycle := rfl
@[simp] theorem State.setLine_agenda (s : State) (n : Nat) (l : Line) : (s.setLine n l).agenda = s.agenda := rfl
@[simp] theorem State.setLine_focus (s : State) (n : Nat) (l : Line) : (s.setLine n l).focus = s.focus := rfl
@[simp] theorem State.setLine_cur (s : State) (n : Nat) (l : Line) : (s.setLine n l).cur = s.cur := rfl
@[simp] theorem State.setLine_unit (s : State) (n : Nat) (l : Line) : (s.setLine n l).unit = s.unit := rfl
@[simp] theorem State.setLine_fresh (s : State) (n : Nat) (l : Line) : (s.setLine n l).fresh = s.fresh := rfl
@[simp] theorem State.setLine_nextUid (s : State) (n : Nat) (l : Line) : (s.setLine n l).nextUid = s.nextUid := rfl
@[simp] theorem State.setLine_mem (s : State) (n : Nat) (l : Line) : (s.setLine n l).mem = s.mem := rfl
@[simp] theorem State.setLine_marks (s : State) (n : Nat) (l : Line) : (s.setLine n l).marks = s.marks := rfl
@[simp] theorem State.setLine_ecc (s : State) (n : Nat) (l : Line) : (s.setLine n l).ecc = s.ecc := rfl
@[simp] theorem State.setLine_soft (s : State) (n : Nat) (l : Line) : (s.setLine n l).soft = s.soft := rfl
@[simp] theorem State.setLine_order (s : State) (n : Nat) (l : Line) : (s.setLine n l).order = s.order := rfl
@[simp] theorem State.setLine_posted (s : State) (n : Nat) (l : Line) : (s.setLine n l).posted = s.posted := rfl
@[simp] theorem State.setLine_net (s : State) (n : Nat) (l : Line) : (s.setLine n l).net = s.net := rfl
@[simp] theorem State.setLine_regs (s : State) (n : Nat) (l : Line) : (s.setLine n l).regs = s.regs := rfl
@[simp] theorem State.setLine_seepHeld (s : State) (n : Nat) (l : Line) : (s.setLine n l).seepHeld = s.seepHeld := rfl
@[simp] theorem State.setLine_timers (s : State) (n : Nat) (l : Line) : (s.setLine n l).timers = s.timers := rfl
@[simp] theorem State.setLine_cores (s : State) (n : Nat) (l : Line) : (s.setLine n l).cores = s.cores := rfl
@[simp] theorem State.setLine_tiles (s : State) (n : Nat) (l : Line) : (s.setLine n l).tiles = s.tiles := rfl
@[simp] theorem State.setLine_devices (s : State) (n : Nat) (l : Line) : (s.setLine n l).devices = s.devices := rfl
@[simp] theorem State.setLine_launches (s : State) (n : Nat) (l : Line) : (s.setLine n l).launches = s.launches := rfl
@[simp] theorem State.setLine_signals (s : State) (n : Nat) (l : Line) : (s.setLine n l).signals = s.signals := rfl
@[simp] theorem State.setLine_hostReplies (s : State) (n : Nat) (l : Line) : (s.setLine n l).hostReplies = s.hostReplies := rfl
@[simp] theorem State.setLine_safeTier (s : State) (n : Nat) (l : Line) : (s.setLine n l).safeTier = s.safeTier := rfl
@[simp] theorem State.setLine_evidence (s : State) (n : Nat) (l : Line) : (s.setLine n l).evidence = s.evidence := rfl

@[simp] theorem State.setReg_cycle (s : State) (p : Nat) (w : W64) : (s.setReg p w).cycle = s.cycle := rfl
@[simp] theorem State.setReg_agenda (s : State) (p : Nat) (w : W64) : (s.setReg p w).agenda = s.agenda := rfl
@[simp] theorem State.setReg_focus (s : State) (p : Nat) (w : W64) : (s.setReg p w).focus = s.focus := rfl
@[simp] theorem State.setReg_cur (s : State) (p : Nat) (w : W64) : (s.setReg p w).cur = s.cur := rfl
@[simp] theorem State.setReg_unit (s : State) (p : Nat) (w : W64) : (s.setReg p w).unit = s.unit := rfl
@[simp] theorem State.setReg_fresh (s : State) (p : Nat) (w : W64) : (s.setReg p w).fresh = s.fresh := rfl
@[simp] theorem State.setReg_nextUid (s : State) (p : Nat) (w : W64) : (s.setReg p w).nextUid = s.nextUid := rfl
@[simp] theorem State.setReg_mem (s : State) (p : Nat) (w : W64) : (s.setReg p w).mem = s.mem := rfl
@[simp] theorem State.setReg_marks (s : State) (p : Nat) (w : W64) : (s.setReg p w).marks = s.marks := rfl
@[simp] theorem State.setReg_ecc (s : State) (p : Nat) (w : W64) : (s.setReg p w).ecc = s.ecc := rfl
@[simp] theorem State.setReg_soft (s : State) (p : Nat) (w : W64) : (s.setReg p w).soft = s.soft := rfl
@[simp] theorem State.setReg_order (s : State) (p : Nat) (w : W64) : (s.setReg p w).order = s.order := rfl
@[simp] theorem State.setReg_posted (s : State) (p : Nat) (w : W64) : (s.setReg p w).posted = s.posted := rfl
@[simp] theorem State.setReg_net (s : State) (p : Nat) (w : W64) : (s.setReg p w).net = s.net := rfl
@[simp] theorem State.setReg_seepHeld (s : State) (p : Nat) (w : W64) : (s.setReg p w).seepHeld = s.seepHeld := rfl
@[simp] theorem State.setReg_timers (s : State) (p : Nat) (w : W64) : (s.setReg p w).timers = s.timers := rfl
@[simp] theorem State.setReg_cores (s : State) (p : Nat) (w : W64) : (s.setReg p w).cores = s.cores := rfl
@[simp] theorem State.setReg_tiles (s : State) (p : Nat) (w : W64) : (s.setReg p w).tiles = s.tiles := rfl
@[simp] theorem State.setReg_devices (s : State) (p : Nat) (w : W64) : (s.setReg p w).devices = s.devices := rfl
@[simp] theorem State.setReg_lines (s : State) (p : Nat) (w : W64) : (s.setReg p w).lines = s.lines := rfl
@[simp] theorem State.setReg_launches (s : State) (p : Nat) (w : W64) : (s.setReg p w).launches = s.launches := rfl
@[simp] theorem State.setReg_signals (s : State) (p : Nat) (w : W64) : (s.setReg p w).signals = s.signals := rfl
@[simp] theorem State.setReg_hostReplies (s : State) (p : Nat) (w : W64) : (s.setReg p w).hostReplies = s.hostReplies := rfl
@[simp] theorem State.setReg_safeTier (s : State) (p : Nat) (w : W64) : (s.setReg p w).safeTier = s.safeTier := rfl
@[simp] theorem State.setReg_evidence (s : State) (p : Nat) (w : W64) : (s.setReg p w).evidence = s.evidence := rfl

@[simp] theorem State.setByte_cycle (s : State) (a : Nat) (b : Byte) : (s.setByte a b).cycle = s.cycle := rfl
@[simp] theorem State.setByte_agenda (s : State) (a : Nat) (b : Byte) : (s.setByte a b).agenda = s.agenda := rfl
@[simp] theorem State.setByte_focus (s : State) (a : Nat) (b : Byte) : (s.setByte a b).focus = s.focus := rfl
@[simp] theorem State.setByte_cur (s : State) (a : Nat) (b : Byte) : (s.setByte a b).cur = s.cur := rfl
@[simp] theorem State.setByte_unit (s : State) (a : Nat) (b : Byte) : (s.setByte a b).unit = s.unit := rfl
@[simp] theorem State.setByte_fresh (s : State) (a : Nat) (b : Byte) : (s.setByte a b).fresh = s.fresh := rfl
@[simp] theorem State.setByte_nextUid (s : State) (a : Nat) (b : Byte) : (s.setByte a b).nextUid = s.nextUid := rfl
@[simp] theorem State.setByte_marks (s : State) (a : Nat) (b : Byte) : (s.setByte a b).marks = s.marks := rfl
@[simp] theorem State.setByte_ecc (s : State) (a : Nat) (b : Byte) : (s.setByte a b).ecc = s.ecc := rfl
@[simp] theorem State.setByte_soft (s : State) (a : Nat) (b : Byte) : (s.setByte a b).soft = s.soft := rfl
@[simp] theorem State.setByte_order (s : State) (a : Nat) (b : Byte) : (s.setByte a b).order = s.order := rfl
@[simp] theorem State.setByte_posted (s : State) (a : Nat) (b : Byte) : (s.setByte a b).posted = s.posted := rfl
@[simp] theorem State.setByte_net (s : State) (a : Nat) (b : Byte) : (s.setByte a b).net = s.net := rfl
@[simp] theorem State.setByte_regs (s : State) (a : Nat) (b : Byte) : (s.setByte a b).regs = s.regs := rfl
@[simp] theorem State.setByte_seepHeld (s : State) (a : Nat) (b : Byte) : (s.setByte a b).seepHeld = s.seepHeld := rfl
@[simp] theorem State.setByte_timers (s : State) (a : Nat) (b : Byte) : (s.setByte a b).timers = s.timers := rfl
@[simp] theorem State.setByte_cores (s : State) (a : Nat) (b : Byte) : (s.setByte a b).cores = s.cores := rfl
@[simp] theorem State.setByte_tiles (s : State) (a : Nat) (b : Byte) : (s.setByte a b).tiles = s.tiles := rfl
@[simp] theorem State.setByte_devices (s : State) (a : Nat) (b : Byte) : (s.setByte a b).devices = s.devices := rfl
@[simp] theorem State.setByte_lines (s : State) (a : Nat) (b : Byte) : (s.setByte a b).lines = s.lines := rfl
@[simp] theorem State.setByte_launches (s : State) (a : Nat) (b : Byte) : (s.setByte a b).launches = s.launches := rfl
@[simp] theorem State.setByte_signals (s : State) (a : Nat) (b : Byte) : (s.setByte a b).signals = s.signals := rfl
@[simp] theorem State.setByte_hostReplies (s : State) (a : Nat) (b : Byte) : (s.setByte a b).hostReplies = s.hostReplies := rfl
@[simp] theorem State.setByte_safeTier (s : State) (a : Nat) (b : Byte) : (s.setByte a b).safeTier = s.safeTier := rfl
@[simp] theorem State.setByte_evidence (s : State) (a : Nat) (b : Byte) : (s.setByte a b).evidence = s.evidence := rfl

@[simp] theorem State.notify_cycle (s : State) (c : Nat) (n : Notice) : (s.notify c n).cycle = s.cycle := rfl
@[simp] theorem State.notify_agenda (s : State) (c : Nat) (n : Notice) : (s.notify c n).agenda = s.agenda := rfl
@[simp] theorem State.notify_focus (s : State) (c : Nat) (n : Notice) : (s.notify c n).focus = s.focus := rfl
@[simp] theorem State.notify_cur (s : State) (c : Nat) (n : Notice) : (s.notify c n).cur = s.cur := rfl
@[simp] theorem State.notify_unit (s : State) (c : Nat) (n : Notice) : (s.notify c n).unit = s.unit := rfl
@[simp] theorem State.notify_fresh (s : State) (c : Nat) (n : Notice) : (s.notify c n).fresh = s.fresh := rfl
@[simp] theorem State.notify_nextUid (s : State) (c : Nat) (n : Notice) : (s.notify c n).nextUid = s.nextUid := rfl
@[simp] theorem State.notify_mem (s : State) (c : Nat) (n : Notice) : (s.notify c n).mem = s.mem := rfl
@[simp] theorem State.notify_marks (s : State) (c : Nat) (n : Notice) : (s.notify c n).marks = s.marks := rfl
@[simp] theorem State.notify_ecc (s : State) (c : Nat) (n : Notice) : (s.notify c n).ecc = s.ecc := rfl
@[simp] theorem State.notify_soft (s : State) (c : Nat) (n : Notice) : (s.notify c n).soft = s.soft := rfl
@[simp] theorem State.notify_order (s : State) (c : Nat) (n : Notice) : (s.notify c n).order = s.order := rfl
@[simp] theorem State.notify_posted (s : State) (c : Nat) (n : Notice) : (s.notify c n).posted = s.posted := rfl
@[simp] theorem State.notify_regs (s : State) (c : Nat) (n : Notice) : (s.notify c n).regs = s.regs := rfl
@[simp] theorem State.notify_seepHeld (s : State) (c : Nat) (n : Notice) : (s.notify c n).seepHeld = s.seepHeld := rfl
@[simp] theorem State.notify_timers (s : State) (c : Nat) (n : Notice) : (s.notify c n).timers = s.timers := rfl
@[simp] theorem State.notify_cores (s : State) (c : Nat) (n : Notice) : (s.notify c n).cores = s.cores := rfl
@[simp] theorem State.notify_tiles (s : State) (c : Nat) (n : Notice) : (s.notify c n).tiles = s.tiles := rfl
@[simp] theorem State.notify_devices (s : State) (c : Nat) (n : Notice) : (s.notify c n).devices = s.devices := rfl
@[simp] theorem State.notify_lines (s : State) (c : Nat) (n : Notice) : (s.notify c n).lines = s.lines := rfl
@[simp] theorem State.notify_launches (s : State) (c : Nat) (n : Notice) : (s.notify c n).launches = s.launches := rfl
@[simp] theorem State.notify_signals (s : State) (c : Nat) (n : Notice) : (s.notify c n).signals = s.signals := rfl
@[simp] theorem State.notify_hostReplies (s : State) (c : Nat) (n : Notice) : (s.notify c n).hostReplies = s.hostReplies := rfl
@[simp] theorem State.notify_safeTier (s : State) (c : Nat) (n : Notice) : (s.notify c n).safeTier = s.safeTier := rfl
@[simp] theorem State.notify_evidence (s : State) (c : Nat) (n : Notice) : (s.notify c n).evidence = s.evidence := rfl

@[simp] theorem State.sendPosted_cycle (s : State) (p : Posted) : (s.sendPosted p).cycle = s.cycle := rfl
@[simp] theorem State.sendPosted_agenda (s : State) (p : Posted) : (s.sendPosted p).agenda = s.agenda := rfl
@[simp] theorem State.sendPosted_focus (s : State) (p : Posted) : (s.sendPosted p).focus = s.focus := rfl
@[simp] theorem State.sendPosted_cur (s : State) (p : Posted) : (s.sendPosted p).cur = s.cur := rfl
@[simp] theorem State.sendPosted_unit (s : State) (p : Posted) : (s.sendPosted p).unit = s.unit := rfl
@[simp] theorem State.sendPosted_fresh (s : State) (p : Posted) : (s.sendPosted p).fresh = s.fresh := rfl
@[simp] theorem State.sendPosted_mem (s : State) (p : Posted) : (s.sendPosted p).mem = s.mem := rfl
@[simp] theorem State.sendPosted_marks (s : State) (p : Posted) : (s.sendPosted p).marks = s.marks := rfl
@[simp] theorem State.sendPosted_ecc (s : State) (p : Posted) : (s.sendPosted p).ecc = s.ecc := rfl
@[simp] theorem State.sendPosted_soft (s : State) (p : Posted) : (s.sendPosted p).soft = s.soft := rfl
@[simp] theorem State.sendPosted_order (s : State) (p : Posted) : (s.sendPosted p).order = s.order := rfl
@[simp] theorem State.sendPosted_net (s : State) (p : Posted) : (s.sendPosted p).net = s.net := rfl
@[simp] theorem State.sendPosted_regs (s : State) (p : Posted) : (s.sendPosted p).regs = s.regs := rfl
@[simp] theorem State.sendPosted_seepHeld (s : State) (p : Posted) : (s.sendPosted p).seepHeld = s.seepHeld := rfl
@[simp] theorem State.sendPosted_timers (s : State) (p : Posted) : (s.sendPosted p).timers = s.timers := rfl
@[simp] theorem State.sendPosted_cores (s : State) (p : Posted) : (s.sendPosted p).cores = s.cores := rfl
@[simp] theorem State.sendPosted_tiles (s : State) (p : Posted) : (s.sendPosted p).tiles = s.tiles := rfl
@[simp] theorem State.sendPosted_devices (s : State) (p : Posted) : (s.sendPosted p).devices = s.devices := rfl
@[simp] theorem State.sendPosted_lines (s : State) (p : Posted) : (s.sendPosted p).lines = s.lines := rfl
@[simp] theorem State.sendPosted_launches (s : State) (p : Posted) : (s.sendPosted p).launches = s.launches := rfl
@[simp] theorem State.sendPosted_signals (s : State) (p : Posted) : (s.sendPosted p).signals = s.signals := rfl
@[simp] theorem State.sendPosted_hostReplies (s : State) (p : Posted) : (s.sendPosted p).hostReplies = s.hostReplies := rfl
@[simp] theorem State.sendPosted_safeTier (s : State) (p : Posted) : (s.sendPosted p).safeTier = s.safeTier := rfl
@[simp] theorem State.sendPosted_evidence (s : State) (p : Posted) : (s.sendPosted p).evidence = s.evidence := rfl

@[simp] theorem State.modLaunch_cycle (s : State) (h : W64) (f : Launch → Launch) : (s.modLaunch h f).cycle = s.cycle := rfl
@[simp] theorem State.modLaunch_agenda (s : State) (h : W64) (f : Launch → Launch) : (s.modLaunch h f).agenda = s.agenda := rfl
@[simp] theorem State.modLaunch_focus (s : State) (h : W64) (f : Launch → Launch) : (s.modLaunch h f).focus = s.focus := rfl
@[simp] theorem State.modLaunch_cur (s : State) (h : W64) (f : Launch → Launch) : (s.modLaunch h f).cur = s.cur := rfl
@[simp] theorem State.modLaunch_unit (s : State) (h : W64) (f : Launch → Launch) : (s.modLaunch h f).unit = s.unit := rfl
@[simp] theorem State.modLaunch_fresh (s : State) (h : W64) (f : Launch → Launch) : (s.modLaunch h f).fresh = s.fresh := rfl
@[simp] theorem State.modLaunch_nextUid (s : State) (h : W64) (f : Launch → Launch) : (s.modLaunch h f).nextUid = s.nextUid := rfl
@[simp] theorem State.modLaunch_mem (s : State) (h : W64) (f : Launch → Launch) : (s.modLaunch h f).mem = s.mem := rfl
@[simp] theorem State.modLaunch_marks (s : State) (h : W64) (f : Launch → Launch) : (s.modLaunch h f).marks = s.marks := rfl
@[simp] theorem State.modLaunch_ecc (s : State) (h : W64) (f : Launch → Launch) : (s.modLaunch h f).ecc = s.ecc := rfl
@[simp] theorem State.modLaunch_soft (s : State) (h : W64) (f : Launch → Launch) : (s.modLaunch h f).soft = s.soft := rfl
@[simp] theorem State.modLaunch_order (s : State) (h : W64) (f : Launch → Launch) : (s.modLaunch h f).order = s.order := rfl
@[simp] theorem State.modLaunch_posted (s : State) (h : W64) (f : Launch → Launch) : (s.modLaunch h f).posted = s.posted := rfl
@[simp] theorem State.modLaunch_net (s : State) (h : W64) (f : Launch → Launch) : (s.modLaunch h f).net = s.net := rfl
@[simp] theorem State.modLaunch_regs (s : State) (h : W64) (f : Launch → Launch) : (s.modLaunch h f).regs = s.regs := rfl
@[simp] theorem State.modLaunch_seepHeld (s : State) (h : W64) (f : Launch → Launch) : (s.modLaunch h f).seepHeld = s.seepHeld := rfl
@[simp] theorem State.modLaunch_timers (s : State) (h : W64) (f : Launch → Launch) : (s.modLaunch h f).timers = s.timers := rfl
@[simp] theorem State.modLaunch_cores (s : State) (h : W64) (f : Launch → Launch) : (s.modLaunch h f).cores = s.cores := rfl
@[simp] theorem State.modLaunch_tiles (s : State) (h : W64) (f : Launch → Launch) : (s.modLaunch h f).tiles = s.tiles := rfl
@[simp] theorem State.modLaunch_devices (s : State) (h : W64) (f : Launch → Launch) : (s.modLaunch h f).devices = s.devices := rfl
@[simp] theorem State.modLaunch_lines (s : State) (h : W64) (f : Launch → Launch) : (s.modLaunch h f).lines = s.lines := rfl
@[simp] theorem State.modLaunch_signals (s : State) (h : W64) (f : Launch → Launch) : (s.modLaunch h f).signals = s.signals := rfl
@[simp] theorem State.modLaunch_hostReplies (s : State) (h : W64) (f : Launch → Launch) : (s.modLaunch h f).hostReplies = s.hostReplies := rfl
@[simp] theorem State.modLaunch_safeTier (s : State) (h : W64) (f : Launch → Launch) : (s.modLaunch h f).safeTier = s.safeTier := rfl
@[simp] theorem State.modLaunch_evidence (s : State) (h : W64) (f : Launch → Launch) : (s.modLaunch h f).evidence = s.evidence := rfl

@[simp] theorem State.wS_cycle (s : State) (n : Nat) (v : SVal) : (s.wS n v).cycle = s.cycle := rfl
@[simp] theorem State.wS_agenda (s : State) (n : Nat) (v : SVal) : (s.wS n v).agenda = s.agenda := rfl
@[simp] theorem State.wS_focus (s : State) (n : Nat) (v : SVal) : (s.wS n v).focus = s.focus := rfl
@[simp] theorem State.wS_cur (s : State) (n : Nat) (v : SVal) : (s.wS n v).cur = s.cur := rfl
@[simp] theorem State.wS_unit (s : State) (n : Nat) (v : SVal) : (s.wS n v).unit = s.unit := rfl
@[simp] theorem State.wS_fresh (s : State) (n : Nat) (v : SVal) : (s.wS n v).fresh = s.fresh := rfl
@[simp] theorem State.wS_nextUid (s : State) (n : Nat) (v : SVal) : (s.wS n v).nextUid = s.nextUid := rfl
@[simp] theorem State.wS_mem (s : State) (n : Nat) (v : SVal) : (s.wS n v).mem = s.mem := rfl
@[simp] theorem State.wS_marks (s : State) (n : Nat) (v : SVal) : (s.wS n v).marks = s.marks := rfl
@[simp] theorem State.wS_ecc (s : State) (n : Nat) (v : SVal) : (s.wS n v).ecc = s.ecc := rfl
@[simp] theorem State.wS_soft (s : State) (n : Nat) (v : SVal) : (s.wS n v).soft = s.soft := rfl
@[simp] theorem State.wS_order (s : State) (n : Nat) (v : SVal) : (s.wS n v).order = s.order := rfl
@[simp] theorem State.wS_posted (s : State) (n : Nat) (v : SVal) : (s.wS n v).posted = s.posted := rfl
@[simp] theorem State.wS_net (s : State) (n : Nat) (v : SVal) : (s.wS n v).net = s.net := rfl
@[simp] theorem State.wS_regs (s : State) (n : Nat) (v : SVal) : (s.wS n v).regs = s.regs := rfl
@[simp] theorem State.wS_seepHeld (s : State) (n : Nat) (v : SVal) : (s.wS n v).seepHeld = s.seepHeld := rfl
@[simp] theorem State.wS_timers (s : State) (n : Nat) (v : SVal) : (s.wS n v).timers = s.timers := rfl
@[simp] theorem State.wS_tiles (s : State) (n : Nat) (v : SVal) : (s.wS n v).tiles = s.tiles := rfl
@[simp] theorem State.wS_devices (s : State) (n : Nat) (v : SVal) : (s.wS n v).devices = s.devices := rfl
@[simp] theorem State.wS_lines (s : State) (n : Nat) (v : SVal) : (s.wS n v).lines = s.lines := rfl
@[simp] theorem State.wS_launches (s : State) (n : Nat) (v : SVal) : (s.wS n v).launches = s.launches := rfl
@[simp] theorem State.wS_signals (s : State) (n : Nat) (v : SVal) : (s.wS n v).signals = s.signals := rfl
@[simp] theorem State.wS_hostReplies (s : State) (n : Nat) (v : SVal) : (s.wS n v).hostReplies = s.hostReplies := rfl
@[simp] theorem State.wS_safeTier (s : State) (n : Nat) (v : SVal) : (s.wS n v).safeTier = s.safeTier := rfl
@[simp] theorem State.wS_evidence (s : State) (n : Nat) (v : SVal) : (s.wS n v).evidence = s.evidence := rfl

@[simp] theorem State.wV_cycle (s : State) (n : Nat) (v : VVal) : (s.wV n v).cycle = s.cycle := rfl
@[simp] theorem State.wV_agenda (s : State) (n : Nat) (v : VVal) : (s.wV n v).agenda = s.agenda := rfl
@[simp] theorem State.wV_focus (s : State) (n : Nat) (v : VVal) : (s.wV n v).focus = s.focus := rfl
@[simp] theorem State.wV_cur (s : State) (n : Nat) (v : VVal) : (s.wV n v).cur = s.cur := rfl
@[simp] theorem State.wV_unit (s : State) (n : Nat) (v : VVal) : (s.wV n v).unit = s.unit := rfl
@[simp] theorem State.wV_fresh (s : State) (n : Nat) (v : VVal) : (s.wV n v).fresh = s.fresh := rfl
@[simp] theorem State.wV_nextUid (s : State) (n : Nat) (v : VVal) : (s.wV n v).nextUid = s.nextUid := rfl
@[simp] theorem State.wV_mem (s : State) (n : Nat) (v : VVal) : (s.wV n v).mem = s.mem := rfl
@[simp] theorem State.wV_marks (s : State) (n : Nat) (v : VVal) : (s.wV n v).marks = s.marks := rfl
@[simp] theorem State.wV_ecc (s : State) (n : Nat) (v : VVal) : (s.wV n v).ecc = s.ecc := rfl
@[simp] theorem State.wV_soft (s : State) (n : Nat) (v : VVal) : (s.wV n v).soft = s.soft := rfl
@[simp] theorem State.wV_order (s : State) (n : Nat) (v : VVal) : (s.wV n v).order = s.order := rfl
@[simp] theorem State.wV_posted (s : State) (n : Nat) (v : VVal) : (s.wV n v).posted = s.posted := rfl
@[simp] theorem State.wV_net (s : State) (n : Nat) (v : VVal) : (s.wV n v).net = s.net := rfl
@[simp] theorem State.wV_regs (s : State) (n : Nat) (v : VVal) : (s.wV n v).regs = s.regs := rfl
@[simp] theorem State.wV_seepHeld (s : State) (n : Nat) (v : VVal) : (s.wV n v).seepHeld = s.seepHeld := rfl
@[simp] theorem State.wV_timers (s : State) (n : Nat) (v : VVal) : (s.wV n v).timers = s.timers := rfl
@[simp] theorem State.wV_tiles (s : State) (n : Nat) (v : VVal) : (s.wV n v).tiles = s.tiles := rfl
@[simp] theorem State.wV_devices (s : State) (n : Nat) (v : VVal) : (s.wV n v).devices = s.devices := rfl
@[simp] theorem State.wV_lines (s : State) (n : Nat) (v : VVal) : (s.wV n v).lines = s.lines := rfl
@[simp] theorem State.wV_launches (s : State) (n : Nat) (v : VVal) : (s.wV n v).launches = s.launches := rfl
@[simp] theorem State.wV_signals (s : State) (n : Nat) (v : VVal) : (s.wV n v).signals = s.signals := rfl
@[simp] theorem State.wV_hostReplies (s : State) (n : Nat) (v : VVal) : (s.wV n v).hostReplies = s.hostReplies := rfl
@[simp] theorem State.wV_safeTier (s : State) (n : Nat) (v : VVal) : (s.wV n v).safeTier = s.safeTier := rfl
@[simp] theorem State.wV_evidence (s : State) (n : Nat) (v : VVal) : (s.wV n v).evidence = s.evidence := rfl

@[simp] theorem State.wP_cycle (s : State) (n : Nat) (v : W64) : (s.wP n v).cycle = s.cycle := rfl
@[simp] theorem State.wP_agenda (s : State) (n : Nat) (v : W64) : (s.wP n v).agenda = s.agenda := rfl
@[simp] theorem State.wP_focus (s : State) (n : Nat) (v : W64) : (s.wP n v).focus = s.focus := rfl
@[simp] theorem State.wP_cur (s : State) (n : Nat) (v : W64) : (s.wP n v).cur = s.cur := rfl
@[simp] theorem State.wP_unit (s : State) (n : Nat) (v : W64) : (s.wP n v).unit = s.unit := rfl
@[simp] theorem State.wP_fresh (s : State) (n : Nat) (v : W64) : (s.wP n v).fresh = s.fresh := rfl
@[simp] theorem State.wP_nextUid (s : State) (n : Nat) (v : W64) : (s.wP n v).nextUid = s.nextUid := rfl
@[simp] theorem State.wP_mem (s : State) (n : Nat) (v : W64) : (s.wP n v).mem = s.mem := rfl
@[simp] theorem State.wP_marks (s : State) (n : Nat) (v : W64) : (s.wP n v).marks = s.marks := rfl
@[simp] theorem State.wP_ecc (s : State) (n : Nat) (v : W64) : (s.wP n v).ecc = s.ecc := rfl
@[simp] theorem State.wP_soft (s : State) (n : Nat) (v : W64) : (s.wP n v).soft = s.soft := rfl
@[simp] theorem State.wP_order (s : State) (n : Nat) (v : W64) : (s.wP n v).order = s.order := rfl
@[simp] theorem State.wP_posted (s : State) (n : Nat) (v : W64) : (s.wP n v).posted = s.posted := rfl
@[simp] theorem State.wP_net (s : State) (n : Nat) (v : W64) : (s.wP n v).net = s.net := rfl
@[simp] theorem State.wP_regs (s : State) (n : Nat) (v : W64) : (s.wP n v).regs = s.regs := rfl
@[simp] theorem State.wP_seepHeld (s : State) (n : Nat) (v : W64) : (s.wP n v).seepHeld = s.seepHeld := rfl
@[simp] theorem State.wP_timers (s : State) (n : Nat) (v : W64) : (s.wP n v).timers = s.timers := rfl
@[simp] theorem State.wP_tiles (s : State) (n : Nat) (v : W64) : (s.wP n v).tiles = s.tiles := rfl
@[simp] theorem State.wP_devices (s : State) (n : Nat) (v : W64) : (s.wP n v).devices = s.devices := rfl
@[simp] theorem State.wP_lines (s : State) (n : Nat) (v : W64) : (s.wP n v).lines = s.lines := rfl
@[simp] theorem State.wP_launches (s : State) (n : Nat) (v : W64) : (s.wP n v).launches = s.launches := rfl
@[simp] theorem State.wP_signals (s : State) (n : Nat) (v : W64) : (s.wP n v).signals = s.signals := rfl
@[simp] theorem State.wP_hostReplies (s : State) (n : Nat) (v : W64) : (s.wP n v).hostReplies = s.hostReplies := rfl
@[simp] theorem State.wP_safeTier (s : State) (n : Nat) (v : W64) : (s.wP n v).safeTier = s.safeTier := rfl
@[simp] theorem State.wP_evidence (s : State) (n : Nat) (v : W64) : (s.wP n v).evidence = s.evidence := rfl

@[simp] theorem State.wB_cycle (s : State) (n : Nat) (v : BitVec 40) : (s.wB n v).cycle = s.cycle := rfl
@[simp] theorem State.wB_agenda (s : State) (n : Nat) (v : BitVec 40) : (s.wB n v).agenda = s.agenda := rfl
@[simp] theorem State.wB_focus (s : State) (n : Nat) (v : BitVec 40) : (s.wB n v).focus = s.focus := rfl
@[simp] theorem State.wB_cur (s : State) (n : Nat) (v : BitVec 40) : (s.wB n v).cur = s.cur := rfl
@[simp] theorem State.wB_unit (s : State) (n : Nat) (v : BitVec 40) : (s.wB n v).unit = s.unit := rfl
@[simp] theorem State.wB_fresh (s : State) (n : Nat) (v : BitVec 40) : (s.wB n v).fresh = s.fresh := rfl
@[simp] theorem State.wB_nextUid (s : State) (n : Nat) (v : BitVec 40) : (s.wB n v).nextUid = s.nextUid := rfl
@[simp] theorem State.wB_mem (s : State) (n : Nat) (v : BitVec 40) : (s.wB n v).mem = s.mem := rfl
@[simp] theorem State.wB_marks (s : State) (n : Nat) (v : BitVec 40) : (s.wB n v).marks = s.marks := rfl
@[simp] theorem State.wB_ecc (s : State) (n : Nat) (v : BitVec 40) : (s.wB n v).ecc = s.ecc := rfl
@[simp] theorem State.wB_soft (s : State) (n : Nat) (v : BitVec 40) : (s.wB n v).soft = s.soft := rfl
@[simp] theorem State.wB_order (s : State) (n : Nat) (v : BitVec 40) : (s.wB n v).order = s.order := rfl
@[simp] theorem State.wB_posted (s : State) (n : Nat) (v : BitVec 40) : (s.wB n v).posted = s.posted := rfl
@[simp] theorem State.wB_net (s : State) (n : Nat) (v : BitVec 40) : (s.wB n v).net = s.net := rfl
@[simp] theorem State.wB_regs (s : State) (n : Nat) (v : BitVec 40) : (s.wB n v).regs = s.regs := rfl
@[simp] theorem State.wB_seepHeld (s : State) (n : Nat) (v : BitVec 40) : (s.wB n v).seepHeld = s.seepHeld := rfl
@[simp] theorem State.wB_timers (s : State) (n : Nat) (v : BitVec 40) : (s.wB n v).timers = s.timers := rfl
@[simp] theorem State.wB_tiles (s : State) (n : Nat) (v : BitVec 40) : (s.wB n v).tiles = s.tiles := rfl
@[simp] theorem State.wB_devices (s : State) (n : Nat) (v : BitVec 40) : (s.wB n v).devices = s.devices := rfl
@[simp] theorem State.wB_lines (s : State) (n : Nat) (v : BitVec 40) : (s.wB n v).lines = s.lines := rfl
@[simp] theorem State.wB_launches (s : State) (n : Nat) (v : BitVec 40) : (s.wB n v).launches = s.launches := rfl
@[simp] theorem State.wB_signals (s : State) (n : Nat) (v : BitVec 40) : (s.wB n v).signals = s.signals := rfl
@[simp] theorem State.wB_hostReplies (s : State) (n : Nat) (v : BitVec 40) : (s.wB n v).hostReplies = s.hostReplies := rfl
@[simp] theorem State.wB_safeTier (s : State) (n : Nat) (v : BitVec 40) : (s.wB n v).safeTier = s.safeTier := rfl
@[simp] theorem State.wB_evidence (s : State) (n : Nat) (v : BitVec 40) : (s.wB n v).evidence = s.evidence := rfl

@[simp] theorem State.advance_cycle (s : State) : (s.advance).cycle = s.cycle := rfl
@[simp] theorem State.advance_agenda (s : State) : (s.advance).agenda = s.agenda := rfl
@[simp] theorem State.advance_focus (s : State) : (s.advance).focus = s.focus := rfl
@[simp] theorem State.advance_cur (s : State) : (s.advance).cur = s.cur := rfl
@[simp] theorem State.advance_unit (s : State) : (s.advance).unit = s.unit := rfl
@[simp] theorem State.advance_fresh (s : State) : (s.advance).fresh = s.fresh := rfl
@[simp] theorem State.advance_nextUid (s : State) : (s.advance).nextUid = s.nextUid := rfl
@[simp] theorem State.advance_mem (s : State) : (s.advance).mem = s.mem := rfl
@[simp] theorem State.advance_marks (s : State) : (s.advance).marks = s.marks := rfl
@[simp] theorem State.advance_ecc (s : State) : (s.advance).ecc = s.ecc := rfl
@[simp] theorem State.advance_soft (s : State) : (s.advance).soft = s.soft := rfl
@[simp] theorem State.advance_order (s : State) : (s.advance).order = s.order := rfl
@[simp] theorem State.advance_posted (s : State) : (s.advance).posted = s.posted := rfl
@[simp] theorem State.advance_net (s : State) : (s.advance).net = s.net := rfl
@[simp] theorem State.advance_regs (s : State) : (s.advance).regs = s.regs := rfl
@[simp] theorem State.advance_seepHeld (s : State) : (s.advance).seepHeld = s.seepHeld := rfl
@[simp] theorem State.advance_timers (s : State) : (s.advance).timers = s.timers := rfl
@[simp] theorem State.advance_tiles (s : State) : (s.advance).tiles = s.tiles := rfl
@[simp] theorem State.advance_devices (s : State) : (s.advance).devices = s.devices := rfl
@[simp] theorem State.advance_lines (s : State) : (s.advance).lines = s.lines := rfl
@[simp] theorem State.advance_launches (s : State) : (s.advance).launches = s.launches := rfl
@[simp] theorem State.advance_signals (s : State) : (s.advance).signals = s.signals := rfl
@[simp] theorem State.advance_hostReplies (s : State) : (s.advance).hostReplies = s.hostReplies := rfl
@[simp] theorem State.advance_safeTier (s : State) : (s.advance).safeTier = s.safeTier := rfl
@[simp] theorem State.advance_evidence (s : State) : (s.advance).evidence = s.evidence := rfl

/-! What each update writes. -/

theorem State.core_setCore (s : State) (c k : Nat) (x : Core) :
    (s.setCore c x).core k = if k = c then x else s.core k := SMap.get_set ..

@[simp] theorem State.core_setCore_same (s : State) (c : Nat) (x : Core) : (s.setCore c x).core c = x := by
  simp [State.core_setCore]

theorem State.core_modCore (s : State) (c k : Nat) (f : Core → Core) :
    (s.modCore c f).core k = if k = c then f (s.core c) else s.core k := SMap.get_set ..

@[simp] theorem State.core_modCore_same (s : State) (c : Nat) (f : Core → Core) :
    (s.modCore c f).core c = f (s.core c) := by simp [State.core_modCore]

theorem State.tile_modTile (s : State) (n k : Nat) (f : Tile → Tile) :
    (s.modTile n f).tile k = if k = n then f (s.tile n) else s.tile k := SMap.get_set ..

theorem State.device_modDevice (s : State) (n k : Nat) (f : Device → Device) :
    (s.modDevice n f).device k = if k = n then f (s.device n) else s.device k := SMap.get_set ..

theorem State.line_setLine (s : State) (n k : Nat) (l : Line) :
    (s.setLine n l).line k = if k = n then l else s.line k := SMap.get_set ..

@[simp] theorem State.reg_setReg_same (s : State) (p : Nat) (w : W64) : (s.setReg p w).reg p = w := SMap.get_set_same ..

theorem State.reg_setReg_other (s : State) (p q : Nat) (w : W64) (h : q / 8 ≠ p / 8) :
    (s.setReg p w).reg q = s.reg q := SMap.get_set_other _ _ _ _ _ h

/-- A thread that has been set reads back, in every bank. -/
theorem Core.thread_setThread_same (x : Core) (c k : Nat) (t : Thread) : (x.setThread k t).thread c k = t := by
  unfold Core.setThread Core.thread
  split
  · simp
  · split <;> simp [Core.shadowSlot, Core.awayAt]

/-- Setting a thread leaves the others of its core. -/
theorem Core.thread_setThread_other (x : Core) (c k j : Nat) (t : Thread) (h : j ≠ k) :
    (x.setThread k t).thread c j = x.thread c j := by
  unfold Core.setThread Core.thread
  by_cases hk : k < 16 <;> by_cases hj : j < 16 <;> by_cases hk2 : k < 32 <;> by_cases hj2 : j < 32 <;>
    first
    | (exfalso; omega)
    | (simp only [hk, hj, hk2, hj2, if_true, if_false, Core.shadowSlot, Core.awayAt]; done)
    | (simp only [hk, hj, hk2, hj2, if_true, if_false, Core.shadowSlot, Core.awayAt]
       rw [SMap.get_set_other _ _ _ _ _ (by omega)])

@[simp] theorem State.thread_setThread_same (s : State) (c k : Nat) (t : Thread) : (s.setThread c k t).thread c k = t := by
  simp [State.thread, State.setThread, Core.thread_setThread_same]

theorem State.thread_setThread_other (s : State) (c k d j : Nat) (t : Thread) (h : ¬(d = c ∧ j = k)) :
    (s.setThread c k t).thread d j = s.thread d j := by
  unfold State.thread State.setThread
  rw [State.core_modCore]
  by_cases hd : d = c
  · subst hd
    rw [if_pos rfl, Core.thread_setThread_other]
    exact fun e => h ⟨rfl, e⟩
  · rw [if_neg hd]

/-- The executing thread after an update of it. -/
@[simp] theorem State.cth_modCur (s : State) (f : Thread → Thread) : (s.modCur f).cth = f s.cth :=
  State.thread_setThread_same ..

end Sys2Proof.Machine
end

