-- ==== Sys2Proof/Laws/Memory.lean ====
section
/-! SUPPORT. Memory.lean: the canonical form of memory, and that every operation on memory keeps it. -/

namespace Sys2Proof.Machine

/-! Lists of cells. -/

theorem Memory.wfFrom_cons (lo : Option Nat) (k : Nat) (v : Byte) (r : List Host.Cell) :
    Memory.wfFrom lo ((k, v) :: r) = true ↔ (∀ l, lo = some l → l < k) ∧ v ≠ 0 ∧ Memory.wfFrom (some k) r = true := by
  cases lo <;> simp [Memory.wfFrom, and_assoc]

/-- A form that holds above a bound holds above every lower one. -/
theorem Memory.wfFrom_weaken (lo hi : Option Nat) (m : List Host.Cell) (h : Memory.wfFrom hi m = true)
    (hl : ∀ l, lo = some l → ∃ k, hi = some k ∧ l ≤ k) : Memory.wfFrom lo m = true := by
  cases m with
  | nil => cases lo <;> rfl
  | cons e r =>
    obtain ⟨k, v⟩ := e
    rw [Memory.wfFrom_cons] at h ⊢
    refine ⟨fun l hlo => ?_, h.2⟩
    obtain ⟨x, hx, hle⟩ := hl l hlo
    exact Nat.lt_of_le_of_lt hle (h.1 x hx)

theorem Memory.wfFrom_memErase (lo : Option Nat) (m : List Host.Cell) (a : Nat) (h : Memory.wfFrom lo m = true) :
    Memory.wfFrom lo (memErase m a) = true := by
  induction m generalizing lo with
  | nil => exact h
  | cons e r ih =>
    obtain ⟨k, v⟩ := e
    have hc := (Memory.wfFrom_cons ..).1 h
    unfold memErase
    split
    · exact Memory.wfFrom_weaken _ _ _ hc.2.2 fun l hl => ⟨k, rfl, Nat.le_of_lt (hc.1 l hl)⟩
    · exact (Memory.wfFrom_cons ..).2 ⟨hc.1, hc.2.1, ih _ hc.2.2⟩

theorem Memory.wfFrom_memInsert (lo : Option Nat) (m : List Host.Cell) (a : Nat) (b : Byte) (hb : b ≠ 0)
    (ha : ∀ l, lo = some l → l < a) (h : Memory.wfFrom lo m = true) : Memory.wfFrom lo (memInsert m a b) = true := by
  induction m generalizing lo with
  | nil => exact (Memory.wfFrom_cons ..).2 ⟨ha, hb, rfl⟩
  | cons e r ih =>
    obtain ⟨k, v⟩ := e
    have hc := (Memory.wfFrom_cons ..).1 h
    unfold memInsert
    split
    · subst_vars
      exact (Memory.wfFrom_cons ..).2 ⟨ha, hb, hc.2.2⟩
    · split
      · exact (Memory.wfFrom_cons ..).2 ⟨ha, hb, (Memory.wfFrom_cons ..).2 ⟨fun l hl => by simp_all, hc.2⟩⟩
      · exact (Memory.wfFrom_cons ..).2 ⟨hc.1, hc.2.1, ih _ (fun l hl => by simp_all; omega) hc.2.2⟩

/-- Writing a byte keeps the canonical form. -/
theorem Memory.wf_memWrite (m : List Host.Cell) (a : Nat) (b : Byte) (h : Memory.wf m = true) :
    Memory.wf (memWrite m a b) = true := by
  unfold memWrite
  split
  · exact Memory.wfFrom_memErase _ _ _ h
  · exact Memory.wfFrom_memInsert _ _ _ _ (by assumption) (fun l hl => by simp at hl) h

/-- Dropping cells keeps the canonical form. -/
theorem Memory.wfFrom_filter (lo : Option Nat) (m : List Host.Cell) (p : Host.Cell → Bool) (h : Memory.wfFrom lo m = true) :
    Memory.wfFrom lo (m.filter p) = true := by
  induction m generalizing lo with
  | nil => exact h
  | cons e r ih =>
    obtain ⟨k, v⟩ := e
    have hc := (Memory.wfFrom_cons ..).1 h
    rw [List.filter_cons]
    split
    · exact (Memory.wfFrom_cons ..).2 ⟨hc.1, hc.2.1, ih _ hc.2.2⟩
    · exact Memory.wfFrom_weaken _ _ _ (ih _ hc.2.2) fun l hl => ⟨k, rfl, Nat.le_of_lt (hc.1 l hl)⟩

theorem Memory.wf_filter (m : List Host.Cell) (p : Host.Cell → Bool) (h : Memory.wf m = true) :
    Memory.wf (m.filter p) = true := Memory.wfFrom_filter _ _ _ h

/-- Writing a list of cells keeps the canonical form. -/
theorem Memory.wf_writeAll (l m : List Host.Cell) (h : Memory.wf m = true) :
    Memory.wf (l.foldl (fun m c => memWrite m c.1 c.2) m) = true := by
  induction l generalizing m with
  | nil => exact h
  | cons c r ih => exact ih _ (Memory.wf_memWrite _ _ _ h)

/-- Copying a range keeps the canonical form. -/
theorem Memory.wf_copyCells (m : List Host.Cell) (src dst n : Nat) (h : Memory.wf m = true) :
    Memory.wf (copyCells m src dst n) = true := Memory.wf_writeAll _ _ (Memory.wf_filter _ _ h)

theorem State.reset_memWf : State.reset.memWf := rfl

/-! Operations that leave memory. -/

@[simp] theorem State.seepFire_mem (s : State) (p : Nat) : (s.seepFire p).mem = s.mem := by
  unfold State.seepFire
  dsimp only
  split
  · rfl
  · split <;> rfl

@[simp] theorem State.seepAdd_mem (s : State) (p n : Nat) : (s.seepAdd p n).mem = s.mem := by
  unfold State.seepAdd
  dsimp only
  repeat' split
  all_goals simp

@[simp] theorem State.markCodeword_mem (s : State) (a : Nat) : (s.markCodeword a).mem = s.mem := by
  unfold State.markCodeword
  dsimp only
  repeat' split
  all_goals simp

@[simp] theorem State.meetCodeword_mem (s : State) (a : Nat) : (s.meetCodeword a).mem = s.mem := by
  unfold State.meetCodeword
  dsimp only
  repeat' split
  all_goals simp

@[simp] theorem State.activate_mem (s : State) (t b r : Nat) : (s.activate t b r).mem = s.mem := by
  unfold State.activate
  dsimp only
  split <;> simp

theorem State.foldl_mem {α : Type} (f : State → α → State) (h : ∀ s a, (f s a).mem = s.mem) (l : List α) (s : State) :
    (l.foldl f s).mem = s.mem := by
  induction l generalizing s with
  | nil => rfl
  | cons a r ih => rw [List.foldl_cons, ih, h]

/-- A read changes no byte of memory. -/
@[simp] theorem State.readBytes_mem (s : State) (a n : Nat) : (s.readBytes a n).1.mem = s.mem :=
  State.foldl_mem _ State.meetCodeword_mem _ _

@[simp] theorem State.coverCodeword_mem (s : State) (ws : List PWrite) (cw : Nat) : (s.coverCodeword ws cw).mem = s.mem := by
  unfold State.coverCodeword
  dsimp only
  split
  · rfl
  · simp

@[simp] theorem State.tracePush_mem (s : State) (c a : Nat) (w : W64) : (s.tracePush c a w).mem = s.mem := by
  unfold State.tracePush
  dsimp only
  repeat' split
  all_goals rfl

@[simp] theorem State.enterState_mem (s : State) (c k : Nat) (st : SlotState) (x : Nat) :
    (s.enterState c k st x).mem = s.mem := by
  unfold State.enterState
  dsimp only
  split <;> simp

@[simp] theorem State.makeReady_mem (s : State) (c k : Nat) : (s.makeReady c k).mem = s.mem := by
  unfold State.makeReady
  dsimp only
  split <;> simp

@[simp] theorem State.settle_mem (s : State) (c k : Nat) : (s.settle c k).mem = s.mem := by
  unfold State.settle
  dsimp only
  split <;> simp

@[simp] theorem State.finishWait_mem (s : State) (c k : Nat) (p : Wait → Bool) (f : Thread → Thread) :
    (s.finishWait c k p f).mem = s.mem := by
  unfold State.finishWait
  simp

@[simp] theorem State.spoilResv_mem (s : State) (t : Nat) (l : List Nat) (own : Option (Nat × Nat)) :
    (s.spoilResv t l own).mem = s.mem := by
  unfold State.spoilResv
  refine State.foldl_mem _ (fun s c => State.foldl_mem _ (fun s k => ?_) _ _) _ _
  dsimp only
  repeat' split
  all_goals simp

@[simp] theorem State.wakeWaitres_mem (s : State) (t : Nat) : (s.wakeWaitres t).mem = s.mem := by
  unfold State.wakeWaitres
  refine State.foldl_mem _ (fun s c => State.foldl_mem _ (fun s k => ?_) _ _) _ _
  dsimp only
  repeat' split
  all_goals simp

@[simp] theorem State.wakeMonitors_mem (s : State) (t : Nat) (l : List Nat) : (s.wakeMonitors t l).mem = s.mem := by
  unfold State.wakeMonitors
  dsimp only
  rw [State.foldl_mem]
  · simp
  · intro s m
    repeat' split
    all_goals simp

@[simp] theorem State.touchRow_mem (s : State) (p : Nat) (h : Hint) : (s.touchRow p h).mem = s.mem := by
  unfold State.touchRow
  split
  · cases h <;> simp
  · rfl

@[simp] theorem State.touchSpan_mem (s : State) (p n : Nat) (h : Hint) : (s.touchSpan p n h).mem = s.mem :=
  State.foldl_mem _ (fun s p => State.touchRow_mem s p h) _ _

/-! Operations that write memory. -/

theorem State.setByte_memWf (s : State) (a : Nat) (b : Byte) (h : s.memWf) : (s.setByte a b).memWf :=
  Memory.wf_memWrite _ _ _ h

theorem State.writeOne_memWf (s : State) (w : PWrite) (h : s.memWf) : (s.writeOne w).memWf :=
  State.setByte_memWf _ _ _ h

theorem State.memWf_of_mem {s t : State} (h : s.memWf) (e : t.mem = s.mem) : t.memWf := by
  unfold State.memWf
  rw [e]
  exact h

theorem State.writeAll_memWf (l : List PWrite) (s : State) (h : s.memWf) : (l.foldl State.writeOne s).memWf := by
  induction l generalizing s with
  | nil => exact h
  | cons w r ih => exact ih _ (State.writeOne_memWf _ _ h)

/-- Writing bytes at their home keeps the canonical form. -/
theorem State.perform_memWf (s : State) (ws : List PWrite) (own : Option (Nat × Nat)) (h : s.memWf) :
    (s.perform ws own).memWf := by
  unfold State.perform
  split
  · exact h
  · rename_i w r
    refine State.memWf_of_mem (State.writeAll_memWf (w :: r) _ (State.memWf_of_mem h
      (State.foldl_mem (fun s cw => s.coverCodeword (w :: r) cw) (fun s cw => State.coverCodeword_mem s _ cw)
        (((w :: r).map fun w => (codeword w.addr).1).eraseDups) s))) ?_
    simp

/-- Copying a range of memory keeps the canonical form. -/
theorem State.copyRange_memWf (s : State) (src dst n : Nat) (h : s.memWf) : (s.copyRange src dst n).memWf := by
  unfold State.copyRange State.memWf
  dsimp only
  rw [State.foldl_mem _ fun s i => by simp]
  refine Memory.wf_copyCells _ _ _ _ ?_
  rw [State.foldl_mem _ State.meetCodeword_mem]
  exact h

end Sys2Proof.Machine
end

