-- ==== Sys2Proof/Laws/Ops.lean ====
section
/-! SUPPORT. Ops.lean: what each shared operation can do, said once: forms and their guards, operands, checks, the state a
slot enters, an update of the executing thread, and what goes out as a posted store. -/

namespace Sys2Proof.Machine

/-! Forms. -/

theorem complete_on (g : Guard) (s : State) (f : State → Chk Fin) (h : s.guardBit g = true) :
    complete g s f = s.finish (f s) := by
  simp [complete, h]

theorem complete_off (g : Guard) (s : State) (f : State → Chk Fin) (h : s.guardBit g = false) :
    complete g s f = .next s.advance := by
  simp [complete, h]

theorem headOnly_head (op fn : Nat) (s : State) (r : Chk Fin) (h : s.cur.slot = 0) :
    headOnly op fn s r = r := by
  simp [headOnly, State.isHead, h]

@[simp] theorem finish_done (s t : State) : s.finish (.ok (.done t)) = .next t.advance := rfl
@[simp] theorem finish_go (s t : State) : s.finish (.ok (.go t)) = .next t := rfl
@[simp] theorem finish_error (s : State) (b : Bad) : s.finish (.error b) = .next (s.raise b) := rfl

/-- A form never faults and never refuses. -/
theorem finish_next (s : State) (r : Chk Fin) : ∃ t, s.finish r = .next t := by
  cases r with
  | error b => exact ⟨_, rfl⟩
  | ok f => cases f <;> exact ⟨_, rfl⟩

theorem complete_next (g : Guard) (s : State) (f : State → Chk Fin) : ∃ t, complete g s f = .next t := by
  unfold complete
  split
  · exact finish_next _ _
  · exact ⟨_, rfl⟩

/-! Operands and checks. -/

theorem useS_clean (s : State) (n : Nat) (h : (s.rS n).poison = false) : s.useS n = .ok (s.rS n).bits := by
  simp [State.useS, h]

theorem useS_poison (s : State) (n : Nat) (h : (s.rS n).poison = true) :
    s.useS n = .error (.trap 0x08 (poisonInfo n 0 0)) := by
  simp [State.useS, h]

theorem need_ok (b : Bool) (e : Bad) (h : b = true) : need b e = .ok () := by simp [need, h]
theorem need_error (b : Bool) (e : Bad) (h : b = false) : need b e = .error e := by simp [need, h]

theorem aligned_ok (va : W64) (n : Nat) (h : va.toNat % n = 0) : aligned va n = .ok () := by simp [aligned, need, h]
theorem aligned_error (va : W64) (n : Nat) (h : va.toNat % n ≠ 0) : aligned va n = .error (.trap 0x05 va) := by
  simp [aligned, need, h]

/-! Reading memory. -/

theorem peek_length (s : State) (a n : Nat) : (s.peek a n).length = n := by
  induction n generalizing a with
  | zero => rfl
  | succ n ih => simp [State.peek, ih]

theorem bytesOf_length (n x : Nat) : (bytesOf n x).length = n := by
  induction n generalizing x with
  | zero => rfl
  | succ n ih => simp [bytesOf, ih]

/-- Without a bad codeword a read changes nothing. -/
theorem readBytes_clean (s : State) (a n : Nat) (h : s.ecc = []) (hs : s.soft = []) : s.readBytes a n = (s, s.peek a n) := by
  have e : ∀ (l : List Nat) (s : State), s.ecc = [] → s.soft = [] → l.foldl State.meetCodeword s = s := by
    intro l
    induction l with
    | nil => intros; rfl
    | cons x r ih =>
      intro s h hs
      have hm : s.meetCodeword x = s := by simp [State.meetCodeword, State.markCodeword, h, hs]
      rw [List.foldl_cons, hm, ih s h hs]
  simp only [State.readBytes]
  rw [e _ s h hs]

/-! Updates of a core that keep its threads. -/

theorem State.thread_setCore (s : State) (c d k : Nat) (x : Core) (h : x.thread c k = (s.core c).thread c k) :
    (s.setCore c x).thread d k = s.thread d k := by
  unfold State.thread
  rw [State.core_setCore]
  split
  · subst_vars; exact h
  · rfl

theorem State.thread_modCore (s : State) (c d k : Nat) (f : Core → Core)
    (h : (f (s.core c)).thread c k = (s.core c).thread c k) : (s.modCore c f).thread d k = s.thread d k :=
  State.thread_setCore s c d k _ h

@[simp] theorem State.thread_setReg (s : State) (p c k : Nat) (w : W64) : (s.setReg p w).thread c k = s.thread c k := rfl
@[simp] theorem State.thread_modTile (s : State) (n c k : Nat) (f : Tile → Tile) :
    (s.modTile n f).thread c k = s.thread c k := rfl
@[simp] theorem State.thread_modDevice (s : State) (n c k : Nat) (f : Device → Device) :
    (s.modDevice n f).thread c k = s.thread c k := rfl
@[simp] theorem State.thread_notify (s : State) (d c k : Nat) (n : Notice) : (s.notify d n).thread c k = s.thread c k := rfl
@[simp] theorem State.thread_setByte (s : State) (a c k : Nat) (b : Byte) : (s.setByte a b).thread c k = s.thread c k := rfl

@[simp] theorem State.thread_tracePush (s : State) (c a : Nat) (w : W64) (d k : Nat) :
    (s.tracePush c a w).thread d k = s.thread d k := by
  unfold State.tracePush
  dsimp only
  split
  · rfl
  · split
    · rw [State.thread_modCore]
      · rfl
      · rfl
    · exact State.thread_setCore _ _ _ _ _ rfl

/-! The state that a slot enters. -/

/-- A slot that enters a state changes that state, and the cycle from which it issues when the state is ready. -/
theorem State.thread_enterState (s : State) (c k : Nat) (st : SlotState) (x : Nat) :
    (s.enterState c k st x).thread c k =
      { s.thread c k with state := st, readyAt := if st = .ready then s.cycle + 1 else (s.thread c k).readyAt } := by
  have e : (if st = .ready then if st = .ready then s.cycle + 1 else s.cycle else (s.thread c k).readyAt) =
      if st = .ready then s.cycle + 1 else (s.thread c k).readyAt := by
    split <;> simp_all
  unfold State.enterState
  dsimp only
  split
  · rw [State.thread_tracePush, State.thread_setThread_same, e]
  · rw [State.thread_setThread_same, e]

theorem State.thread_enterState_other (s : State) (c k d j : Nat) (st : SlotState) (x : Nat) (h : ¬(d = c ∧ j = k)) :
    (s.enterState c k st x).thread d j = s.thread d j := by
  unfold State.enterState
  dsimp only
  split
  · rw [State.thread_tracePush, State.thread_setThread_other _ _ _ _ _ _ h]
  · rw [State.thread_setThread_other _ _ _ _ _ _ h]

/-! Updates of the executing thread. -/

/-- An update of the executing thread changes nothing else. -/
theorem State.onlyThread_modCur (s : State) (f : Thread → Thread) : OnlyThread s (s.modCur f) s.cur.core s.cur.slot where
  bytes _ := rfl
  marks := rfl
  units := ⟨rfl, rfl, rfl, rfl⟩
  transit := ⟨rfl, rfl⟩
  reaches c i := by
    unfold State.reach
    show (((s.modCore s.cur.core fun x => x.setThread s.cur.slot _).core c).reach c i) = _
    rw [State.core_modCore]
    split
    · subst_vars
      unfold Core.setThread
      split
      · rfl
      · split <;> rfl
    · rfl
  others c k _ h := State.thread_setThread_other _ _ _ _ _ _ h

/-- Going on to the next instruction changes the pc, or the address that follows the unit. -/
theorem State.cth_advance (s : State) :
    s.advance.cth = if s.cth.waits = [] then { s.cth with pc := s.nextOf } else { s.cth with nextPc := s.nextOf } := by
  unfold State.advance
  rw [State.cth_modCur]

/-! Posted stores. -/

/-- A store that goes out stands last, under the next number. -/
theorem State.posted_sendPosted (s : State) (p : Posted) :
    (s.sendPosted p).posted = s.posted ++ [{ p with seq := s.nextUid }] := rfl

theorem State.postFor_mem (s : State) (p : Posted) (ws : List PWrite) : (s.postFor p ws).mem = s.mem := by
  unfold State.postFor
  split
  · rfl
  · dsimp only
    split
    · rfl
    · exact State.foldl_mem (fun s k => s.sendPosted _) (fun s k => rfl) _ _

/-- Posting changes no byte of memory. -/
theorem State.post_byte (s : State) (e : Nat) (h : Hint) (ws : List PWrite) (a : Nat) :
    (s.post e h ws).byte a = s.byte a := by
  unfold State.byte State.post State.postAs
  rw [State.postFor_mem]

end Sys2Proof.Machine
end

