-- ==== Sys2Proof/Tests/Slice0.lean ====
section
/-! SUPPORT. Slice0.lean: tests of the model: words written out from the encoding tables decode to their instructions,
a term that breaks each check of WellFormed is refused, single steps on small states whose results are computed by hand
from the rules, and for each obligation a state and operands that meet its hypotheses. -/

namespace Sys2Proof.Machine

set_option Elab.async false

/-! Decoding: one word per instruction, op and fn from the opcode tables and each field written into its place. -/

/-- Every word of the list decodes to its instruction. -/
def decodesAll (l : List (Word96 × Instr)) : Bool := l.all fun p => decide (decode p.1 = some p.2)

theorem test_decode_01 : decodesAll [
    (0x0100D566AC00000000000000, .add ⟨⟨true, 5⟩, 21, 38, 43⟩),
    (0x01016566AC00000000000000, .sub ⟨⟨false, 6⟩, 21, 38, 43⟩),
    (0x0102D566AC00000000000000, .and ⟨⟨true, 5⟩, 21, 38, 43⟩),
    (0x01036566AC00000000000000, .or ⟨⟨false, 6⟩, 21, 38, 43⟩),
    (0x0104D566AC00000000000000, .xor ⟨⟨true, 5⟩, 21, 38, 43⟩),
    (0x01056566AC00000000000000, .andn ⟨⟨false, 6⟩, 21, 38, 43⟩),
    (0x0106D566AC00000000000000, .sll ⟨⟨true, 5⟩, 21, 38, 43⟩),
    (0x01076566AC00000000000000, .srl ⟨⟨false, 6⟩, 21, 38, 43⟩),
    (0x0108D566AC00000000000000, .sra ⟨⟨true, 5⟩, 21, 38, 43⟩),
    (0x01096566AC00000000000000, .rol ⟨⟨false, 6⟩, 21, 38, 43⟩),
    (0x010AD566AC00000000000000, .min ⟨⟨true, 5⟩, 21, 38, 43⟩),
    (0x010B6566AC00000000000000, .max ⟨⟨false, 6⟩, 21, 38, 43⟩),
    (0x010CD566AC00000000000000, .minu ⟨⟨true, 5⟩, 21, 38, 43⟩),
    (0x010D6566AC00000000000000, .maxu ⟨⟨false, 6⟩, 21, 38, 43⟩)] = true := by decide +kernel

theorem test_decode_02 : decodesAll [
    (0x0200D566FEDCBA9876543210, .addi ⟨⟨true, 5⟩, 21, 38, 0xFEDCBA9876543210⟩),
    (0x02026566FEDCBA9876543210, .andi ⟨⟨false, 6⟩, 21, 38, 0xFEDCBA9876543210⟩),
    (0x0203D566FEDCBA9876543210, .ori ⟨⟨true, 5⟩, 21, 38, 0xFEDCBA9876543210⟩),
    (0x02046566FEDCBA9876543210, .xori ⟨⟨false, 6⟩, 21, 38, 0xFEDCBA9876543210⟩),
    (0x0206D566000000000000002D, .slli ⟨⟨true, 5⟩, 21, 38, 45⟩),
    (0x02076566000000000000002D, .srli ⟨⟨false, 6⟩, 21, 38, 45⟩),
    (0x0208D566000000000000002D, .srai ⟨⟨true, 5⟩, 21, 38, 45⟩),
    (0x02096566000000000000002D, .roli ⟨⟨false, 6⟩, 21, 38, 45⟩)] = true := by decide +kernel

theorem test_decode_03 : decodesAll [
    (0x0300D540FEDCBA9876543210, .li ⟨⟨true, 5⟩, 21, 0xFEDCBA9876543210⟩),
    (0x03016540FEDCBA9876543210, .lpc ⟨⟨false, 6⟩, 21, 0xFEDCBA9876543210⟩)] = true := by decide +kernel

theorem test_decode_04 : decodesAll [
    (0x0400D566AC00000000000000, .mul ⟨⟨true, 5⟩, 21, 38, 43⟩),
    (0x04016566AC00000000000000, .mulh ⟨⟨false, 6⟩, 21, 38, 43⟩),
    (0x0402D566AC00000000000000, .mulhu ⟨⟨true, 5⟩, 21, 38, 43⟩)] = true := by decide +kernel

theorem test_decode_05 : decodesAll [
    (0x05006566AC00000000000000, .div ⟨⟨false, 6⟩, 21, 38, 43⟩),
    (0x0501D566AC00000000000000, .divu ⟨⟨true, 5⟩, 21, 38, 43⟩),
    (0x05026566AC00000000000000, .rem ⟨⟨false, 6⟩, 21, 38, 43⟩),
    (0x0503D566AC00000000000000, .remu ⟨⟨true, 5⟩, 21, 38, 43⟩)] = true := by decide +kernel

theorem test_decode_06 : decodesAll [
    (0x06006166AC00000000000000, .cmpeq ⟨⟨false, 6⟩, 5, 38, 43⟩),
    (0x0601D166AC00000000000000, .cmpne ⟨⟨true, 5⟩, 5, 38, 43⟩),
    (0x06026166AC00000000000000, .cmplt ⟨⟨false, 6⟩, 5, 38, 43⟩),
    (0x0603D166AC00000000000000, .cmple ⟨⟨true, 5⟩, 5, 38, 43⟩),
    (0x06046166AC00000000000000, .cmpltu ⟨⟨false, 6⟩, 5, 38, 43⟩),
    (0x0605D166AC00000000000000, .cmpleu ⟨⟨true, 5⟩, 5, 38, 43⟩)] = true := by decide +kernel

theorem test_decode_07 : decodesAll [
    (0x07006566AC40000000000000, .sel ⟨⟨false, 6⟩, 21, 38, 43, 4⟩),
    (0x0701D566AC00000000000000, .slt ⟨⟨true, 5⟩, 21, 38, 43⟩),
    (0x07026566AC00000000000000, .sltu ⟨⟨false, 6⟩, 21, 38, 43⟩)] = true := by decide +kernel

theorem test_decode_08 : decodesAll [
    (0x0800D5660000000000000000, .clz ⟨⟨true, 5⟩, 21, 38⟩),
    (0x080165660000000000000000, .ctz ⟨⟨false, 6⟩, 21, 38⟩),
    (0x0802D5660000000000000000, .popc ⟨⟨true, 5⟩, 21, 38⟩),
    (0x080365660000000000000000, .bswap ⟨⟨false, 6⟩, 21, 38⟩),
    (0x0804D5660000000000000000, .brev ⟨⟨true, 5⟩, 21, 38⟩)] = true := by decide +kernel

theorem test_decode_09 : decodesAll [
    (0x090065660000000000000CCD, .bfx ⟨⟨false, 6⟩, 21, 38, 13, 51⟩),
    (0x0901D5660000000000000CCD, .bfxu ⟨⟨true, 5⟩, 21, 38, 13, 51⟩),
    (0x09026566AC00000000000CCD, .bfi ⟨⟨false, 6⟩, 21, 38, 43, 13, 51⟩)] = true := by decide +kernel

theorem test_decode_0a : decodesAll [
    (0x0A00D566AFA0000000000000, .bins ⟨⟨true, 5⟩, 21, 38, 43, 58⟩),
    (0x0A016566AC40000000000000, .bffcs ⟨⟨false, 6⟩, 21, 38, 43, 4⟩),
    (0x0A02D566AFA0000000000000, .bplim ⟨⟨true, 5⟩, 21, 38, 43, 58⟩)] = true := by decide +kernel

theorem test_decode_0b : decodesAll [
    (0x0B0061431800000000000000, .pand ⟨⟨false, 6⟩, 5, 3, 6⟩),
    (0x0B01D1431800000000000000, .por ⟨⟨true, 5⟩, 5, 3, 6⟩),
    (0x0B0261431800000000000000, .pxor ⟨⟨false, 6⟩, 5, 3, 6⟩),
    (0x0B03D1431800000000000000, .pandn ⟨⟨true, 5⟩, 5, 3, 6⟩),
    (0x0B0461430000000000000000, .pnot ⟨⟨false, 6⟩, 5, 3⟩)] = true := by decide +kernel

theorem test_decode_20 : decodesAll [
    (0x2000D000000F234567890123, .br ⟨⟨true, 5⟩, 0xF234567890123⟩),
    (0x20016026AC0F234567890123, .beq ⟨⟨false, 6⟩, 38, 43, 0xF234567890123⟩),
    (0x2002D026AC0F234567890123, .bne ⟨⟨true, 5⟩, 38, 43, 0xF234567890123⟩),
    (0x20036026AC0F234567890123, .blt ⟨⟨false, 6⟩, 38, 43, 0xF234567890123⟩),
    (0x2004D026AC0F234567890123, .bge ⟨⟨true, 5⟩, 38, 43, 0xF234567890123⟩),
    (0x20056026AC0F234567890123, .bltu ⟨⟨false, 6⟩, 38, 43, 0xF234567890123⟩),
    (0x2006D026AC0F234567890123, .bgeu ⟨⟨true, 5⟩, 38, 43, 0xF234567890123⟩)] = true := by decide +kernel

theorem test_decode_21 : decodesAll [
    (0x21006540000F234567890123, .call ⟨⟨false, 6⟩, 21, 0xF234567890123⟩)] = true := by decide +kernel

theorem test_decode_22 : decodesAll [
    (0x2200D0260000000000000000, .jmp ⟨⟨true, 5⟩, 38⟩),
    (0x220165660000000000000000, .callr ⟨⟨false, 6⟩, 21, 38⟩),
    (0x2202D0260000000000000000, .ret ⟨⟨true, 5⟩, 38⟩)] = true := by decide +kernel

theorem test_decode_23 : decodesAll [
    (0x230065430000000000000000, .mfs ⟨⟨false, 6⟩, 21, 3⟩),
    (0x2301D1660000000000000000, .mts ⟨⟨true, 5⟩, 5, 38⟩)] = true := by decide +kernel

theorem test_decode_24 : decodesAll [
    (0x240060000000000000000000, .nop ⟨⟨false, 6⟩⟩),
    (0x2401D026AC00000000000000, .lbpurge ⟨⟨true, 5⟩, 38, 43, false⟩),
    (0x24026026000000000000BEEF, .swtrap ⟨⟨false, 6⟩, 38, 0xBEEF⟩)] = true := by decide +kernel

theorem test_decode_25 : decodesAll [
    (0x2500D566AC00000000000000, .track ⟨⟨true, 5⟩, 21, 38, 43⟩),
    (0x25016566AC00000000000000, .tkill ⟨⟨false, 6⟩, 21, 38, 43⟩)] = true := by decide +kernel

theorem test_decode_30 : decodesAll [
    (0x3000D566AC005F2345678901, .ld ⟨⟨true, 5⟩, 21, 38, 43, .h, .openRow, 0xF2345678901⟩),
    (0x30016566AC009F2345678901, .ldu ⟨⟨false, 6⟩, 21, 38, 43, .w, .openRow, 0xF2345678901⟩)] = true := by decide +kernel

theorem test_decode_31 : decodesAll [
    (0x3100D026AFA01F2345678901, .st ⟨⟨true, 5⟩, 38, 43, 58, .b, .openRow, 0xF2345678901⟩)] = true := by decide +kernel

theorem test_decode_32 : decodesAll [
    (0x3200654100000000000000A5, .ldbf ⟨⟨false, 6⟩, 21, 1, 37, true⟩),
    (0x3201D54100000000000000A5, .ldbfs ⟨⟨true, 5⟩, 21, 1, 37, true⟩),
    (0x32026001AC000000000000A5, .stbf ⟨⟨false, 6⟩, 1, 43, 37, true⟩)] = true := by decide +kernel

theorem test_decode_33 : decodesAll [
    (0x3300D0A60000000000000000, .bset ⟨⟨true, 5⟩, 2, 38⟩),
    (0x330165410000000000000000, .bget ⟨⟨false, 6⟩, 21, 1⟩),
    (0x3302D081AC0000FEDCBA9876, .badd ⟨⟨true, 5⟩, 2, 1, 43, 0xFEDCBA9876⟩)] = true := by decide +kernel

theorem test_decode_40 : decodesAll [
    (0x400063566C00000000000002, .vadd ⟨⟨false, 6⟩, 13, 22, 27, .i16, false⟩),
    (0x4001D3566C00000000000002, .vsub ⟨⟨true, 5⟩, 13, 22, 27, .i16, false⟩),
    (0x400263566C00000000000002, .vmul ⟨⟨false, 6⟩, 13, 22, 27, .i16, false⟩),
    (0x4003D3566C00000000000013, .vmin ⟨⟨true, 5⟩, 13, 22, 27, .i32, true⟩),
    (0x400463566C00000000000013, .vmax ⟨⟨false, 6⟩, 13, 22, 27, .i32, true⟩),
    (0x4005D3566C00000000000002, .vand ⟨⟨true, 5⟩, 13, 22, 27, .i16, false⟩),
    (0x400663566C00000000000002, .vor ⟨⟨false, 6⟩, 13, 22, 27, .i16, false⟩),
    (0x4007D3566C00000000000002, .vxor ⟨⟨true, 5⟩, 13, 22, 27, .i16, false⟩),
    (0x400863566C00000000000002, .vsll ⟨⟨false, 6⟩, 13, 22, 27, .i16, false⟩),
    (0x4009D3566C00000000000002, .vsrl ⟨⟨true, 5⟩, 13, 22, 27, .i16, false⟩),
    (0x400A63566C00000000000002, .vsra ⟨⟨false, 6⟩, 13, 22, 27, .i16, false⟩),
    (0x400BD3566C00000000000013, .vadds ⟨⟨true, 5⟩, 13, 22, 27, .i32, true⟩)] = true := by decide +kernel

theorem test_decode_41 : decodesAll [
    (0x410063566C0000000000000C, .vfadd ⟨⟨false, 6⟩, 13, 22, 27, .c32, false⟩),
    (0x4101D3566C0000000000000C, .vfsub ⟨⟨true, 5⟩, 13, 22, 27, .c32, false⟩),
    (0x410263566C00000000000009, .vfmul ⟨⟨false, 6⟩, 13, 22, 27, .bf16, false⟩),
    (0x4104D3566C00000000000009, .vfmin ⟨⟨true, 5⟩, 13, 22, 27, .bf16, false⟩),
    (0x410563566C00000000000009, .vfmax ⟨⟨false, 6⟩, 13, 22, 27, .bf16, false⟩),
    (0x4103D3566DE0000000000008, .vfma ⟨⟨true, 5⟩, 13, 22, 27, 30, .f16⟩),
    (0x410663560000000000000008, .vfabs ⟨⟨false, 6⟩, 13, 22, .f16⟩),
    (0x4107D3560000000000000008, .vfneg ⟨⟨true, 5⟩, 13, 22, .f16⟩)] = true := by decide +kernel

theorem test_decode_42 : decodesAll [
    (0x420061566C00000000000002, .vcmpeq ⟨⟨false, 6⟩, 5, 22, 27, .i16, false⟩),
    (0x4201D1566C00000000000002, .vcmpne ⟨⟨true, 5⟩, 5, 22, 27, .i16, false⟩),
    (0x420261566C00000000000013, .vcmplt ⟨⟨false, 6⟩, 5, 22, 27, .i32, true⟩),
    (0x4203D1566C00000000000013, .vcmple ⟨⟨true, 5⟩, 5, 22, 27, .i32, true⟩),
    (0x420461566C00000000000009, .vfcmpeq ⟨⟨false, 6⟩, 5, 22, 27, .bf16, false⟩),
    (0x4205D1566C00000000000009, .vfcmplt ⟨⟨true, 5⟩, 5, 22, 27, .bf16, false⟩),
    (0x420661566C00000000000009, .vfcmple ⟨⟨false, 6⟩, 5, 22, 27, .bf16, false⟩),
    (0x4207D1566C00000000000009, .vfcmpun ⟨⟨true, 5⟩, 5, 22, 27, .bf16, false⟩)] = true := by decide +kernel

theorem test_decode_43 : decodesAll [
    (0x430063566C00000000000001, .vperm ⟨⟨false, 6⟩, 13, 22, 27, .u8, false⟩),
    (0x4301D3660000000000000003, .vbcast ⟨⟨true, 5⟩, 13, 38, .i32⟩),
    (0x43026556AC00000000000003, .vextr ⟨⟨false, 6⟩, 21, 22, 43, .i32⟩),
    (0x4303D366AC00000000000003, .vins ⟨⟨true, 5⟩, 13, 38, 43, .i32⟩),
    (0x43046356AC00000000000003, .vrot ⟨⟨false, 6⟩, 13, 22, 43, .i32⟩),
    (0x4305D3566C40000000000003, .vsel ⟨⟨true, 5⟩, 13, 22, 27, 4, .i32⟩)] = true := by decide +kernel

theorem test_decode_44 : decodesAll [
    (0x440063560000000000000BA2, .vcvt ⟨⟨false, 6⟩, 13, 22, .i16, .f32, .rd, 1⟩)] = true := by decide +kernel

theorem test_decode_45 : decodesAll [
    (0x4500D5560000000000000013, .vredadd ⟨⟨true, 5⟩, 21, 22, .i32, true⟩),
    (0x450165560000000000000009, .vfredadd ⟨⟨false, 6⟩, 21, 22, .bf16, false⟩),
    (0x4502D5560000000000000013, .vredmin ⟨⟨true, 5⟩, 21, 22, .i32, true⟩),
    (0x450365560000000000000013, .vredmax ⟨⟨false, 6⟩, 21, 22, .i32, true⟩),
    (0x4504D5566FA0000000000008, .vfdot ⟨⟨true, 5⟩, 21, 22, 27, 58, .f16⟩)] = true := by decide +kernel

theorem test_decode_46 : decodesAll [
    (0x460063560000000000000008, .vrcp ⟨⟨false, 6⟩, 13, 22, .f16⟩),
    (0x4601D3560000000000000008, .vrsq ⟨⟨true, 5⟩, 13, 22, .f16⟩),
    (0x460263560000000000000008, .vexp2 ⟨⟨false, 6⟩, 13, 22, .f16⟩),
    (0x4603D3560000000000000008, .vlog2 ⟨⟨true, 5⟩, 13, 22, .f16⟩)] = true := by decide +kernel

theorem test_decode_47 : decodesAll [
    (0x47006340FEDCBA9876543210, .vmovi ⟨⟨false, 6⟩, 13, 0xFEDCBA9876543210⟩)] = true := by decide +kernel

theorem test_decode_48 : decodesAll [
    (0x4800D3566C00000000000014, .vdiv ⟨⟨true, 5⟩, 13, 22, 27, .i64, true⟩),
    (0x480163566C00000000000009, .vfdiv ⟨⟨false, 6⟩, 13, 22, 27, .bf16, false⟩),
    (0x4802D3560000000000000008, .vfsqrt ⟨⟨true, 5⟩, 13, 22, .f16⟩)] = true := by decide +kernel

theorem test_decode_60 : decodesAll [
    (0x60006556AC00000000000000, .spawn ⟨⟨false, 6⟩, 21, 22, 43⟩),
    (0x6001D3400000000000000001, .reap ⟨⟨true, 5⟩, 13, true⟩),
    (0x600260260000000000000000, .yield ⟨⟨false, 6⟩, 38⟩),
    (0x6003D0000000000000000000, .halt ⟨⟨true, 5⟩⟩),
    (0x60046566AC00000000000000, .migr ⟨⟨false, 6⟩, 21, 38, 43⟩)] = true := by decide +kernel

theorem test_decode_61 : decodesAll [
    (0x6100D566AC00000000000000, .launch ⟨⟨true, 5⟩, 21, 38, 43⟩),
    (0x610160000000000000000000, .trig ⟨⟨false, 6⟩⟩)] = true := by decide +kernel

theorem test_decode_62 : decodesAll [
    (0x6200D5660000000000000000, .share ⟨⟨true, 5⟩, 21, 38⟩),
    (0x620165660000000000000000, .slice ⟨⟨false, 6⟩, 21, 38⟩)] = true := by decide +kernel

theorem test_decode_63 : decodesAll [
    (0x6300D0000006000000000000, .bar ⟨⟨true, 5⟩, .stack⟩)] = true := by decide +kernel

theorem test_decode_70 : decodesAll [
    (0x70006366AC011F2345678901, .vmld ⟨⟨false, 6⟩, 13, 38, 43, .l, .openRow, 0xF2345678901⟩),
    (0x7001D026ADE11F2345678901, .vmst ⟨⟨true, 5⟩, 38, 43, 30, .l, .openRow, 0xF2345678901⟩),
    (0x700263666C008F2345678901, .vmgat ⟨⟨false, 6⟩, 13, 38, 27, .w, 0xF2345678901⟩),
    (0x7003D0266DE08F2345678901, .vmsct ⟨⟨true, 5⟩, 38, 27, 30, .w, 0xF2345678901⟩)] = true := by decide +kernel

theorem test_decode_71 : decodesAll [
    (0x71006166AC019F2345678901, .tld ⟨⟨false, 6⟩, 5, 38, 43, .openRow, 0xF2345678901⟩)] = true := by decide +kernel

theorem test_decode_72 : decodesAll [
    (0x7200D02600000F2345678901, .rowopen ⟨⟨true, 5⟩, 38, 0xF2345678901⟩),
    (0x7201602600000F2345678901, .rowclose ⟨⟨false, 6⟩, 38, 0xF2345678901⟩)] = true := by decide +kernel

theorem test_decode_73 : decodesAll [
    (0x7300D366AFA14F2345678901, .vldx ⟨⟨true, 5⟩, 13, 38, 43, 58, .v, 0xF2345678901⟩),
    (0x7301636603A14F2345678901, .vlda ⟨⟨false, 6⟩, 13, 38, 58, .v, 0xF2345678901⟩),
    (0x7302D026ADE0CF2345678901, .vst ⟨⟨true, 5⟩, 38, 43, 30, .d, 0xF2345678901⟩),
    (0x7303602603A00F2345678901, .vfloor ⟨⟨false, 6⟩, 38, 58, 0xF2345678901⟩)] = true := by decide +kernel

theorem test_decode_74 : decodesAll [
    (0x7400D0000006000000000000, .phase ⟨⟨true, 5⟩, .stack⟩)] = true := by decide +kernel

theorem test_decode_75 : decodesAll [
    (0x75006566AFA6CF2345678901, .amoAdd ⟨⟨false, 6⟩, 21, 38, 43, 58, .d, .stack, 0xF2345678901⟩),
    (0x7501D566AFA6CF2345678901, .amoAnd ⟨⟨true, 5⟩, 21, 38, 43, 58, .d, .stack, 0xF2345678901⟩),
    (0x75026566AFA6CF2345678901, .amoOr ⟨⟨false, 6⟩, 21, 38, 43, 58, .d, .stack, 0xF2345678901⟩),
    (0x7503D566AFA6CF2345678901, .amoXor ⟨⟨true, 5⟩, 21, 38, 43, 58, .d, .stack, 0xF2345678901⟩),
    (0x75046566AFA6CF2345678901, .amoMin ⟨⟨false, 6⟩, 21, 38, 43, 58, .d, .stack, 0xF2345678901⟩),
    (0x7505D566AFA6CF2345678901, .amoMax ⟨⟨true, 5⟩, 21, 38, 43, 58, .d, .stack, 0xF2345678901⟩),
    (0x75066566AFA6CF2345678901, .amoMinu ⟨⟨false, 6⟩, 21, 38, 43, 58, .d, .stack, 0xF2345678901⟩),
    (0x7507D566AFA6CF2345678901, .amoMaxu ⟨⟨true, 5⟩, 21, 38, 43, 58, .d, .stack, 0xF2345678901⟩),
    (0x75086566AFA6CF2345678901, .amoSwap ⟨⟨false, 6⟩, 21, 38, 43, 58, .d, .stack, 0xF2345678901⟩),
    (0x7509D566AFA6CF2345678901, .amoCas ⟨⟨true, 5⟩, 21, 38, 43, 58, .d, .stack, 0xF2345678901⟩),
    (0x750A6566AFA6CF2345678901, .amoBins ⟨⟨false, 6⟩, 21, 38, 43, 58, .d, .stack, 0xF2345678901⟩),
    (0x750BD566AFA6CF2345678901, .amoBffcs ⟨⟨true, 5⟩, 21, 38, 43, 58, .d, .stack, 0xF2345678901⟩),
    (0x750C6566AFA6CF2345678901, .amoBplim ⟨⟨false, 6⟩, 21, 38, 43, 58, .d, .stack, 0xF2345678901⟩)] = true := by decide +kernel

theorem test_decode_76 : decodesAll [
    (0x7600D566AC00CF2345678901, .lr ⟨⟨true, 5⟩, 21, 38, 43, .d, 0xF2345678901⟩),
    (0x76016566AFA0CF2345678901, .sc ⟨⟨false, 6⟩, 21, 38, 43, 58, .d, 0xF2345678901⟩)] = true := by decide +kernel

theorem test_decode_77 : decodesAll [
    (0x7700D5660000000000000000, .waitres ⟨⟨true, 5⟩, 21, 38⟩),
    (0x77016566AFA0CF2345678901, .waitaddr ⟨⟨false, 6⟩, 21, 38, 43, 58, .d, 0xF2345678901⟩)] = true := by decide +kernel

theorem test_decode_78 : decodesAll [
    (0x7800D56601E6CF2345678901, .rget ⟨⟨true, 5⟩, 21, 38, 30, .d, .stack, 0xF2345678901⟩),
    (0x7801656601E6CF2345678901, .rput ⟨⟨false, 6⟩, 21, 38, 30, .d, .stack, 0xF2345678901⟩),
    (0x7802D566ADE6CF2345678901, .radd ⟨⟨true, 5⟩, 21, 38, 43, 30, .d, .stack, 0xF2345678901⟩),
    (0x7803656601E6CF2345678901, .rcas ⟨⟨false, 6⟩, 21, 38, 30, .d, .stack, 0xF2345678901⟩),
    (0x7804D566ADE74F2345678901, .rcall ⟨⟨true, 5⟩, 21, 38, 43, 30, .v, .stack, 0xF2345678901⟩)] = true := by decide +kernel

theorem test_decode_79 : decodesAll [
    (0x79006556AC00000000000000, .rchins ⟨⟨false, 6⟩, 21, 22, 43⟩),
    (0x7901D5660000000000000000, .rchinv ⟨⟨true, 5⟩, 21, 38⟩),
    (0x79026566AC00000000000000, .rchspl ⟨⟨false, 6⟩, 21, 38, 43⟩),
    (0x7903D566AC00000000000000, .rchmrg ⟨⟨true, 5⟩, 21, 38, 43⟩),
    (0x790463660000000000000000, .rchrd ⟨⟨false, 6⟩, 13, 38⟩)] = true := by decide +kernel

theorem test_decode_90 : decodesAll [
    (0x9000D083180BBEEFBBEEF000, .mmabf ⟨⟨true, 5⟩, 2, 3, 6, 11, 0xBEEF, 11, 0xBEEF, 0, false, false⟩),
    (0x90016083180BBEEFBBEEF000, .mmafh ⟨⟨false, 6⟩, 2, 3, 6, 11, 0xBEEF, 11, 0xBEEF, 0, false, false⟩),
    (0x9002D083180BBEEFBBEEF000, .mmai8 ⟨⟨true, 5⟩, 2, 3, 6, 11, 0xBEEF, 11, 0xBEEF, 0, false, false⟩),
    (0x90036086180BBEEFBBEEFA51, .mmatw ⟨⟨false, 6⟩, 2, 6, 6, 11, 0xBEEF, 11, 0xBEEF, 165, false, true⟩),
    (0x9004D083180BBEEFBBEEF001, .mmasp ⟨⟨true, 5⟩, 2, 3, 6, 11, 0xBEEF, 11, 0xBEEF, 0, false, true⟩)] = true := by decide +kernel

theorem test_decode_91 : decodesAll [
    (0x910060266C0000000000001D, .gath ⟨⟨false, 6⟩, 38, 27, 29⟩),
    (0x9101D1460000000000000001, .sparsify ⟨⟨true, 5⟩, 5, 6, true⟩)] = true := by decide +kernel

theorem test_decode_92 : decodesAll [
    (0x920060800000000000000000, .drev ⟨⟨false, 6⟩, 2⟩),
    (0x9201D0800000000000004D17, .bfly ⟨⟨true, 5⟩, 2, 7, 1, 77⟩),
    (0x920260260000000000000000, .twset ⟨⟨false, 6⟩, 38⟩),
    (0x9203D0A6AC00000000000000, .twmul ⟨⟨true, 5⟩, 2, 38, 43⟩)] = true := by decide +kernel

theorem test_decode_93 : decodesAll [
    (0x930060800000000000000000, .azero ⟨⟨false, 6⟩, 2⟩),
    (0x9301D1410000000000000005, .amov ⟨⟨true, 5⟩, 5, 1, .rz, true⟩),
    (0x930265660030023B89ABCDEF, .ast ⟨⟨false, 6⟩, 21, 38, 3, .sat, 1, true, 11, 0x89ABCDEF⟩),
    (0x9303D0A60000000089ABCDEF, .ald ⟨⟨true, 5⟩, 2, 38, 0x89ABCDEF⟩)] = true := by decide +kernel

theorem test_decode_94 : decodesAll [
    (0x940065560000000000000000, .xfer ⟨⟨false, 6⟩, 21, 22⟩),
    (0x9401D566000000000000000B, .ringset ⟨⟨true, 5⟩, 21, 38, 11⟩),
    (0x94026566AC0000000000000B, .ringwait ⟨⟨false, 6⟩, 21, 38, 43, 11⟩)] = true := by decide +kernel

theorem test_decode_95 : decodesAll [
    (0x9500D080000000000000A503, .ibind ⟨⟨true, 5⟩, 2, 3, 165⟩),
    (0x950160800000000000000000, .iunbind ⟨⟨false, 6⟩, 2⟩)] = true := by decide +kernel

theorem test_decode_96 : decodesAll [
    (0x9600D1560000000000000000, .qpush ⟨⟨true, 5⟩, 5, 22⟩),
    (0x960163430000000000000000, .qpop ⟨⟨false, 6⟩, 13, 3, .queue⟩),
    (0x9602D5430000000000000000, .qfree ⟨⟨true, 5⟩, 21, 3⟩)] = true := by decide +kernel

theorem test_decode_97 : decodesAll [
    (0x970060160000000000000000, .bxf ⟨⟨false, 6⟩, 22⟩)] = true := by decide +kernel

theorem test_decode_98 : decodesAll [
    (0x9800D240000000000000BEEF, .semsig ⟨⟨true, 5⟩, 9, 0xBEEF⟩),
    (0x98016240000000000000BEEF, .semwait ⟨⟨false, 6⟩, 9, 0xBEEF⟩),
    (0x9802D2660000000000000000, .semset ⟨⟨true, 5⟩, 9, 38⟩)] = true := by decide +kernel

theorem test_decode_99 : decodesAll [
    (0x9900600000000005DDDDF77D, .repb ⟨⟨false, 6⟩, 5, 0xBEEF, 11, 11, 11, 11⟩),
    (0x9901D0000000000000000000, .repstop ⟨⟨true, 5⟩⟩)] = true := by decide +kernel

theorem test_decode_b0 : decodesAll [
    (0xB00060260000000000000000, .cfopen ⟨⟨false, 6⟩, 38⟩),
    (0xB001D0000000000000000000, .cfclose ⟨⟨true, 5⟩⟩)] = true := by decide +kernel

theorem test_decode_b1 : decodesAll [
    (0xB1006166AC00000000000000, .shset ⟨⟨false, 6⟩, 5, 38, 43⟩),
    (0xB101D5430000000000000001, .shrd ⟨⟨true, 5⟩, 21, 3, true⟩)] = true := by decide +kernel

theorem test_decode_b2 : decodesAll [
    (0xB2006026000000000000BEEF, .mark ⟨⟨false, 6⟩, 38, 0xBEEF⟩),
    (0xB201D556AC00000000000000, .brkpt ⟨⟨true, 5⟩, 21, 22, 43⟩),
    (0xB20260260000000000000002, .gsel ⟨⟨false, 6⟩, 38, 2⟩),
    (0xB203D540000000000000004E, .grd ⟨⟨true, 5⟩, 21, 19, 2⟩),
    (0xB20463660000000000000000, .siltrd ⟨⟨false, 6⟩, 13, 38⟩)] = true := by decide +kernel

/-- Words that the manual itself writes out. -/
theorem test_decode_manual_words : decodesAll [
    (0x7902_0000_0000_0000_0000_0000, .rchspl ⟨⟨false, 0⟩, 0, 0, 0⟩),
    (0x9801_00C0_0000_0000_0000_0002, .semwait ⟨⟨false, 0⟩, 3, 2⟩)] = true := by decide +kernel

/-! Reserved words are refused. -/

/-- An unused field that is not zero (R44), a reserved opcode and function, a reserved size. -/
theorem test_reserved_words : [(0x24000000_00000000_00000001 : Word96), 0x00000000_00000000_00000000,
    0x010E0000_00000000_00000000, 0x3000_0000_0000_0001_C000_0000_0000, 0xFF000000_00000000_00000000].all
    (fun w => decide (decode w = none)) = true := by decide +kernel

/-! Ill-formed terms: one for each check of WellFormed. -/

theorem test_ill_formed_fields :
    [Instr.bfx ⟨⟨false, 0⟩, 1, 2, 0, 0⟩, .bfxu ⟨⟨false, 0⟩, 1, 2, 0, 65⟩, .bfi ⟨⟨false, 0⟩, 1, 2, 3, 60, 5⟩,
     .lbpurge ⟨⟨false, 0⟩, 1, 0, true⟩, .lbpurge ⟨⟨false, 0⟩, 0, 1, true⟩,
     .ld ⟨⟨false, 0⟩, 1, 2, 3, .l, .dflt, 0⟩, .ldu ⟨⟨false, 0⟩, 1, 2, 3, .v, .dflt, 0⟩, .st ⟨⟨false, 0⟩, 1, 2, 3, .t, .dflt, 0⟩,
     .ldbf ⟨⟨false, 0⟩, 1, 2, 0, false⟩, .ldbfs ⟨⟨false, 0⟩, 1, 2, 65, false⟩, .stbf ⟨⟨false, 0⟩, 1, 2, 0, false⟩].all
      (fun i => !i.wellFormed) = true := by decide +kernel

theorem test_ill_formed_vector_types :
    [Instr.vadd ⟨⟨false, 0⟩, 1, 2, 3, .f32, false⟩, .vsub ⟨⟨false, 0⟩, 1, 2, 3, .i32, true⟩, .vmul ⟨⟨false, 0⟩, 1, 2, 3, .i4, false⟩,
     .vmin ⟨⟨false, 0⟩, 1, 2, 3, .f16, false⟩, .vmax ⟨⟨false, 0⟩, 1, 2, 3, .c32, true⟩, .vand ⟨⟨false, 0⟩, 1, 2, 3, .i6, false⟩,
     .vor ⟨⟨false, 0⟩, 1, 2, 3, .i8, true⟩, .vxor ⟨⟨false, 0⟩, 1, 2, 3, .tsw8, false⟩, .vsll ⟨⟨false, 0⟩, 1, 2, 3, .f64, false⟩,
     .vsrl ⟨⟨false, 0⟩, 1, 2, 3, .i16, true⟩, .vsra ⟨⟨false, 0⟩, 1, 2, 3, .bf16, false⟩, .vadds ⟨⟨false, 0⟩, 1, 2, 3, .f32, false⟩,
     .vfadd ⟨⟨false, 0⟩, 1, 2, 3, .i32, false⟩, .vfsub ⟨⟨false, 0⟩, 1, 2, 3, .c32, true⟩, .vfmul ⟨⟨false, 0⟩, 1, 2, 3, .f64, false⟩,
     .vfmin ⟨⟨false, 0⟩, 1, 2, 3, .c32, false⟩, .vfmax ⟨⟨false, 0⟩, 1, 2, 3, .f32, true⟩, .vfma ⟨⟨false, 0⟩, 1, 2, 3, 4, .c32⟩,
     .vfabs ⟨⟨false, 0⟩, 1, 2, .i16⟩, .vfneg ⟨⟨false, 0⟩, 1, 2, .c32⟩].all (fun i => !i.wellFormed) = true := by decide +kernel

theorem test_ill_formed_compares_and_permutes :
    [Instr.vcmpeq ⟨⟨false, 0⟩, 1, 2, 3, .i32, true⟩, .vcmpne ⟨⟨false, 0⟩, 1, 2, 3, .f32, false⟩, .vcmplt ⟨⟨false, 0⟩, 1, 2, 3, .f16, false⟩,
     .vcmple ⟨⟨false, 0⟩, 1, 2, 3, .c32, false⟩, .vfcmpeq ⟨⟨false, 0⟩, 1, 2, 3, .i8, false⟩, .vfcmplt ⟨⟨false, 0⟩, 1, 2, 3, .f32, true⟩,
     .vfcmple ⟨⟨false, 0⟩, 1, 2, 3, .c32, false⟩, .vfcmpun ⟨⟨false, 0⟩, 1, 2, 3, .f64, false⟩, .vperm ⟨⟨false, 0⟩, 1, 2, 3, .c32, false⟩,
     .vbcast ⟨⟨false, 0⟩, 1, 2, .f64⟩, .vextr ⟨⟨false, 0⟩, 1, 2, 3, .c32⟩, .vins ⟨⟨false, 0⟩, 1, 2, 3, .i4⟩,
     .vrot ⟨⟨false, 0⟩, 1, 2, 3, .tsw8⟩, .vsel ⟨⟨false, 0⟩, 1, 2, 3, 4, .c32⟩].all (fun i => !i.wellFormed) = true := by decide +kernel

theorem test_ill_formed_conversions_and_reductions :
    [Instr.vcvt ⟨⟨false, 0⟩, 1, 2, .c32, .f32, .rn, 0⟩, .vcvt ⟨⟨false, 0⟩, 1, 2, .f32, .i4, .rn, 0⟩,
     .vcvt ⟨⟨false, 0⟩, 1, 2, .i32, .i64, .rz, 0⟩, .vcvt ⟨⟨false, 0⟩, 1, 2, .f64, .f32, .rn, 1⟩, .vcvt ⟨⟨false, 0⟩, 32, 2, .f32, .i32, .rn, 0⟩,
     .vcvt ⟨⟨false, 0⟩, 1, 40, .f32, .i32, .rn, 0⟩, .vcvt ⟨⟨false, 0⟩, 1, 2, .f32, .i32, .rn, 1⟩, .vcvt ⟨⟨false, 0⟩, 1, 2, .i8, .i32, .rn, 4⟩,
     .vredadd ⟨⟨false, 0⟩, 1, 2, .f32, false⟩, .vfredadd ⟨⟨false, 0⟩, 1, 2, .f32, true⟩, .vredmin ⟨⟨false, 0⟩, 1, 2, .f16, true⟩,
     .vredmax ⟨⟨false, 0⟩, 1, 2, .c32, false⟩, .vfdot ⟨⟨false, 0⟩, 1, 2, 3, 4, .i8⟩, .vrcp ⟨⟨false, 0⟩, 1, 2, .i32⟩,
     .vrsq ⟨⟨false, 0⟩, 1, 2, .c32⟩, .vexp2 ⟨⟨false, 0⟩, 1, 2, .i8⟩, .vlog2 ⟨⟨false, 0⟩, 1, 2, .f64⟩, .vdiv ⟨⟨false, 0⟩, 1, 2, 3, .f32, false⟩,
     .vfdiv ⟨⟨false, 0⟩, 1, 2, 3, .f32, true⟩, .vfsqrt ⟨⟨false, 0⟩, 1, 2, .u8⟩].all (fun i => !i.wellFormed) = true := by decide +kernel

theorem test_ill_formed_threads_and_memory :
    [Instr.share ⟨⟨false, 0⟩, 0, 1⟩, .slice ⟨⟨false, 0⟩, 62, 1⟩, .bar ⟨⟨false, 0⟩, .none⟩, .phase ⟨⟨false, 0⟩, .none⟩,
     .vmld ⟨⟨false, 0⟩, 1, 2, 3, .d, .dflt, 0⟩, .vmst ⟨⟨false, 0⟩, 1, 2, 3, .t, .dflt, 0⟩, .vmgat ⟨⟨false, 0⟩, 1, 2, 3, .l, 0⟩,
     .vmsct ⟨⟨false, 0⟩, 1, 2, 3, .v, 0⟩, .vldx ⟨⟨false, 0⟩, 1, 2, 3, 4, .d, 0⟩, .vlda ⟨⟨false, 0⟩, 1, 2, 3, .w, 0⟩,
     .vst ⟨⟨false, 0⟩, 1, 2, 3, .w, 0⟩, .amoAdd ⟨⟨false, 0⟩, 1, 2, 3, 4, .h, .none, 0⟩, .amoCas ⟨⟨false, 0⟩, 1, 2, 3, 4, .b, .none, 0⟩,
     .lr ⟨⟨false, 0⟩, 1, 2, 3, .l, 0⟩, .sc ⟨⟨false, 0⟩, 1, 2, 3, 4, .h, 0⟩, .waitaddr ⟨⟨false, 0⟩, 1, 2, 3, 4, .b, 0⟩,
     .rget ⟨⟨false, 0⟩, 1, 2, 3, .t, .none, 0⟩, .rput ⟨⟨false, 0⟩, 1, 2, 3, .t, .none, 0⟩, .radd ⟨⟨false, 0⟩, 1, 2, 3, 4, .b, .none, 0⟩,
     .rcas ⟨⟨false, 0⟩, 1, 2, 3, .l, .none, 0⟩, .rcall ⟨⟨false, 0⟩, 1, 2, 3, 4, .d, .none, 0⟩].all (fun i => !i.wellFormed) = true := by
  decide +kernel

theorem test_ill_formed_engine_and_streams :
    [Instr.mmabf ⟨⟨false, 0⟩, 0, 1, 2, 1, 0, 0, 0, 0, false, false⟩, .mmafh ⟨⟨false, 0⟩, 0, 1, 2, 0, 0, 1, 0, 0, false, false⟩,
     .mmai8 ⟨⟨false, 0⟩, 0, 1, 2, 0, 0, 0, 0, 1, false, false⟩, .mmabf ⟨⟨false, 0⟩, 0, 1, 2, 0, 0, 0, 0, 0, false, true⟩,
     .mmabf ⟨⟨false, 0⟩, 0, 1, 2, 0, 0, 0, 0, 0, true, false⟩, .mmatw ⟨⟨false, 0⟩, 0, 2, 2, 0, 0, 0, 0, 0, true, false⟩,
     .mmatw ⟨⟨false, 0⟩, 0, 1, 2, 0, 0, 0, 0, 0, false, false⟩, .mmasp ⟨⟨false, 0⟩, 0, 1, 2, 0, 0, 0, 0, 1, false, false⟩,
     .mmasp ⟨⟨false, 0⟩, 0, 1, 3, 0, 0, 0, 0, 0, false, false⟩, .gath ⟨⟨false, 0⟩, 1, 2, 33⟩, .sparsify ⟨⟨false, 0⟩, 0, 1, false⟩,
     .bfly ⟨⟨false, 0⟩, 0, 0, 3, 0⟩, .bfly ⟨⟨false, 0⟩, 0, 9, 1, 0⟩, .bfly ⟨⟨false, 0⟩, 0, 1, 0, 1⟩,
     .ast ⟨⟨false, 0⟩, 0, 1, 0, .rn, 3, false, 0, 0⟩, .ast ⟨⟨false, 0⟩, 1, 1, 0, .rn, 1, false, 0, 0⟩,
     .ast ⟨⟨false, 0⟩, 0, 1, 0, .rn, 1, false, 1, 0⟩, .ast ⟨⟨false, 0⟩, 0, 1, 0, .rz, 0, true, 1, 0⟩,
     .ibind ⟨⟨false, 0⟩, 0, 5, 0⟩, .qpop ⟨⟨false, 0⟩, 32, 0, .queue⟩, .qpop ⟨⟨false, 0⟩, 1, 4, .inflowScalar⟩,
     .qpop ⟨⟨false, 0⟩, 32, 1, .inflowVector⟩, .semsig ⟨⟨false, 0⟩, 1, 0⟩, .semwait ⟨⟨false, 0⟩, 1, 0⟩, .grd ⟨⟨false, 0⟩, 1, 20, 0⟩].all
      (fun i => !i.wellFormed) = true := by decide +kernel

/-! Helpers: a task thread in slot 1 of a core, scalar registers, and reach entries for the task. -/

/-- Slot 1 of a core holds task 7, which executes. -/
def taskOn (core : Nat) : State :=
  { (State.reset.setThread core 1 { Thread.reset with state := .ready, task := 7, uid := 3, readyAt := 0 }) with cur := ⟨core, 1⟩ }

/-- Slot 1 of staging core 0. -/
def tk : State := taskOn 0

/-- The head slot of core 0 executes. -/
def hd : State := { State.reset with cur := ⟨0, 0⟩ }

/-- Scalar registers of the executing thread. -/
def State.put (s : State) (l : List (Nat × W64)) : State :=
  s.modCur fun t => l.foldl (fun t p => t.setS p.1 ⟨p.2, false⟩) t

/-- A poisoned scalar register of the executing thread. -/
def State.bad (s : State) (n : Nat) : State := s.modCur fun t => t.setS n ⟨1, true⟩

/-- A vector register of the executing thread. -/
def State.putV (s : State) (n : Nat) (v : W1024) : State := s.modCur fun t => t.setV n ⟨v, 0⟩

/-- Entries 4 to 7 of a core for every task: the first 2 MiB of its tile's vault at 0x400000000, its scratchpad at
0x500000000, the vault for versions at 0x600000000 and for row calls at 0x700000000. -/
def State.mapped (s : State) (core : Nat) : State :=
  let t := tileOfCore core
  (((s.setReach core 4 ⟨0x400000001, 0x400200000, BitVec.ofNat 64 (spaceBase t 0), 3⟩).setReach core 5
    ⟨0x500000001, 0x500400000, BitVec.ofNat 64 (spaceBase t 1), 3⟩).setReach core 6
    ⟨0x600000001, 0x600200000, BitVec.ofNat 64 (spaceBase t 0), 0x13⟩).setReach core 7
    ⟨0x700000001, 0x700200000, BitVec.ofNat 64 (spaceBase t 0), 0x0B⟩

/-- Slot 1 of a core waits. -/
def waits (core : Nat) (w : Wait) : State :=
  (taskOn core).modThread core 1 fun t => { t with state := .waitingMemory, waits := [⟨false, 0, w⟩] }

/-- What the executing thread's scalar register n holds after a step. -/
def after (o : Host.Outcome State Fault Refusal) (f : State → Bool) : Bool :=
  match o with
  | .next s => f s
  | _ => false

/-- A check that passes with a result of which f holds. -/
def good {ε α : Type} (c : Except ε α) (f : α → Bool) : Bool :=
  match c with
  | .ok x => f x
  | .error _ => false

/-- A check that fails with an error of which f holds. -/
def fails {ε α : Type} (c : Except ε α) (f : ε → Bool) : Bool :=
  match c with
  | .ok _ => false
  | .error e => f e

/-- Slot 1 of core 0 waits for w. -/
abbrev wt (w : Wait) : State := waits 0 w

/-! Single steps, with results computed by hand from the rules. -/

/-- R63: the sum wraps at 64 bits; source is also destination. -/
theorem test_add_wraps : after (exec (.add ⟨⟨false, 0⟩, 5, 5, 6⟩) (tk.put [(5, 0xFFFFFFFFFFFFFFFF), (6, 2)]))
    (fun s => decide ((s.rS 5).bits = 1)) = true := by decide +kernel

/-- R63: a shift counts by the low six bits, and sra keeps the sign. -/
theorem test_sra_count : after (exec (.sra ⟨⟨false, 0⟩, 5, 5, 6⟩) (tk.put [(5, 0x8000000000000000), (6, 65)]))
    (fun s => decide ((s.rS 5).bits = 0xC000000000000000)) = true := by decide +kernel

/-- R9: a write to s0 is dropped, and the pc still moves on. -/
theorem test_s0_stays_zero : after (exec (.li ⟨⟨false, 0⟩, 0, 77⟩) tk)
    (fun s => decide ((s.rS 0).bits = 0) && decide (s.cth.pc = 12)) = true := by decide +kernel

/-- R41: a guard that is off only advances. -/
theorem test_guard_off : after (exec (.li ⟨⟨false, 3⟩, 4, 77⟩) tk)
    (fun s => decide ((s.rS 4).bits = 0) && decide (s.cth.pc = 12)) = true := by decide +kernel

/-- R359: a computed result carries poison. -/
theorem test_poison_travels : after (exec (.sub ⟨⟨false, 0⟩, 5, 6, 7⟩) (tk.bad 7))
    (fun s => (s.rS 5).poison) = true := by decide +kernel

/-- R65: mulh of -1 and 1 is -1. -/
theorem test_mulh_sign : after (exec (.mulh ⟨⟨false, 0⟩, 5, 6, 7⟩) (tk.put [(6, 0xFFFFFFFFFFFFFFFF), (7, 1)]))
    (fun s => decide ((s.rS 5).bits = 0xFFFFFFFFFFFFFFFF)) = true := by decide +kernel

/-- R66: the least integer divided by -1 gives itself, once 40 cycles have passed. -/
theorem test_div_overflow : after (exec (.div ⟨⟨false, 0⟩, 5, 6, 7⟩) (tk.put [(6, 0x8000000000000000), (7, 0xFFFFFFFFFFFFFFFF)]))
    (fun s => after (exec (.divideResult 0 1) { s with cycle := 40 })
      fun t => decide ((t.rS 5).bits = 0x8000000000000000) && decide (t.cth.state = .ready)) = true := by decide +kernel

/-- R67: a compare of poison traps with cause 0x08: the thread is trapped, or its core stops without a ring. -/
theorem test_compare_poison_traps : after (exec (.cmpeq ⟨⟨false, 0⟩, 1, 6, 7⟩) (tk.bad 6))
    (fun s => decide (s.cth.state = .trapped) && decide (s.cth.trapCause = 0x08)) = true := by decide +kernel

/-- R70 and R71. -/
theorem test_bit_fields : after (exec (.bfx ⟨⟨false, 0⟩, 5, 6, 4, 4⟩) (tk.put [(6, 0x80)]))
      (fun s => decide ((s.rS 5).bits = 0xFFFFFFFFFFFFFFF8)) = true ∧
    after (exec (.clz ⟨⟨false, 0⟩, 5, 0⟩) tk) (fun s => decide ((s.rS 5).bits = 64)) = true ∧
    after (exec (.bswap ⟨⟨false, 0⟩, 5, 6⟩) (tk.put [(6, 0x0102030405060708)]))
      (fun s => decide ((s.rS 5).bits = 0x0807060504030201)) = true := by decide +kernel

/-- R73: bffcs sets the lowest bit of the mask that is clear. -/
theorem test_bffcs : after (exec (.bffcs ⟨⟨false, 0⟩, 5, 6, 7, 2⟩) (tk.put [(6, 0x3), (7, 0xE)]))
    (fun s => decide ((s.rS 5).bits = 0x7) && decide (s.rP 2 = BitVec.allOnes 64)) = true := by decide +kernel

/-- R15: a head-only form of a task thread is privileged: cause 0x04, opcode and function. -/
theorem test_privileged : after (exec (.spawn ⟨⟨false, 0⟩, 5, 6, 7⟩) tk)
    (fun s => decide (s.cth.trapCause = 0x04) && decide (s.cth.trapInfo = 0x6000)) = true := by decide +kernel

/-- R79 and Table 1.1: %core, %thread and %tsw. -/
theorem test_mfs : after (exec (.mfs ⟨⟨false, 0⟩, 5, 0⟩) (taskOn 0x483)) (fun s => decide ((s.rS 5).bits = 0x483)) = true ∧
    after (exec (.mfs ⟨⟨false, 0⟩, 5, 5⟩) hd) (fun s => decide ((s.rS 5).bits = 1)) = true ∧
    after (exec (.mts ⟨⟨false, 0⟩, 5, 6⟩) (tk.put [(6, 4)])) (fun s => s.cth.dzt) = true := by decide +kernel

/-- R156: spawn of a slot that is idle starts its thread at the address of lane 0. -/
theorem test_spawn : after (exec (.spawn ⟨⟨false, 0⟩, 5, 6, 7⟩) ((hd.put [(7, 3)]).putV 6 0x4C))
    (fun s => decide ((s.rS 5).bits = 0) && decide ((s.thread 0 3).state = .ready) && decide ((s.thread 0 3).pc = 0x4C)) = true := by
  decide +kernel

/-- R44 and R86: a store posts its bytes, and a load of them returns sign-extended once they have landed. -/
theorem test_store_then_load :
    after (exec (.st ⟨⟨false, 0⟩, 5, 0, 6, .h, .dflt, 16⟩) ((tk.mapped 0).put [(5, 0x400000100), (6, 0x12348001)]))
      (fun s => after (exec (.storePerformed 0) s) fun t =>
        decide (t.byte 0x110 = 0x01) && decide (t.byte 0x111 = 0x80) && decide (t.byte 0x112 = 0) &&
        after (exec (.ld ⟨⟨false, 0⟩, 7, 5, 0, .h, .dflt, 16⟩) t)
          fun u => after (exec (.loadReply 0 1) u) fun v => decide ((v.rS 7).bits = 0xFFFFFFFFFFFF8001)) = true := by decide +kernel

/-- R24: a misaligned access traps with cause 0x05 and its address. -/
theorem test_misaligned : after (exec (.ld ⟨⟨false, 0⟩, 7, 5, 0, .w, .dflt, 0⟩) ((tk.mapped 0).put [(5, 0x400000102)]))
    (fun s => decide (s.cth.trapCause = 0x05) && decide (s.cth.trapInfo = 0x400000102)) = true := by decide +kernel

/-- R178: an address that no entry covers traps with cause 0x10. -/
theorem test_no_reach : after (exec (.ld ⟨⟨false, 0⟩, 7, 5, 0, .d, .dflt, 0⟩) ((tk.mapped 0).put [(5, 0x300)]))
    (fun s => decide (s.cth.trapCause = 0x10) && decide (s.cth.trapInfo = 0x300)) = true := by decide +kernel

/-- R88 and R90: the bit address advances by w with .inc. -/
theorem test_badd : after (exec (.badd ⟨⟨false, 0⟩, 1, 1, 5, 0xFFFFFFFFFF⟩) (tk.put [(5, 1)]))
    (fun s => decide (s.rB 1 = 0)) = true := by decide +kernel

/-- R124 and R148: lanes wrap, and saturate in vadds. -/
theorem test_vector_lanes : after (exec (.vadd ⟨⟨false, 0⟩, 1, 2, 3, .i8, false⟩) ((tk.putV 2 0xFF7F).putV 3 0x0101))
      (fun s => decide ((s.rV 1).bits = 0x0080)) = true ∧
    after (exec (.vadds ⟨⟨false, 0⟩, 1, 2, 3, .i8, false⟩) ((tk.putV 2 0xFF7F).putV 3 0x0101))
      (fun s => decide ((s.rV 1).bits = 0x007F)) = true := by decide +kernel

/-- R145: 1.5 + 2.25 = 3.75 in FP32, and 1 / 3 rounds to nearest in BF16. -/
theorem test_float_lanes : after (exec (.vfadd ⟨⟨false, 0⟩, 1, 2, 3, .f32, false⟩) ((tk.putV 2 0x3FC00000).putV 3 0x40100000))
      (fun s => decide ((s.rV 1).bits = 0x40700000)) = true ∧
    after (exec (.vfmul ⟨⟨false, 0⟩, 1, 2, 3, .bf16, false⟩) ((tk.putV 2 0x3FC0).putV 3 0x3FC0))
      (fun s => decide ((s.rV 1).bits = 0x4010)) = true := by decide +kernel

/-- R153: an integer reduction is exact. -/
theorem test_vredadd : after (exec (.vredadd ⟨⟨false, 0⟩, 5, 2, .i8, false⟩) (tk.putV 2 0xFF02))
    (fun s => decide ((s.rS 5).bits = 1)) = true := by decide +kernel

/-- R243: an atomic at the scratchpad returns the old value. -/
theorem test_amo_scratchpad :
    after (exec (.amoAdd ⟨⟨false, 0⟩, 7, 5, 0, 6, .w, .none, 0⟩) ((tk.mapped 0).put [(5, 0x500000040), (6, 0xFFFFFFFF)]))
      (fun s => after (exec (.amoReply 0 1) s) fun t =>
        decide ((t.rS 7).bits = 0) && decide (t.peekNat (2 ^ 40 + 0x40) 8 = 0xFFFFFFFF)) = true := by decide +kernel

/-- R245: sc after lr writes and answers 0. -/
theorem test_lr_sc :
    after (exec (.lr ⟨⟨false, 0⟩, 7, 5, 0, .d, 0⟩) ((tk.mapped 0).put [(5, 0x500000040), (6, 9)]))
      (fun s => after (exec (.loadReply 0 1) s) fun t =>
        after (exec (.sc ⟨⟨false, 0⟩, 7, 5, 0, 6, .d, 0⟩) { t with unit := IssueUnit.reset }) fun u =>
          after (exec (.amoReply 0 1) u) fun v => decide ((v.rS 7).bits = 0) && decide (v.peekNat (2 ^ 40 + 0x40) 8 = 9)) = true := by
  decide +kernel

/-- R177: an entry whose range is not a multiple of 64 bytes has status 7 or its own; a good one installs. -/
theorem test_rchins : after (exec (.rchins ⟨⟨false, 0⟩, 5, 6, 7⟩)
      ((hd.put [(7, 9)]).putV 6 (0x800000001 + 2 ^ 64 * 0x800001000 + 2 ^ 192 * 3)))
    (fun s => decide ((s.rS 5).bits = 0) && (s.reach 0 9).valid) = true := by decide +kernel

/-- R254: a split gives the number of the new entry in bits 12:8. -/
theorem test_rchspl : after (exec (.rchspl ⟨⟨false, 0⟩, 5, 6, 7⟩) ((hd.mapped 0).put [(6, 4), (7, 0x400001000)]))
    (fun s => decide ((s.rS 5).bits = 0x800) && decide ((s.reach 0 4).limit = 0x400001000) &&
      decide ((s.reach 0 8).base = 0x400001000)) = true := by decide +kernel

/-- R262: an INT8 product adds 64 exact products to each element. -/
theorem test_mmai8 :
    ((({ EngineRegs.reset with rows := [(1 * 32 + 0, 0x02FF), (2 * 32 + 3, 0x0503)] } : EngineRegs).product 2
      ⟨⟨false, 0⟩, 0, 1, 2, 0, 0, 0, 0, 0, false, false⟩).accWord 0 3) = 7 := by decide +kernel

/-- R267: a signal adds to the count of its semaphore. -/
theorem test_semsig : after (exec (.semsig ⟨⟨false, 0⟩, 3, 0xFFFF⟩) (taskOn 128))
    (fun s => after (exec (.semsig ⟨⟨false, 0⟩, 3, 2⟩) s) fun t =>
      decide (t.semCount 0 3 = 0xFFFF) && (t.reg (semReg 0 3)).getLsbD 16) = true := by decide +kernel

/-- R364: a fifth coffer is refused with reason 0x0C. -/
theorem test_cfopen_limit : after (exec (.cfopen ⟨⟨false, 0⟩, 5⟩)
      (tk.modCur fun t => { t with coffers := List.replicate 4 ⟨0, ⟨0, false⟩, 0, false⟩ }))
    (fun s => decide (s.cth.trapCause = 0x01) && decide (s.cth.trapInfo = 0x0C)) = true := by decide +kernel

/-- R370: shset and shrd. -/
theorem test_shore : after (exec (.shset ⟨⟨false, 0⟩, 2, 5, 6⟩) (tk.put [(5, 0x0000000500000002), (6, 0)]))
    (fun s => after (exec (.shrd ⟨⟨false, 0⟩, 7, 2, false⟩) s) fun t => decide ((t.rS 7).bits = 0x0000000500000002)) = true := by
  decide +kernel

/-- R29 and R31: a trap of a task thread writes its record to the ring at %trapptr. -/
theorem test_trap_record :
    after (exec (.swtrap ⟨⟨false, 0⟩, 5, 9⟩) ((tk.put [(5, 0x1234)]).modCore 0 fun c => { c with trapBase := 0x100000 }))
      (fun s => decide (s.cth.state = .trapped) && decide ((s.core 0).trapWidx = 1) && decide (s.byte (2 ^ 40) = 0x07) &&
        decide (s.byte (2 ^ 40 + 1) = 0x01) && decide (s.byte (2 ^ 40 + 16) = 0x34) && decide (s.byte (2 ^ 40 + 24) = 7)) = true := by decide +kernel

/-- R413: a resent beat counts in the seep counter of the tile's group. -/
theorem test_beat_resend : after (exec (.vbusBeatResend 5 false) State.reset)
    (fun s => decide ((s.reg (groupSeep 5)).toNat % 2 ^ 16 = 1)) = true := by decide +kernel

/-- The first step after reset: the head slot of core 0 asks for its line at address 0 (R17, R411). -/
theorem test_first_step : after (step State.reset)
    (fun s => decide ((s.thread 0 0).waits.length = 1) && decide ((s.thread 0 0).state = .waitingMemory)) = true := by decide +kernel

/-- An instruction that is placed runs in the next step. -/
theorem test_with_fetch_word : after (step (State.reset.withFetchWord 96 0x03000140_00000000_00000055))
    (fun s => decide ((s.rS 5).bits = 0x55)) = true := by decide +kernel

/-! For each obligation, a state and operands that meet its hypotheses, at an edge of each clause where it has one. -/

/-- A form with a bit guard, one with a lane guard, an event, and a word that decodes. -/
theorem witness_EncodeDecodeRoundTrip :
    (Instr.add ⟨⟨true, 7⟩, 63, 0, 63⟩).wellFormed = true ∧ encode (.add ⟨⟨true, 7⟩, 63, 0, 63⟩) = some 0x0100FFC0_FC000000_00000000 ∧
    decode 0x0100FFC0_FC000000_00000000 = some (.add ⟨⟨true, 7⟩, 63, 0, 63⟩) ∧
    (Instr.add ⟨⟨true, 7⟩, 63, 0, 63⟩).bitGuard = some ⟨true, 7⟩ ∧ (Instr.vmgat ⟨⟨true, 7⟩, 1, 2, 3, .w, 0⟩).laneGuard = some ⟨true, 7⟩ ∧
    encode (.modulePowerOn 0) = none := by decide +kernel

/-- A state whose next step issues `nop` from a line in the buffer. -/
def placed : State := { State.reset.withFetchWord 96 0x24000000_00000000_00000000 with agenda := [.issue 0] }

/-- The line word of a line whose first position is `nop`. -/
def nopLine : BitVec 32 := linewordOf (lineWith 0 0 0x24000000_00000000_00000000)

/-- A line with `add` and `vadd` at its first two positions, as a pair. -/
def pairLine : BitVec 512 :=
  lineWith (lineWith 0 0 0x01000000_00000000_00000000) 1 0x40000000_00000000_00000000 ^^^ (BitVec.twoPow 512 503 ^^^ BitVec.twoPow 512 502)

/-- A run of one `add` on core 0. -/
def run1 : Run := ⟨0, 48, [0x01000141_14000000_00000000], 1, 0, 0, 0, 2, 0, 0, true, false, none⟩

/-- Head slots that issue from a line in the buffer: one instruction, a pair, a unit in the latch; an engine fault and a run's
fault that wait; a line that is fetched, and one whose fetch traps. -/
theorem witness_StepRunsDecodedInstruction :
    let ready := fun s : State => ({ s with agenda := [] } : State).pick 0 == some 0
    let quiet := fun s : State => (s.thread 0 0).runFault == none && (s.thread 0 0).engFault == []
    let line := fun s : State => (s.core 0).findLine (s.thread 0 0).task (lineOf (s.thread 0 0).pc)
    let pair := placed.modCore 0 fun c => { c with lines := [⟨0, 0, pairLine⟩] }
    let latch := placed.modThread 0 0 fun t => { t with latch := some ⟨0, 0x24000000_00000000_00000000, none, nopLine, false, false⟩, reissue := true }
    let late := placed.modThread 0 0 fun t => { t with engFault := [(0x20, 5)] }
    let faulty := placed.modThread 0 0 fun t => { t with run := some { run1 with fault := some (0x08, 5) } }
    let cold := placed.modCore 0 fun c => { c with lines := [] }
    let lost := cold.modThread 0 0 fun t => { t with pc := 0x9000000000 }
    isAgent 0 0 = false ∧ (placed.thread 0 0).skipBreak = false ∧ (∀ e < 8, (placed.brk 0 e).ctl.getLsbD 63 = false) ∧
    (ready placed && quiet placed && decide ((placed.thread 0 0).heldUnit = none) && (match line placed with
      | some l => decide ((linewordOf l.data).getLsbD 23 = false ∧ (linewordOf l.data).setWidth 17 = 0) && parityOk l.data 0 &&
          good (decodeChecked (isCompute 0) (wordAt l.data 0)) (fun i => decide (i = .nop ⟨⟨false, 0⟩⟩))
      | none => false)) = true ∧
    (ready pair && quiet pair && decide ((pair.thread 0 0).heldUnit = none) && (match line pair with
      | some l => decide ((linewordOf l.data).getLsbD 23 = true ∧ (linewordOf l.data).setWidth 17 = 0) &&
          parityOk l.data 0 && parityOk l.data 1 && decide (pairReason (wordAt l.data 0) (wordAt l.data 1)
            (.add ⟨⟨false, 0⟩, 0, 0, 0⟩) (.vadd ⟨⟨false, 0⟩, 0, 0, 0, .i8, false⟩) = none) &&
          good (decodeChecked (isCompute 0) (wordAt l.data 0)) (fun i => decide (i = .add ⟨⟨false, 0⟩, 0, 0, 0⟩)) &&
          good (decodeChecked (isCompute 0) (wordAt l.data 1)) (fun i => decide (i = .vadd ⟨⟨false, 0⟩, 0, 0, 0, .i8, false⟩))
      | none => false)) = true ∧
    (ready latch && quiet latch && ((latch.thread 0 0).heldUnit.map fun l => l.second.isNone && decide (l.lineword.setWidth 17 = 0) &&
      wordParity l.lineword (posOf l.pc) l.first &&
      good (decodeChecked (isCompute 0) l.first) fun _ => true) == some true) = true ∧
    (ready late && (line late).isSome && decide ((late.thread 0 0).runFault = none ∧ (late.thread 0 0).heldUnit = none)) = true ∧
    (ready faulty && (faulty.thread 0 0).runFault.isSome) = true ∧
    (ready cold && quiet cold && (line cold).isNone && good (({ cold with cur := ⟨0, 0⟩ } : State).fetchCheck 0) fun _ => true) = true ∧
    (ready lost && quiet lost && (line lost).isNone && fails (({ lost with cur := ⟨0, 0⟩ } : State).fetchCheck 0x9000000000)
      fun b => decide (b = .trap 0x10 0x9000000000)) = true := by decide +kernel

theorem witness_Ticking : State.reset.focus ∈ State.reset.ticking := List.mem_cons_self

/-- Ticks with and without an issue to make, an event, an issue turn with no slot to issue, an empty agenda, a device held in
reset; a line with a parity error, with reserved bits set, a word of an unallocated opcode and an engine form on a staging
core, as the first member or the second; pairs that are legal and not; a pair whose first or second member traps, that goes
on and that waits. -/
theorem witness_TurnsAndIllegalWords :
    let off : State := { State.reset with cores := [(0, { Core.reset with stopped := true })] }
    let add := Instr.add ⟨⟨false, 0⟩, 5, 6, 7⟩
    let vadd := Instr.vadd ⟨⟨false, 0⟩, 5, 6, 7, .i8, false⟩
    let dv := Instr.div ⟨⟨false, 0⟩, 5, 6, 7⟩
    let cmp := Instr.cmpeq ⟨⟨false, 0⟩, 1, 6, 7⟩
    let first := fun (s : State) (i : Instr) (f : State → Bool) =>
      after (exec i { s with unit := { s.unit with snap := some s.cth.regs, defer_ := true } }) f
    let second := fun (s : State) (i j : Instr) (f : State → Bool) => first s i fun t => t.unit.trap.isNone && t.unit.stop.isNone &&
      (t.cth.findWait isFetch).isNone && after (exec j { t with unit := { t.unit with member := true } }) f
    encode (.modulePowerOn 0) = none ∧ off.pick 0 = none ∧ State.reset.pick 0 = some 0 ∧ State.reset.focus = 0 ∧
    (State.reset.device (deviceOfCore State.reset.focus)).held = false ∧ State.reset.pick State.reset.focus = some 0 ∧
    ((State.reset.modDevice 0 fun d => { d with held := true }).device 0).held = true ∧
    State.reset.cur.core = 0 ∧ State.reset.unit.member = false ∧ (wordParity 1 0 0 = false ∧ wordParity 0x400001 0 0 = true ∧
      wordParity nopLine 0 0x24000000_00000000_00000000 = true ∧ nopLine.setWidth 17 = 0) ∧
    (wordParity 0 0 0 = true ∧ wordParity 0 1 1 = false ∧ wordParity 0 1 0 = true) ∧
    fails (decodeChecked (isCompute 0) 0) (fun r => decide (r = 1)) = true ∧ decode 0 = none ∧
    (0x400001 : BitVec 32).setWidth 17 ≠ (0 : BitVec 17) ∧
    decode 0x90000000_00000000_00000000 = some (.mmabf ⟨⟨false, 0⟩, 0, 0, 0, 0, 0, 0, 0, 0, false, false⟩) ∧
    computeOnly (Raw.unpack 0x90000000_00000000_00000000).op.toNat (Raw.unpack 0x90000000_00000000_00000000).fn.toNat = true ∧
    pairReason 0x01000000_00000000_00000000 0x01000000_00000000_00000000 add add = some 8 ∧
    pairReason 0x01000000_00000000_00000000 0x40000000_00000000_00000000 add vadd = none ∧
    pairReason 0x06000000_00000000_00000000 0x42000000_00000000_00000000 (.cmpeq ⟨⟨false, 0⟩, 5, 6, 7⟩) (.vcmpeq ⟨⟨false, 0⟩, 5, 6, 7, .i8, false⟩) = some 9 ∧
    (tk.unit.member = false ∧ tk.unit.snap = none ∧ tk.unit.defer_ = false) ∧
    first (tk.bad 6) cmp (fun t => t.unit.trap.isSome) = true ∧ second (tk.bad 6) vadd cmp (fun t => t.unit.trap.isSome) = true ∧
    second tk add vadd (fun t => t.unit.trap.isNone && t.cth.waits.isEmpty) = true ∧
    second tk vadd dv (fun t => t.unit.trap.isNone && !t.cth.waits.isEmpty && (t.cth.findWait isFetch).isNone) = true := by decide +kernel

theorem witness_GuardsAndModes :
    (Instr.add ⟨⟨false, 3⟩, 1, 2, 3⟩).bitGuard = some ⟨false, 3⟩ ∧ tk.guardBit ⟨false, 3⟩ = false ∧
    (Instr.spawn ⟨⟨false, 3⟩, 1, 2, 3⟩).bitGuard = some ⟨false, 3⟩ ∧ hd.guardBit ⟨false, 3⟩ = false ∧
    (Instr.siltrd ⟨⟨false, 0⟩, 1, 2⟩).headForm = some (0xB2, 4) ∧ (Instr.siltrd ⟨⟨false, 0⟩, 1, 2⟩).bitGuard = some ⟨false, 0⟩ ∧
    tk.guardBit ⟨false, 0⟩ = true ∧ tk.cur.slot ≠ 0 := by decide +kernel

/-- A staging core and a task slot at both ends of the range. -/
theorem witness_ResetState : isCompute 0 = false ∧ ¬(14 = 15 ∧ isCompute 0 = false) ∧ ¬(15 = 15 ∧ isCompute 128 = false) := by
  decide +kernel

/-- Memories in canonical form, one empty, and ranges that touch. -/
theorem witness_RegistersAndMemory : Memory.wf [] = true ∧ Memory.wf [(5, 1), (6, 255)] = true ∧
    (∀ a < 8, memRead [] a = memRead (memWrite [(5, 1)] 5 0) a) ∧ (4 + 8 ≤ 12 ∨ 12 + 8 ≤ 4) := by decide +kernel

/-- A state of canonical memory that steps. -/
theorem witness_StepKeepsMemoryCanonical : placed.memWf ∧ after (step placed) (fun _ => true) = true := by
  unfold State.memWf; decide +kernel

/-- The test map at the last byte of an entry, with a range beyond it, without a permission, beyond the space, in an
absent granule and in a resident one; and an address that no entry covers. -/
theorem witness_AccessChecks :
    let s := (tk.mapped 0).setReach 0 8 ⟨0x8000000001, 0x18000000001, BitVec.ofNat 64 (spaceBase 0 0), 0x3⟩
    let hits := fun (va : Nat) (e : Reach) => decide (e.w0.getLsbD 0 = true ∧ (e.w3.toNat / 2 ^ 48 = 0 ∨ e.w3.toNat / 2 ^ 48 = 7) ∧
      e.w0.toNat / 64 * 64 ≤ va ∧ va < e.w1.toNat / 64 * 64)
    let only := fun (va i : Nat) => (∀ j < i, hits va (s.reach 0 j) = false) ∧ hits va (s.reach 0 i) = true ∧
      (s.reach 0 i).w3.getLsbD 5 = false
    (∀ i < 32, hits 0x300 (s.reach 0 i) = false) ∧
    (only 0x4001FFFFF 4 ∧ (s.reach 0 4).w1.toNat / 64 * 64 < 0x4001FFFFF + 2) ∧
    (only 0x400000000 4 ∧ (s.reach 0 4).w3.getLsbD 2 = false ∧ (s.reach 0 4).w3.getLsbD 0 = true) ∧
    (only 0x17FFFFFFFFF 8 ∧ s.spaceSize 0 0 false < 0xFFFFFFFFFF + 1) ∧
    (only 0x8000200000 8 ∧ s.granule 0 1 = 0) ∧ s.granule 0 0 ≠ 0 ∧
    (let z := tk.setReach 0 6 ⟨0x600000001, 0x600400000, BitVec.ofNat 64 (spaceBase 0 1), 0x23⟩;
      (∀ j < 6, hits 0x600000000 (z.reach 0 j) = false) ∧ hits 0x600000800 (z.reach 0 6) = true ∧ (z.reach 0 6).w3.getLsbD 5 = true ∧
      (0x600000008 - (z.reach 0 6).w0.toNat / 64 * 64) % 2048 ≠ 0 ∧ (0x600000800 - (z.reach 0 6).w0.toNat / 64 * 64) % 2048 = 0 ∧
      (z.reach z.cur.core 6).grants .load z.isHead = true ∧ offsetOfPlace (spaceBase 0 1 + 8) + 8 ≤ z.spaceSize 0 1 false ∧
      ((z.setReach 0 7 ⟨0, 0, 0, 0⟩).reach 0 7).grants .load false = false) ∧
    -- an entry of one chunk, one with a reserved bit, and one that ends beyond the object's range
    (let ok : W64 := 0x8000_0100_0000_0040;
      ¬(ok.toNat / 2 ^ 56 % 2 ^ 7 ≠ 0 ∨ ok.toNat / 2 ^ 32 % 2 ^ 8 ≠ 0) ∧ ok.toNat / 2 ^ 40 % 2 ^ 8 * 64 = 64 ∧ ok.toNat % 2 ^ 32 = 64 ∧
      ok.getLsbD 63 = true ∧ (0x8000_0101_0000_0040 : W64).toNat / 2 ^ 32 % 2 ^ 8 ≠ 0 ∧ 127 < 64 + 64 ∧ 64 + 64 ≤ 128 ∧
      s.spaceSize 0 1 false < offsetOfPlace (spaceBase 0 1 + 0x3FFF80) + 64 + 128) := by decide +kernel

/-- A task thread without coffers on a core with a ring; a head slot; a core without a ring; a swapped thread. -/
theorem witness_TakingATrap :
    let s := tk.modCore 0 fun c => { c with trapBase := 0x100000 }
    let w := tk.modThread 0 1 fun t => { t with state := .swapped }
    ((s.thread 0 1).state ≠ .swapped ∧ (s.thread 0 1).coffers = [] ∧ s.trapRing 0 = some (2 ^ 40) ∧
      (s.thread 0 0).waits = []) ∧
    ((hd.thread 0 0).state ≠ .swapped ∧ (hd.thread 0 0).coffers = []) ∧ tk.trapRing 0 = none ∧
    ((w.thread 0 1).state = .swapped ∧ (w.thread 0 1).coffers = []) := by decide +kernel

/-- The limits of the record's fields. -/
theorem witness_TrapRecordLayout : 2 ^ 32 - 1 < 2 ^ 32 ∧ 15 < 16 ∧ 255 < 256 := by decide

theorem witness_FramesOfResults :
    (Instr.add ⟨⟨false, 0⟩, 5, 6, 7⟩).scalarResult = some 5 ∧ after (exec (.add ⟨⟨false, 0⟩, 5, 6, 7⟩) tk) (fun _ => true) = true ∧
    (Instr.vadd ⟨⟨false, 0⟩, 5, 6, 7, .i8, false⟩).vectorResult = some 5 ∧
    after (exec (.vadd ⟨⟨false, 0⟩, 5, 6, 7, .i8, false⟩) tk) (fun _ => true) = true ∧
    (Instr.pand ⟨⟨false, 0⟩, 5, 6, 7⟩).predicateResult = some 5 ∧ after (exec (.pand ⟨⟨false, 0⟩, 5, 6, 7⟩) tk) (fun _ => true) = true ∧
    after (exec (.bset ⟨⟨false, 0⟩, 3, 6⟩) tk) (fun _ => true) = true ∧
    after (exec (.badd ⟨⟨false, 0⟩, 3, 2, 6, 1⟩) tk) (fun _ => true) = true := by decide +kernel

/-- Stores that complete, at the last bytes of the mapped range. -/
theorem witness_FrameOfStores :
    let s := (tk.mapped 0).put [(5, 0x4001FFFF8), (6, 0x4001FFF80)]
    after (exec (.st ⟨⟨false, 0⟩, 5, 0, 6, .d, .dflt, 0⟩) s) (fun t => t.posted.length = 1) = true ∧
    after (exec (.stbf ⟨⟨false, 0⟩, 1, 6, 64, true⟩) s) (fun _ => true) = true ∧
    after (exec (.vmst ⟨⟨false, 0⟩, 6, 0, 3, .v, .dflt, 0⟩) s) (fun t => t.posted.length = 1) = true ∧
    after (exec (.vmsct ⟨⟨false, 0⟩, 6, 2, 3, .w, 0⟩) s) (fun _ => true) = true := by decide +kernel

theorem witness_TaskModeKeepsTranslation :
    (encode (.mts ⟨⟨false, 0⟩, 5, 6⟩)).isSome = true ∧ tk.cur.slot % 16 ≠ 0 ∧
    after (exec (.mts ⟨⟨false, 0⟩, 5, 6⟩) tk) (fun _ => true) = true := by decide +kernel

/-- Fields at both ends: one bit at position 63, and all 64 bits. -/
theorem witness_ScalarResults : tk.guardBit ⟨false, 0⟩ = true ∧ fieldOk 63 1 = true ∧ fieldOk 0 64 = true := by decide +kernel

theorem witness_BitCountResults : tk.guardBit ⟨false, 0⟩ = true ∧ hd.guardBit ⟨true, 1⟩ = true := by decide +kernel

theorem witness_PredicateResults : tk.guardBit ⟨false, 0⟩ = true := by decide +kernel

/-- A thread with dzt set. -/
def dzSet : State := tk.modCur fun t => { t with dzt := true }

/-- A quotient that is due, lanes that are off and on, dzt with a zero divisor, and a vector result that is due. -/
theorem witness_LongClassResults :
    tk.guardBit ⟨false, 0⟩ = true ∧
    ((wt (.divide 63 ⟨7, false⟩ 0)).thread 0 1).findWait isDivide = some ⟨false, 0, .divide 63 ⟨7, false⟩ 0⟩ ∧
    tk.lanesOn ⟨false, 1⟩ .f32 = [] ∧ tk.lanesOn ⟨false, 0⟩ .f32 ≠ [] ∧ dzSet.cth.dzt = true ∧
    ((dzSet.lanesOn ⟨false, 0⟩ .i32).any fun i => laneOf (dzSet.rV 3).bits 32 i = 0) = true ∧ tk.cth.dzt = false ∧
    ((wt (.vector 31 ⟨7, 0⟩ 0)).thread 0 1).findWait isVector = some ⟨false, 0, .vector 31 ⟨7, 0⟩ 0⟩ ∧
    (Fmt.f16.decode 0x4000 = .fin 1024 (-9) ∧ Fmt.f16.decode 0xBC00 = .fin (-1024) (-10) ∧ (2 : Int) * 2 ^ 9 = 1024 ∧
      (1024 : Int) = 2 ^ 10 ∧ (0 : Int) < 1024 ∧ (-1024 : Int) < 0) := by decide +kernel

/-- The line at address 0 is in the buffer, positions 0 and 4 of it branch targets, and the thread's exit is elsewhere. -/
def lined : State :=
  (tk.modCore 0 fun c => { c with lines := [⟨0, 0, BitVec.ofNat 512 (0x11 * 2 ^ 507)⟩] }).modCur fun t => { t with exit := 0x10030 }

/-- A target is the exit, an illegal position, a position of the buffered line with and without its bit, or a line that
the buffer lacks, with and without a reach. -/
theorem witness_ControlFlow :
    (tk.unit.member = false ∧ tk.unit.past = 0 ∧ tk.cth.waits = []) ∧ (wt .repstop).cth.waits ≠ [] ∧
    ({ tk with unit := { IssueUnit.reset with snap := some RegFile.reset } } : State).unit.snap = some RegFile.reset ∧
    (lined.isHead = false ∧ lined.cth.exit = 0x10030) ∧
    (49 % 64 ∉ [0, 12, 24, 36, 48] ∧ 48 % 64 ∈ [0, 12, 24, 36, 48]) ∧
    (lined.core 0).findLine lined.cth.task (lineOf 48) = some ⟨0, 0, BitVec.ofNat 512 (0x11 * 2 ^ 507)⟩ ∧
    (linewordOf (BitVec.ofNat 512 (0x11 * 2 ^ 507))).getLsbD (27 + 48 / 12) = true ∧
    (linewordOf (BitVec.ofNat 512 (0x11 * 2 ^ 507))).getLsbD (27 + 12 / 12) = false ∧
    (lined.core 0).findLine lined.cth.task (lineOf 64) = none ∧
    fails (lined.fetchCheck (lineOf 64)) (fun _ => true) = true ∧ good (hd.fetchCheck (lineOf 64)) (fun _ => true) = true ∧
    lined.guardBit ⟨false, 0⟩ = true ∧ lined.memberPc + (12 : BitVec 52).signExtend 64 * 4 = 48 ∧ lined.endsAt 48 = false ∧
    good (lined.checkTarget 48) (fun t => decide (t = .good)) = true ∧ (lined.rS 5).poison = false := by decide +kernel

/-- Reads and writes in head and task mode, a poisoned source, reserved bits set and clear; a purge at its release, on a core
whose contexts in the vault await no fetch; slots that TRACK refuses and accepts. -/
theorem witness_SystemForms :
    let w := wt (.release (.purge 0 64 false))
    tk.guardBit ⟨false, 0⟩ = true ∧ tk.cur.slot ≠ 0 ∧ hd.cur.slot = 0 ∧ (tk.bad 6 |>.rS 6).poison = true ∧ (tk.rS 6).poison = false ∧
    ((4 : W64) &&& 0xFFFFFFFFFFFF00FA = 0) ∧ ((8 : W64) &&& 0xFFFFFFFFFFFF00FA ≠ 0) ∧ (0x1000 % 64 = 0 ∧ 0x1001 % 64 ≠ 0) ∧
    ((w.thread 0 1).findWait isRelease = some ⟨false, 0, .release (.purge 0 64 false)⟩ ∧ w.drained 0 1 (w.thread 0 1).uid = true) ∧
    (∀ e ∈ (tk.core 0).away, ∀ w ∈ (tk.thread 0 (e.1 + 32)).waits, isFetch w.op = false) ∧
    ((tk.modThread 0 1 fun t => { t with state := .trapped }).thread 0 1).state = .trapped ∧ (15 < 16 ∧ 1 < 16) := by decide +kernel

/-- No, one, two and four levels open; a handler at a good and at a bad target, and poisoned; a coffer that unwinds;
bounds that pass and that do not. -/
theorem witness_CoffersAndShores :
    let c : Coffer := ⟨48, ⟨0, false⟩, 0xFFFFFFFF, true⟩
    let deep := fun n => lined.modCur fun t => { t with coffers := List.replicate n c }
    (deep 0).guardBit ⟨false, 0⟩ = true ∧ 4 ≤ (deep 4).cth.coffers.length ∧ (deep 3).cth.coffers.length < 4 ∧
    ((deep 3).bad 5 |>.rS 5).poison = true ∧ ((deep 3).put [(5, 48)] |>.rS 5) = ⟨48, false⟩ ∧
    good ((deep 3).checkTarget 48) (fun t => decide (t = .good)) = true ∧ good ((deep 3).checkTarget 12) (fun t => decide (t = .bad)) = true ∧
    (deep 0).cth.coffers = [] ∧ (deep 1).cth.coffers = [c] ∧ (deep 4).cth.coffers = [c, c] ++ [c, c] ∧
    ((deep 4).thread 0 1).state = .ready ∧ ((deep 4).thread 0 1).coffers = [c, c, c] ++ [c] ∧ 0x21 = 0x21 ∧ 0x0A % 256 = 0x0A ∧
    shoreOk 0x0000000500000002 0 = true ∧ shoreOk 0x0000000200000005 0 = false ∧ 128 ≤ (128 : W64).toNat ∧
    (0x3F / 16 % 4 = 3 ∧ 4 % 16 ∉ [0, 1, 2, 3, 8, 9, 10] ∧ ∀ ty ∈ [0, 1, 2, 3, 8, 9, 10], ty < 128 ∧ ty / 16 % 4 ≠ 3) ∧
    ((Fmt.f32.decode 0x7FC00000).isNan = true ∧ (Fmt.f32.decode 0).lt (Fmt.f32.decode 0x3F800000) = true) := by decide +kernel

/-- Bytes under a shore that is off; an element that is poisoned, covered in part, inside its bounds, above and below them, with
each action; a register of each kind of type; elements of one write that follow each other. -/
theorem witness_ShoreChecks :
    let h := fun act : Byte => (⟨2, 5, 0x42 + 16 * act⟩ : Shore)
    let s := fun act => tk.modCur fun t => { t with shores := [(0, h act)] }
    let l := fun (n : Nat) (v : Byte) (p : Bool) => vbytes 0x100 ((v, p) :: List.replicate (n - 1) (0, false))
    let n := (h 0).ty.bits / 8
    (l 4 0 false).all (fun b => !(tk.cth.shore (b.va / 2 ^ 61 % 8)).en) = true ∧
    (∀ act : BitVec 2, (((s (act.setWidth 8)).cth.shore 0).en = true ∧ ((s (act.setWidth 8)).cth.shore 0).act = act.toNat)) ∧ 1 < n ∧
    (∀ b ∈ l n 9 false, b.va / 2 ^ 61 % 8 = 0 ∧ b.va / n * n = 0x100) ∧ poisoned ((l n 9 true).map VByte.data) = true ∧
    poisoned ((l n 9 false).map VByte.data) = false ∧ ((l (n - 1) 9 false).length < n ∧ l (n - 1) 9 false ≠ []) ∧ (l n 9 false).length = n ∧
    shoreViolates (h 0) 3 = (false, false, false) ∧ shoreViolates (h 0) 9 = (false, true, false) ∧
    shoreViolates (h 0) 1 = (true, false, false) ∧
    (shoreType 9 = true ∧ (⟨0, 0, 0x49⟩ : Shore).ty.isFloat = true ∧ (h 0).ty.isFloat = false ∧ (h 0).ty ≠ .u8 ∧
      (⟨0, 0, 0x41⟩ : Shore).ty = .u8) ∧
    (8 ≤ (h 0).ty.bits ∧ (∀ x ∈ (l n 9 false).tail, x.va < 0x100 / n * n + n) ∧
      (vbytes 0x110 [(0, false)]).head?.all (fun x => decide (0x100 / n * n + n ≤ x.va)) = true) := by decide +kernel

/-- A thread that runs and waits for one thing or for two, and one whose result ends its wait. -/
theorem witness_WaitingAndReply :
    (tk.cur.slot < 16 ∧ tk.cth.waits = []) ∧ tk.tracing 0 7 = false ∧
    ((wt .repstop).thread 0 1).waits = [⟨false, 0, .repstop⟩] ∧ ((wt .repstop).thread 0 1).state ≠ .swapped ∧
    (((wt .repstop).modThread 0 1 fun t => { t with waits := t.waits ++ [⟨true, 0, .reap 1⟩] }).thread 0 1).waits =
      [⟨false, 0, .repstop⟩, ⟨true, 0, .reap 1⟩] := by decide +kernel

/-- Poison in either address register, a misaligned address, one that no entry covers, a row under repair, and a good
access; a load whose home is free. -/
theorem witness_ScalarMemoryForms :
    let s := tk.mapped 0
    let r := s.setBank 0 0 { Bank.reset with repairs := [0] }
    s.guardBit ⟨false, 0⟩ = true ∧ (s.bad 5 |>.rS 5).poison = true ∧ (s.rS 5).poison = false ∧ (s.bad 6 |>.rS 6).poison = true ∧
    0x400000101 % 2 ≠ 0 ∧ 0x4001FFFF8 % 8 = 0 ∧ fails (s.access .load 0x300 8) (fun _ => true) = true ∧
    good (s.access .load 0x4001FFFF8 8) (fun p => decide (s.rowRepairing p.place = false)) = true ∧
    good (r.access .load 0x400000000 8) (fun p => decide (r.rowRepairing p.place = true)) = true ∧
    good (s.access .store 0x4001FFFF8 8) (fun _ => true) = true ∧ fails (s.access .store 0x300 8) (fun _ => true) = true ∧
    good (s.dataStop [(0x4001FFFF8, 8)] true false) (fun _ => true) = true ∧
    good (s.dataStop [(0x4001FFFF8, 8)] false true) (fun _ => true) = true ∧
    (let w := wt (.load (.scalar 7 8 true 0) 4 .dflt);
      (w.thread 0 1).findWait isReplyWait = some ⟨false, 0, .load (.scalar 7 8 true 0) 4 .dflt⟩ ∧ w.spanBusy 0 8 = false ∧
      w.homesClear 0 1 (w.thread 0 1).uid 0 8 = true ∧ spaceOfPlace 0 < 2 ∧ w.ecc = [] ∧ w.soft = []) ∧
    (let b := (wt (.load (.scalar 7 8 true 0) 4 .dflt)).setAsleep 0 0 true; b.spanBusy 0 8 = true) := by decide +kernel

/-- A state with one posted store of eight bytes that can land. -/
def stored : State := match exec (.st ⟨⟨false, 0⟩, 5, 0, 6, .d, .dflt, 0⟩) ((tk.mapped 0).put [(5, 0x4001FFFF8), (6, 0x1122)]) with
  | .next s => s
  | _ => tk

theorem witness_StorePerformed : (stored.posted[0]?.map fun p =>
      stored.canLand p && decide (p.kind = .plain) && p.bytes.all (fun w => decide (spaceOfPlace w.addr < 2)) &&
        decide (p.bytes.map PWrite.addr).Nodup) = some true ∧ stored.memWf ∧
    after (exec (.storePerformed 0) stored) (fun _ => true) = true := by unfold State.memWf; decide +kernel

/-- The last bits of the scratchpad and a range beyond them; a range that no entry covers, one that an entry without the
permission covers, and one that an entry grants. -/
theorem witness_BitGranularAccess :
    let s := tk.mapped 0
    let p := spaceBase s.curTile 1 + 0x3FFFF8
    let ro := tk.setReach 0 5 ⟨0x500000001, 0x500400000, BitVec.ofNat 64 (spaceBase 0 1), 1⟩
    let z := tk.setReach 0 5 ⟨0x500000001, 0x500400000, BitVec.ofNat 64 (spaceBase 0 1), 0x23⟩
    let covers := fun (s : State) (i : Nat) =>
      let e := s.reach s.cur.core i
      i < 32 && e.valid && e.matchesTag s.cth.task && !e.z && e.place ≤ p && p + 8 ≤ e.place + (e.limit - e.base)
    s.guardBit ⟨false, 0⟩ = true ∧ (s.bad 5 |>.rS 5).poison = true ∧
    good (s.bitAccess p 8 .load) (fun _ => true) = true ∧ good (s.bitAccess p 8 .store) (fun _ => true) = true ∧
    fails (tk.bitAccess p 8 .load) (fun _ => true) = true ∧ fails (tk.bitAccess p 8 .store) (fun _ => true) = true ∧
    2 ^ 22 < p % 2 ^ 40 + 9 ∧ p % 2 ^ 40 + 8 ≤ 2 ^ 22 ∧ (∀ i < 32, covers tk i = false) ∧ (∀ i < 32, covers z i = false) ∧ s.cur.slot < 16 ∧
    (covers ro 5 = true ∧ ∀ i < 32, covers ro i = true → (ro.reach 0 i).grants .store ro.isHead = false) ∧
    (covers s 5 = true ∧ (s.reach 0 5).grants .store s.isHead = true) := by decide +kernel

theorem witness_VectorIntegerResults : ElemTy.isInt .u8 = true ∧ ElemTy.isInt .i64 = true := by decide

/-- Both kinds of lane, and the least and the greatest encoding of a format. -/
theorem witness_VectorFloatResults : ElemTy.f16 ≠ .c32 ∧ (ElemTy.f16 = .f16 ∨ ElemTy.f16 = .bf16 ∨ ElemTy.f16 = .f32) ∧
    (0 : Nat) < 2 ^ Fmt.f16.bits ∧ 0xFFFF < 2 ^ Fmt.f16.bits ∧ (-3 : Int) ≠ 0 := by decide

/-- The first word of an operand marked; the other operand's last word marked; no marks. -/
theorem witness_VectorCompareAndPermute :
    let used := fun (s : State) k => (List.range ElemTy.i8.lanes).any fun i => s.laneOn ⟨false, 0⟩ .i8 i && (laneWords 8 i).contains k
    let a := tk.modCur fun t => t.setV 2 ⟨0, 1⟩
    let b := tk.modCur fun t => t.setV 3 ⟨0, 0x80000000⟩
    (used a 0 = true ∧ (a.rV 2).poison.getLsbD 0 = true ∧ ∀ j < 0, used a j = true → (a.rV 2).poison.getLsbD j = false) ∧
    ((∀ j < 32, used b j = true → (b.rV 2).poison.getLsbD j = false) ∧ used b 31 = true ∧ (b.rV 3).poison.getLsbD 31 = true ∧
      ∀ j < 31, used b j = true → (b.rV 3).poison.getLsbD j = false) ∧
    (∀ j < 32, used tk j = true → (tk.rV 2).poison.getLsbD j = false ∧ (tk.rV 3).poison.getLsbD j = false) := by decide +kernel

/-- Conversions with and without FP64, types of lanes, blocks of 32 and 64 products, no lane on and some. -/
theorem witness_ConversionsAndReductions :
    (ElemTy.f16 ≠ .f64 ∧ ElemTy.i8 ≠ .f64) ∧ tk.guardBit ⟨false, 0⟩ = true ∧ (ElemTy.f64 = .f64 ∨ ElemTy.i32 = .f64) ∧
    (ElemTy.isInt .f16 = false ∧ ElemTy.isInt .i8 = true ∧ (fmtOf .f16).decode 0x7C00 = .inf false ∧ (fmtOf .f16).decode 0x7E00 = .nan ∧
      (fmtOf .f16).decode 0x8000 = .zero true ∧ (fmtOf .f16).decode 0x3C00 = .fin 1024 (-10)) ∧ ElemTy.lanes .f32 = 32 ∧ ElemTy.lanes .bf16 = 64 ∧
    tk.lanesOn ⟨false, 1⟩ .i8 = [] ∧ tk.lanesOn ⟨false, 0⟩ .i8 ≠ [] := by decide +kernel

/-- spawn with each operand good; the trap flag, a message, and neither; a message in transit that wakes a reap, and the trap
flag that does. -/
theorem witness_SpawnAndReap :
    let n : Notice := ⟨0x12, 0, 0, [1]⟩
    let w := (State.reset.modThread 0 0 fun t => { t with waits := [⟨false, 0, .reap 4⟩], state := .waitingMessage }).modCore 0
      fun c => { c with inbox := [n] }
    let f := w.modCore 0 fun c => { c with trapFlag := true }
    (hd.cur.slot = 0 ∧ hd.guardBit ⟨false, 0⟩ = true ∧ (hd.rV 6).poison = 0 ∧ (hd.rS 7).poison = false) ∧ 15 < 16 ∧
    ((hd.modCore 0 fun c => { c with trapFlag := true }).core 0).trapFlag = true ∧
    ((hd.core 0).trapFlag = false ∧ (hd.core 0).inbox = []) ∧ (w.core 0).inbox = [n] ∧
    ({ hd with net := [.notice 0 n] } : State).net[0]? = some (.notice 0 n) ∧
    ((w.thread 0 0).findWait isReap = some ⟨false, 0, .reap 4⟩ ∧ w.takesMessages 0 = true ∧ (w.core 0).trapFlag = false) ∧
    ((f.thread 0 0).findWait isReap = some ⟨false, 0, .reap 4⟩ ∧ f.takesMessages 0 = true ∧ (f.core 0).trapFlag = true) ∧
    (255 < 256 ∧ (List.replicate 15 (0 : W64)).length ≤ 15) := by decide +kernel

theorem witness_YieldHaltAndThreadEnd :
    tk.guardBit ⟨false, 0⟩ = true ∧ tk.cur.slot ≠ 0 ∧ hd.cur.slot = 0 ∧
    ((wt (.yielding 0)).thread 0 1).findWait isYield = some ⟨false, 0, .yielding 0⟩ ∧
    (let w := wt (.release (.ending 2));
      (w.thread 0 1).findWait isEnding = some ⟨false, 0, .release (.ending 2)⟩ ∧ w.drained 0 1 (w.thread 0 1).uid = true ∧
      w.openedBy (w.thread 0 1).uid (fun _ => true) = []) ∧ 2 ≠ 1 := by decide +kernel

/-- migr with each operand good, of a thread and of a slot that holds a migr of its own; a thread that leaves, one in transit,
and one that arrives at an idle slot of a core with nothing to issue. -/
theorem witness_Migration :
    let w := wt (.migrating 5 none)
    let h := hd.modThread 0 1 fun t => { t with state := .trapped, latch := some ⟨0, (encode (.migr ⟨⟨false, 0⟩, 5, 6, 7⟩)).getD 0, none, 0, false, false⟩ }
    let p : Packet := .migrant 5 0 Thread.reset none
    let a := ((State.reset.modCore 5 fun c => { c with arrivals := [(Thread.reset, 0)] }).modThread 5 0 fun t =>
      { t with state := .waitingMessage }).modThread 5 15 fun t => { t with state := .waitingMessage }
    (hd.cur.slot = 0 ∧ hd.guardBit ⟨false, 0⟩ = true ∧ (hd.rS 6).poison = false ∧ (hd.rS 7).poison = false ∧ (hd.thread 0 0).heldMigr = none) ∧
    (isTaskSlot 0 1 = true ∧ (h.thread 0 1).heldMigr = some ⟨⟨false, 0⟩, 5, 6, 7⟩) ∧
    ((w.thread 0 1).findWait isMigrating = some ⟨false, 0, .migrating 5 none⟩ ∧ w.drained 0 1 (w.thread 0 1).uid = true ∧
      (w.thread 0 1).runActive = false ∧ (w.core 0).swapRun = none ∧ (w.core 0).anyHeld = false) ∧
    ({ tk with net := [p] } : State).net[0]? = some p ∧
    ((a.core 5).arrivals = (Thread.reset, 0) :: [] ∧ (a.thread 5 1).state = .idle ∧ (∀ k < 1, 1 ≤ k → (a.thread 5 k).state ≠ .idle) ∧
      a.takesMessages 5 = true ∧ a.turnOf 5 = none) := by decide +kernel

/-- A launch of task 7's thread, alone in its group. -/
def launched : State :=
  { (wt (.barred 1 1 0)).modThread 0 1 (fun t => { t with handle := 9 }) with
    launches := [⟨9, 0, [], 0, 0, false, false, 0, [⟨0, List.replicate 8 0, false, [(1, (1, 0))]⟩], 0, 0, 0, 0⟩] }

theorem witness_LaunchesSharesAndBarriers :
    let s := tk.mapped 0
    let op : Wait := .shape 5 0 true true none []
    let w := wt op
    let x := w.modThread 0 1 fun t => { t with shape := 0x100 }
    let y := { w with mem := memWrite [] (shapeWindow 0 + 0xF8) 9 }.modThread 0 1 fun t => { t with handle := 9 }
    let owns := fun (s : State) (t : Thread) (i : Nat) => decide (t.handle ≠ 0 ∧ s.word (shapeWindow 0 + 256 * i + 0xF8) = t.handle)
    let r := wt (.release .trig)
    let b := wt (.release (.bar 1))
    let mb := launched.modThread 0 1 fun t => { t with waits := [⟨false, 0, .release (.bar 1)⟩] }
    let l := wt (.release (.launch 4 0 0 4 []))
    s.guardBit ⟨false, 0⟩ = true ∧
    ((w.thread 0 1).findWait isReplyWait = some ⟨false, 0, op⟩ ∧ w.shapeRecord 0 (w.thread 0 1) = none) ∧
    ((x.thread 0 1).findWait isReplyWait = some ⟨false, 0, op⟩ ∧ x.shapeRecord 0 (x.thread 0 1) = some 0x100 ∧ spaceOfPlace 0x100 ≠ 1 ∧
      x.bankBusy 0x100 = false ∧ x.homesClear 0 1 (x.thread 0 1).uid 0x100 256 = true) ∧
    ((y.thread 0 1).findWait isReplyWait = some ⟨false, 0, op⟩ ∧ y.shapeRecord 0 (y.thread 0 1) = some (shapeWindow 0) ∧
      spaceOfPlace (shapeWindow 0) = 1 ∧ 0 ∈ wordsLeft 256 ([] : SMap (List PByte)) ∧ y.bankBusy (shapeWindow 0) = false ∧
      y.homesClear 0 1 (y.thread 0 1).uid (shapeWindow 0) 8 = true) ∧
    ((∀ i < 8, owns x (x.thread 0 1) i = false) ∧ owns y (y.thread 0 1) 0 = true) ∧
    (natOfBytes ((List.replicate 256 (0 : Byte)).take 1) % 16 ≤ 0 ∧ 1 < natOfBytes ((2 :: List.replicate 255 (0 : Byte)).take 1) % 16) ∧
    ((∀ k < 8, 0 ≤ k → SMap.get 0 Thread.reset.weaveExt k = 0) ∧ SMap.get 0 ([(3, 4)] : SMap (BitVec 32)) 3 ≠ 0) ∧
    (0 < 1 ∧ 0 < (partStage 10 4 2 1 false).2.1 ∧ 0 + 1 < 2 ∧ 1 + 1 = 2) ∧
    (0x4001FFF00 % 256 = 0 ∧ good (s.access .load 0x4001FFF00 256) (fun _ => true) = true ∧
      good (s.dataStop [(0x4001FFF00, 256)] true false) (fun _ => true) = true) ∧
    ((r.thread 0 1).findWait isRelease = some ⟨false, 0, .release .trig⟩ ∧ r.drained 0 1 (r.thread 0 1).uid = true) ∧
    ((b.thread 0 1).findWait isRelease = some ⟨false, 0, .release (.bar 1)⟩ ∧ b.drained 0 1 (b.thread 0 1).uid = true ∧
      (b.memberOf (b.thread 0 1)).isNone = true) ∧
    ((mb.thread 0 1).findWait isRelease = some ⟨false, 0, .release (.bar 1)⟩ ∧ mb.drained 0 1 (mb.thread 0 1).uid = true ∧
      (mb.memberOf (mb.thread 0 1)).isSome = true) ∧
    ((l.thread 0 1).findWait isRelease = some ⟨false, 0, .release (.launch 4 0 0 4 [])⟩ ∧ l.drained 0 1 (l.thread 0 1).uid = true) ∧
    ({ tk with net := [.trig 9 0 1 3] } : State).net[0]? = some (.trig 9 0 1 3) ∧
    ((launched.thread 0 1).findWait isBar = some ⟨false, 0, .barred 1 1 0⟩ ∧
      ((launched.memberOf (launched.thread 0 1)).map fun x =>
        let g := barGroup x.1 1 x.2
        decide (g[0]? = some x.2 ∧ x.2.progress 1 = (1, 0) ∧ x.2.ended = false) &&
        barDone g 1 (barRounds g.length) ((1 + 1) * (barRounds g.length + 2))
          ((g.findIdx (fun y => y.idx = x.2.idx) + g.length - 2 ^ 0 % g.length) % g.length) 1 0) = some true) := by decide +kernel

/-- Reads of the record of a released launch: all words, a poisoned one, and places whose banks do not answer. -/
theorem witness_RecordReads :
    let l := wt (.release (.launch 4 0 0 4 []))
    let on := l.setReg (lqReg 0 0 1) 0x401
    (let read := fun s : State => s.readRecord 0 [];
      let p := { on with marks := [1] };
      (wordsLeft 256 (read on).2 = [] ∧ (wordBytes 256 (read on).2).findIdx? Prod.snd = none ∧ ((read on).1.enqueueBusy 0 0 = []) ∧
        on.spanBusy 0 256 = false) ∧ (wordBytes 256 (read p).2).findIdx? Prod.snd = some 4 ∧
      (on.enqueueRecord 0 0 (wordBytes 256 (read p).2)).2.getLsbD 63 = false ∧ (l.enqueueRecord 0 0 []).2.getLsbD 63 = true ∧
      (let z := on.setAsleep 0 0 true; z.spanBusy 0 256 = true ∧ wordsLeft 256 (read z).2 ≠ []) ∧
      (let z := on.setAsleep 0 ((on.bankAt (on.lqPlace 0 0 0)).1) true;
        z.enqueueBusy 0 0 ≠ [] ∧ wordsLeft 256 ((List.range 32).map fun i => ((i, []) : Nat × List PByte)) = []) ∧
      0 ∈ wordsLeft 256 ([] : SMap (List PByte)) ∧ on.bankBusy (spaceBase 0 1) = false) := by decide +kernel

/-- A record of one level, which no check refuses. -/
def record1 : LaunchRecord := ⟨0, 0, 0, 0x40, 0, 0, 0, 0, 0, 0, 0, 0x100, [0x10_0000_0001, 0, 0, 0, 0, 0, 0, 0], [0, 0, 0, 0], 0⟩

/-- A queue that is off, empty, and with one record; a launch whose completion word lies in a sleeping bank; a record that
passes and ones that do not. -/
theorem witness_QueuesAndRecords :
    let on := State.reset.setReg (lqReg 0 0 1) 0x401
    let s := on.setReg (lqReg 0 0 2) 1
    let z := s.setAsleep 0 0 true
    let l : Launch := ⟨9, 0x40, [], 0, 0, false, false, 1, [], 0, 0, 0, 0⟩
    let busy := { z with launches := [l] }
    let r := record1
    (63 < 64 ∧ (1 : W64).getLsbD 0 = true ∧ State.reset.lqOn 0 63 = false ∧ 4 ≤ ((0x401 : W64).extractLsb' 8 4).toNat) ∧
    (1 ≤ (1 + 2 ^ 32 - on.lqTail 0 0) % 2 ^ 32 ∧ 1 + 0 ≤ on.lqSize 0 0 ∧ (0 + 2 ^ 32 - on.lqTail 0 0) % 2 ^ 32 = 0) ∧
    ({ tk with net := [.ended 9 0 [] true] } : State).net[0]? = some (.ended 9 0 [] true) ∧ tk.doneBusy 9 = none ∧
    busy.doneBusy 9 = some 0x40 ∧ ({ on with net := [.signal 0 0 255 9] } : State).net[0]? = some (.signal 0 0 255 9) ∧
    State.reset.lqOn 0 0 = false ∧ on.lqOn 0 0 = true ∧ gap32 255 (on.lqHead 0 0) < gap32 (on.lqTail 0 0) (on.lqHead 0 0) + 256 ∧
    (on.lqHead 0 0 = on.lqTail 0 0 ∧ s.lqHead 0 0 ≠ s.lqTail 0 0 ∧ SMap.get 0 (s.device 0).since 0 ≤ s.cycle) ∧
    (r.reserved = false ∧ ¬(r.nlev = 0 ∨ 8 < r.nlev ∨ (r.weave.drop r.nlev).any (· ≠ 0) = true) ∧ r.levels.length = 1 ∧
      (∀ x ∈ r.levels, x.extent ≤ s.levelCapacity 0 r.die x ∧ ¬(x.scope < minScope x.dom ∨ 5 < x.scope)) ∧
      ¬(legalPc r.entry = false ∨ r.stksize % 16 ≠ 0 ∨ 0x100000 < r.stksize ∨ r.die = 3) ∧
      ¬(s.inDomain 0 (r.anchor / 1024) = false ∨ 2 ^ 21 ≤ r.anchor) ∧ s.placeOfData 0 0x40 8 = true ∧
      s.recordStatus 0 r = 0 ∧ ({ r with rest := 1 } : LaunchRecord).reserved = true ∧
      ({ r with ctl := 0 } : LaunchRecord).nlev = 0 ∧ ({ r with ctl := 0 } : LaunchRecord).reserved = false) := by decide +kernel

/-- A dispatcher with one candidate, whose completion word lies in a bank that is awake, or asleep; queues in turn. -/
theorem witness_DispatcherEvents :
    let s := (State.reset.setReg (lqReg 0 0 1) 0x401).setReg (lqReg 0 0 2) 1
    let served := State.reset.modDevice 0 fun d => { d with lastServed := [(0, 1)] }
    let q := s.perform (cleanWrites (s.lqPlace 0 0 0 + 0x18) (bytesOf 8 0x840)) none
    let b := q.setAsleep 0 ((q.bankAt 0x840).1) true
    (1 < 2 ∧ 2 ≤ 3 ∧ SMap.get 0 (served.device 0).lastServed (0 * 4 + 0) = 0 + 1 ∧ 1 % 16 = (0 + 1) % 16 ∧ 2 % 16 ≠ 1 % 16) ∧
    (3 < 4 ∧ 15 < 16 ∧ s.now 0 % 32 = 0 ∧ SMap.get 0 (s.device 0).served 0 ≠ s.cycle + 1 ∧ (s.device 0).ckpt ≠ .quiescing ∧
      s.spanBusy (s.lqPlace 0 0 (s.lqHead 0 0)) 256 = false ∧ (s.candidate 0 0).isSome = true ∧
      (∀ j < 16, j ≠ 0 → (s.candidate 0 j).isNone = true) ∧
      ((s.candidate 0 0).map fun c => (s.dispatchSpans 0 0 c.1).all fun x => !s.spanBusy x.1 x.2) = some true) ∧
    (b.spanBusy (b.lqPlace 0 0 0) 256 = false ∧
      ((b.candidate 0 0).map fun c => (b.dispatchSpans 0 0 c.1).any fun x => b.spanBusy x.1 x.2) = some true) ∧
    (sharesOf [(0, [0])] ≠ []) := by decide +kernel

/-- A core whose entries are all valid but for number 4, through which a load is in flight. -/
def crowded : State :=
  (List.range 32).foldl (fun s i => if i = 4 then s else s.setReach 0 i ⟨BitVec.ofNat 64 (i * 0x1000 + 1), BitVec.ofNat 64 (i * 0x1000 + 64), 0, 3⟩)
    (wt (.load (.scalar 7 8 true 0) 4 .dflt))

/-- The message of a wake, and what its head slot makes of it: a tag that no thread has, a block that is refused, one that
waits for an entry, one in a sleeping bank, and none; a share with slots enough and one that has applied its block. -/
theorem witness_WakeMessages :
    let w : Wake := ⟨0, 0, 9, 7, 0, 14, [], [], 0, 0, 0, 0, 0, 0, 0, false, false⟩
    let net := { tk with net := [.wake w] }
    let block := crowded.perform (cleanWrites 0x1000
      (bytesOf 8 0x101 ++ bytesOf 56 0 ++ bytesOf 8 0x800000001 ++ bytesOf 8 0x800001000 ++ bytesOf 8 0 ++ bytesOf 8 3)) none
    net.net[0]? = some (.wake w) ∧ (∀ x ∈ [w, w], x.core = w.core → x.applied = false) ∧ tk.takesMessages 0 = true ∧ ({ w with applied := true } : Wake).applied = true ∧
    bitsOf ({ w with task := 0xFFFF } : Wake).task 15 0 = 0xFFFF ∧ bitsOf w.task 15 0 ≠ 0xFFFF ∧
    (∀ x ∈ w.envSpans, tk.spanBusy x.1 x.2 = false) ∧
    (∃ x ∈ ({ w with env := 0x40 } : Wake).envSpans, (tk.setAsleep 0 0 true).spanBusy x.1 x.2 = true) ∧
    tk.applyEnv 0 0x40 = .refused ∧ tk.envRecords 0x40 = none ∧ block.applyEnv 0 0x1000 = .waits ∧ tk.applyEnv 0 0 = .applied tk ∧
    w.count ≤ (State.reset.idleSlots 0).length ∧ ((State.reset.idleSlots 0).take w.count)[13]? = some 14 := by decide +kernel

/-- Lanes off and on, poison in either address register, addresses that are misaligned, unmapped and good, rows under repair; a
load on its way and a store past its shores. -/
theorem witness_VectorLoadAndStore :
    let s := tk.mapped 0
    let op : LoadOp := .vector 3 [0, 31] 0x1FFF80 128 []
    let w := wt (.load op 4 .dflt)
    let n := spaceBase 0 0 + 0x1FFF80
    let r := fun p : Nat => s.setBank 0 (s.bankAt p).1 { Bank.reset with repairs := [(s.bankAt p).2] }
    let off := (tk.setReach 0 4 ⟨0x400000001, 0x400200000, 0x7C0, 3⟩)
    let sh := s.modCur fun t => { t with shores := [(0, ⟨2, 5, 0x63⟩)] }
    (List.range 32).filter (s.laneOn ⟨false, 1⟩ .i32) = [] ∧ (List.range 32).filter (s.laneOn ⟨false, 0⟩ .i32) ≠ [] ∧
    (s.rS 5).poison = false ∧ (s.bad 5 |>.rS 5).poison = true ∧ 0x400000020 % 64 ≠ 0 ∧ 0x4001FFF80 % 64 = 0 ∧
    fails (s.access .load 0x100000000 128) (fun _ => true) = true ∧ fails (s.access .store 0x100000000 128) (fun _ => true) = true ∧
    good (s.access .load 0x4001FFF80 128) (fun p => decide (s.rowRepairing p.place = false ∧ s.rowRepairing (p.place + 127) = false ∧ p.place = n)) = true ∧
    good ((r 0x1FFF80).access .load 0x4001FFF80 128) (fun p => (r 0x1FFF80).rowRepairing p.place) = true ∧
    good (off.access .load 0x400000000 128) (fun p => decide (p.place = 0x7C0) && !(r 0x800).rowRepairing p.place &&
      (r 0x800).rowRepairing (p.place + 127)) = true ∧
    good (s.dataStop [(0x4001FFF80, 4)] true false) (fun _ => true) = true ∧
    ((w.thread 0 1).findWait isReplyWait = some ⟨false, 0, .load op 4 .dflt⟩ ∧ (∀ i ∈ [0, 31], i < 32) ∧ [0, 31].Nodup ∧
      w.ecc = [] ∧ w.soft = [] ∧ ∀ i ∈ [0, 31], spaceOfPlace (0x1FFF80 + 4 * i) = 0 ∧ w.spanBusy (0x1FFF80 + 4 * i) 4 = false ∧
        w.homesClear 0 1 (w.thread 0 1).uid (0x1FFF80 + 4 * i) 4 = true) ∧
    good (s.access .store 0x4001FFF80 128) (fun _ => true) = true ∧ good (s.dataStop [(0x4001FFF80, 4)] false true) (fun _ => true) = true ∧
    good (s.shoreCheck [vbytes 0x4001FFF80 ((s.rV 3).bytes 128)]) (fun _ => true) = true ∧
    fails (sh.shoreCheck [vbytes 0x4001FFF80 ((s.rV 3).bytes 128)]) (fun _ => true) = true := by decide +kernel

/-- Lanes off and on, a poisoned base and a poisoned first index, lane addresses that pass, that are misaligned and that no entry
covers, and one whose row is under repair. -/
theorem witness_GatherAndScatter :
    let x := (tk.mapped 0).put [(5, 0x400000000)]
    let r := x.setBank 0 0 { Bank.reset with repairs := [0] }
    let on := x.lanesOn ⟨false, 0⟩ .i32
    let p := x.modCur fun t => t.setV 6 ⟨0, 2⟩
    let sh := x.modCur fun t => { t with shores := [(0, ⟨2, 5, 0x63⟩)] }
    let data := fun e : Nat × W64 × Xlat => vbytes e.2.1.toNat ((bytesOf 4 0).map fun b => (b, false))
    x.lanesOn ⟨false, 1⟩ .i32 = [] ∧ on ≠ [] ∧ (x.bad 5 |>.rS 5).poison = true ∧ (x.rV 6).poison = 0 ∧
    ((p.rV 6).poison.getLsbD 1 = true ∧ 1 ∈ wordsOf 32 on ∧ ∀ j ∈ wordsOf 32 on, j < 1 → (p.rV 6).poison.getLsbD j = false) ∧
    good (x.laneAccesses .load 0x400000000 0 4 0 on) (fun l =>
      good (x.dataStop (l.map fun e => (e.2.1.toNat, 4)) true false) (fun _ => true) && l.all (fun e => !x.rowRepairing e.2.2.place) &&
      (l.head?.any fun e => r.rowRepairing e.2.2.place)) = true ∧
    good (x.laneAccesses .store 0x400000000 0 4 0 on) (fun l =>
      good (x.dataStop (l.map fun e => (e.2.1.toNat, 4)) false true) (fun _ => true) &&
      good (x.shoreCheck (l.map data)) (fun _ => true) && fails (sh.shoreCheck (l.map data)) (fun _ => true)) = true ∧
    on = [] ++ 0 :: on.tail ∧ (good (x.laneAccesses .load 0x400000001 0 4 0 []) (fun _ => true) = true ∧ (0x400000001 : W64).toNat % 4 ≠ 0) ∧
    ((0x100000000 : W64).toNat % 4 = 0 ∧ fails (x.access .load 0x100000000 4) (fun _ => true) = true ∧
      fails (x.laneAccesses .load 0x100000000 0 4 0 on) (fun _ => true) = true) := by decide +kernel

/-- A tile load that starts, on a staging core and on a compute core with a reader in the queue; one whose clearing waits, whose
next row is there, under repair and the last one; one that has stood still at a held bank. -/
theorem witness_TileLoad :
    let x := (tk.mapped 0).put [(5, 0x400000000)]
    let op := fun clear => Wait.tileLoad 3 0 0x400000000 4 0 0 5 clear [] .dflt
    let w := wt (op false)
    let d := wt (op true)
    let r := w.setBank 0 0 { Bank.reset with repairs := [0] }
    let c := (waits 128 (op true)).modTile 0 fun t => { t with engineQ := [⟨128, 1, 3, 7, .product 0 ⟨⟨false, 0⟩, 0, 3, 2, 0, 0, 0, 0, 0, false, false⟩, 0, 0, 1⟩] }
    let h := { w with cycle := 5000 }.setReg (sensorReg 0 0) 0x2000
    let full := (w.engRegs 0 0).setFill 3 0x7FFFFFFF
    x.guardBit ⟨false, 0⟩ = true ∧ (x.bad 5 |>.rS 5).poison = true ∧ 0x400000020 % 64 ≠ 0 ∧ 0x4001FF800 % 64 = 0 ∧
    fails (x.tileAccess 0x100000000) (fun _ => true) = true ∧
    good (x.tileAccess 0x4001FF800) (fun p => decide (x.rowRepairing p.place = false ∧ x.rowRepairing (p.place + 2047) = false ∧
      (x.reach 0 p.entry).z = false ∧ x.unit.retry = false)) = true ∧
    good (x.tileAccess 0x400000000) (fun p => r.rowRepairing p.place) = true ∧
    good (x.dataStop [(0x4001FF800, 2048)] true false) (fun _ => true) = true ∧
    ((w.thread 0 1).findWait isTileLoad = some ⟨false, 0, op false⟩ ∧ (w.reach 0 4).z = false ∧
      (isCompute 0 && w.engReads 0 3 5) = false ∧ ((w.engRegs 0 0).fill 3).getLsbD 0 = false ∧ w.rowRepairing 0 = false ∧
      w.bankBusy 0 = false ∧ w.homesClear 0 1 (w.thread 0 1).uid 0 64 = true) ∧
    ((d.thread 0 1).findWait isTileLoad = some ⟨false, 0, op true⟩ ∧ (d.reach 0 4).z = false) ∧
    ((c.thread 128 1).findWait isTileLoad = some ⟨false, 0, op true⟩ ∧ (isCompute 128 && c.engReads 0 3 5) = true) ∧
    ((r.thread 0 1).findWait isTileLoad = some ⟨false, 0, op false⟩ ∧ r.rowRepairing 0 = true) ∧
    (0 + 4096 < h.cycle ∧ spaceOfPlace 0 = 0 ∧ h.bankHeld 0 (h.bankAt 0).1 = true) ∧
    (full.deliver 3 31 []).fill 3 = BitVec.allOnes 32 := by decide +kernel

/-- Version accesses that pass their checks at the last line of the entry, and ones that do not. -/
theorem witness_VersionForms :
    let s := tk.mapped 0
    let sh := s.modCur fun t => { t with shores := [(0, ⟨2, 5, 0x63⟩)] }
    let ls := [vbytes 0x6001FFF80 ((s.rV 3).bytes 128)]
    s.guardBit ⟨false, 0⟩ = true ∧ (s.rS 5).poison = false ∧ (s.bad 5 |>.rS 5).poison = true ∧ 0x6001FFF80 % 128 = 0 ∧ 0x6001FFF40 % 128 ≠ 0 ∧
    good (s.access { Need.load with v := true } 0x6001FFF80 128) (fun _ => true) = true ∧
    good (s.access { Need.store with v := true } 0x6001FFF80 128) (fun _ => true) = true ∧
    good (s.access { Need.store with v := true } 0x6001FFFFF 1) (fun _ => true) = true ∧
    fails (s.access { Need.load with v := true } 0x4001FFF80 128) (fun _ => true) = true ∧
    fails (s.access { Need.store with v := true } 0x4001FFF80 128) (fun _ => true) = true ∧
    fails (s.access { Need.store with v := true } 0x4001FFFFF 1) (fun _ => true) = true ∧
    good (s.dataStop [(0x6001FFF80, 128)] true false) (fun _ => true) = true ∧
    good (s.dataStop [(0x6001FFF80, 128)] false true) (fun _ => true) = true ∧
    good (s.dataStop [(0x6001FFFFF, 1)] false true) (fun _ => true) = true ∧
    good (s.shoreWrites ls) (fun _ => true) = true ∧ fails (sh.shoreWrites ls) (fun _ => true) = true ∧
    (let q : State := { tk.setReg (traceReg 0 0) 0x8000000000000000 with cycle := 1 };
      q.tracing 0 (q.thread 0 1).task = true ∧ (q.core 0).traceFrom < q.cycle ∧ tk.tracing 0 (tk.thread 0 1).task = false) := by
  decide +kernel

/-- A version that opens with and without one before it; an open version that seals at and below the floor; each row of the
tables of reads; a line in order. -/
theorem witness_DirectoryLines :
    let a : Line := ⟨[⟨5, 0, 0⟩], some ⟨7, 0, 0, 7, 3, 0⟩, some 5, some 4, none⟩
    a.ns = some 5 ∧ a.sealedAt 5 = some ⟨5, 0, 0⟩ ∧ Line.reset.ns = none ∧ (({ a with ns := some 6 } : Line).ns = some 6 ∧ a.sealedAt 6 = none) ∧
    (a.opened = some ⟨7, 0, 0, 7, 3, 0⟩ ∧ 7 ≤ 7 ∧ 7 < 8) ∧ (a.lost = some 4 ∧ 3 < 4 ∧ 3 ≤ 3) ∧ (7 = 7 ∧ 3 = 3 ∧ a.sealedAt 7 = none) ∧
    (a.sealedAt 4 = none ∧ 4 ≤ 5 ∧ (4 : Nat) ≠ 7 ∧ 4 ≤ 4) ∧ (({ a with lost := some 3 } : Line).lost = some 3 ∧ 3 < 4) ∧ ¬(8 ≤ 5) ∧
    ((a.sealed.filter fun x => x.number ≤ 6).getLast? = some ⟨5, 0, 0⟩ ∧ (a.sealed.filter fun x => x.number ≤ 4).getLast? = none) ∧
    (a.sealed.Pairwise (fun x y => x.number < y.number) ∧ (∀ x ∈ a.sealed, x.number ≤ 5) ∧ 5 < 7) ∧
    good (({ a with opened := none } : Line).admitsWrite 5 6 7) (fun x => x) = true := by decide +kernel

/-- Region 0 of tile 0 is enabled: base 0x1000, 64 bytes, floor 5. -/
def State.varved (s : State) : State :=
  ((s.setReg (regionReg 0 0 0) 0x1001).setReg (regionReg 0 0 1) 64).setReg (regionReg 0 0 3) 5

/-- A directory that is held, one that has done a later operation in this cycle, and one that takes the operation; a vst of
one line and of two that is refused and admitted; reads that trap, give values and wait, to their bound; a floor with and
without a region; a line that is broken; an open version that has been written and one that has not; regions off and on. -/
theorem witness_DirectoryEvents :
    let no : VstOp := ⟨[], 4, 0x1000, 6, List.replicate 8 (0, false)⟩
    let ok : VstOp := { no with v := 5 }
    let rd : VldOp := ⟨3, true, 5, 64, [64], 6, 9⟩
    let bad : VldOp := { rd with v := 4 }
    let sealed_ : Line := ⟨[⟨5, 0, 0⟩], none, some 5, none, none⟩
    let opened : Line := ⟨[], some ⟨5, 0, 0, 7, 3, 0⟩, none, none, none⟩
    let late : State := { (wt (.vld rd)).varved with cycle := 9 }
    let reach := fun (s : State) l => s.reachDirectory 0 1 false l == some (s.ordered (directoryUnit 0) (directoryKey 0 1 false))
    let asleep := tk.varved.setAsleep 0 0 true
    let later := tk.varved.ordered (directoryUnit 0) (directoryKey 0 2 false)
    (later.inOrder (directoryUnit 0) (directoryKey 0 1 false) = false ∧ later.reachDirectory 0 1 false [64] = none) ∧
    ((∃ l ∈ [64], asleep.lineHeld l = true) ∧ (tk.varved.lineHeld 64 = false ∧ tk.ecc = [] ∧ reach tk.varved [64] = true)) ∧
    (15 < 16 ∧ 2 ^ 21 - 1 < 2 ^ 21) ∧
    ((wt (.vst no)).thread 0 1).findWait isVst = some ⟨false, 0, .vst no⟩ ∧ reach (wt (.vst no)).varved [64] = true ∧
    fails ((wt (.vst no)).varved.admitLines no 7) (fun _ => true) = true ∧ good ((wt (.vst ok)).varved.admitLines ok 7) (fun _ => true) = true ∧
    (linesOf 0x1000 8 = [64] ∧ linesOf 0x1000 128 = [64, 65] ∧ rd.lines = [64] ∧ ({ rd with lines := [64, 65] } : VldOp).lines = [64, 65]) ∧
    ((wt (.vld rd)).thread 0 1).findWait isVld = some ⟨false, 0, .vld rd⟩ ∧
    fails ((wt (.vld bad)).varved.readLines bad 3) (fun _ => true) = true ∧
    good (((wt (.vld rd)).varved.setLine 64 sealed_).readLines rd 3) (fun x => x.isSome) = true ∧
    good ((wt (.vld rd)).varved.readLines rd 3) (fun x => x.isNone) = true ∧
    ((wt (.vld rd)).varved.evalReader 0 1 = none ∧ ((wt (.vld rd)).varved.setLine 64 sealed_).evalReader 0 1 ≠ none) ∧
    (rd.bound ≠ 0 ∧ 0 + rd.bound ≤ late.cycle ∧ late.evalReader 0 1 = none ∧ rd.lines = [] ++ 64 :: [] ∧
      good (late.lineRegion 64) (fun r : Region => decide ((late.line 64).readExact r.floor rd.v 3 = .block)) = true) ∧
    (let w := wt (.vfloor 0x1000 9 6);
      (w.thread 0 1).findWait isVfloor = some ⟨false, 0, .vfloor 0x1000 9 6⟩ ∧ (w.reachDirectory 0 1 true [0x1000 / 64]).isSome = true ∧
      w.regionOf 0x1000 = none ∧ w.varved.regionOf 0x1000 = some 0 ∧ w.varved.regionBroken 0 0 = none) ∧
    (({ tk.varved with ecc := [regionReg 0 0 0] } : State).regionBroken 0 0 = some (regionReg 0 0 0) ∧
      ((tk.varved.setLine 64 { sealed_ with damaged := some 0x1000 }).line 64).damaged = some 0x1000) ∧
    (let w := (wt (.sealing .phase)).varved.setLine 64 opened
      let late : State := { w with posted := [⟨0, 0, 1, 3, 6, false, 0, .version 64 5, .dflt, []⟩] };
      (w.thread 0 1).findWait isSealing = some ⟨false, 0, .sealing .phase⟩ ∧ w.heldLines (w.thread 0 1).uid = [] ++ 64 :: [] ∧
      w.lineSettled 64 = true ∧ reach w [64] = true ∧ late.heldLines 3 = [64] ∧ late.lineSettled 64 = false ∧
      (wt (.sealing .phase)).heldLines 3 = [] ∧ w.regionOf (64 * 64) = some 0) ∧
    (let p : Posted := ⟨0, 0, 0, 0, 0, true, 40, .plain, .dflt, [⟨spaceBase 0 2 + 0x118, 9, 0xFF, false⟩]⟩;
      floorOf (spaceBase 0 2 + 0x118) = some 0 ∧ tk.varved.canLand p = true ∧
      tk.varved.inOrder (directoryUnit 0) lastFloorKey = true ∧
      (tk.varved.ordered (directoryUnit 0) (lastFloorKey + 1)).inOrder (directoryUnit 0) lastFloorKey = false) ∧
    (15 < 16 ∧ (tk.region 0 0).en = false ∧ (tk.varved.region 0 0).en = true ∧ 5 ≤ (tk.varved.region 0 0).floor ∧
      (tk.varved.region 0 0).floor < 6 ∧ tk.regionError 0 0 ≠ 0 ∧
      (((tk.setReg (regionReg 0 0 0) 0x1000).setReg (regionReg 0 0 1) 64).setReg (regionReg 0 0 2) 0x2000).regionError 0 0 = 0) := by
  decide +kernel

/-- Poisoned and clean operands, addresses misaligned, unmapped and good, at the scratchpad's last word; an atomic at its home,
one at a register, one whose reply is there, one that was refused 256 cycles ago. -/
theorem witness_Atomics :
    let s := tk.mapped 0
    let op : AmoOp := ⟨7, 9, 8, 2 ^ 40 + 0x3FFFF8, 5, ⟨1, false⟩, ⟨2, false⟩, false, none⟩
    let va : AmoOp := { op with place := 0x40 }
    let rg : AmoOp := { op with place := spaceBase 0 3 }
    let w := wt (.amo op)
    let g := wt (.amo rg)
    let v := { wt (.amo va) with net := [.reply ⟨0, 1, 3, 0, 0x40, ⟨0, 0⟩⟩] }
    let x := { wt (.amo { va with refused := some 0 }) with cycle := 256 }
    s.guardBit ⟨false, 0⟩ = true ∧ (s.bad 6 |>.rS 6).poison = true ∧ (s.rS 6).poison = false ∧ 0x500000004 % 8 ≠ 0 ∧ 0x5003FFFF8 % 8 = 0 ∧
    good (s.access .both 0x5003FFFF8 8) (fun _ => true) = true ∧ good (s.dataStop [(0x5003FFFF8, 8)] true true) (fun _ => true) = true ∧
    fails (s.access .both 0x100000000 8) (fun _ => true) = true ∧ Scope.none = .none ∧ Scope.tile ≠ .none ∧
    ((w.thread 0 1).findWait isAmo = some ⟨false, 0, .amo op⟩ ∧ spaceOfPlace op.place = 1 ∧ op.sc = false ∧
      w.homesClear 0 1 (w.thread 0 1).uid op.place 8 = true) ∧
    ((g.thread 0 1).findWait isAmo = some ⟨false, 0, .amo rg⟩ ∧ 2 ≤ spaceOfPlace rg.place ∧ rg.sc = false ∧
      g.homesClear 0 1 (g.thread 0 1).uid rg.place 8 = true) ∧
    ((v.thread 0 1).findWait isAmo = some ⟨false, 0, .amo va⟩ ∧ spaceOfPlace va.place = 0 ∧
      findReply (v.thread 0 1).uid v.net = some (0, ⟨0, 1, 3, 0, 0x40, ⟨0, 0⟩⟩)) ∧
    0 + 256 ≤ x.cycle ∧ (tk.ecc = [] ∧ tk.soft = [] ∧ 0 < 8 ∧ Memory.wf tk.mem = true) ∧ (0 < 64 ∧ 0 < 2 ^ 64) ∧
    (Nat.testBit 8 3 = true ∧ Nat.testBit 0 3 = false ∧ ∀ j < 3, Nat.testBit 8 j = true → Nat.testBit 0 j = true) := by decide +kernel

/-- Operands poisoned and clean, addresses misaligned, unmapped, good, and in the wrong space or a row under repair; a
reservation that is valid and one that is not; waits to their bound, and a monitor that is armed and one that is not. -/
theorem witness_ReservationsAndMemoryWaits :
    let s := tk.mapped 0
    let z := s.setBank 0 (s.bankAt 0x1FFFF8).1 { Bank.reset with repairs := [(s.bankAt 0x1FFFF8).2] }
    let r := tk.modThread 0 1 fun t => { t with resv := [⟨2 ^ 40 + 8, true⟩] }
    let b := { wt (.waitres 4 9) with cycle := 9 }
    let wa := wt (.waitaddr 4 0x40 8 0 9 4)
    let a := { wa with cycle := 9 }.modTile 0 fun t => { t with monitors := [⟨0, 1, 0x40, 8⟩] }
    s.guardBit ⟨false, 0⟩ = true ∧ (s.rS 5).poison = false ∧ (s.bad 6 |>.rS 6).poison = true ∧ 0x5003FFFF8 % 8 = 0 ∧ 0x5003FFFF4 % 8 ≠ 0 ∧
    fails (s.access .both 0x100000000 8) (fun _ => true) = true ∧ fails (s.access .load 0x100000000 8) (fun _ => true) = true ∧
    good (s.access .both 0x5003FFFF8 8) (fun x => decide (spaceOfPlace x.place = 1)) = true ∧
    good (s.access .both 0x4001FFFF8 8) (fun x => decide (spaceOfPlace x.place ≠ 1)) = true ∧
    good (s.dataStop [(0x5003FFFF8, 8)] true false) (fun _ => true) = true ∧ good (s.dataStop [(0x5003FFFF8, 8)] true true) (fun _ => true) = true ∧
    ((r.thread 0 1).resv.any (fun e => e.word = (2 ^ 40 + 12) / 8 * 8 && e.valid) = true ∧
      (tk.thread 0 1).resv.any (fun e => e.word = (2 ^ 40 + 12) / 8 * 8 && e.valid) = false) ∧
    good (s.access .load 0x4001FFFF8 8) (fun x => decide (spaceOfPlace x.place < 2 ∧ s.rowRepairing x.place = false)) = true ∧
    good (z.access .load 0x4001FFFF8 8) (fun x => z.rowRepairing x.place) = true ∧
    good ((hd.mapped 0).access .load 0x300000000 8) (fun x => decide (2 ≤ spaceOfPlace x.place)) = true ∧
    (b.thread 0 1).findWait isReplyWait = some ⟨false, 0, .waitres 4 9⟩ ∧
    ((wa.thread 0 1).findWait isReplyWait = some ⟨false, 0, .waitaddr 4 0x40 8 0 9 4⟩ ∧ wa.armed 0 1 = false ∧ wa.bankBusy 0x40 = false ∧
      wa.homesClear 0 1 (wa.thread 0 1).uid 0x40 8 = true) ∧
    ((b.thread 0 1).waits.find? (fun w => isWaitres w.op || isWaitaddr w.op) = some ⟨false, 0, .waitres 4 9⟩ ∧ 9 ≠ 0 ∧ 0 + 9 ≤ b.cycle) ∧
    ((a.thread 0 1).waits.find? (fun w => isWaitres w.op || isWaitaddr w.op) = some ⟨false, 0, .waitaddr 4 0x40 8 0 9 4⟩ ∧ 0 + 9 ≤ a.cycle ∧
      a.armed 0 1 = true) ∧ (List.replicate 4 (⟨8, true⟩ : Resv)).length ≤ 4 := by decide +kernel

/-- A message to the agent of tile 0. -/
def msg0 : Msg := ⟨0, 1, 3, .rget, 0, 8, 0x40, 7, 0, ⟨0, 0⟩⟩

/-- Operands poisoned and clean, addresses misaligned, unmapped and good, operand words that radd and rcall refuse and take. -/
theorem witness_RowCallForms :
    let s := tk.mapped 0
    let p := s.modCur fun t => t.setV 6 ⟨0, 8⟩
    let rd := { Need.load with c := true }
    let wr := { Need.store with c := true }
    let both := { Need.both with c := true }
    s.guardBit ⟨false, 0⟩ = true ∧ (s.rS 5).poison = false ∧ (s.bad 5 |>.rS 5).poison = true ∧ 0x700000004 % 8 ≠ 0 ∧ 0x7001FFFF8 % 8 = 0 ∧
    (p.rV 6).poison.getLsbD 3 = true ∧ (p.rV 6).poison.getLsbD 2 = false ∧
    (∀ k ∈ (List.range 2).map (2 + ·), (s.rV 6).poison.getLsbD k = false) ∧
    good (s.access rd 0x7001FFFF8 8) (fun _ => true) = true ∧ good (s.access wr 0x7001FFFF8 8) (fun _ => true) = true ∧
    good (s.access both 0x7001FFFF8 8) (fun _ => true) = true ∧ good (s.access both 0x7001FFFFF 1) (fun _ => true) = true ∧
    fails (s.access rd 0x4001FFFF8 8) (fun _ => true) = true ∧ fails (s.access wr 0x4001FFFF8 8) (fun _ => true) = true ∧
    fails (s.access both 0x4001FFFF8 8) (fun _ => true) = true ∧ fails (s.access both 0x4001FFFFF 1) (fun _ => true) = true ∧
    good (s.dataStop [(0x7001FFFF8, 8)] true true) (fun _ => true) = true ∧
    good (s.dataStop [(0x7001FFFF8, 8)] true false) (fun _ => true) = true ∧
    good (s.dataStop [(0x7001FFFF8, 8)] false true) (fun _ => true) = true ∧
    raddRefused 0x300 4 = true ∧ raddRefused 0x302 4 = false ∧ (63 < 64 ∧ 63 ≤ 63) ∧ 128 < 0x70000007C % 128 + 2 * 4 ∧
    0x700000078 % 128 + 2 * 4 ≤ 128 := by decide +kernel

/-- What an agent does for a message of each operation; a table that has a handler for index 0. -/
theorem witness_RowCallEffects :
    let rc : Msg := { msg0 with op := .rcall, arg := 0 }
    let t0 := (State.reset.setReg2 0 0x30 0x200).modTile 0 fun t => { t with inflight := [⟨rc⟩] }
    let t1 := t0.perform (cleanWrites 0x200 (bytesOf 8 0x1000)) none
    let no := (t0.handlerEntry 0 rc.arg).2
    let yes := (t1.handlerEntry 0 rc.arg).2
    (msg0.op = .rget ∧ MsgOp.rget ∈ [MsgOp.rget, .rput, .radd, .rcas, .rcall] ∧ 0 < 1 ∧ 16 ≤ 16) ∧ no = none ∧ yes = some 0x1000 := by
  decide +kernel

/-- A message that arrives, at an inbox with room, at one that is full with and without room in the heap, and with the heap's
bank asleep; a replay that waits, goes on, and finds its bank asleep; an agent that starts a message, performs one, holds an
atomic at a row under repair and calls a handler; a handler that ends; a reply. -/
theorem witness_VaultAgentEvents :
    let net := { tk with net := [.message 0 msg0] }
    let full := net.modTile 0 fun t => { t with inbox := List.replicate 56 msg0 }
    let heap := ((full.setReg2 0 0x20 0x200000).setReg2 0 0x28 1).setGranule 0 1 3
    let slow := heap.setAsleep 0 (heap.bankAt (heap.heapSlot 0 0)).1 true
    let back := heap.modTile 0 fun t => { t with backwater := [msg0], inbox := List.replicate 32 msg0 }
    let stay := heap.modTile 0 fun t => { t with backwater := [msg0], inbox := List.replicate 33 msg0 }
    let bslow := slow.modTile 0 fun t => { t with backwater := [msg0], inbox := List.replicate 32 msg0 }
    let turn := (State.reset.modTile 0 fun t => { t with inbox := [msg0] }).modThread 0 0 fun t => { t with state := .waitingMessage }
    let idle := turn.modTile 0 fun t => { t with inbox := [] }
    let run := tk.modTile 0 fun t => { t with inflight := [⟨msg0⟩] }
    let amo : Msg := { msg0 with op := .amo 0 8 ⟨1, false⟩ ⟨0, false⟩ }
    let held := (tk.setBank 0 0 { Bank.reset with repairs := [0] }).modTile 0 fun t => { t with inflight := [⟨amo⟩] }
    let rc : Msg := { msg0 with op := .rcall }
    let call := tk.modTile 0 fun t => { t with inflight := [⟨rc⟩] }
    let h := (State.reset.modThread 0 15 fun t => { t with waits := [⟨false, 0, .release (.ending 2)⟩] }).modTile 0 fun t =>
      { t with handler := some msg0 }
    let h2 := h.modCore 0 fun c => { c with agentSaved := some Thread.reset }
    let op : RcOp := ⟨5, 6, 8, 0x40, 7, msg0⟩
    let rep := { wt (.rowCall op) with net := [.reply ⟨0, 1, 3, 6, 0x40, ⟨0, 0⟩⟩] }
    (net.net[0]? = some (.message 0 msg0) ∧ net.messageBehind 0 0 msg0.src = false ∧ (net.tile 0).inbox.length < 56 ∧ (net.tile 0).backwater = []) ∧
    (56 ≤ (full.tile 0).inbox.length ∧ (full.heapUsable 0 && decide (0 < full.heapRoom 0)) = false) ∧
    (56 ≤ (heap.tile 0).inbox.length ∧ (heap.heapUsable 0 && decide (0 < heap.heapRoom 0)) = true ∧ heap.heapHeld 0 0 = false) ∧
    ((slow.heapUsable 0 && decide (0 < slow.heapRoom 0)) = true ∧ slow.heapHeld 0 0 = true) ∧
    ((back.tile 0).backwater = msg0 :: [] ∧ (back.tile 0).inbox.length ≤ 32 ∧ back.heapHeld 0 (back.tile 0).heapHead = false) ∧
    ((stay.tile 0).backwater = msg0 :: [] ∧ 32 < (stay.tile 0).inbox.length) ∧
    ((bslow.tile 0).backwater = msg0 :: [] ∧ (bslow.tile 0).inbox.length ≤ 32 ∧ bslow.heapHeld 0 (bslow.tile 0).heapHead = true) ∧
    (turn.pick (stagingOf 0) = some 15 ∧ (turn.tile 0).handler = none ∧ (turn.tile 0).inbox = msg0 :: [] ∧ turn.canStart 0 = true) ∧
    (idle.pick (stagingOf 0) = some 15 ∧ (idle.tile 0).handler = none ∧ idle.canStart 0 = false) ∧
    ((run.tile 0).inflight[0]? = some ⟨msg0⟩ ∧ msg0.op ≠ .rcall ∧ run.arrivesAtomic msg0 = false ∧
      (∀ p ∈ chunksOf msg0.place msg0.bytes, run.bankStops p = false) ∧ (run.heldFor msg0.place).head? = none) ∧
    ((held.tile 0).inflight[0]? = some ⟨amo⟩ ∧ held.arrivesAtomic amo = true) ∧
    ((call.tile 0).inflight[0]? = some ⟨rc⟩ ∧ (call.handlerPlace 0 rc.arg).all (fun p => !call.bankBusy p) = true) ∧
    ((h2.tile 0).handler = some msg0 ∧ (h2.thread 0 15).findWait isEnding = some ⟨false, 0, .release (.ending 2)⟩ ∧
      h2.drained 0 15 (h2.thread 0 15).uid = true ∧ (h2.core 0).agentSaved = some Thread.reset) ∧
    (rep.locate 0 1 3 = 1 ∧ (rep.thread 0 1).uid = 3 ∧ (rep.thread 0 1).findWait isRowCall = some ⟨false, 0, .rowCall op⟩) := by decide +kernel

/-- Indexes at both ends, entries valid and not, a split inside the range and at its edge, and two that merge. -/
theorem witness_ReachForms :
    let s := hd.mapped 0
    let e := s.reach 0 4
    let m := (s.setReach 0 4 { e with w1 := 0x400001000 }).setReach 0 8 (e.upper 0x400001000)
    let w := State.reset.modThread 0 0 fun t => { t with waits := [⟨false, 0, .rchinv 4 5⟩] }
    let v := State.reset.modThread 0 0 fun t => { t with waits := [⟨false, 0, .rchins 4 5 1 2 3 4⟩] }
    (s.cur.slot = 0 ∧ s.guardBit ⟨false, 0⟩ = true ∧ (s.rV 6).poison = 0 ∧ (s.rS 5).poison = false) ∧
    s.installStatus 0 32 ⟨0, 0, 0, 0⟩ ≠ 0 ∧ s.installStatus 0 31 ⟨0x800000001, 0x800001000, 0, 3⟩ = 0 ∧ s.entryBusy 0 31 = false ∧
    ((wt (.load (.scalar 7 8 true 0) 4 .dflt)).entryBusy 0 4 = true) ∧ (31 < 32 ∧ 31 ≤ 31) ∧ (s.reach 0 31).valid = false ∧ e.valid = true ∧
    (0x400001000 % 64 = 0 ∧ e.base < 0x400001000 ∧ 0x400001000 < e.limit ∧ 0x400000000 ≤ e.base) ∧
    ((s.reach 0 8).valid = false ∧ s.entryBusy 0 8 = false ∧ ∀ k < 8, (!(s.reach 0 k).valid && !s.entryBusy 0 k) = false) ∧
    ((m.reach 0 4).merges (m.reach 0 8) = true ∧ e.merges e = false) ∧
    ((w.thread 0 0).findWait isRchWait = some ⟨false, 0, .rchinv 4 5⟩ ∧ w.entryBusy 0 5 = false) ∧
    ((v.thread 0 0).findWait isRchWait = some ⟨false, 0, .rchins 4 5 1 2 3 4⟩ ∧ v.entryBusy 0 5 = false) := by decide +kernel

/-- The compute core of tile 0, with every row of its registers full. -/
def eng : State :=
  ((taskOn 128).mapped 128).modTile 0 fun t =>
    { t with eng := { EngineRegs.reset with mask := (List.range 9).map fun k => (k, 0xFFFFFFFF), bfctl := 0 } }

/-- A queue with room and a full one; forms that are refused and accepted, by their controls, a mask and a poisoned row; control
values good and bad; ranges misaligned, unmapped, in the wrong space and good; an ast with a record, its ring off and on. -/
theorem witness_EngineQueueForms :
    let o : MmaF := ⟨⟨false, 0⟩, 0, 1, 2, 0, 0, 0, 0, 0, false, false⟩
    let op := eng.engineOp (.product 0 o)
    let full := eng.modTile 0 fun t => { t with engineQ := List.replicate 8 op }
    let raw := (taskOn 128).mapped 128
    let pois := eng.modTile 0 fun t => { t with eng := { t.eng with pois := [(1, 4)] } }
    let other := eng.setReach 128 4 ⟨0x400000001, 0x400200000, BitVec.ofNat 64 (spaceBase 1 0), 3⟩
    let r := eng.setReg (ringReg 0 0 0) 0x8000000000000001
    let st : AstF := ⟨⟨false, 0⟩, 0, 1, 0, .rn, 1, true, 0, 0⟩
    eng.guardBit ⟨false, 0⟩ = true ∧ eng.curTile = 0 ∧ (eng.tile 0).engineQ.length < 8 ∧ 8 ≤ (full.tile 0).engineQ.length ∧
    eng.engineRefusal 0 op = none ∧ (raw.engineRefusal 0 op).isSome = true ∧ (0xFFFF : BitVec 16) ≠ 0 ∧ (eng.bad 5 |>.rS 5).poison = true ∧
    bfOk 0xFFFFFFFFFFFFFFFF = false ∧ bfOk 0xC0000B680200 = true ∧ (2 ^ 24 < 2 ^ 24 + 1 ∧ (1 : W64) ≠ 0 ∧ 2 ^ 24 ≤ 2 ^ 24) ∧
    0x400000020 % 64 ≠ 0 ∧ fails (eng.access .load 0x100000000 4096) (fun b => match b with | .trap .. => true | _ => false) = true ∧
    fails (eng.access .store 0x100000000 4096) (fun b => match b with | .trap .. => true | _ => false) = true ∧
    good (eng.access .load 0x4001FF000 4096) (fun x => decide (spaceOfPlace x.place < 2 ∧ tileOfPlace x.place = 0)) = true ∧
    good (eng.access .store 0x4001FF000 4096) (fun x => decide (spaceOfPlace x.place < 2 ∧ tileOfPlace x.place = 0)) = true ∧
    good (other.access .load 0x4001FF000 4096) (fun x => decide (tileOfPlace x.place ≠ 0)) = true ∧
    good (eng.dataStop [(0x4001FF000, 4096)] true false) (fun _ => true) = true ∧
    good (eng.dataStop [(0x4001FF000, 4096)] false true) (fun _ => true) = true ∧
    ((r.reserveRing 0 0).isSome = true ∧ ((r.setReg (ringReg 0 0 3) (2 * 2 ^ 32)).reserveRing 0 0).isNone = true ∧
      r.engineRefusal 0 (r.engineOp (.ast st 0x400000000 0 4 none [] none)) = none ∧ st.rg = true ∧
      eng.controlRefused 0 (eng.engineOp (.ast st 0x400000000 0 4 none [] none)) = true) ∧
    eng.controlRefused 0 op = false ∧ eng.controlRefused 0 (eng.engineOp (.drev ⟨⟨false, 0⟩, 0⟩)) = true ∧
    op.form.reads = [] ++ 1 :: [2] ∧ (raw.engRegs 0 0).fill 1 ≠ BitVec.allOnes 32 ∧ (∀ x ∈ op.form.reads, (eng.engRegs 0 0).fill x = BitVec.allOnes 32) ∧
    (∀ x ∈ op.form.reads, (eng.engRegs 0 0).rowPoison x = 0) ∧ ((pois.engRegs 0 0).rowPoison 1).getLsbD 2 = true ∧
    (∀ j < 2, ((pois.engRegs 0 0).rowPoison 1).getLsbD j = false) := by decide +kernel

/-- No core of tile 0 issues: the heads of both wait, and its agent waits for a message. -/
def State.still (s : State) : State :=
  [(0, 0), (0, 15), (128, 0)].foldl (fun s c => s.modThread c.1 c.2 fun t => { t with state := .waitingMessage }) s

/-- Elements at the ends of an accumulator, a transform of 512 points, and queues that hold each kind of work: a product that
signals and one that does not, an ald from a vault and from a scratchpad, at its end clean and poisoned, an ast whose data pass
and fail their shores, with accesses to make; a thread that is there and one that is not; a record to write. -/
theorem witness_EngineWork :
    let o : MmaF := ⟨⟨false, 0⟩, 0, 1, 2, 0, 0, 0, 0, 0, false, false⟩
    let p := eng.engineOp (.product 0 o)
    let k := eng.still.engineOp (.product 0 { o with rk := 1 })
    let l := fun place got => eng.engineOp (.ald ⟨⟨false, 0⟩, 0, 5, 0⟩ 0x400000000 place 4 got [])
    let st : AstF := ⟨⟨false, 0⟩, 0, 1, 0, .rn, 1, false, 0, 0⟩
    let a := fun hs todo => eng.engineOp (.ast st 0x400000000 0 4 none hs todo)
    let q := fun op => eng.modTile 0 fun t => { t with engineQ := [op] }
    let still := (eng.still.modTile 0 fun t => { t with engineQ := [k] }).modThread 128 1 fun t => { t with state := .waitingMemory }
    let r : AstRecord := ⟨0, 0, 0, 4096, 0, 7, 1⟩
    let bytes := ((eng.engRegs 0 0).astBytes st).map fun b => (b, false)
    let checked := fun hs : List Shore => shoreAll (fun i => hs[i]?.getD ⟨0, 0, 0⟩) [vbytes 0x400000000 bytes]
    (31 < 32 ∧ 1023 < 1024 ∧ 15 < 16 ∧ 1 ≠ 0 ∧ bfN 0xC0000B680200 ≤ 512 ∧ 511 < bfN 0xC0000B680200 ∧ 511 * 3 % 512 ≠ 0 ∧ 0 * 3 % 512 = 0) ∧
    (((q p).tile 0).engineQ = p :: [] ∧ o.rk = 0) ∧ ((still.tile 0).engineQ = k :: [] ∧ still.semPhase 0 1 = true) ∧
    (((q (l 0 [])).tile 0).engineQ = l 0 [] :: [] ∧ (q (l 0 [])).fenceClear (l 0 []) = true ∧ (q (l 0 [])).bankBusy 0 = false ∧ (q (l 0 [])).throttled 0 = false ∧
      (q (l 0 [])).admittable 0 = false ∧ still.admittable 0 = false ∧ spaceOfPlace 0 = 0) ∧
    (spaceOfPlace (spaceBase 0 1) = 1 ∧ (q (l (spaceBase 0 1) [])).fenceClear (l (spaceBase 0 1) []) = true ∧
      wordsLeft 64 ([] : SMap (List PByte)) ≠ []) ∧ (List.replicate 4096 ((0 : Byte), false)).length = 4096 ∧
    (List.replicate 4096 ((0 : Byte), false)).any Prod.snd = false ∧ (List.replicate 4096 ((0 : Byte), true)).findIdx? Prod.snd = some 0 ∧
    (((q (a [] none)).tile 0).engineQ = a [] none :: [] ∧ (q (a [] none)).fenceClear (a [] none) = true ∧ good (checked []) (fun _ => true) = true ∧
      fails (checked [⟨2, 5, 0x63⟩]) (fun _ => true) = true) ∧
    (((q (a [] (some [[], []]))).tile 0).engineQ = a [] (some [[], []]) :: [] ∧ [([] : List PWrite), []].tail ≠ [] ∧ [([] : List PWrite)].tail = []) ∧
    ((eng.thread 128 1).uid = p.uid ∧ (eng.thread 128 1).task = p.task ∧ (eng.thread 128 1).state = .ready ∧
      ((eng.modCore 128 fun c => { c with trapBase := 0x100000 }).trapRing 128).isSome = true ∧ (eng.thread 128 1).uid ≠ 4) ∧
    ((eng.modTile 0 fun t => { t with astRecords := [r] }).tile 0).astRecords = r :: [] ∧ eng.posted = [] := by decide +kernel

/-- Gathers of good and bad addresses, one in the vault; a wait whose latch is still to be cleared and one that reads a word; no
word of a row left. -/
theorem witness_GatherUnit :
    let w := fun clear => waits 128 (.gather [spaceBase 0 1 + 0x40] [4] 0 5 clear [])
    let va := eng.put [(5, 0x500000000)]
    let px := eng.modCur fun t => t.setV 6 ⟨0, 4⟩
    eng.guardBit ⟨false, 0⟩ = true ∧ (eng.bad 5 |>.rS 5).poison = true ∧ (eng.rS 5).poison = false ∧
    (∀ k < 32, (eng.rV 6).poison.getLsbD k = false) ∧ ((px.rS 5).poison = false ∧ (px.rV 6).poison.getLsbD 2 = true ∧
      ∀ j < 2, (px.rV 6).poison.getLsbD j = false) ∧ 0x500000020 % 64 ≠ 0 ∧ 0x500000000 % 64 = 0 ∧
    good (va.gatherStop 0x500000000 (eng.rV 6).bits (List.range 32)) (fun _ => true) = true ∧
    good (eng.access .load (gatherVa 0x500000000 (eng.rV 6).bits 31) 64) (fun x => decide (spaceOfPlace x.place = 1 ∧ tileOfPlace x.place = 0)) = true ∧
    good (eng.access .load (gatherVa 0x400000000 (eng.rV 6).bits 0) 64) (fun x => decide (spaceOfPlace x.place ≠ 1)) = true ∧
    fails (eng.access .load (gatherVa 0x100000000 (eng.rV 6).bits 0) 64) (fun b => match b with | .trap .. => true | _ => false) = true ∧
    (isCompute 0 = false ∧ (w true).engReads 0 8 5 = false) ∧
    ((w true).thread 128 1).findWait isGather = some ⟨false, 0, .gather [spaceBase 0 1 + 0x40] [4] 0 5 true []⟩ ∧
    ((w false).thread 128 1).findWait isGather = some ⟨false, 0, .gather [spaceBase 0 1 + 0x40] [4] 0 5 false []⟩ ∧
    (7 ∈ gatherLeft [spaceBase 0 1 + 0x40] [] ∧ (w false).homesClear 128 1 3 (spaceBase 0 1 + 0x40 + 8 * 7) 8 = true ∧
      8 ∈ gatherLeft [spaceBase 0 1 + 0x40] [] ∧ 1 ≤ 8 / 8) ∧
    (∀ j ∈ gatherLeft [] (([0, 8] : List Nat).map fun k => (k, ([] : List PByte))), j / 8 ≠ 1) := by decide +kernel

/-- Semaphores at zero and at their limit: a waiter whose count is there, one that has been granted, and one whose limit has
passed; forms that the queue takes, has no room for, and refuses. -/
theorem witness_Semaphores :
    let m : State := { ((waits 128 (.sem 3 0 none none)).modTile 0 fun t => { t with semQ := [⟨3, 0, 128, 1⟩] }).still with cycle := 1 }
    let late : State := { (waits 128 (.sem 3 9 none none)).still with cycle := 0x200000 }
    let g : State := { (waits 128 (.sem 3 0 none (some 1))).still with cycle := 2 }
    let op := eng.engineOp (.product 0 ⟨⟨false, 0⟩, 0, 1, 2, 0, 0, 0, 0, 0, false, false⟩)
    let full := eng.modTile 0 fun t => { t with engineQ := List.replicate 8 op }
    eng.guardBit ⟨false, 0⟩ = true ∧ ((eng.bad 5 |>.rS 5).poison = true ∧ 2 ^ 16 ≤ 2 ^ 16 ∧ 0xFFFF < 2 ^ 16) ∧
    (m.granted 0 3 = none ∧ (m.tile 0).semQ.find? (fun x => x.sem = 3) = some ⟨3, 0, 128, 1⟩ ∧ tileOfCore 128 = 0 ∧
      (m.thread 128 1).findWait isSem = some ⟨false, 0, .sem 3 0 none none⟩ ∧ 0 ≤ m.semCount 0 3 ∧ 0 < m.cycle ∧
      (m.semLimit 0 = 0 ∨ m.cycle ≤ 0 + m.semLimit 0) ∧ m.semPhase 0 2 = true) ∧
    (g.granted 0 3 = some (128, 1) ∧ (g.thread 128 1).findWait isSem = some ⟨false, 0, .sem 3 0 none (some 1)⟩) ∧
    (good (eng.accept 0 op) Option.isSome = true ∧ good (full.accept 0 op) Option.isNone = true ∧
      fails ((taskOn 128).accept 0 op) (fun _ => true) = true) ∧
    ((late.thread 128 1).findWait isSem = some ⟨false, 0, .sem 3 9 none none⟩ ∧ late.semLimit 0 ≠ 0 ∧ 0 + late.semLimit 0 ≤ late.cycle ∧
      late.semReady 128 1 3 9 = false ∧ late.semPhase 0 2 = true) := by decide +kernel


/-- Words behind the unit that are there, absent and broken; a sequencer that is free and one that is not; a run that issues, one
that stops, one whose next word traps at decode or in its run, at its last position and before it. -/
theorem witness_RepetitionBuffer :
    let s := lined
    let w := (tk.modThread 0 1 fun t => { t with run := some run1 }).modCore 0 fun c => { c with seqOwner := some 1, stopped := false }
    let idle := fun r : Run => (({ w with cycle := 1 } : State).modThread 0 1 fun t =>
      { t with state := .waitingMemory, waits := [⟨false, 0, .repstop⟩], run := some r }).still
    let j := idle run1
    let free := j.modThread 0 1 fun t => { t with waits := [] }
    let cmp := (encode (.cmpeq ⟨⟨false, 0⟩, 1, 6, 7⟩)).getD 0
    let bad := (idle { run1 with words := [cmp] }).modThread 0 1 fun t => t.setS 6 ⟨0, true⟩
    let ovr := fun s : State => ({ s with cur := ⟨0, 1⟩, unit := capturedUnit run1.pc cmp } : State)
    let broken := (lined.modCore 0 fun c => { c with lines := [⟨0, 0, 1⟩] })
    let low := (lined.modCore 0 fun c => { c with lines := [⟨0, 0, BitVec.ofNat 512 (3 * 2 ^ 480)⟩] })
    let trap := fun o : Option (Host.Outcome State Fault Refusal) => o.any fun o => after o fun u => u.unit.trap.isSome
    let goes := fun o : Option (Host.Outcome State Fault Refusal) => o.any fun o => after o fun u => u.unit.trap.isNone
    s.guardBit ⟨false, 0⟩ = true ∧ s.capture 0 s.cth.task 1 s.afterUnit = .words [0] ∧ [(0 : Word96)].all repeatable = false ∧
    (tk.capture 0 tk.cth.task 1 0 = .absent 0 ∧ broken.capture 0 broken.cth.task 1 0 = .broken 0 ∧
      low.capture 0 low.cth.task 1 low.afterUnit = .illegal 3) ∧
    (good (hd.fetchCheck 0) (fun _ => true) = true ∧ fails (tk.fetchCheck 0) (fun b => match b with | .trap .. => true | _ => false) = true) ∧
    run1.words.all repeatable = true ∧ s.runSlot 0 = none ∧ w.runSlot 0 = some 1 ∧ s.cth.run = none ∧
    (w.cth.run = some run1 ∧ run1.active = true ∧ run1.pos = 0 ∧ run1.fault = none) ∧
    (j.idlePosition 0 = true ∧ j.runSlot 0 = some 1 ∧ (j.thread 0 1).run = some run1 ∧
      (j.thread 0 1).runGoes = true ∧ run1.stopping = false ∧ (free.thread 0 1).waits = [] ∧ free.idlePosition 0 = true) ∧
    good (decodeChecked false (stepWord run1 (run1.words[run1.pos]?.getD 0) run1.iter)) (fun i =>
      decide (i = .add ⟨⟨false, 0⟩, 5, 1, 5⟩)) = true ∧
    fails (decodeChecked false (stepWord { run1 with words := [0] } 0 0)) (fun _ => true) = true ∧
    (bad.idlePosition 0 = true ∧ trap (runCaptured (.cmpeq ⟨⟨false, 0⟩, 1, 6, 7⟩) (ovr bad)) = true ∧
      goes (runCaptured (.cmpeq ⟨⟨false, 0⟩, 1, 6, 7⟩) (ovr j)) = true) ∧
    ((free.thread 0 1).findWait isRunWait = none ∧ ((idle { run1 with stopping := true }).thread 0 1).run = some { run1 with stopping := true }) ∧
    ((tk.thread 0 1).regs.getP 0).getLsbD 0 ≠ false ∧ (run1.pos + 1 < run1.words.length + 1 ∧ run1.words.length ≤ run1.pos + 1) := by
  decide +kernel

/-- Ring 0 of tile 0 is on, with room for two records. -/
def ringed : State := (tk.setReg (ringReg 0 0 0) 0x8000000000000001).mapped 0

/-- q1 of core 0 sends to, and q2 receives from, endpoint 3 of core 1. -/
def queued : State :=
  ((tk.setReg (queueReg 0 1 0) 0x8000000130000002).setReg (queueReg 0 2 0) 0xC000000130000001).setQCount 0 1 2

/-- A transfer of one block, as its streamer holds it. -/
def xfer1 : Transfer :=
  ⟨1, 0, 1, 3, 7, 0, 0, 0, 5, ⟨0, 0, 0, 0, 64, false, false, 0, 0, 0⟩, 0, 0x100, [0], [], 0, 0, 0, true, false⟩

/-- Handle 0 names 512 bytes of the scratchpad, to read and to write. -/
def handled : State :=
  ((tk.setReg (handleReg 0 0 0) 0xE000000000000000).setReg (handleReg 0 0 1) (BitVec.ofNat 64 (spaceBase 0 1))).setReg (handleReg 0 0 2) 0x200

/-- Descriptors refused and taken, a ring off, on and full; a request without a record, with one, with a handle that is broken,
and in transit; ringset behind and ahead of what is written; ringwait off, changed and past its bound. -/
theorem witness_TransferAndRingForms :
    let d : W1024 := BitVec.ofNat 1024 (2 ^ 256 * 64)
    let full := ringed.setReg (ringReg 0 0 3) (2 * 2 ^ 32)
    let ur := (wt (.release (.xfer xfer1 false))).still.setReg (ringReg 0 0 0) 0x8000000000000001
    let u := ur.setReg (ringReg 0 0 3) (2 * 2 ^ 32)
    let w := wt (.release (.xfer xfer1 true))
    let n : State := { wt (.xferAccept 5 0) with net := [.request 0 xfer1] }
    let rw : State := { wt (.ringwait 0 5 0 9) with cycle := 9 }
    let on := rw.setReg (ringReg 0 0 0) 0x8000000000000001
    ringed.guardBit ⟨false, 0⟩ = true ∧ (ringed.rV 6).poison = 0 ∧ descRefused 0 = true ∧ descRefused d = false ∧ tk.ringOn 0 0 = false ∧
    ringed.ringOn 0 0 = true ∧ (ringed.reserveRing 0 0).isSome = true ∧ (full.reserveRing 0 0).isNone = true ∧
    ringed.ringResv 0 0 < ringed.ringRoom 0 0 ∧ full.ringRoom 0 0 ≤ full.ringResv 0 0 ∧
    ((u.thread 0 1).findWait isRelease = some ⟨false, 0, .release (.xfer xfer1 false)⟩ ∧ u.issuesDone 0 = true ∧
      (u.reserveRing 0 0).isNone = true ∧ (ur.reserveRing 0 0).isSome = true ∧ ur.issuesDone 0 = true ∧
      (xfer1.desc.uses.filterMap fun u => ur.handleBroken 0 u.h).head? = none ∧
      (xfer1.desc.uses.filterMap fun u => ({ ur with ecc := [handleReg 0 0 1] } : State).handleBroken 0 u.h).head? = some (handleReg 0 0 1)) ∧
    ((w.thread 0 1).findWait isRelease = some ⟨false, 0, .release (.xfer xfer1 true)⟩ ∧ w.drained 0 1 (w.thread 0 1).uid = true) ∧
    (n.net[0]? = some (.request 0 xfer1) ∧ (n.tile 0).strInbox.length < 64) ∧ (ringed.rS 5).poison = false ∧
    (0 ≤ (ringed.ringWidx 0 0 + 2 ^ 32 - ringed.ringRidx 0 0) % 2 ^ 32 ∧ (ringed.ringWidx 0 0 + 2 ^ 32 - ringed.ringRidx 0 0) % 2 ^ 32 < 1) ∧
    ((rw.thread 0 1).findWait isRingwait = some ⟨false, 0, .ringwait 0 5 0 9⟩ ∧ rw.ringOn 0 0 = false ∧ on.ringOn 0 0 = true ∧ 0 + 9 ≤ on.cycle ∧
      on.ringWidx 0 0 = (0 : BitVec 32).toNat ∧ on.ringWidx 0 0 ≠ (1 : BitVec 32).toNat) := by decide +kernel

/-- Requests that fail and pass their check; a block of a vault, of a scratchpad, and for an inflow that is bound and one that is
not; transfers that are done, with a record and with a queue entry whose endpoint is open and is not; a ring on and off. -/
theorem witness_StreamerEvents :
    let z := { xfer1 with todo := [] }
    let qd : Transfer := { z with desc := { z.desc with push := true, qtgt := 2 ^ 32 * 0 + 2 ^ 28 * 2 } }
    let fl : Transfer := { xfer1 with desc := { xfer1.desc with inflow := true, dsth := 2 ^ 28 + 9 } }
    let st := tk.modTile 0 fun t => { t with strInbox := [xfer1] }
    let ac := fun s : State => s.modTile 0 fun t => { t with strActive := [xfer1, z, qd, fl, { xfer1 with srcPlace := spaceBase 0 1 }] }
    let b := ac (tk.modThread 0 1 fun t => { t with inflows := [(0, ⟨true, 4, 9, []⟩)] })
    (4095 < 4096 ∧ 15 < 16) ∧
    ((st.tile 0).strInbox = xfer1 :: [] ∧ (st.tile 0).strActive.length < 4 ∧ (st.transferCheck xfer1).isSome = true ∧
      handled.transferCheck xfer1 = none) ∧
    (((ac tk).tile 0).strActive[0]? = some xfer1 ∧ 0 ∈ xfer1.todo ∧ (ac tk).bankBusy xfer1.srcPlace = false ∧ xfer1.desc.inflow = false ∧
      spaceOfPlace xfer1.srcPlace = 0 ∧ spaceOfPlace (spaceBase 0 1) = 1 ∧ wordsLeft 64 ([] : SMap (List PByte)) ≠ []) ∧
    (fl.desc.inflow = true ∧ fl.todo.head? = some 0 ∧ (ac tk).inflowBound fl.desc.dsth = false ∧ b.inflowBound fl.desc.dsth = true ∧
      (let f := inflowTarget fl.desc.dsth; b.inflowLoad f.1 f.2.1 f.2.2.1 f.2.2.2 < 32)) ∧
    (((ac tk).tile 0).strActive[1]? = some z ∧ (ac tk).transferDone z = true ∧ z.desc.push = false) ∧
    (((ac tk).tile 0).strActive[2]? = some qd ∧ (ac tk).transferDone qd = true ∧ qd.desc.push = true ∧ tk.qOn 0 2 = false ∧
      bitsOf qd.desc.qtgt 30 28 = 2 ∧ bitsOf qd.desc.qtgt 52 32 = 0 ∧ queued.qOn 0 2 = true ∧ queued.qRecv 0 2 = true ∧
      (queued.qBuf 0 2).held.length < queued.qDepth 0 2 ∧ (queued.qBuf 0 2).room = []) ∧
    (ringed.ringResv 0 0 = 0 ∧ tk.ringOn 0 0 = false ∧ ringed.ringOn 0 0 = true ∧ (ringed.setReg (ringReg 0 0 3) (2 ^ 32)).ringResv 0 0 ≠ 0 ∧
      ringed.inOrder (ringUnit 0 0) (reserveKey - 1) = true) := by decide +kernel

/-- Inflows bound and not, with a whole element and less; a block that is first, one behind another of its transfer, with and
without its inflow; a wait that its element ends. -/
theorem witness_Inflows :
    let b := tk.modThread 0 1 fun t => { t with inflows := [(0, ⟨true, 4, 9, List.replicate 128 (0, false)⟩)] }
    let p : Packet := .inflow 0 1 0 9 [(1, false)] 0 1
    let two : State := { b with net := [p, p] }
    let w := (wt (.inflow 0 true 5)).modThread 0 1 fun t => { t with inflows := b.cth.inflows }
    let early := fun n : Nat => (two.net.take n).any fun p =>
      match p with
      | .inflow _ _ _ _ _ _ k => k = 1
      | _ => false
    tk.guardBit ⟨false, 0⟩ = true ∧ PopKind.inflowVector ≠ .queue ∧ (tk.cth.inflow 0).bound = false ∧ (b.cth.inflow 0).bound = true ∧
    (b.cth.inflow 0).wcode = 4 ∧ 128 ≤ (b.cth.inflow 0).buf.length ∧ (b.cth.inflow 0).buf.length < 129 ∧
    (two.net[0]? = some p ∧ two.net[1]? = some p ∧ early 0 = false ∧ early 1 = true) ∧ tk.inflowSlot 0 1 0 9 = none ∧ b.inflowSlot 0 1 0 9 = some 1 ∧
    (xfer1.num ≠ 2 ∧ xfer1.status ≠ 6 ∧ ({ xfer1 with status := 6 } : Transfer).status = 6) ∧
    ((w.thread 0 1).findWait isInflow = some ⟨false, 0, .inflow 0 true 5⟩ ∧ ((w.thread 0 1).takeInflow 0 true 5).isSome = true ∧
      w.queueOut 0 0 = false) := by decide +kernel

/-- Endpoints off, on, of either kind, with and without a credit; entries held, waiting for room and none; the riser with room,
full, and with an entry that has crossed and one that has not; entries and credits in transit; a push that waits too long. -/
theorem witness_Queues :
    let e : QEntry := ⟨⟨7, 0⟩, some (1, 3)⟩
    let h := queued.setQBuf 0 2 ⟨[e], [], 1⟩
    let hr := queued.setQBuf 0 2 ⟨[e], [e], 1⟩
    let p : Packet := .queueEntry 1 3 0 2 ⟨7, 0⟩ 0
    let n : State := { queued with net := [p, p], cycle := 1 }
    let c : State := { queued with net := [.credit 0 1 1 3 0], cycle := 1 }
    let o : State := { wt (.queuePop 1 4) with cycle := 0x200000 }
    let r := tk.setRiser 0 true [⟨⟨7, 0⟩, false⟩]
    let a := tk.setRiser 0 false [⟨⟨7, 0⟩, true⟩]
    let w : State := { wt (.queuePush 1 ⟨7, 0⟩) with cycle := 0x200000 }
    let early := fun k : Nat => (n.net.take k).any fun p =>
      match p with
      | .queueEntry c e d f _ _ => c = 1 && e = 3 && d = 0 && f = 2
      | _ => false
    (tk.guardBit ⟨false, 0⟩ = true ∧ (tk.rV 6).poison = 0 ∧ tk.riserFree 0 true ≠ 0 ∧
      (tk.setReg (riserReg 0 true) 0).riserFree 0 true = 0) ∧
    (tk.qOn 0 1 = false ∧ queued.qOn 0 1 = true ∧ queued.qRecv 0 1 = false ∧ queued.qCount 0 1 ≠ 0 ∧ (queued.setQCount 0 1 0).qCount 0 1 = 0) ∧
    (queued.qOn 0 2 = true ∧ queued.qRecv 0 2 = true ∧ (queued.takeEntry 0 2).isNone = true ∧ (h.takeEntry 0 2).isSome = true) ∧
    ((tk.riserPop 0).isNone = true ∧ (a.riserPop 0).isSome = true ∧ (a.tile 0).riser (isCompute 0) = ⟨⟨7, 0⟩, true⟩ :: [] ∧
      ((tk.setRiser 0 false [⟨⟨7, 0⟩, false⟩]).tile 0).riser (isCompute 0) = ⟨⟨7, 0⟩, false⟩ :: []) ∧
    ((h.qBuf 0 2).held = e :: [] ∧ (h.qBuf 0 2).room = [] ∧ (hr.qBuf 0 2).room = e :: [] ∧ 0 + 1 ≤ hr.qDepth 0 2) ∧
    (n.net[0]? = some p ∧ n.net[1]? = some p ∧ 0 < n.cycle ∧ early 0 = false ∧ early 1 = true ∧ n.qPeer 0 2 = (1, 3) ∧
      (n.qBuf 0 2).held.length < n.qDepth 0 2 ∧ (n.qBuf 0 2).room = [] ∧ (hr.qBuf 0 2).room ≠ []) ∧
    (7 < 8 ∧ 63 < 64) ∧ (c.net[0]? = some (.credit 0 1 1 3 0) ∧ 0 < c.cycle ∧ c.qPeer 0 1 = (1, 3)) ∧
    ((r.tile 0).riser true = [] ++ ⟨⟨7, 0⟩, false⟩ :: [] ∧ r.busStopped 0 true = false) ∧
    ((w.thread 0 1).findWait (fun w => (stallInfo w).isSome) = some ⟨false, 0, .queuePush 1 ⟨7, 0⟩⟩ ∧
      stallInfo (.queuePush 1 ⟨7, 0⟩) = some 1 ∧ w.queueLimit 0 ≠ 0 ∧ 0 + w.queueLimit 0 ≤ w.cycle) ∧
    ((w.thread 0 1).findWait (isPush 1) = some ⟨false, 0, .queuePush 1 ⟨7, 0⟩⟩ ∧
      (o.thread 0 1).findWait (isPop 1) = some ⟨false, 0, .queuePop 1 4⟩ ∧ o.queueLimit 0 ≠ 0 ∧ 0 + o.queueLimit 0 ≤ o.cycle) ∧
    (1 ≤ 7 ∧ 7 < 8 ∧ (0x8000000000000000 : W64).getLsbD 63 = true ∧ tk.waitersOf 0 (isPush 7) = []) := by decide +kernel

/-- A copy of 64 FP32 elements from the start of the scratchpad to its second KiB. -/
def bxfCopy : W1024 := 0x500000000 + 2 ^ 64 * 0x500000400 + 2 ^ 128 * 64 + 2 ^ 192 * (10 * 2 ^ 16)

/-- A compress of 64 FP32 elements, as its unit has placed it. -/
def bxfPack : BxfOp :=
  ⟨0x500000000, 0x500000400, 0, 0, 64, 0, .f32, true, false, false, false, false, false, [spaceBase 0 1], spaceBase 0 1 + 0x400, [5], 5,
    spaceBase 0 1, spaceBase 0 1, 0x400000, 0x400000⟩

/-- Commands of an unassigned type, refused, and taken; operands misaligned and good; a unit with reads and writes to make, and in
each of its phases, with an object that fits its reservation and one that does not; blocks of a type and not. -/
theorem witness_BankTransforms :
    let s := tk.mapped 0
    let entry : PByte → SMap (List PByte) := fun x => [(0, (List.replicate 5 (0, false)) ++ [(1, false), (0, false), x])]
    let big := (List.range 32).foldl (fun m k => SMap.set m (wordKey 0 0 k) (List.replicate 8 ((1 : Byte), false))) (entry (0, false))
    let r : BxfRun := ⟨1, 0, [(0, spaceBase 0 1)], [], []⟩
    let run := fun (s : State) (r : BxfRun) => s.modThread 0 1 fun t => { t with state := .waitingMemory, waits := [⟨false, 0, .bxf bxfPack r⟩] }
    let w := run s r
    let x : List PWrite := [⟨spaceBase 0 1, 0, 0xFF, false⟩]
    s.guardBit ⟨false, 0⟩ = true ∧ (s.rV 6).poison = 0 ∧ (commandOf (2 ^ 192 * (13 * 2 ^ 16))).isNone = true ∧
    ((commandOf 0).map fun c => commandRefused 0 c) = some true ∧
    ((commandOf bxfCopy).map fun c => !commandRefused bxfCopy c && good (s.bxfStop c) (fun _ => true) &&
      good (c.inputs.mapM (fun a => s.bxfAccess .load a c.srcBytes c.exp)) (fun _ => true) &&
      good (s.bxfAccess .store c.dst c.dstBytes c.cmp) (fun _ => true) && good (tk.bxfStop c) (fun _ => true) &&
      fails (c.inputs.mapM (fun a => tk.bxfAccess .load a c.srcBytes c.exp)) (fun _ => true) &&
      fails (tk.bxfAccess .store c.dst c.dstBytes c.cmp) (fun _ => true)) = some true ∧
    ((w.thread 0 1).findWait isBxf = some ⟨false, 0, .bxf bxfPack r⟩ ∧ (0, spaceBase 0 1) ∈ r.reads ∧
      w.drained 0 1 (w.thread 0 1).uid = true) ∧
    (([[x]] : List (List (List PWrite))) = [x] :: [] ∧ x ∈ [x]) ∧
    (lowestFail (s.commandStream bxfPack []).2 = none ∧
      ((List.range 1).map fun _ => lowestFail (dequantise { bxfPack with dq := true } ⟨List.replicate 64 (9, false), [], []⟩).2).all Option.isSome = true) ∧
    (good (s.targetEntry bxfPack (entry (0, false)) 0) (fun y => decide ((bxfPack.pieceObject (entry (0, false)) 0).1.length ≤ y.2.rsv * 64)) = true ∧
      good (s.targetEntry bxfPack big 0) (fun y => decide (y.2.rsv * 64 < (bxfPack.pieceObject big 0).1.length)) = true ∧
      fails (s.targetEntry bxfPack (entry (0, true)) 0) (fun _ => true) = true) ∧
    (31 < 32 ∧ 2 ≤ [((0 : Nat), false), (1, false)].length) ∧ numberOf ([(5, false)] : List PByte) = 5 := by decide +kernel

/-- Head and task threads, breakpoint entries good and bad at both ends, failed writes before and after the time, gauges
written and read, in the cycle of the reading and later. -/
theorem witness_ObservationForms :
    let w := waits 0 (.brkpt 5 7 1 2 0)
    let late : State := { w with cycle := 65536 }
    let fresh := tk.modCore 0 fun c => { c with gaugeAt := SMap.set c.gaugeAt 3 (tk.cycle + 1) }
    tk.guardBit ⟨false, 0⟩ = true ∧ (hd.cur.slot = 0 ∧ hd.guardBit ⟨false, 0⟩ = true) ∧ (7 < 8 ∧ 7 < 8 ∧ 7 ≤ 7) ∧
    ((2 ^ 32 : Nat) / 2 ^ 32 % 2 ^ 28 ≠ 0 ∧ (5 : Nat) ≤ 5 ∧ ((1 : Nat) ≤ 1 ∧ (1 : Nat) ≤ 3 ∧ (0 : Nat) = 0) ∧ (1 : W64) ≠ 0 ∧ 0 / 2 ^ 32 % 2 ^ 28 = 0) ∧
    (w.thread 0 1).findWait isBrkpt = some ⟨false, 0, .brkpt 5 7 1 2 0⟩ ∧
    ([0].any (w.domainDevices (deviceOfCore 0)).contains = true ∧ w.cycle < 0 + 65536 ∧ 0 + 65536 ≤ late.cycle ∧
      (late.thread 0 1).findWait isBrkpt = some ⟨false, 0, .brkpt 5 7 1 2 0⟩) ∧
    (SMap.get 0 (tk.core 0).gaugeAt 3 : Nat) ≠ tk.cycle + 1 ∧
    ((SMap.get 0 (fresh.core 0).gaugeAt 3 : Nat) = fresh.cycle + 1 ∧ fresh.guardBit ⟨false, 0⟩ = true) := by decide +kernel

/-- A trace that is off, one with a record of an earlier cycle and room, and one that is full; droop headers with and without a
capture; codewords that are clean, corrected and uncorrectable; a counter that reaches its mark; silt events dropped, of this
cycle and earlier; an entry asked for. -/
theorem witness_TraceSeepAndSilt :
    let q : State := { (tk.setReg (traceReg 0 0) 0x8000000000000000).modCore 0 fun c => { c with traceWait := [(0, 5)] } with cycle := 1 }
    let full := q.setReg (traceReg 0 0x10) 64
    let wrapped := q.setReg (traceReg 0 0) 0xC000000000000000
    let h := tk.setReg (droopReg 0 false 0) 1
    let still := (groupTiles 0).foldl (fun s x => [(stagingOf x, 0), (stagingOf x, 15), (computeOf x, 0)].foldl
      (fun s c => s.modThread c.1 c.2 fun t => { t with state := .waitingMessage }) s) (h.modThread 0 1 fun t => { t with state := .waitingMemory })
    let level := tk.modCore 0 fun c => { c with gauges := [(2, ⟨0x0A01, 0xFFFFFFFF, 0, 0, []⟩)] }
    let c : State := { (tk.setReg (bankSeep 0 0) 0x600010001) with cycle := 2 ^ 16 }
    let e : Silt := ⟨0, 0, 0, 1, 0, 0, 0⟩
    let s := tk.modDevice 0 fun d => { d with siltQ := [e] }
    let later : State := { s with cycle := 1 }
    let w := wt (.siltrd 3 9)
    ((0x8000000000000000 : W64).getLsbD 63 = true ∧ (tk.reg (traceReg 0 0)).getLsbD 63 = false) ∧
    ((q.core 0).traceWait = (0, 5) :: [] ∧ 0 < q.cycle ∧ (SMap.get 0 q.timers (traceTimer 0) : Nat) ≠ q.cycle + 1) ∧
    ((full.reg (traceReg 0 0)).getLsbD 62 = false ∧ (64 + 2 ^ 32 - 0) % 2 ^ 32 = 2 ^ ((full.reg (traceReg 0 8)).toNat % 16)) ∧
    ((wrapped.reg (traceReg 0 0)).getLsbD 62 = true ∧ (wrapped.core 0).traceDrop = 0 ∧ (wrapped.core 0).traceLost = false ∧
      0 - (wrapped.core 0).traceLast ≤ 131071) ∧
    ((h.reg (droopReg 0 false 0)).toNat % 8 ≠ 0 ∧ (h.reg (droopReg 0 false 0)).getLsbD 63 = false ∧
      ((tk.setReg (droopReg 0 false 0) 0x8000000000000001).reg (droopReg 0 false 0)).getLsbD 63 = true) ∧
    ((∀ x ∈ groupTiles 0, still.issuesDone x = true) ∧ (still.reg (droopReg 0 false 0)).toNat % 8 ≠ 0 ∧ h.issuesDone 0 = false ∧
      0 ∈ groupTiles 0) ∧
    ((level.core 0).gauge 2 = ⟨0x0A01, 0xFFFFFFFF, 0, 0, []⟩ ∧ (SMap.get 0 level.timers (levelTimer 0) : Nat) ≠ level.cycle + 1) ∧
    (spaceOfPlace 31 = 0 ∧ 31 / 32 * 32 = 0 ∧ 0 ∉ tk.ecc ∧ 0 ∉ tk.soft ∧ 0 ∈ ({ tk with soft := [0] } : State).soft ∧
      0 ∈ ({ tk with ecc := [0] } : State).ecc) ∧
    ((c.reg (bankSeep 0 0)).toNat % 2 ^ 16 ≠ 0 ∧
      (SMap.get 0 c.timers (bankSeep 0 0 / 8) : Nat) + 2 ^ ((c.reg (bankSeep 0 0)).toNat / 2 ^ 32 % 16 + 10) ≤ c.cycle) ∧
    ((SMap.get 0 s.timers (siltTimer 0) : Nat) ≤ s.cycle ∧ (s.device 0).siltDrop = 0 ∧ (s.device 0).siltQ = e :: [] ∧
      e.epoch = (s.device 0).epoch ∧ s.now 0 ≤ e.cycle ∧ e.cycle < later.now 0 ∧ (later.device 0).siltQ = e :: [] ∧
      (SMap.get 0 later.timers (siltTimer 0) : Nat) ≤ later.cycle) ∧
    (((s.modDevice 0 fun d => { d with siltDrop := 1 }).device 0).siltDrop ≠ 0 ∧ (s.device 0).silt.length < 4096 ∧
      (s.device 0).silt.find? (fun x => x.seq = (9 : W64).toNat) = none) ∧
    (w.thread 0 1).findWait isReplyWait = some ⟨false, 0, .siltrd 3 9⟩ ∧
    (({ Gauge.reset with count := 1 } : Gauge).count ≠ 0 ∧ (1 : BitVec 32) ≠ 0xFFFFFFFF ∧ 2 ^ 32 - 1 < 2 ^ 32) := by decide +kernel

/-- A row form on a vault place with the thread's stores performed and on their way, on a scratchpad place and without a reach
entry; a posted row form that is due; rows open and not. -/
theorem witness_RowControl :
    let s := tk.mapped 0
    let way := s.postAs .plain 4 .dflt [⟨0, 1, 0xFF, false⟩]
    let row := s.postAs (.row true) 4 .dflt [⟨0, 0, 0, false⟩]
    let isOpen := s.setBank 0 0 { Bank.reset with openRow := some 0 }
    let behind := s.postAs (.row false) 4 .dflt [⟨0, 0, 0, false⟩]
    let clear := fun (s : State) (x : Xlat) =>
      (s.posted.all fun p => !(p.isOf 0 1 3 && p.home = homeOf x.place && decide (p.seq < s.nextUid))) &&
        (!s.rowUsable x.place || !s.bankStops x.place)
    (s.guardBit ⟨false, 0⟩ = true ∧ ((s.put [(4, 0x400000000)]).rS 4).poison = false ∧ ((s.bad 4).rS 4).poison = true) ∧
    good (s.rowAccess 0x400000000) (fun x => s.rowUsable x.place && spaceOfPlace x.place == 0 &&
      (clear s x && !clear way x && !clear behind x && !clear (s.setAsleep 0 (s.bankAt x.place).1 true) x)) = true ∧
    good (s.rowAccess 0x500000000) (fun x => !s.rowUsable x.place && spaceOfPlace x.place != 0) = true ∧
    fails (s.rowAccess 0x900000000) (fun _ => true) = true ∧
    good (s.dataStop [(0x400000000, 1)] true false) (fun _ => true) = true ∧
    (row.posted.any fun p => row.canLand p && decide (p.kind = .row true) && decide (p.bytes = [⟨0, 0, 0, false⟩])) = true ∧
    ((s.bank 0 0).openRow ≠ some (s.bankAt 0).2 ∧ (isOpen.bank 0 0).openRow = some (isOpen.bankAt 0).2) := by decide +kernel

/-- A bank with an open row that is idle, one due for refresh, one that sleeps; rows usable and not; a row that goes
under repair, a store that arrives at it and an atomic held for it, and the end of the repair with the bank free and not. -/
theorem witness_DramBanks :
    let o : State := { (tk.setBank 0 0 { Bank.reset with openRow := some 3 }) with cycle := 1024 }
    let e : State := { (tk.setBank 0 0 { Bank.reset with refreshEnd := some 480 }) with cycle := 480 }
    let z := tk.setAsleep 0 31 true
    let l : State := { tk with cycle := 0x100000 }
    let s := tk.mapped 0
    let p : Posted := ⟨5, 0, 1, 3, 4, false, 0, .plain, .dflt, [⟨0, 1, 0xFF, false⟩]⟩
    let r : State := { s.setBank 0 0 { Bank.reset with repairs := [0] } with posted := [p] }
    let m : Msg := ⟨0, 1, 3, .rget, 0, 8, 0x40, 7, 0, ⟨0, 0⟩⟩
    ((o.bank 0 0).openRow = some 3 ∧ (o.bank 0 0).keepOpen = false ∧ (o.bank 0 0).last + 1024 ≤ o.cycle) ∧
    (tk.bankLive 0 0 = true ∧ (tk.bank 0 0).asleep = false ∧ (tk.bank 0 0).refreshEnd = none ∧
      2 ^ ((tk.reg (sensorReg 0 0)).toNat / 2 ^ 16 % 4) ≤ 4 ∧
      ((tk.now (deviceOfTile 0) : Int) - 195 * 0) % ((6240 / 2 ^ ((tk.reg (sensorReg 0 0)).toNat / 2 ^ 16 % 4) : Nat) : Int) = 0) ∧
    ((e.bank 0 0).refreshEnd = some 480 ∧ 480 ≤ e.cycle) ∧
    ((l.reg3 0 0x350110).getLsbD 63 = true ∧ l.bankLive 0 31 = true ∧ (l.bank 0 31).asleep = false ∧ (l.bank 0 31).openRow = none ∧
      (l.bank 0 31).repairs = [] ∧ (l.bank 0 31).refreshEnd = none ∧
      max (l.bank 0 31).last (l.device (deviceOfTile 0)).resetAt + (l.reg3 0 0x350110).toNat % 2 ^ 32 ≤ l.cycle) ∧
    ((z.bank 0 31).asleep = true ∧ ({ z.modTile 0 fun t => { t with strActive := [xfer1] } with cycle := 0 } : State).bankWanted 0 31 = true ∧
      (z.tile 0).inflight = []) ∧
    (32767 < 32768 ∧ 32767 ∉ (s.bank 0 0).repairs ∧ ∀ f ∈ (s.tile 0).inflight, s.bankAt f.msg.place ≠ (0, 32767)) ∧
    (spaceOfPlace 0 = 0 ∧ r.rowRepairing 0 = true ∧ 0 ∈ (r.bank 0 0).repairs) ∧
    (r.posted[0]? = some p ∧ r.canLand p = false ∧ r.arrivesHeld p = true ∧ 0 ∈ r.repairPlaces p) ∧
    (r.bankStops 0 = true ∧ s.bankStops 0 = false ∧ s.homesClear m.src m.slot m.uid m.place m.len = true) ∧
    (let q : State := { s with posted := [p] }
     q.posted.find? (fun x => x.seq = p.seq) = some p ∧ behindIn q.posted p = false ∧
      (p.bytes.all fun w => !q.byteStops p w && decide (∀ h' ∈ (q.heldFor w.addr).head?, h' = .store p.seq)) = true) := by
  decide +kernel

/-- Readings inside and outside the range, one that stands still and one far from its neighbours; a bank that is held and one
that is throttled; a retirement, a reinterleave and a move in each step, refused and taken; granule words. -/
theorem witness_SensorsRetirementAndDredger :
    let d := fun (m : Bool) (step : Nat) => tk.modTile 0 fun t => { t with dredge := some ⟨m, 2, 3, step, 0⟩ }
    let still : State := { (tk.setBank 0 32 { Bank.reset with reported := true }).modTile 0 fun t => { t with acts := [(0, 10), (1, 9)] } with
      cycle := 10 * actWindow }
    let near := tk.setBank 0 1 { Bank.reset with reported := true }
    let hot := tk.setReg (sensorReg 0 0) 0x2000
    let warm := (tk.setReg (sensorReg 0 0) 0x8000).setBank 0 0 { Bank.reset with lastAct := some 0 }
    let rei := tk.setReg2 0 0x10 0x8000000000000000
    let pinned := tk.setGranule 0 2 1
    (31 < 32 ∧ tk.judgeFailed 0 31 (-160) = false ∧ tk.judgeFailed 0 31 600 = false ∧ tk.judgeFailed 0 32 0 = false ∧
      tk.judgeFailed 0 31 601 = true) ∧
    (((-161 : Int) < -160 ∨ 600 < (-161 : Int)) ∧ still.sensorStill 0 32 0 = true ∧ near.neighbourMedian 0 0 = some 0 ∧
      120 < (2 * (61 : Int) - 0).natAbs) ∧
    ((tk.reg (sensorReg 0 0)).getLsbD 63 = false ∧ (tk.reg (bankSeep 0 0)).getLsbD 63 = false ∧
      tk.seepHeld.contains (bankSeep 0 0) = false) ∧
    (spaceOfPlace 0 = 0 ∧ (hot.reg (sensorReg (tileOfPlace 0) (hot.bankAt 0).1)).getLsbD 13 = true ∧
      (warm.reg (sensorReg (tileOfPlace 0) (warm.bankAt 0).1)).getLsbD 15 = true ∧ (warm.bank 0 0).openRow ≠ some (warm.bankAt 0).2 ∧
      (warm.bank 0 0).lastAct = some 0 ∧ warm.cycle < 0 + 64) ∧
    (tk.bankLive 0 31 = true ∧ 1 < popCount 32 ((tk.reg2 0 0).toNat % 2 ^ 32) ∧ (tk.reg2 0 0x10).getLsbD 63 = false ∧
      ∀ i < 32, tk.granule 0 ((popCount 32 ((tk.reg2 0 0).toNat % 2 ^ 32) - 1) * 32 + i) = 0) ∧
    ((tk.tile 0).dredge.isSome = false ∧ ((d true 2).tile 0).dredge.isSome = true ∧ (rei.reg2 0 0x10).getLsbD 63 = true ∧
      ((d false 3).tile 0).dredge = some ⟨false, 2, 3, 3, 0⟩) ∧
    ((0 * 2 ^ 21 < (tk.reg2 0 0x08).toNat % 2 ^ 32) ∧ ((tk.setReg2 0 0x08 0).reg2 0 0x08).toNat % 2 ^ 32 ≤ 0 * 2 ^ 21 ∧ 1023 < 1024) ∧
    (pinned.granule 0 2 = 1 ∧ pinned.granule 0 3 = 0 ∧ ¬((pinned.reg2 0 0x08).toNat % 2 ^ 32 ≤ 3 * 2 ^ 21) ∧ tk.granule 0 2 ≠ 1) ∧
    (((d true 2).tile 0).dredge = some ⟨true, 2, 3, 2, 0⟩ ∧ (d true 2).granuleBusy 0 2 = false ∧ (∀ b < 32, ((d true 2).bank 0 b).repairs = []) ∧
      (d true 2).ecc = [] ∧ (d true 2).soft = [] ∧ (d true 2).spanHeld (2 * 2 ^ 21) 64 = false ∧ ({ d true 2 with posted := [⟨5, 0, 1, 3, 4, false, 0, .plain, .dflt, [⟨2 * 2 ^ 21, 1, 0xFF, false⟩]⟩] } : State).granuleBusy
        0 2 = true) ∧
    (((d true 4).tile 0).dredge = some ⟨true, 2, 3, 4, 0⟩ ∧ (0 : BitVec 2) ||| (3 : W64).setWidth 2 = 3 ∧
      (0 : BitVec 2) ||| (2 : W64).setWidth 2 ≠ 3) ∧
    (tk.gmapRefused 0 31 1 = false ∧ 2 ≤ (tk.setGranule 0 4 2).granule 0 4 ∧ (0 : W64).toNat / 4 ^ 4 % 4 = 0) := by decide +kernel

/-- Commands of either kind, a swap that has run, shadow slots held, loaded and empty, a slot that stops with a wait that is
withdrawn and without one, a fill that reads its record, and what a written record leaves behind. -/
theorem witness_PreemptionBanks :
    let run : State := { (State.reset.modCore 0 fun c => { c with swapRun := some ⟨2, false, 0⟩ }) with cycle := 24 }
    let pend := State.reset.modCore 0 fun c => { c with swapPend := some ⟨2, false, 0⟩, swapAt := some 0 }
    let gone := State.reset.modThread 0 2 fun t => { t with saved := .idle }
    let x : Thread := { Thread.reset with saved := .ready }
    let on := (tk.modCore 0 fun c => { c with shadow := [(1, ⟨2, some x, 0, 0⟩)] }).modThread 0 1 fun t => { t with saved := .ready }
    let held := tk.modCore 0 fun c => { c with shadow := [(1, ⟨1, some Thread.reset, 0x4000, 0⟩)] }
    let til := (taskOn 128).modCore 128 fun c => { c with shadowTile := ⟨1, some EngineRegs.reset, 0x8000⟩ }
    let fill := State.reset.modCore 0 fun c => { c with fillRun := [⟨2, false, 0⟩], shadow := [(1, ⟨3, none, 0, 0⟩)] }
    let both : Core := { Core.reset with fillRun := [⟨2, true, 0⟩] }
    let away := State.reset.modCore 0 fun c => { c with away := SMap.set c.away (State.reset.savePlace 0 1 / 64) ⟨Thread.reset, 1, State.reset.savePlace 0 1, 0⟩ }
    ((0x4000000000000002 : Nat) / 2 ^ 62 = 1 ∧ (0x8000000000000002 : Nat) / 2 ^ 62 = 2) ∧
    ((run.core 0).swapRun = some ⟨2, false, 0⟩ ∧ 0 + 24 ≤ run.cycle ∧ (pend.core 0).swapRun = none ∧
      (pend.core 0).swapPend = some ⟨2, false, 0⟩ ∧ (pend.core 0).swapAt = some 0 ∧ 0 ≤ pend.cycle) ∧
    ((on.core 0).shadowSlot 1 = ⟨2, some x, 0, 0⟩ ∧ x.saved = .ready ∧ (on.thread 0 1).saved ≠ .idle) ∧
    ((gone.core 0).shadowSlot 2 = ⟨0, none, 0, 0⟩ ∧ (gone.core 0).swapRun = none ∧ (gone.thread 0 2).saved = .idle ∧ 15 < 16) ∧
    ((tk.thread 0 1).waits = [] ∧ ((wt (.yielding 9)).thread 0 1).waits.any (fun w => w.op.withdrawn false) = true) ∧
    (((held.core 0).shadowSlot 1).isHeld = true ∧ (∀ j < 1, ((held.core 0).shadowSlot j).isHeld = false) ∧
      ((held.core 0).shadowSlot 1).ctx = some Thread.reset ∧ held.rangeBusy 0x4000 5056 = false) ∧
    ((∀ k < 16, ((til.core 128).shadowSlot k).isHeld = false) ∧ (til.core 128).shadowTile.isHeld = true ∧
      (til.core 128).shadowTile.regs = some EngineRegs.reset ∧ til.rangeBusy 0x8000 36992 = false ∧ til.tileQuiet 0 = true) ∧
    (Core.reset.fillRun = [] ∧ (both.fillRun.any fun c => c.mask.getLsbD 1 && c.tile) = true) ∧
    Thread.reset.coffers.length ≤ 4 ∧
    ((fill.core 0).fillRun = ⟨2, false, 0⟩ :: [] ∧ setBitsOf 16 (2 : BitVec 16).toNat = [1] ∧ (fill.core 0).shadowSlot 1 = ⟨3, none, 0, 0⟩ ∧
      (fill.core 0).anyHeld = false ∧ (fill.core 0).swapRun = none ∧ fill.rangeBusy (fill.savePlace 0 1) 5056 = false) ∧
    (({ Thread.reset with handle := 9, uid := 5 } : Thread).handle ≠ 0 ∧ (State.reset.openedBy 5 fun _ => true) = []) ∧
    (State.reset.recordDamaged 0 = false ∧ ({ State.reset with marks := [0x1200 / 4] } : State).recordDamaged 0 = true) ∧
    (away.awayCore 0 (away.savePlace 0 1) = some 0 ∧ away.recordDamaged (away.savePlace 0 1) = false ∧ away.ecc = [] ∧ away.soft = []) := by
  decide +kernel

/-- A gate that can be requested, that is requested, in time and late; a die that saves, with a save place that is usable, that is
not, and whose bank sleeps; a thread and a loaded slot that it ends; a die that is gated, and in restore over each save place. -/
theorem witness_PowerGate :
    let g := fun (v : W64) => State.reset.setReg (gateReg 128) v
    let soon := (g 0x8000000000000000).modCore 128 fun c => { c with gateDue := 1 }
    let off := fun s : State => s.setReg (preReg 128 0x018) 1
    let asleep := fun s : State => s.setAsleep 0 ((s.bankAt (s.headPlace 128)).1) true
    let back := (g 0x3000000000000000).modCore 128 fun c =>
      { c with headSaved := some { Thread.reset with state := .waitingMessage, waits := [⟨false, 0, .reap 5⟩] } }
    let save := g 0x1000000000000000
    let live := (save.modThread 128 1 fun t => { t with state := .ready, task := 7 }).modCore 128 fun c =>
      { c with shadow := [(2, ⟨2, some Thread.reset, 0, 0⟩)] }
    let ok := fun s : State => s.placeOk 128 (s.headPlace 128) 5056
    let stops := fun s : State => s.bankStops (s.headPlace 128)
    let saves := fun s : State => s.gateState 128 = 1 ∧ (s.tile (tileOfCore 128)).engineQ = [] ∧ (s.core 128).anyHeld = false ∧
      (s.gateSlots 128).all (fun k => s.drained 128 k (s.thread 128 k).uid) = true
    let restores := fun s : State => s.gateState 128 = 3 ∧ ((s.core 128).headSaved.any fun h =>
      decide (h.waits = [⟨false, 0, .reap 5⟩]) && decide (h.held = RegFile.reset) && decide (h.state = .waitingMessage)) = true
    (isCompute 128 = true ∧ (State.reset.reg (gateReg 128)).getLsbD 63 = false ∧ State.reset.gateState 128 = 0) ∧
    (((g 0x8000000000000000).reg (gateReg 128)).getLsbD 63 = true ∧ ((g 0x8000000000000000).core 128).gateDue ≤ State.reset.cycle) ∧
    ((soon.reg (gateReg 128)).getLsbD 63 = true ∧ soon.cycle < (soon.core 128).gateDue) ∧
    (saves save ∧ ok save = true ∧ save.spanHeld (save.headPlace 128) 64 = false) ∧
    (saves (asleep save) ∧ ok (asleep save) = true ∧ (asleep save).spanHeld ((asleep save).headPlace 128) 64 = true) ∧
    (saves (off save) ∧ ok (off save) = false) ∧
    (saves live ∧ 1 ∈ live.gateSlots 128 ∧ 18 ∈ live.gateSlots 128 ∧ 1 % 16 ≠ 0 ∧ live.slotLive 128 1 = true ∧
      ((live.core 128).shadowSlot (18 - 16)).state = 2) ∧
    (g 0x2000000000000000).gateState 128 = 2 ∧
    (restores back ∧ ok back = true ∧ back.spanHeld (back.headPlace 128) 64 = false) ∧
    (restores (asleep back) ∧ ok (asleep back) = true ∧ stops (asleep back) = true) ∧
    (restores (off back) ∧ ok (off back) = false) ∧
    (((wt (.reap 5)).thread 0 1).findWait isReap = some ⟨false, 0, .reap 5⟩ ∧ (State.reset.thread 0 0).findWait isReap = none) := by
  decide +kernel

/-- Domains that are legal at both ends and not; a reset raised and not; resets of an engine, a port and a tile that are
due. -/
theorem witness_Resets :
    let r := fun (b : Boundary) (u : Nat) => State.reset.modDevice 0 fun d => { d with resets := [⟨b, u, .matrix, 0⟩] }
    let up := State.reset.modDevice 0 fun d => { d with raised := [(.tile, 0, .matrix)] }
    (domainOk 0 1 1 = true ∧ domainOk 1151 16 72 = true ∧ domainOk 0 17 1 = false) ∧
    (Boundary.tile ≠ .device ∧ (Boundary.tile, 0, EngineUnit.matrix) ∈ (up.device (resetDevice .tile 0)).raised ∧
      (Boundary.tile, 0, EngineUnit.matrix) ∉ (State.reset.device (resetDevice .tile 0)).raised) ∧
    (((r .tile 0).device 0).resets[0]? = some ⟨.tile, 0, .matrix, 0⟩ ∧ ((r .port 3).device 0).resets[0]? = some ⟨.port, 3, .matrix, 0⟩ ∧
      ((r .engine 0).device 0).resets[0]? = some ⟨.engine, 0, .matrix, 0⟩ ∧ 0 ≤ State.reset.cycle ∧
      ((r .tile 0).device 0).wellhead = true ∧ Boundary.tile ≠ .engine ∧ Boundary.tile ≠ .port) := by decide +kernel

/-- An image that does not pass; the vendor's signature is a free value (log 5), so an image that passes is one for which it
holds. -/
theorem witness_Images :
    imagePasses 0 ⟨⟨1, 0, 0, 0, []⟩, []⟩ = false ∧
    (∀ sig : List Byte, sig.length = 29792 → Config.signatureOk 1 0x100000000 0 (Config.digest []) sig = true →
      imagePasses 0 ⟨⟨1, 0x100000000, 0, Config.digest [], sig⟩, []⟩ = true) ∧
    ((State.reset.device 0).wellhead = true ∧
      ((State.reset.modDevice 0 fun d => { d with held := true }).device 0).wellhead = false) := by
  refine ⟨by simp [imagePasses], fun sig hl hs => ?_, by decide +kernel, by decide +kernel⟩
  have := (Config.fusedCounter 0).isLt
  simp only [imagePasses, hl, hs, List.length_nil, decide_true, beq_self_eq_true, Bool.and_self, Bool.true_and, decide_eq_true_eq]
  omega

/-- Places that basin does not reach, and a bridge whose granule 1 of tile 0 is exported, with its port up and down, its bank
awake and asleep, and messages behind others. -/
theorem witness_FirmwareAndHost :
    let b := (State.reset.setReg (domcfgReg 0) (domcfg 0 1 1)).setGranule 0 1 2
    let u := b.setReg (linkReg 0 17) 0x800000FFE0000000
    let z := b.setAsleep 0 0 true
    let m : HostMsg := .write 0x200000 [1]
    let r : HostMsg := .read (spaceBase 1 0) 4
    let l : HostMsg := .launch 0 0x200100
    let q := b.modDevice 0 fun d => { d with hostQ := [m, m, r] }
    (0 < 1 ∧ spaceOfPlace (spaceBase 0 1) < 2 ∧ 0 < 0x100 ∧ (0x400000 ≤ 0x400000 ∧ 0x400000 < 0x420000) ∧ deviceOfTile 0 = 0) ∧
    (u.hostIn 0 = true ∧ b.hostIn 0 = false ∧ 1 ≤ [(0 : Byte)].length ∧ [(0 : Byte)].length ≤ 128 ∧ 128 ≤ 128) ∧
    (b.hostPlace 0 0x200000 1 1 = true ∧ b.hostPlace 0 0x3FFF80 128 128 = true ∧ b.hostPlace 0 0x200100 256 256 = true ∧
      b.hostPlace 0 0 1 1 = false) ∧
    (m.span = (0x200000, 1) ∧ b.hostBusy 0 m = [] ∧ (b.device 0).hostQ = [] ∧ z.hostBusy 0 m ≠ [] ∧
      (q.device 0).hostQ.any m.after = true ∧ l.after m = true ∧ r.after m = false) ∧
    ((q.device 0).hostQ = [m] ++ m :: [r] ∧ [m].any m.after = true ∧ (q.device 0).hostQ = [m, m] ++ r :: [] ∧
      [m, m].any r.after = false ∧ (∀ e ∈ ([] : List HostMsg), m.after e = false)) ∧
    (z.hostPlace 0 0x200000 128 128 = true ∧ (z.bank 0 (z.bankAt 0x200000).1).asleep = true ∧ 0x200000 % 2048 + 8 ≤ 2048) := by
  decide +kernel

/-- A device that quiesces, idle and with a task, with a port that is up and with none. -/
theorem witness_Checkpoints :
    let q := State.reset.modDevice 0 fun d => { d with ckpt := .quiescing }
    let busy := q.modThread 0 1 fun t => { t with state := .ready, task := 7 }
    let up := (q.modDevice 0 fun d => { d with tier := some 1 }).setReg (linkReg 0 17) 0x800000FFE0000000
    let named := State.reset.modDevice 0 fun d => { d with tier := some 1 }
    ((State.reset.device 0).ckpt = .none ∧ (q.device 0).ckpt = .quiescing ∧ q.quiesced 0 = true ∧ busy.quiesced 0 = false ∧
      q.tierPorts 0 = [] ∧ (named.device 0).ckpt = .none ∧ (named.device 0).tier = some 1 ∧ (up.device 0).ckpt = .quiescing ∧
      (up.device 0).tier = some 1 ∧ up.quiesced 0 = true ∧ up.tierPorts 0 = [17]) := by decide +kernel

/-- A live copy that goes on, that is complete, and whose port has carried its share; a copy in the safe tier for a device that
has been reset. -/
theorem witness_CheckpointCopies :
    let q := State.reset.modDevice 0 fun d => { d with tier := some 1 }
    let x : Snapshot := ⟨0, true, 1, [], [], [], []⟩
    let up := q.setReg (linkReg 0 17) 0x800000FFE0000000
    let full : Snapshot := { x with shares := [(17, deviceBytes)] }
    let v := up.modDevice 0 fun d => { d with ckpt := .live, copy := some (x, []) }
    let w := up.modDevice 0 fun d => { d with ckpt := .live, copy := some (x, [(0, 64)]) }
    let z := up.modDevice 0 fun d => { d with ckpt := .live, copy := some (full, [(0, 64)]) }
    let c : State := { up.modDevice 0 fun d => { d with ckpt := .none, blank := true } with safeTier := [⟨0, false, 1, [], [(5, 1)], [], []⟩] }
    ((v.device 0).ckpt = .live ∧ (v.device 0).copy = some (x, []) ∧ (w.device 0).copy = some (x, [(0, 64)])) ∧
    (cutRange 8 16 [(0, 64)] = some [(0, 8), (24, 40)] ∧ 17 ∈ w.tierPorts 0 ∧ w.ecc = [] ∧
      (SMap.get 0 x.shares 17 : Nat) + 16 ≤ (if (w.tierPorts 0).length = 3 then deviceBytes / 3 else deviceBytes) ∧
      (z.device 0).copy = some (full, [(0, 64)]) ∧
      (if (z.tierPorts 0).length = 3 then deviceBytes / 3 else deviceBytes) < (SMap.get 0 full.shares 17 : Nat) + 16) ∧
    (8 ≤ 23 ∧ 23 < 24 ∧ x.mem = [] ∧ Memory.wf w.mem = true) ∧
    (c.safeTier = [] ++ ⟨0, false, 1, [], [(5, 1)], [], []⟩ :: [] ∧ (c.device 0).tier = some 1 ∧ c.tierPorts 0 ≠ [] ∧ c.noTasks 0 = true ∧
      (c.device 0).ckpt = .none ∧ (c.device 0).inReset = false ∧ (c.device 0).blank = true ∧ Memory.wf c.mem = true ∧
      Memory.wf [(5, 1)] = true ∧ 5 / 2 ^ 52 = 0) := by decide +kernel

/-- Buses with and without a retraining, with a lane that fails and none, and a transfer that a launch in a bar waits for. -/
theorem witness_Buses :
    let b := State.reset.modTile 0 fun t => { t with retrain := [(0, ⟨false, 1, false, 0⟩)] }
    let a := State.reset.modTile 0 fun t => { t with retrain := [(0, ⟨true, 1, false, 0⟩)] }
    let f := State.reset.modTile 0 fun t => { t with busFails := [(3, List.replicate 16 0)] }
    let x := (b.modTile 0 fun t => { t with strActive := [{ xfer1 with handle := 9, passed := true }] }).modThread 0 1 fun t =>
      { t with handle := 9, state := .waitingMessage, waits := [⟨false, 0, .barred 0 0 0⟩] }
    ((State.reset.reg (busReg 0)).getLsbD 63 = true ∧ State.reset.riserIdle 0 = true ∧ State.reset.vaultIdle 0 = true ∧
      (State.reset.tile 0).retrainOf true = none ∧ (State.reset.tile 0).retrainOf false = none ∧ 1 ≠ 0) ∧
    (State.reset.failingLanes 0 true = [] ∧ f.failingLanes 0 true = [3] ∧ (f.tile 0).retrainOf true = none) ∧
    ((b.tile 0).retrainOf false = some ⟨false, 1, false, 0⟩ ∧ b.mustDefer 0 false ⟨false, 1, false, 0⟩ = false ∧
      x.mustDefer 0 false ⟨false, 1, false, 0⟩ = true ∧ (x.tile 0).retrainOf false = some ⟨false, 1, false, 0⟩) ∧
    (a.tile 0).retrainOf false = some ⟨true, 1, false, 0⟩ := by decide +kernel

/-- A port that is up and sends, that has a packet on its way, answers and packets to replay; one that must retrain, one in
training, and one that fails for the third time. -/
theorem witness_Links :
    let k : LinkPacket := ⟨0, 1, .full 0, 0⟩
    let up := State.reset.setReg (linkReg 0 17) 0x800000FFE0000000
    let pair := (State.reset.setReg (linkReg 0 0) 0x8000000020000000).setPort 1 0 { Port.reset with wire := [k], answers := [(true, 0)] }
    let rp := up.setPort 0 17 { Port.reset with replay := [(k, 7)], oldest := 0 }
    let ok := pair.setPort 0 0 { Port.reset with replay := [(k, 0)] }
    let nak := pair.setPort 1 0 { Port.reset with answers := [(false, 0)] }
    let bad := up.setPort 0 17 { Port.reset with replay := [(k, 8)] }
    let tr := State.reset.setPort 0 17 { Port.reset with training := true }
    ((up.linkUp 0 17 = true ∧ (up.linkPeer 0 17).1 = 0x7FF) ∧ (pair.linkUp 0 0 = true ∧ pair.linkPeer 0 0 = (1, 0) ∧
      (pair.port 1 0).wire.head? = some k)) ∧
    ((up.port 0 17).canSend k = true ∧ ({ Port.reset with txTable := [(31, 5)] } : Port).canSend ⟨0, 1024, .index 31, 0⟩ = true) ∧
    (ok.answered 0 0 true 0 = true ∧ (ok.port 0 0).replay = [] ++ (k, 0) :: [] ∧ k.seq = 0) ∧
    (nak.answered 0 0 false 0 = true ∧ (nak.takeAnswer 0 0).canResend 0 0 = false ∧ rp.answered 0 17 false 5 = true ∧
      (rp.takeAnswer 0 17).canResend 0 17 = true) ∧
    (rp.canResend 0 17 = true ∧ (rp.port 0 17).oldest + 2048 ≤ ({ rp with cycle := 2048 } : State).cycle) ∧
    (17 < 18 ∧ 7 < 8 ∧ (up.port 0 17).training = false ∧ (up.port 0 17).failed < 3 ∧ up.linkState 0 17 = 2 ∧
      (up.port 0 17).replay.all (fun e => decide (e.2 < 8)) = true ∧ failsDue (SMap.get [] (up.port 0 17).fails 7) up.cycle = false) ∧
    (bad.linkState 0 17 = 2 ∧ (bad.port 0 17).replay.any (fun e => decide (8 ≤ e.2)) = true) ∧
    ((tr.port 0 17).training = true ∧ tr.wired 0 17 ≠ none ∧ tr.wired 0 18 = none ∧
      2 ≤ ((tr.setPort 0 17 { Port.reset with training := true, failed := 2 }).port 0 17).failed) ∧
    (let d := State.reset.setReg (domcfgReg 0) (domcfg 0 16 1);
      15 < 16 ∧ 15 ≠ 0 % 16 ∧ 15 < (d.reg (domcfgReg 0)).toNat / 2 ^ 38 % 2 ^ 5) := by
  decide +kernel

/-- A line that arrives clean and poisoned; words of space 2 around the lease page; the map's first and last words. -/
theorem witness_LinesAndRegisterWrites :
    let w := wt (.fetch 0x40 0 0x40)
    let p : State := { w with marks := [0x40 / 4] }
    let l := p.modThread 0 1 fun t => { t with latch := some ⟨0, 0, none, 0, false, false⟩ }
    ((w.thread 0 1).findWait isFetch = some ⟨false, 0, .fetch 0x40 0 0x40⟩ ∧ w.bankBusy 0x40 = false ∧ w.ecc = [] ∧ w.soft = [] ∧
      poisoned (w.peek 0x40 64) = false) ∧
    ((l.thread 0 1).findWait isFetch = some ⟨false, 0, .fetch 0x40 0 0x40⟩ ∧ poisoned (l.peek 0x40 64) = true ∧
      (l.thread 0 1).latch.isSome = true ∧ l.ecc = [] ∧ l.soft = [] ∧ l.bankBusy 0x40 = false) ∧
    (spaceOfPlace (spaceBase 0 2) = 2 ∧ spaceOfPlace (spaceBase 0 3) = 3) ∧
    (0x2F8 % 8 = 0 ∧ ¬(0x300 ≤ 0x2F8 ∧ 0x2F8 < 0x380) ∧ 0x380 % 8 = 0 ∧ ¬(0x300 ≤ 0x380 ∧ 0x380 < 0x380)) ∧ 31 < 32 ∧
    ((State.reset.tile 0).inbox = [] ∧ (State.reset.tile 0).backwater = []) ∧
    (let ring := spaceBase 0 2 + 0x430
     let floor := spaceBase 0 2 + 0x118
     ridxOf ring = some (0, 1) ∧ ridxOf floor = none ∧ floorOf floor = some 0 ∧ regOrder (spaceBase 0 2) = none ∧
      regOrder floor = some (directoryUnit 0, lastFloorKey) ∧ tk.inOrder (ringUnit 0 1) (reserveKey - 1) = true ∧
      (tk.ordered (ringUnit 0 1) reserveKey).inOrder (ringUnit 0 1) (reserveKey - 1) = false) := by decide +kernel

end Sys2Proof.Machine
end

/-! PROOFS. What a register and a byte of memory read as after each update of them (R6, R9, R10, R69). -/

namespace Sys2Proof.Machine

/-! Registers. -/

theorem RegFile.getS_setS (r : RegFile) (m n : Nat) (v : SVal) :
    (r.setS m v).getS n = if n = 0 then ⟨0, false⟩ else if n = m then v else r.getS n := by
  unfold RegFile.getS RegFile.setS
  by_cases hn : n = 0
  · simp [hn]
  · by_cases hm : m = 0
    · simp [hm, hn]
    · simp [hm, hn, SMap.get_set]

theorem RegFile.getV_setV (r : RegFile) (m n : Nat) (v : VVal) :
    (r.setV m v).getV n = if n = m then v else r.getV n := SMap.get_set ..

theorem RegFile.getP_setP (r : RegFile) (m n : Nat) (v : W64) :
    (r.setP m v).getP n = if n = 0 then BitVec.allOnes 64 else if n = m then v else r.getP n := by
  unfold RegFile.getP RegFile.setP
  by_cases hn : n = 0
  · simp [hn]
  · by_cases hm : m = 0
    · simp [hm, hn]
    · simp [hm, hn, SMap.get_set]

theorem RegFile.getB_setB (r : RegFile) (m n : Nat) (v : BitVec 40) :
    (r.setB m v).getB n = if n = m then v else r.getB n := SMap.get_set ..

theorem RegFile.setS_otherFiles (r : RegFile) (n : Nat) (v : SVal) :
    (r.setS n v).v = r.v ∧ (r.setS n v).p = r.p ∧ (r.setS n v).b = r.b := by
  unfold RegFile.setS
  split <;> exact ⟨rfl, rfl, rfl⟩

/-! One byte of memory. -/

/-- In the canonical form no address up to the bound has a cell. -/
theorem memRead_of_le_bound (lo : Nat) (m : List Host.Cell) (a : Nat) (h : Memory.wfFrom (some lo) m = true) (ha : a ≤ lo) :
    memRead m a = 0 := by
  induction m generalizing lo with
  | nil => rfl
  | cons e r ih =>
    obtain ⟨k, v⟩ := e
    obtain ⟨hk, -, hr⟩ := (Memory.wfFrom_cons ..).1 h
    have hlt : lo < k := hk lo rfl
    rw [memRead, if_neg (by omega), ih k hr (by omega)]

theorem memRead_memInsert (m : List Host.Cell) (a b : Nat) (v : Byte) :
    memRead (memInsert m a v) b = if b = a then v else memRead m b := by
  induction m with
  | nil => rfl
  | cons e r ih =>
    obtain ⟨k, x⟩ := e
    unfold memInsert
    split
    · subst_vars
      simp only [memRead]
      split <;> rfl
    · split
      · rfl
      · simp only [memRead, ih]
        by_cases hb : b = k
        · rw [if_pos hb, if_pos hb, if_neg (by omega)]
        · rw [if_neg hb, if_neg hb]

theorem memRead_memErase (lo : Option Nat) (m : List Host.Cell) (a b : Nat) (h : Memory.wfFrom lo m = true) :
    memRead (memErase m a) b = if b = a then 0 else memRead m b := by
  induction m generalizing lo with
  | nil => simp [memErase, memRead]
  | cons e r ih =>
    obtain ⟨k, x⟩ := e
    obtain ⟨-, -, hr⟩ := (Memory.wfFrom_cons ..).1 h
    unfold memErase
    by_cases ha : a = k
    · subst ha
      by_cases hb : b = a
      · simp [hb, memRead_of_le_bound a r a hr (Nat.le_refl a)]
      · simp [hb, memRead]
    · simp only [ha, if_false, memRead, ih _ hr]
      by_cases hb : b = k
      · rw [if_pos hb, if_pos hb, if_neg (by omega)]
      · rw [if_neg hb, if_neg hb]

theorem memRead_memWrite (m : List Host.Cell) (a b : Nat) (v : Byte) (h : Memory.wf m = true) :
    memRead (memWrite m a v) b = if b = a then v else memRead m b := by
  unfold memWrite
  split
  · subst_vars
    exact memRead_memErase none m a b h
  · exact memRead_memInsert m a b v

/-! Memories that read alike. -/

/-- The first cell of a canonical form has the least address that does not read as 0. -/
theorem firstCell_le_of_memRead (lo : Option Nat) (k a : Nat) (v : Byte) (r : List Host.Cell)
    (h : Memory.wfFrom lo ((k, v) :: r) = true) (ha : memRead ((k, v) :: r) a ≠ 0) : k ≤ a := by
  obtain ⟨-, -, hr⟩ := (Memory.wfFrom_cons ..).1 h
  exact Nat.le_of_not_lt fun hlt =>
    ha (by rw [memRead, if_neg (by omega), memRead_of_le_bound k r a hr (Nat.le_of_lt hlt)])

theorem Memory.ext_of_memRead (lo lo' : Option Nat) (m k : List Host.Cell) (hm : Memory.wfFrom lo m = true)
    (hk : Memory.wfFrom lo' k = true) (h : ∀ a, memRead m a = memRead k a) : m = k := by
  induction m generalizing lo lo' k with
  | nil =>
    cases k with
    | nil => rfl
    | cons e r =>
      obtain ⟨a, v⟩ := e
      obtain ⟨-, hv, -⟩ := (Memory.wfFrom_cons ..).1 hk
      have hr := h a
      simp only [memRead, if_true] at hr
      exact absurd hr.symm hv
  | cons e r ih =>
    obtain ⟨a, v⟩ := e
    obtain ⟨-, hv, hr⟩ := (Memory.wfFrom_cons ..).1 hm
    have ha : memRead k a = v := by rw [← h a]; simp [memRead]
    cases k with
    | nil => exact absurd ha.symm hv
    | cons e' r' =>
      obtain ⟨b, w⟩ := e'
      obtain ⟨-, hw, hr'⟩ := (Memory.wfFrom_cons ..).1 hk
      have hb : memRead ((a, v) :: r) b = w := by rw [h b]; simp [memRead]
      have hba : b ≤ a := firstCell_le_of_memRead lo' b a w r' hk (ha ▸ hv)
      have hab : a ≤ b := firstCell_le_of_memRead lo a b v r hm (hb ▸ hw)
      obtain rfl : a = b := by omega
      obtain rfl : w = v := by simpa [memRead] using ha
      have tails : ∀ c, memRead r c = memRead r' c := fun c => by
        by_cases hc : c = a
        · subst hc
          rw [memRead_of_le_bound c r c hr (Nat.le_refl c), memRead_of_le_bound c r' c hr' (Nat.le_refl c)]
        · simpa [memRead, hc] using h c
      rw [ih (some a) (some a) r' hr hr' tails]

/-! A copied range. -/

/-- Writing every cell of a canonical form over a memory: what the form does not list reads as before. -/
theorem memRead_writeAll (lo : Option Nat) (l m : List Host.Cell) (a : Nat) (hl : Memory.wfFrom lo l = true)
    (hm : Memory.wf m = true) :
    memRead (l.foldl (fun m c => memWrite m c.1 c.2) m) a = if memRead l a = 0 then memRead m a else memRead l a := by
  induction l generalizing lo m with
  | nil => rfl
  | cons e r ih =>
    obtain ⟨k, v⟩ := e
    obtain ⟨-, hv, hr⟩ := (Memory.wfFrom_cons ..).1 hl
    rw [List.foldl_cons, ih _ _ hr (Memory.wf_memWrite _ _ _ hm), memRead_memWrite m k a v hm]
    by_cases ha : a = k
    · subst ha
      rw [if_pos (memRead_of_le_bound a r a hr (Nat.le_refl a))]
      simp only [memRead, if_true, if_neg hv]
    · simp [memRead, ha]

theorem memRead_filter (m : List Host.Cell) (p : Nat → Bool) (a : Nat) :
    memRead (m.filter fun c => p c.1) a = if p a then memRead m a else 0 := by
  induction m with
  | nil => simp [memRead]
  | cons e r ih =>
    obtain ⟨k, v⟩ := e
    rw [List.filter_cons]
    by_cases ha : a = k
    · subst ha
      by_cases hp : p a <;> simp [hp, memRead, ih]
    · by_cases hp : p k <;> simp [hp, ha, memRead, ih]

/-- Cells from `src` on, moved to `dst`. -/
def shiftCells (src dst : Nat) (m : List Host.Cell) : List Host.Cell := m.map fun c => (c.1 - src + dst, c.2)

/-- A range copied is the cells of the source, moved, written over the memory without the destination's. -/
theorem copyCells_eq (m : List Host.Cell) (src dst n : Nat) :
    copyCells m src dst n =
      (shiftCells src dst (m.filter fun c => decide (src ≤ c.1) && decide (c.1 < src + n))).foldl
        (fun m c => memWrite m c.1 c.2) (m.filter fun c => !(decide (dst ≤ c.1) && decide (c.1 < dst + n))) := rfl

theorem memRead_shiftCells (src dst : Nat) (m : List Host.Cell) (a : Nat) (h : ∀ c ∈ m, src ≤ c.1) :
    memRead (shiftCells src dst m) a = if dst ≤ a then memRead m (a - dst + src) else 0 := by
  induction m with
  | nil => simp [shiftCells, memRead]
  | cons e r ih =>
    obtain ⟨k, v⟩ := e
    obtain ⟨hk, hr⟩ := List.forall_mem_cons.1 h
    simp only [shiftCells, List.map_cons, memRead] at ih hk ⊢
    rw [ih hr]
    by_cases hd : dst ≤ a
    · simp only [hd, if_true, show a = k - src + dst ↔ a - dst + src = k by omega]
    · rw [if_neg (by omega), if_neg hd, if_neg hd]

/-- Moving cells keeps their addresses rising. -/
theorem wfFrom_shiftCells (src dst : Nat) (lo : Option Nat) (m : List Host.Cell) (h : ∀ c ∈ m, src ≤ c.1)
    (hlo : ∀ l, lo = some l → src ≤ l) (hm : Memory.wfFrom lo m = true) :
    Memory.wfFrom (lo.map fun l => l - src + dst) (shiftCells src dst m) = true := by
  induction m generalizing lo with
  | nil => cases lo <;> rfl
  | cons e r ih =>
    obtain ⟨k, v⟩ := e
    obtain ⟨hk, hr⟩ := List.forall_mem_cons.1 h
    obtain ⟨hlt, hv, hw⟩ := (Memory.wfFrom_cons ..).1 hm
    have hbound : ∀ l, (lo.map fun l => l - src + dst) = some l → l < k - src + dst := fun l hl => by
      obtain ⟨x, hx, rfl⟩ := Option.map_eq_some_iff.1 hl
      have := hlo x hx
      have := hlt x hx
      omega
    exact (Memory.wfFrom_cons ..).2 ⟨hbound, hv, ih (some k) hr (fun l hl => Option.some.inj hl ▸ hk) hw⟩

theorem memRead_copyCells (m : List Host.Cell) (src dst n a : Nat) (h : Memory.wf m = true) :
    memRead (copyCells m src dst n) a = if dst ≤ a ∧ a < dst + n then memRead m (a - dst + src) else memRead m a := by
  have inSource : ∀ c ∈ m.filter fun c => decide (src ≤ c.1) && decide (c.1 < src + n), src ≤ c.1 := fun c hc => by
    simpa using (Bool.and_eq_true_iff.1 (List.mem_filter.1 hc).2).1
  have moved := memRead_shiftCells src dst _ a inSource
  rw [memRead_filter m (fun x => decide (src ≤ x) && decide (x < src + n))] at moved
  have kept := memRead_filter m (fun x => !(decide (dst ≤ x) && decide (x < dst + n))) a
  rw [copyCells_eq, memRead_writeAll none _ _ a
    (wfFrom_shiftCells src dst none _ inSource nofun (Memory.wf_filter m _ h)) (Memory.wf_filter m _ h), moved, kept]
  by_cases hd : dst ≤ a ∧ a < dst + n
  · have hs : src ≤ a - dst + src ∧ a - dst + src < src + n := by omega
    simp [hd, hs, eq_comm]
  · have hs : ¬(dst ≤ a ∧ a - dst + src < src + n) := by omega
    grind

/-- Settles O7, from one read-after-write lemma per update and the reading of canonical memories. -/
theorem registersAndMemory : Obligations.RegistersAndMemory := by
  unfold Obligations.RegistersAndMemory
  refine ⟨⟨RegFile.getS_setS, RegFile.getV_setV, RegFile.getP_setP, RegFile.getB_setB, fun r m n v => ?_⟩,
    memRead_memWrite, Memory.ext_of_memRead none none, fun m src dst n a h _ => memRead_copyCells m src dst n a h⟩
  obtain ⟨hv, hp, hb⟩ := RegFile.setS_otherFiles r m v
  simp only [RegFile.getV, RegFile.getP, RegFile.getB, hv, hp, hb, and_self]

end Sys2Proof.Machine

/-! PROOFS. A form that computes traps, or changes one register of its thread and the pc (R7, R16, R27). -/

namespace Sys2Proof.Machine

/-! The frame of an update of the executing thread. -/

theorem OnlyThread.trans {s t u : State} {core slot : Nat} (h : OnlyThread s t core slot) (k : OnlyThread t u core slot) :
    OnlyThread s u core slot where
  bytes a := (k.bytes a).trans (h.bytes a)
  marks := k.marks.trans h.marks
  units := ⟨k.units.1.trans h.units.1, k.units.2.1.trans h.units.2.1, k.units.2.2.1.trans h.units.2.2.1,
    k.units.2.2.2.trans h.units.2.2.2⟩
  transit := ⟨k.transit.1.trans h.transit.1, k.transit.2.trans h.transit.2⟩
  reaches c i := (k.reaches c i).trans (h.reaches c i)
  others c j hj hne := (k.others c j hj hne).trans (h.others c j hj hne)

theorem State.onlyThread_advance (s : State) : OnlyThread s s.advance s.cur.core s.cur.slot :=
  State.onlyThread_modCur s _

/-- Going on leaves the registers of the thread. -/
theorem State.onlyRegs_advance (s : State) : s.cth.onlyRegs s.advance.cth id := by
  rw [State.cth_advance]
  split
  · exact ⟨_, _, rfl⟩
  · exact ⟨_, _, rfl⟩

/-- An update of the registers of the executing thread. -/
def State.modRegs (s : State) (f : RegFile → RegFile) : State := s.modCur fun t => { t with regs := f t.regs }

theorem State.onlyThread_modRegs_advance (s : State) (f : RegFile → RegFile) :
    OnlyThread s (s.modRegs f).advance s.cur.core s.cur.slot :=
  (State.onlyThread_modCur s _).trans (State.onlyThread_advance (s.modRegs f))

theorem State.onlyRegs_modRegs_advance (s : State) (f : RegFile → RegFile) :
    s.cth.onlyRegs (s.modRegs f).advance.cth f := by
  obtain ⟨p, q, h⟩ := State.onlyRegs_advance (s.modRegs f)
  exact ⟨p, q, by rw [h, State.modRegs, State.cth_modCur]; rfl⟩

/-! What a form that computes answers. -/

/-- The answers of a form that computes, and writes its result by `write`: it traps, it only goes on, or it writes a value
and goes on. -/
inductive Computes {α : Type} (write : α → RegFile → RegFile) (s : State) : Host.Outcome State Fault Refusal → Prop where
  | traps (b : Bad) : Computes write s (.next (s.raise b))
  | goesOn : Computes write s (.next s.advance)
  | writes (v : α) : Computes write s (.next (s.modRegs (write v)).advance)

/-- The checks and the effect of such a form. -/
inductive Yields {α : Type} (write : α → RegFile → RegFile) (s : State) : Chk Fin → Prop where
  | fails (b : Bad) : Yields write s (.error b)
  | gives (v : α) : Yields write s (.ok (.done (s.modRegs (write v))))

/-- The frame of every form that computes. -/
theorem Computes.frame {α : Type} {write : α → RegFile → RegFile} {s t : State} (h : Computes write s (.next t)) :
    (∃ b, t = s.raise b) ∨ (OnlyThread s t s.cur.core s.cur.slot ∧ ∃ f : RegFile → RegFile, (f = id ∨ ∃ v, f = write v) ∧
      (s.thread s.cur.core s.cur.slot).onlyRegs (t.thread s.cur.core s.cur.slot) f) := by
  cases h with
  | traps b => exact .inl ⟨b, rfl⟩
  | goesOn => exact .inr ⟨s.onlyThread_advance, id, .inl rfl, s.onlyRegs_advance⟩
  | writes v => exact .inr ⟨s.onlyThread_modRegs_advance _, write v, .inr ⟨v, rfl⟩, s.onlyRegs_modRegs_advance _⟩

section
variable {α : Type} {write : α → RegFile → RegFile} {s : State}

/-- A check in front of an effect only adds a trap. -/
theorem Yields.bind {β : Type} {k : β → Chk Fin} (c : Chk β) (h : ∀ x, Yields write s (k x)) : Yields write s (c >>= k) := by
  cases c with
  | error b => exact .fails b
  | ok x => exact h x

theorem Yields.computes {r : Chk Fin} (h : Yields write s r) : Computes write s (s.finish r) := by
  cases h with
  | fails b => exact .traps b
  | gives v => exact .writes v

theorem Yields.computes_complete {f : State → Chk Fin} (g : Guard) (h : Yields write s (f s)) :
    Computes write s (complete g s f) := by
  unfold complete
  split
  · exact h.computes
  · exact .goesOn

end

/-! Where a form writes its result: a scalar, a vector, a predicate or a bit address register. -/

abbrev intoS (d : SReg) : SVal → RegFile → RegFile := fun v r => r.setS d.toNat v
abbrev intoV (d : VReg) : VVal → RegFile → RegFile := fun v r => r.setV d.toNat v
abbrev intoP (d : PReg) : W64 → RegFile → RegFile := fun v r => r.setP d.toNat v
abbrev intoB (d : BReg) : BitVec 40 → RegFile → RegFile := fun v r => r.setB d.toNat v

/-! The shapes of the forms that write a scalar register. -/

theorem computes_regOp (o : SSS) (s : State) (f : W64 → W64 → W64) : Computes (intoS o.d) s (regOp o s f) :=
  (Yields.gives _).computes_complete o.g

theorem computes_immOp (o : SSI) (s : State) (f : W64 → W64 → W64) : Computes (intoS o.d) s (immOp o s f) :=
  (Yields.gives _).computes_complete o.g

theorem computes_shiftOp (o : SSN) (s : State) (f : W64 → Nat → W64) : Computes (intoS o.d) s (shiftOp o s f) :=
  (Yields.gives _).computes_complete o.g

theorem computes_unOp (o : SS) (s : State) (f : W64 → W64) : Computes (intoS o.d) s (unOp o s f) :=
  (Yields.gives _).computes_complete o.g

theorem computes_triOp (o : SSSS) (s : State) (f : W64 → W64 → W64 → W64) : Computes (intoS o.d) s (triOp o s f) :=
  (Yields.gives _).computes_complete o.g

theorem computes_execLi (o : SI) (s : State) : Computes (intoS o.d) s (execLi o s) :=
  (Yields.gives _).computes_complete o.g

theorem computes_execLpc (o : SI) (s : State) : Computes (intoS o.d) s (execLpc o s) :=
  (Yields.gives _).computes_complete o.g

theorem computes_execSel (o : SSSP) (s : State) : Computes (intoS o.d) s (execSel o s) :=
  (Yields.gives _).computes_complete o.g

theorem computes_execBfx (o : BfxF) (s : State) : Computes (intoS o.d) s (execBfx o s) :=
  (Yields.gives _).computes_complete o.g

theorem computes_execBfxu (o : BfxF) (s : State) : Computes (intoS o.d) s (execBfxu o s) :=
  (Yields.gives _).computes_complete o.g

theorem computes_execBfi (o : BfiF) (s : State) : Computes (intoS o.d) s (execBfi o s) :=
  (Yields.gives _).computes_complete o.g

theorem computes_execBget (o : BgetF) (s : State) : Computes (intoS o.d) s (execBget o s) :=
  (Yields.gives _).computes_complete o.g

theorem computes_execQfree (o : QfreeF) (s : State) : Computes (intoS o.d) s (execQfree o s) :=
  (Yields.gives _).computes_complete o.g

theorem computes_execShrd (o : ShrdF) (s : State) : Computes (intoS o.d) s (execShrd o s) :=
  (Yields.gives _).computes_complete o.g

theorem computes_execGrd (o : GrdF) (s : State) : Computes (intoS o.d) s (execGrd o s) :=
  (Yields.gives _).computes_complete o.g

theorem computes_execMfs (o : MfsF) (s : State) : Computes (intoS o.d) s (execMfs o s) :=
  (Yields.bind _ fun _ => .gives _).computes_complete o.g

theorem computes_execVextr (o : SVST) (s : State) : Computes (intoS o.d) s (execVextr o s) := by
  unfold execVextr
  dsimp only
  split
  · exact .writes _
  · exact .goesOn

theorem computes_reduceOp (o : SVT) (s : State) (f : List Nat → W64) : Computes (intoS o.d) s (reduceOp o s f) := .writes _

theorem computes_execVfredadd (o : SVT) (s : State) : Computes (intoS o.d) s (execVfredadd o s) := .writes _

theorem computes_execVfdot (o : DotF) (s : State) : Computes (intoS o.d) s (execVfdot o s) := .writes _

/-- Every form of `Instr.scalarResult` computes into its register. -/
theorem computes_of_scalarResult (i : Instr) (d : SReg) (s : State) (h : i.scalarResult = some d) :
    Computes (intoS d) s (exec i s) := by
  cases i with
  | add o | sub o | and o | or o | xor o | andn o | sll o | srl o | sra o | rol o | min o | max o | minu o | maxu o
    | mul o | mulh o | mulhu o | slt o | sltu o => cases h; dsimp only [exec]; exact computes_regOp o s _
  | addi o | andi o | ori o | xori o => cases h; dsimp only [exec]; exact computes_immOp o s _
  | slli o | srli o | srai o | roli o => cases h; dsimp only [exec]; exact computes_shiftOp o s _
  | clz o | ctz o | popc o | bswap o | brev o => cases h; dsimp only [exec]; exact computes_unOp o s _
  | bins o | bplim o => cases h; dsimp only [exec]; exact computes_triOp o s _
  | li o => cases h; exact computes_execLi o s
  | lpc o => cases h; exact computes_execLpc o s
  | sel o => cases h; exact computes_execSel o s
  | bfx o => cases h; exact computes_execBfx o s
  | bfxu o => cases h; exact computes_execBfxu o s
  | bfi o => cases h; exact computes_execBfi o s
  | bget o => cases h; exact computes_execBget o s
  | qfree o => cases h; exact computes_execQfree o s
  | shrd o => cases h; exact computes_execShrd o s
  | grd o => cases h; exact computes_execGrd o s
  | mfs o => cases h; exact computes_execMfs o s
  | vextr o => cases h; exact computes_execVextr o s
  | vredadd o | vredmin o | vredmax o => cases h; dsimp only [exec]; exact computes_reduceOp o s _
  | vfredadd o => cases h; exact computes_execVfredadd o s
  | vfdot o => cases h; exact computes_execVfdot o s
  | _ => cases h

/-! The shapes of the forms that write lanes of a vector register. -/

theorem computes_laneForm (g : Guard) (ty : ElemTy) (d : VReg) (s : State) (f : Nat → Nat × Bool) :
    Computes (intoV d) s (s.laneForm g ty d.toNat f) := .writes _

theorem computes_sumOp (o : VVV) (s : State) (f : Fmt → Nat → Nat → Nat) : Computes (intoV o.d) s (sumOp o s f) := by
  unfold sumOp
  split
  · exact .writes _
  · exact computes_laneForm ..

/-- Every form of `Instr.vectorResult` computes into its register. -/
theorem computes_of_vectorResult (i : Instr) (d : VReg) (s : State) (h : i.vectorResult = some d) :
    Computes (intoV d) s (exec i s) := by
  cases i with
  | vadd o | vsub o | vmul o | vmin o | vmax o | vand o | vor o | vxor o | vsll o | vsrl o | vsra o | vadds o
    | vfmul o | vfmin o | vfmax o | vperm o | vfma o | vfabs o | vfneg o | vbcast o | vrot o | vsel o =>
    cases h; dsimp only [exec]; exact computes_laneForm o.g o.ty o.d s _
  | vfadd o | vfsub o => cases h; dsimp only [exec]; exact computes_sumOp o s _
  | vmovi o => cases h; dsimp only [exec]; exact computes_laneForm o.g .i64 o.d s _
  | vins o => cases h; dsimp only [exec]; exact .writes _
  | _ => cases h

/-! The shapes of the forms that write a predicate. -/

theorem computes_cmpOp (o : PSS) (s : State) (c : Cond) : Computes (intoP o.d) s (cmpOp o s c) :=
  (Yields.bind _ fun _ => .bind _ fun _ => .gives _).computes_complete o.g

theorem computes_predOp (o : PPP) (s : State) (f : W64 → W64 → W64) : Computes (intoP o.d) s (predOp o s f) :=
  (Yields.gives _).computes_complete o.g

theorem computes_execPnot (o : PP) (s : State) : Computes (intoP o.d) s (execPnot o s) :=
  (Yields.gives _).computes_complete o.g

theorem computes_vcmpOp (o : PVV) (s : State) (c : Nat → Nat → Bool) : Computes (intoP o.d) s (vcmpOp o s c) :=
  Yields.computes (.bind _ fun _ => .bind _ fun _ => .gives _)

theorem computes_vcmpInt (o : PVV) (s : State) (c : Cond) : Computes (intoP o.d) s (vcmpInt o s c) := computes_vcmpOp o s _

theorem computes_vcmpFp (o : PVV) (s : State) (c : FVal → FVal → Bool) : Computes (intoP o.d) s (vcmpFp o s c) :=
  computes_vcmpOp o s _

/-- Every form of `Instr.predicateResult` computes into its register. -/
theorem computes_of_predicateResult (i : Instr) (d : PReg) (s : State) (h : i.predicateResult = some d) :
    Computes (intoP d) s (exec i s) := by
  cases i with
  | cmpeq o | cmpne o | cmplt o | cmple o | cmpltu o | cmpleu o => cases h; dsimp only [exec]; exact computes_cmpOp o s _
  | pand o | por o | pxor o | pandn o => cases h; dsimp only [exec]; exact computes_predOp o s _
  | pnot o => cases h; exact computes_execPnot o s
  | vcmpeq o | vcmpne o | vcmplt o | vcmple o => cases h; dsimp only [exec]; exact computes_vcmpInt o s _
  | vfcmpeq o | vfcmplt o | vfcmple o | vfcmpun o => cases h; dsimp only [exec]; exact computes_vcmpFp o s _
  | _ => cases h

/-! The forms that write a bit address register. -/

theorem computes_execBset (o : BsetF) (s : State) : Computes (intoB o.d) s (execBset o s) :=
  (Yields.bind _ fun _ => .gives _).computes_complete o.g

theorem computes_execBadd (o : BaddF) (s : State) : Computes (intoB o.d) s (execBadd o s) :=
  (Yields.bind _ fun _ => .gives _).computes_complete o.g

/-- Settles O12: every such form `Computes` into its register, and `Computes.frame` is the frame of them all. -/
theorem framesOfResults : Obligations.FramesOfResults := by
  unfold Obligations.FramesOfResults
  refine ⟨fun i d s t hd he => ?_, fun i d s t hd he => ?_, fun i d s t hd he => ?_, fun o s t he => ?_, fun o s t he => ?_⟩
  · exact Computes.frame (he ▸ computes_of_scalarResult i d s hd)
  · exact Computes.frame (he ▸ computes_of_vectorResult i d s hd)
  · exact Computes.frame (he ▸ computes_of_predicateResult i d s hd)
  · exact Computes.frame (he ▸ computes_execBset o s)
  · exact Computes.frame (he ▸ computes_execBadd o s)

end Sys2Proof.Machine

/-! PROOFS. The turns of the agenda: how far a tick goes, and which slot the rotation gives (R96, R97, R428). -/

namespace Sys2Proof.Machine

/-! The least of a start and of bounds that lie at `m` or later. -/

theorem foldl_min_le_start (m : Nat) (l : List Nat) (a : Nat) : l.foldl (fun c x => min c (max m x)) a ≤ a := by
  induction l generalizing a with
  | nil => exact Nat.le_refl a
  | cons x r ih => exact Nat.le_trans (ih _) (Nat.min_le_left ..)

theorem foldl_min_le_bound (m : Nat) (l : List Nat) (a x : Nat) (h : x ∈ l) :
    l.foldl (fun c x => min c (max m x)) a ≤ max m x := by
  induction l generalizing a with
  | nil => cases h
  | cons y r ih =>
    rcases List.mem_cons.1 h with rfl | hr
    · exact Nat.le_trans (foldl_min_le_start m r _) (Nat.min_le_right ..)
    · exact ih _ hr

theorem foldl_min_eq_start_or_bound (m : Nat) (l : List Nat) (a : Nat) :
    l.foldl (fun c x => min c (max m x)) a = a ∨ ∃ x ∈ l, l.foldl (fun c x => min c (max m x)) a = max m x := by
  induction l generalizing a with
  | nil => exact .inl rfl
  | cons y r ih =>
    rw [List.foldl_cons]
    rcases ih (min a (max m y)) with h | ⟨x, hx, h⟩
    · rcases Nat.le_total a (max m y) with hle | hle
      · exact .inl (h.trans (Nat.min_eq_left hle))
      · exact .inr ⟨y, List.mem_cons_self, h.trans (Nat.min_eq_right hle)⟩
    · exact .inr ⟨x, List.mem_cons_of_mem y hx, h⟩

/-! The issue rotation. -/

/-- A slot that the rotation gives is the turn of its core. -/
theorem State.turnOf_of_pick {s : State} {core slot : Nat} (h : s.pick core = some slot) : s.turnOf core = some slot := by
  unfold State.pick at h
  split at h
  · cases h
  · exact h

/-- The turn of a core: it runs and has not issued in this cycle, and the slot is the first eligible one of the rotation. -/
theorem State.turnOf_eq_some {s : State} {core slot : Nat} (h : s.turnOf core = some slot) :
    s.issuedNow core = false ∧ s.running core = true ∧ s.eligible core slot = true ∧
      ∃ j < 16, slot = (s.now (deviceOfCore core) + j) % 16 ∧
        ∀ e < j, s.eligible core ((s.now (deviceOfCore core) + e) % 16) = false := by
  unfold State.turnOf at h
  split at h
  · cases h
  next hb =>
    obtain ⟨hi, hr⟩ : s.issuedNow core = false ∧ s.running core = true := by simpa using hb
    rw [List.find?_map] at h
    obtain ⟨j, hj, rfl⟩ := Option.map_eq_some_iff.1 h
    obtain ⟨he, hm, hfirst⟩ := List.find?_range_eq_some.1 hj
    simp only [Function.comp_apply, Nat.mod_add_mod] at he hfirst ⊢
    exact ⟨hi, hr, he, j, List.mem_range.1 hm, rfl, fun e h => by simpa using hfirst e h⟩

theorem State.eligible_iff (s : State) (core slot : Nat) :
    s.eligible core slot = true ↔ s.wantsIssue core slot = true ∧ (s.thread core slot).issueFrom ≤ s.cycle := by
  simp [State.eligible]

theorem State.ready_of_wantsIssue {s : State} {core slot : Nat} (h : s.wantsIssue core slot = true) :
    (s.thread core slot).state = .ready := by
  unfold State.wantsIssue at h
  simp only [Bool.and_eq_true, decide_eq_true_eq] at h
  exact h.1.1

theorem State.not_stopped_of_running {s : State} {core : Nat} (h : s.running core = true) :
    (s.core core).stopped = false := by
  unfold State.running at h
  simp only [Bool.and_eq_true, Bool.not_eq_true'] at h
  exact h.1.1.1

theorem Thread.issueFrom_le_iff (t : Thread) (n : Nat) :
    t.issueFrom ≤ n ↔ t.readyAt ≤ n ∧ ∀ c, t.lastIssue = some c → c + 16 ≤ n := by
  unfold Thread.issueFrom
  cases t.lastIssue with
  | none => simp only [reduceCtorEq, false_implies, implies_true, and_true]
  | some c => simp only [Nat.max_le, Option.some.injEq, forall_eq']

theorem lowest_le_of_mem {l : List Nat} {x : Nat} (h : x ∈ l) : ∃ y, lowest l = some y ∧ y ≤ x := by
  induction l with
  | nil => cases h
  | cons a r ih =>
    unfold lowest
    rcases List.mem_cons.1 h with rfl | hr
    · cases lowest r with
      | none => exact ⟨x, rfl, Nat.le_refl x⟩
      | some y => exact ⟨min x y, rfl, Nat.min_le_left ..⟩
    · obtain ⟨y, hy, hle⟩ := ih hr
      exact ⟨min a y, by rw [hy], Nat.le_trans (Nat.min_le_right ..) hle⟩

/-- A core whose rotation gives a slot has an issue to make in this cycle. -/
theorem State.nextIssue_of_pick {s : State} {core : Nat} (h : s.pick core ≠ none) :
    ∃ x, s.nextIssue core = some x ∧ x ≤ s.cycle := by
  obtain ⟨slot, hp⟩ := Option.ne_none_iff_exists'.1 h
  obtain ⟨hi, hr, he, j, -, rfl, -⟩ := State.turnOf_eq_some (State.turnOf_of_pick hp)
  obtain ⟨hw, hf⟩ := (s.eligible_iff ..).1 he
  have hslot : (s.now (deviceOfCore core) + j) % 16 ∈ (List.range 16).filter (s.wantsIssue core) :=
    List.mem_filter.2 ⟨List.mem_range.2 (Nat.mod_lt _ (by decide)), hw⟩
  obtain ⟨y, hy, hle⟩ := lowest_le_of_mem (List.mem_map_of_mem (f := fun k => max s.cycle (s.thread core k).issueFrom) hslot)
  exact ⟨y, by simpa [State.nextIssue, hi, hr] using hy, Nat.le_trans hle (Nat.max_le.2 ⟨Nat.le_refl _, hf⟩)⟩

/-! One turn. -/

/-- What no cycle passes by: an issue of a core that the cycles follow, or a wait, a bound, a swap or a sample of its. -/
def State.due (s : State) (x : Nat) : Prop := ∃ core ∈ s.ticking, s.nextIssue core = some x ∨ s.nextWait core = some x

/-- The cycle that a tick of at most `n` cycles reaches. -/
def State.tickTo (s : State) (n : Nat) : Nat :=
  (s.ticking.filterMap s.nextIssue ++ s.ticking.filterMap s.nextWait).foldl (fun c x => min c (max s.cycle x)) (s.cycle + n)

theorem State.tick_eq (s : State) (n : Nat) : s.tick n = { s with cycle := s.tickTo n } := rfl

theorem State.mem_due (s : State) (x : Nat) :
    x ∈ s.ticking.filterMap s.nextIssue ++ s.ticking.filterMap s.nextWait ↔ s.due x := by
  simp only [List.mem_append, List.mem_filterMap, State.due, ← exists_or, ← and_or_left]

theorem State.tickTo_le (s : State) (n : Nat) : s.tickTo n ≤ s.cycle + n := foldl_min_le_start ..

theorem State.tickTo_le_of_due {s : State} {x : Nat} (n : Nat) (h : s.due x) : s.tickTo n ≤ max s.cycle x :=
  foldl_min_le_bound _ _ _ _ ((s.mem_due x).2 h)

theorem State.tickTo_eq (s : State) (n : Nat) :
    s.tickTo n = s.cycle + n ∨ ∃ x, s.due x ∧ s.tickTo n = max s.cycle x := by
  rcases foldl_min_eq_start_or_bound s.cycle _ (s.cycle + n) with h | ⟨x, hx, h⟩
  · exact .inl h
  · exact .inr ⟨x, (s.mem_due x).1 hx, h⟩

theorem State.le_tickTo (s : State) (n : Nat) : s.cycle ≤ s.tickTo n := by
  rcases s.tickTo_eq n with h | ⟨x, -, h⟩ <;> omega

theorem State.tickTo_of_pick {s : State} (n : Nat) (h : ∃ core ∈ s.ticking, s.pick core ≠ none) : s.tickTo n = s.cycle := by
  obtain ⟨core, hc, hp⟩ := h
  obtain ⟨x, hx, hle⟩ := State.nextIssue_of_pick hp
  have := State.tickTo_le_of_due n ⟨core, hc, .inl hx⟩
  have := s.le_tickTo n
  omega

theorem step_of_agenda_cons (s : State) (t : Turn) (rest : List Turn) (h : s.agenda = t :: rest) :
    step s = ({ s with agenda := rest } : State).runTurn t := by
  simp only [step, h]

theorem step_of_agenda_nil (s : State) (h : s.agenda = []) :
    step s = if (s.device (deviceOfCore s.focus)).held then .fault (.heldInReset (deviceOfCore s.focus)) else s.defaultTurn := by
  simp only [step, h]

theorem State.runTurn_event (s : State) (e : Instr) (h : encode e = none) : s.runTurn (.event e) = exec e s := by
  simp [State.runTurn, isEvent, h]

theorem State.issueTurn_idle (s : State) (core : Nat) (h : s.pick core = none) : s.issueTurn core = .next s := by
  simp only [State.issueTurn, h]

theorem State.issueTurn_slot (s : State) (core slot : Nat) (h : s.pick core = some slot) :
    s.issueTurn core = s.issueSlot core slot := by
  simp only [State.issueTurn, h]

theorem State.defaultTurn_slot (s : State) (slot : Nat) (h : s.pick s.focus = some slot) :
    s.defaultTurn = s.issueSlot s.focus slot := by
  simp only [State.defaultTurn, h]

/-- What the rotation says of the slot that it gives (R96). -/
theorem State.pick_spec (s : State) (core slot : Nat) (h : s.pick core = some slot) :
    slot < 16 ∧ (s.core core).stopped = false ∧ (s.thread core slot).state = .ready ∧ (s.thread core slot).readyAt ≤ s.cycle ∧
      (∀ c, (s.thread core slot).lastIssue = some c → c + 16 ≤ s.cycle) ∧
      ∀ d, d < 16 → slot = (s.now (deviceOfCore core) + d) % 16 →
        ∀ e < d, s.eligible core ((s.now (deviceOfCore core) + e) % 16) = false := by
  obtain ⟨-, hr, he, j, hj, hslot, hfirst⟩ := State.turnOf_eq_some (State.turnOf_of_pick h)
  obtain ⟨hw, hf⟩ := (s.eligible_iff ..).1 he
  obtain ⟨hready, hlast⟩ := ((s.thread core slot).issueFrom_le_iff _).1 hf
  refine ⟨by omega, State.not_stopped_of_running hr, State.ready_of_wantsIssue hw, hready, hlast, fun d hd hds e hed => ?_⟩
  obtain rfl : d = j := by omega
  exact hfirst e hed

end Sys2Proof.Machine

/-! PROOFS. The checks of a unit in their order, and the encoding and pairing checks that they use (R19, R35, R37,
R38, R48, R49, R357). -/

namespace Sys2Proof.Machine

/-- The member at hand of the executing unit. -/
def State.withMember (s : State) (m : Bool) : State := { s with unit := { s.unit with member := m } }

theorem State.withMember_self (s : State) (m : Bool) (h : s.unit.member = m) : s.withMember m = s := by
  subst h
  rfl

/-- A member of a unit whose line has failed: the line leaves the buffer, and the trap's latch asks for a fetch (R357). -/
def State.brokenLine (s : State) (pc : W64) : State :=
  (s.dropLine s.cur.core (lineOf pc)).takeTrap s.cur.core s.cur.slot 0x0C (lineOf pc) { s.curLatch with fetch := true }

/-! One member. -/

/-- The checks of one member: its line, then its encoding. -/
def checkMember (core : Nat) (u : IssueUnit) (k : Nat) (w : Word96) : Chk Instr := do
  lineCheck u.pc u.lineword k w
  decodeMember core w

theorem checkMember_parity (core : Nat) (u : IssueUnit) (k : Nat) (w : Word96) (h : wordParity u.lineword k w = false) :
    checkMember core u k w = .error (.trap 0x0C (lineOf u.pc)) := by
  simp only [checkMember, lineCheck, h]
  rfl

theorem checkMember_reserved (core : Nat) (u : IssueUnit) (k : Nat) (w : Word96) (h : wordParity u.lineword k w = true)
    (hl : u.lineword.setWidth 17 ≠ 0) : checkMember core u k w = .error (.trap 0x02 (u.lineword.setWidth 64)) := by
  simp only [checkMember, lineCheck, h, ne_eq, hl, not_false_eq_true, if_true]
  rfl

theorem checkMember_line (core : Nat) (u : IssueUnit) (k : Nat) (w : Word96) (h : wordParity u.lineword k w = true)
    (hl : u.lineword.setWidth 17 = 0) : checkMember core u k w = decodeMember core w := by
  simp only [checkMember, lineCheck, h, hl]
  rfl

theorem checkMember_illegal (core : Nat) (u : IssueUnit) (k : Nat) (w : Word96) (r : Nat)
    (h : wordParity u.lineword k w = true) (hl : u.lineword.setWidth 17 = 0)
    (hr : decodeChecked (isCompute core) w = .error r) :
    checkMember core u k w = .error (.trap 0x01 (BitVec.ofNat 64 r)) := by
  simp only [checkMember_line core u k w h hl, decodeMember, hr]
  rfl

theorem checkMember_ok (core : Nat) (u : IssueUnit) (k : Nat) (w : Word96) (i : Instr)
    (h : wordParity u.lineword k w = true) (hl : u.lineword.setWidth 17 = 0)
    (hi : decodeChecked (isCompute core) w = .ok i) : checkMember core u k w = .ok i := by
  simp only [checkMember_line core u k w h hl, decodeMember, hi]

/-! A whole unit. -/

theorem checkUnit_first (core : Nat) (u : IssueUnit) (b : Bad) (h : checkMember core u (posOf u.pc) u.first = .error b) :
    checkUnit core u = .error (b, false) := by
  unfold checkMember at h
  simp only [checkUnit, h]

theorem checkUnit_single (core : Nat) (u : IssueUnit) (i : Instr) (h : checkMember core u (posOf u.pc) u.first = .ok i)
    (hs : u.second = none) : checkUnit core u = .ok (i, none) := by
  unfold checkMember at h
  simp only [checkUnit, h, hs]

theorem checkUnit_second (core : Nat) (u : IssueUnit) (i : Instr) (w2 : Word96) (b : Bad)
    (h : checkMember core u (posOf u.pc) u.first = .ok i) (hs : u.second = some w2)
    (h2 : checkMember core u (posOf u.pc + 1) w2 = .error b) : checkUnit core u = .error (b, true) := by
  unfold checkMember at h h2
  simp only [checkUnit, h, hs, h2]

section
variable {core : Nat} {u : IssueUnit} {i j : Instr} {w2 : Word96} (first : checkMember core u (posOf u.pc) u.first = .ok i)
  (hs : u.second = some w2) (second : checkMember core u (posOf u.pc + 1) w2 = .ok j)
include first hs second

theorem checkUnit_refusedPair (r : Nat) (h : pairReason u.first w2 i j = some r) :
    checkUnit core u = .error (.trap 0x01 (BitVec.ofNat 64 r), false) := by
  unfold checkMember at first second
  simp only [checkUnit, first, hs, second, h, w64]

theorem checkUnit_pair (h : pairReason u.first w2 i j = none) : checkUnit core u = .ok (i, some j) := by
  unfold checkMember at first second
  simp only [checkUnit, first, hs, second, h]

end

/-! What the checks of a unit answer. -/

theorem State.runChecked_ok (s : State) (u : IssueUnit) (m : Instr × Option Instr) (h : checkUnit s.cur.core u = .ok m) :
    s.runChecked u = runUnit m s := by
  simp only [State.runChecked, h]

theorem State.runChecked_broken (s : State) (u : IssueUnit) (m : Bool)
    (h : checkUnit s.cur.core u = .error (.trap 0x0C (lineOf u.pc), m)) :
    s.runChecked u = .next ((s.withMember m).brokenLine u.pc) := by
  simp only [State.runChecked, h]
  rfl

theorem State.runChecked_raise (s : State) (u : IssueUnit) (m : Bool) (c : Nat) (x : W64)
    (h : checkUnit s.cur.core u = .error (.trap c x, m)) (hc : c ≠ 0x0C) :
    s.runChecked u = .next ((s.withMember m).raise (.trap c x)) := by
  simp only [State.runChecked, h]
  split
  · rename_i heq
    injection heq with h1
    exact absurd h1 hc
  · rfl

/-! Words and pairs. -/

theorem decodeChecked_some (compute : Bool) (w : Word96) (i : Instr) (h : decode w = some i)
    (hc : computeOnly (Raw.unpack w).op.toNat (Raw.unpack w).fn.toNat = true) :
    decodeChecked compute w = if compute then .ok i else .error 5 := by
  cases compute <;> simp [decodeChecked, h, hc]

theorem decodeChecked_none (compute : Bool) (w : Word96) (h : decode w = none) :
    decodeChecked compute w = .error (badReason compute w) := by
  simp only [decodeChecked, h]

theorem badReason_eq (compute : Bool) (w : Word96) :
    badReason compute w =
      let op := (Raw.unpack w).op.toNat
      let fn := (Raw.unpack w).fn.toNat
      if opAllocated op = false then 1 else if fnAllocated op fn = false then 2
        else if computeOnly op fn = true ∧ compute = false then 5 else (rangeReason (Raw.unpack w)).getD 3 := by
  simp only [badReason, Bool.not_eq_true', Bool.and_eq_true]
  cases rangeReason (Raw.unpack w) <;> rfl

/-- Table 2.2 as a list of the pairs that it allows. -/
theorem legalPair_iff (c1 c2 : PairClass) : legalPair c1 c2 = true ↔
    (c1, c2) ∈ [(PairClass.s, PairClass.v), (.v, .s), (.s, .m), (.m, .s), (.v, .e), (.e, .v)] := by
  cases c1 <;> cases c2 <;> decide

theorem sharedWrite_iff (i j : Instr) : sharedWrite i j = true ↔
    ∃ r ∈ writesOf i, r ∈ writesOf j ∧ r ≠ .s 0 ∧ r ≠ .p 0 := by
  simp only [sharedWrite, List.any_eq_true, Bool.and_eq_true, bne_iff_ne, List.contains_iff_mem]
  exact exists_congr fun r => and_congr_right fun _ => and_comm

theorem pairReason_eq (w1 w2 : Word96) (i j : Instr) :
    pairReason w1 w2 i j =
      if legalPair (pairClass (Raw.unpack w1).op.toNat) (pairClass (Raw.unpack w2).op.toNat) = true then
        if sharedWrite i j = true then some 9 else none
      else some 8 := by
  unfold pairReason
  cases legalPair _ _ <;> rfl

end Sys2Proof.Machine

/-! PROOFS. What ends a pair, and what it leaves when both members have run (R7, R28, R39, R357). -/

namespace Sys2Proof.Machine

/-- The state to which a pair that has no effect goes back, with the member that ended it. -/
theorem State.undonePair_eq_withMember (s : State) (m : Bool) (hs : s.unit.snap = none) (hd : s.unit.defer_ = false) :
    ({ s with unit := { s.unit with member := m, defer_ := false, snap := none } } : State) = s.withMember m := by
  rw [← hs, ← hd]
  rfl

theorem State.raise_trap (s : State) (c : Nat) (x : W64) (hd : s.unit.defer_ = false) :
    s.raise (.trap c x) = s.takeTrap s.cur.core s.cur.slot c x s.curLatch := by
  simp only [State.raise, hd]
  rfl

theorem State.raise_stop (s : State) (e : Nat) (a : Option W64) (hd : s.unit.defer_ = false) :
    s.raise (.stop e a) = s.takeStop s.cur.core s.cur.slot e a s.curLatch := by
  simp only [State.raise, hd]
  rfl

/-- The trap of a member of a pair, taken from the state before the pair; a line that has failed leaves the buffer. -/
def State.pairTrap (s : State) (m : Bool) (c : Byte) (x : W64) : State :=
  (if c = 0x0C then (s.withMember m).dropLine s.cur.core x else s.withMember m).takeTrap s.cur.core s.cur.slot c.toNat x
    (s.withMember m).curLatch

/-- The stop of a member of a pair. -/
def State.pairStop (s : State) (m : Bool) (e : Nat) (a : Option W64) : State :=
  (s.withMember m).takeStop s.cur.core s.cur.slot e a (s.withMember m).curLatch

section
variable {s : State} (hs : s.unit.snap = none) (hd : s.unit.defer_ = false)
include hs hd

theorem State.pairEnd_trap (s' : State) (m : Bool) (c : Byte) (x : W64) (h : s'.unit.trap = some (c, x)) :
    s.pairEnd s' m = some (s.pairTrap m c x) := by
  have hm : (s.withMember m).unit.defer_ = false := hd
  simp only [State.pairEnd, h, State.undonePair_eq_withMember s m hs hd, State.pairTrap]
  split
  · rw [State.raise_trap _ _ _ (by exact hm)]
    rfl
  · rw [State.raise_trap _ _ _ hm]
    rfl

theorem State.pairEnd_stop (s' : State) (m : Bool) (e : Nat) (a : Option W64) (ht : s'.unit.trap = none)
    (h : s'.unit.stop = some (e, a)) : s.pairEnd s' m = some (s.pairStop m e a) := by
  simp only [State.pairEnd, ht, h, State.undonePair_eq_withMember s m hs hd]
  rw [State.raise_stop _ _ _ (by exact hd)]
  rfl

end

theorem State.pairEnd_none (s s' : State) (m : Bool) (ht : s'.unit.trap = none) (hs : s'.unit.stop = none)
    (hw : s'.cth.findWait isFetch = none) : s.pairEnd s' m = none := by
  simp only [State.pairEnd, ht, hs, hw]

/-! The two members. -/

/-- The state in which the first member of a pair runs: the registers are those at the issue, and what it raises is kept. -/
def State.pairStart (s : State) : State := { s with unit := { s.unit with snap := some s.cth.regs, defer_ := true } }

section
variable {i j : Instr} {s s1 s2 t : State} (h1 : exec i s.pairStart = .next s1)
include h1

theorem runPair_first (h : s.pairEnd s1 false = some t) : runPair i j s = .next t := by
  unfold State.pairStart at h1
  simp only [runPair, h1, h]

theorem runPair_second (h : s.pairEnd s1 false = none) (h2 : exec j (s1.withMember true) = .next s2)
    (he : s.pairEnd s2 true = some t) : runPair i j s = .next t := by
  unfold State.pairStart at h1
  unfold State.withMember at h2
  simp only [runPair, h1, h, h2, he]

theorem runPair_both (h : s.pairEnd s1 false = none) (h2 : exec j (s1.withMember true) = .next s2)
    (he : s.pairEnd s2 true = none) : runPair i j s = .next (s2.holdPair s.cth.regs) := by
  unfold State.pairStart at h1
  unfold State.withMember at h2
  simp only [runPair, h1, h, h2, he]

end

theorem State.cth_holdPair (s : State) (regs : RegFile) :
    (s.holdPair regs).cth = if s.cth.waits = [] then s.cth else s.cth.holdSince regs :=
  State.cth_modCur ..

end Sys2Proof.Machine

/-! PROOFS. The turns of a step, the checks of a unit, and pairs, put together. -/

namespace Sys2Proof.Machine

/-- Settles O4: the turns from the rotation and the least due cycle, the checks of a unit member by member, and a pair by
what ends it. -/
theorem turnsAndIllegalWords : Obligations.TurnsAndIllegalWords := by
  unfold Obligations.TurnsAndIllegalWords
  refine ⟨⟨?tick, ?event, ?outside, ?issue, State.pick_spec, ?focus, ?held⟩, ⟨?unit, ?drop, ?compute, ?illegal, ?pairing⟩, ?pair⟩
  case tick =>
    intro s n rest h s0 due
    exact ⟨s0.tickTo n, step_of_agenda_cons s _ rest h, s0.le_tickTo n, s0.tickTo_le n, fun x hx => State.tickTo_le_of_due n hx,
      s0.tickTo_eq n, State.tickTo_of_pick n⟩
  case event =>
    intro s e rest h he
    rw [step_of_agenda_cons s _ rest h, State.runTurn_event _ e he]
  case outside =>
    intro s o rest h
    exact step_of_agenda_cons s _ rest h
  case issue =>
    intro s core rest h s0
    rw [step_of_agenda_cons s _ rest h]
    exact ⟨s0.issueTurn_idle core, s0.issueTurn_slot core⟩
  case focus =>
    intro s slot h hh hp
    rw [step_of_agenda_nil s h, hh, if_neg (by decide), State.defaultTurn_slot s slot hp]
  case held =>
    intro s h hh
    rw [step_of_agenda_nil s h, hh, if_pos rfl]
  case drop =>
    intro s core va
    rw [State.dropLine, State.core_modCore_same]
  case compute =>
    intro w i h hc
    exact ⟨decodeChecked_some false w i h hc, decodeChecked_some true w i h hc⟩
  case illegal =>
    intro w compute h
    rw [decodeChecked_none compute w h, badReason_eq]
  case pairing =>
    intro w1 w2 i j c1 c2 legal
    have hl : legalPair c1 c2 = true ↔ legal := legalPair_iff c1 c2
    rw [pairReason_eq]
    refine ⟨fun h => if_neg (mt hl.1 h), fun h hw => ?_, fun h hw => ?_⟩
    · rw [if_pos (hl.2 h), if_pos ((sharedWrite_iff i j).2 hw)]
    · rw [if_pos (hl.2 h), if_neg]
      intro hshared
      obtain ⟨r, hi, hj, hs, hp⟩ := (sharedWrite_iff i j).1 hshared
      exact (hw r hi hj).elim hs hp
  case unit =>
    intro u s hm k s1 broken
    have h0 : s.withMember false = s := s.withMember_self false hm
    refine ⟨fun hp => ?_, fun hp => ⟨fun hl => ?_, fun hl => ⟨fun r hr => ?_, fun i hi hsec => ?_, fun i w2 hi hsec => ?_⟩⟩⟩
    · rw [s.runChecked_broken u false (checkUnit_first _ u _ (checkMember_parity _ u k _ hp)), h0]
      rfl
    · rw [s.runChecked_raise u false 0x02 _ (checkUnit_first _ u _ (checkMember_reserved _ u k _ hp hl)) (by decide), h0]
    · rw [s.runChecked_raise u false 0x01 _ (checkUnit_first _ u _ (checkMember_illegal _ u k _ r hp hl hr)) (by decide), h0]
    · exact s.runChecked_ok u (i, none) (checkUnit_single _ u i (checkMember_ok _ u k _ i hp hl hi) hsec)
    · have first := checkMember_ok _ u k _ i hp hl hi
      refine ⟨fun hp2 => ?_, fun hp2 => ⟨fun r hr => ?_, fun j hj => ?_⟩⟩
      · exact s.runChecked_broken u true (checkUnit_second _ u i w2 _ first hsec (checkMember_parity _ u _ w2 hp2))
      · exact s.runChecked_raise u true 0x01 _
          (checkUnit_second _ u i w2 _ first hsec (checkMember_illegal _ u _ w2 r hp2 hl hr)) (by decide)
      · have second := checkMember_ok _ u _ w2 j hp2 hl hj
        refine ⟨fun r hr => ?_, fun hr => ?_⟩
        · rw [s.runChecked_raise u false 0x01 _ (checkUnit_refusedPair first hsec second r hr) (by decide), h0]
        · exact s.runChecked_ok u (i, some j) (checkUnit_pair first hsec second hr)
  case pair =>
    intro i j s s1 hm hs hd h1
    have h0 : s.withMember false = s := s.withMember_self false hm
    refine ⟨fun c x ht => ?_, fun e a ht hstop => ?_, ?_⟩
    · rw [runPair_first h1 (State.pairEnd_trap hs hd s1 false c x ht), State.pairTrap, h0]
    · rw [runPair_first h1 (State.pairEnd_stop hs hd s1 false e a ht hstop), State.pairStop, h0]
    · intro ht hstop hw s2 h2 sm
      have first := s.pairEnd_none s1 false ht hstop hw
      refine ⟨fun c x ht2 => ?_, fun e a ht2 hstop2 => ?_, fun ht2 hstop2 hw2 => ?_⟩
      · exact runPair_second h1 first h2 (State.pairEnd_trap hs hd s2 true c x ht2)
      · exact runPair_second h1 first h2 (State.pairEnd_stop hs hd s2 true e a ht2 hstop2)
      · have hcth := s2.cth_holdPair s.cth.regs
        refine ⟨_, runPair_both h1 first h2 (s.pairEnd_none s2 true ht2 hstop2 hw2), rfl, rfl, rfl, rfl, fun hn => ?_, fun hn => ?_⟩
        · rw [hcth, if_pos hn]
        · rw [hcth, if_neg hn]
          exact ⟨rfl, rfl, rfl, rfl⟩

end Sys2Proof.Machine

/-! PROOFS. The word of a form and its fields: what each operand form reads back of the fields that it wrote (R40 to R47,
Tables 2.3 and 2.5), and the encoder and decoder as inverses (R48, R49). -/

namespace Sys2Proof

/-! The fields of a word, and the codes of the small fields. -/

open BitVec in
/-- The fields of Tables 2.3 and 2.5 tile the word. -/
theorem Raw.unpack_pack (r : Raw) : Raw.unpack r.pack = r := by
  obtain ⟨op, fn, ⟨neg, p⟩, d, a, b, c, m⟩ := r
  cases neg <;> simp (disch := decide) [Raw.unpack, Raw.pack, extractLsb'_append_eq_of_add_le,
    extractLsb'_append_eq_of_le, getLsbD_append, -getLsbD_eq_getElem, -Nat.reduceAdd]

@[simp] theorem ElemTy.ofCode_code (x : ElemTy) : ElemTy.ofCode x.code = some x := by cases x <;> rfl
@[simp] theorem Rnd.ofCode_code (x : Rnd) : Rnd.ofCode x.code = some x := by cases x <;> rfl
@[simp] theorem Scope.ofCode_code (x : Scope) : Scope.ofCode x.code = some x := by cases x <;> rfl
@[simp] theorem MemSize.ofCode_code (x : MemSize) : MemSize.ofCode x.code = some x := by cases x <;> rfl
@[simp] theorem Hint.ofCode_code (x : Hint) : Hint.ofCode x.code = some x := by cases x <;> rfl
@[simp] theorem PopKind.ofCode_code (x : PopKind) : PopKind.ofCode x.code = some x := by cases x <;> rfl
@[simp] theorem getLsbD_flag (b : Bool) : (flag b).getLsbD 0 = b := by cases b <;> rfl

/-! Each operand form reads back what it wrote. `Nat.reduceAdd` and `getLsbD_eq_getElem` stay off: they would
rewrite the width of an append, and the read of a flag, away from what the lemmas about `++` name. -/

section
open BitVec
variable (op fn : BitVec 8)

theorem formSSS_rawSSS (o : SSS) : formSSS (rawSSS op fn o) = some o := rfl

theorem formSSI_rawSSI (o : SSI) : formSSI (rawSSI op fn o) = some o := by
  simp (disch := decide) [formSSI, rawSSI, Raw.imm, extractLsb'_append_extractLsb'_eq_extractLsb', -Nat.reduceAdd]

theorem formSSN_rawSSN (o : SSN) : formSSN (rawSSN op fn o) = some o := by
  simp (disch := decide) [formSSN, rawSSN, extractLsb'_append_eq_of_add_le, -Nat.reduceAdd]

theorem formSI_rawSI (o : SI) : formSI (rawSI op fn o) = some o := by
  simp (disch := decide) [formSI, rawSI, Raw.imm, extractLsb'_append_extractLsb'_eq_extractLsb', -Nat.reduceAdd]

theorem formPSS_rawPSS (o : PSS) : formPSS (rawPSS op fn o) = some o := by
  simp [formPSS, rawPSS]

theorem formSSSP_rawSSSP (o : SSSP) : formSSSP (rawSSSP op fn o) = some o := by
  simp [formSSSP, rawSSSP]

theorem formSS_rawSS (o : SS) : formSS (rawSS op fn o) = some o := rfl

theorem formBfxF_rawBfxF (o : BfxF) : formBfxF (rawBfxF op fn o) = some o := by
  simp (disch := decide) [formBfxF, rawBfxF, extractLsb'_append_eq_of_add_le, extractLsb'_append_eq_of_le, -Nat.reduceAdd]

theorem formBfiF_rawBfiF (o : BfiF) : formBfiF (rawBfiF op fn o) = some o := by
  simp (disch := decide) [formBfiF, rawBfiF, extractLsb'_append_eq_of_add_le, extractLsb'_append_eq_of_le, -Nat.reduceAdd]

theorem formSSSS_rawSSSS (o : SSSS) : formSSSS (rawSSSS op fn o) = some o := rfl

theorem formPPP_rawPPP (o : PPP) : formPPP (rawPPP op fn o) = some o := by
  simp [formPPP, rawPPP]

theorem formPP_rawPP (o : PP) : formPP (rawPP op fn o) = some o := by
  simp [formPP, rawPP]

theorem formBrF_rawBrF (o : BrF) : formBrF (rawBrF op fn o) = some o := by
  simp [formBrF, rawBrF]

theorem formBrSS_rawBrSS (o : BrSS) : formBrSS (rawBrSS op fn o) = some o := by
  simp [formBrSS, rawBrSS]

theorem formCallF_rawCallF (o : CallF) : formCallF (rawCallF op fn o) = some o := by
  simp [formCallF, rawCallF]

theorem formA1_rawA1 (o : A1) : formA1 (rawA1 op fn o) = some o := rfl

theorem formMfsF_rawMfsF (o : MfsF) : formMfsF (rawMfsF op fn o) = some o := by
  simp [formMfsF, rawMfsF]

theorem formMtsF_rawMtsF (o : MtsF) : formMtsF (rawMtsF op fn o) = some o := by
  simp [formMtsF, rawMtsF]

theorem formG0_rawG0 (o : G0) : formG0 (rawG0 op fn o) = some o := rfl

theorem formPurgeF_rawPurgeF (o : PurgeF) : formPurgeF (rawPurgeF op fn o) = some o := by
  simp [formPurgeF, rawPurgeF, getLsbD_append, -getLsbD_eq_getElem, -Nat.reduceAdd]

theorem formCodeF_rawCodeF (o : CodeF) : formCodeF (rawCodeF op fn o) = some o := by
  simp (disch := decide) [formCodeF, rawCodeF, extractLsb'_append_eq_of_add_le, -Nat.reduceAdd]

theorem formLdF_rawLdF (o : LdF) : formLdF (rawLdF op fn o) = some o := by
  simp (disch := decide) [formLdF, rawLdF, extractLsb'_append_eq_of_add_le, extractLsb'_append_eq_of_le, -Nat.reduceAdd]

theorem formStF_rawStF (o : StF) : formStF (rawStF op fn o) = some o := by
  simp (disch := decide) [formStF, rawStF, extractLsb'_append_eq_of_add_le, extractLsb'_append_eq_of_le, -Nat.reduceAdd]

theorem formLdbfF_rawLdbfF (o : LdbfF) : formLdbfF (rawLdbfF op fn o) = some o := by
  simp (disch := decide) [formLdbfF, rawLdbfF, extractLsb'_append_eq_of_add_le, getLsbD_append, -getLsbD_eq_getElem,
    -Nat.reduceAdd]

theorem formStbfF_rawStbfF (o : StbfF) : formStbfF (rawStbfF op fn o) = some o := by
  simp (disch := decide) [formStbfF, rawStbfF, extractLsb'_append_eq_of_add_le, getLsbD_append, -getLsbD_eq_getElem,
    -Nat.reduceAdd]

theorem formBsetF_rawBsetF (o : BsetF) : formBsetF (rawBsetF op fn o) = some o := by
  simp [formBsetF, rawBsetF]

theorem formBgetF_rawBgetF (o : BgetF) : formBgetF (rawBgetF op fn o) = some o := by
  simp [formBgetF, rawBgetF]

theorem formBaddF_rawBaddF (o : BaddF) : formBaddF (rawBaddF op fn o) = some o := by
  simp (disch := decide) [formBaddF, rawBaddF, extractLsb'_append_eq_of_add_le, -Nat.reduceAdd]

theorem formVVV_rawVVV (o : VVV) : formVVV (rawVVV op fn o) = some o := by
  simp (disch := decide) [formVVV, rawVVV, extractLsb'_append_eq_of_add_le, getLsbD_append, -getLsbD_eq_getElem, -Nat.reduceAdd]

theorem formVVVV_rawVVVV (o : VVVV) : formVVVV (rawVVVV op fn o) = some o := by
  simp (disch := decide) [formVVVV, rawVVVV, extractLsb'_append_eq_of_add_le, -Nat.reduceAdd]

theorem formVV_rawVV (o : VV) : formVV (rawVV op fn o) = some o := by
  simp (disch := decide) [formVV, rawVV, extractLsb'_append_eq_of_add_le, -Nat.reduceAdd]

theorem formPVV_rawPVV (o : PVV) : formPVV (rawPVV op fn o) = some o := by
  simp (disch := decide) [formPVV, rawPVV, extractLsb'_append_eq_of_add_le, getLsbD_append, -getLsbD_eq_getElem, -Nat.reduceAdd]

theorem formVST_rawVST (o : VST) : formVST (rawVST op fn o) = some o := by
  simp (disch := decide) [formVST, rawVST, extractLsb'_append_eq_of_add_le, -Nat.reduceAdd]

theorem formSVST_rawSVST (o : SVST) : formSVST (rawSVST op fn o) = some o := by
  simp (disch := decide) [formSVST, rawSVST, extractLsb'_append_eq_of_add_le, -Nat.reduceAdd]

theorem formVSST_rawVSST (o : VSST) : formVSST (rawVSST op fn o) = some o := by
  simp (disch := decide) [formVSST, rawVSST, extractLsb'_append_eq_of_add_le, -Nat.reduceAdd]

theorem formVVST_rawVVST (o : VVST) : formVVST (rawVVST op fn o) = some o := by
  simp (disch := decide) [formVVST, rawVVST, extractLsb'_append_eq_of_add_le, -Nat.reduceAdd]

theorem formVVVP_rawVVVP (o : VVVP) : formVVVP (rawVVVP op fn o) = some o := by
  simp (disch := decide) [formVVVP, rawVVVP, extractLsb'_append_eq_of_add_le, -Nat.reduceAdd]

theorem formCvtF_rawCvtF (o : CvtF) : formCvtF (rawCvtF op fn o) = some o := by
  simp (disch := decide) [formCvtF, rawCvtF, extractLsb'_append_eq_of_add_le, extractLsb'_append_eq_of_le, -Nat.reduceAdd]

theorem formSVT_rawSVT (o : SVT) : formSVT (rawSVT op fn o) = some o := by
  simp (disch := decide) [formSVT, rawSVT, extractLsb'_append_eq_of_add_le, getLsbD_append, -getLsbD_eq_getElem, -Nat.reduceAdd]

theorem formDotF_rawDotF (o : DotF) : formDotF (rawDotF op fn o) = some o := by
  simp (disch := decide) [formDotF, rawDotF, extractLsb'_append_eq_of_add_le, -Nat.reduceAdd]

theorem formVI_rawVI (o : VI) : formVI (rawVI op fn o) = some o := by
  simp (disch := decide) [formVI, rawVI, Raw.imm, extractLsb'_append_extractLsb'_eq_extractLsb', -Nat.reduceAdd]

theorem formSVS_rawSVS (o : SVS) : formSVS (rawSVS op fn o) = some o := by
  simp [formSVS, rawSVS]

theorem formReapF_rawReapF (o : ReapF) : formReapF (rawReapF op fn o) = some o := by
  simp [formReapF, rawReapF, getLsbD_append, -getLsbD_eq_getElem, -Nat.reduceAdd]

theorem formVS_rawVS (o : VS) : formVS (rawVS op fn o) = some o := by
  simp [formVS, rawVS]

theorem formScopeF_rawScopeF (o : ScopeF) : formScopeF (rawScopeF op fn o) = some o := by
  simp (disch := decide) [formScopeF, rawScopeF, extractLsb'_append_eq_of_le, -Nat.reduceAdd]

theorem formVmldF_rawVmldF (o : VmldF) : formVmldF (rawVmldF op fn o) = some o := by
  simp (disch := decide) [formVmldF, rawVmldF, extractLsb'_append_eq_of_add_le, extractLsb'_append_eq_of_le, -Nat.reduceAdd]

theorem formVmstF_rawVmstF (o : VmstF) : formVmstF (rawVmstF op fn o) = some o := by
  simp (disch := decide) [formVmstF, rawVmstF, extractLsb'_append_eq_of_add_le, extractLsb'_append_eq_of_le, -Nat.reduceAdd]

theorem formGatF_rawGatF (o : GatF) : formGatF (rawGatF op fn o) = some o := by
  simp (disch := decide) [formGatF, rawGatF, extractLsb'_append_eq_of_add_le, extractLsb'_append_eq_of_le, -Nat.reduceAdd]

theorem formSctF_rawSctF (o : SctF) : formSctF (rawSctF op fn o) = some o := by
  simp (disch := decide) [formSctF, rawSctF, extractLsb'_append_eq_of_add_le, extractLsb'_append_eq_of_le, -Nat.reduceAdd]

theorem formTldF_rawTldF (o : TldF) : formTldF (rawTldF op fn o) = some o := by
  simp (disch := decide) [formTldF, rawTldF, extractLsb'_append_eq_of_add_le, extractLsb'_append_eq_of_le, -Nat.reduceAdd]

theorem formRowF_rawRowF (o : RowF) : formRowF (rawRowF op fn o) = some o := by
  simp (disch := decide) [formRowF, rawRowF, extractLsb'_append_eq_of_add_le, -Nat.reduceAdd]

theorem formVldxF_rawVldxF (o : VldxF) : formVldxF (rawVldxF op fn o) = some o := by
  simp (disch := decide) [formVldxF, rawVldxF, extractLsb'_append_eq_of_add_le, extractLsb'_append_eq_of_le, -Nat.reduceAdd]

theorem formVldaF_rawVldaF (o : VldaF) : formVldaF (rawVldaF op fn o) = some o := by
  simp (disch := decide) [formVldaF, rawVldaF, extractLsb'_append_eq_of_add_le, extractLsb'_append_eq_of_le, -Nat.reduceAdd]

theorem formVstF_rawVstF (o : VstF) : formVstF (rawVstF op fn o) = some o := by
  simp (disch := decide) [formVstF, rawVstF, extractLsb'_append_eq_of_add_le, extractLsb'_append_eq_of_le, -Nat.reduceAdd]

theorem formVfloorF_rawVfloorF (o : VfloorF) : formVfloorF (rawVfloorF op fn o) = some o := by
  simp (disch := decide) [formVfloorF, rawVfloorF, extractLsb'_append_eq_of_add_le, -Nat.reduceAdd]

theorem formAmoF_rawAmoF (o : AmoF) : formAmoF (rawAmoF op fn o) = some o := by
  simp (disch := decide) [formAmoF, rawAmoF, extractLsb'_append_eq_of_add_le, extractLsb'_append_eq_of_le, -Nat.reduceAdd]

theorem formLrF_rawLrF (o : LrF) : formLrF (rawLrF op fn o) = some o := by
  simp (disch := decide) [formLrF, rawLrF, extractLsb'_append_eq_of_add_le, extractLsb'_append_eq_of_le, -Nat.reduceAdd]

theorem formScF_rawScF (o : ScF) : formScF (rawScF op fn o) = some o := by
  simp (disch := decide) [formScF, rawScF, extractLsb'_append_eq_of_add_le, extractLsb'_append_eq_of_le, -Nat.reduceAdd]

theorem formRcF_rawRcF (o : RcF) : formRcF (rawRcF op fn o) = some o := by
  simp (disch := decide) [formRcF, rawRcF, extractLsb'_append_eq_of_add_le, extractLsb'_append_eq_of_le, -Nat.reduceAdd]

theorem formRcbF_rawRcbF (o : RcbF) : formRcbF (rawRcbF op fn o) = some o := by
  simp (disch := decide) [formRcbF, rawRcbF, extractLsb'_append_eq_of_add_le, extractLsb'_append_eq_of_le, -Nat.reduceAdd]

theorem formMmaF_rawMmaF (o : MmaF) : formMmaF (rawMmaF op fn o) = some o := by
  simp (disch := decide) [formMmaF, rawMmaF, extractLsb'_append_eq_of_add_le, extractLsb'_append_eq_of_le, getLsbD_append,
    -getLsbD_eq_getElem, -Nat.reduceAdd]

theorem formGathF_rawGathF (o : GathF) : formGathF (rawGathF op fn o) = some o := by
  simp (disch := decide) [formGathF, rawGathF, extractLsb'_append_eq_of_add_le, -Nat.reduceAdd]

theorem formSparF_rawSparF (o : SparF) : formSparF (rawSparF op fn o) = some o := by
  simp [formSparF, rawSparF, getLsbD_append, -getLsbD_eq_getElem, -Nat.reduceAdd]

theorem formAcc1_rawAcc1 (o : Acc1) : formAcc1 (rawAcc1 op fn o) = some o := by
  simp [formAcc1, rawAcc1]

theorem formBflyF_rawBflyF (o : BflyF) : formBflyF (rawBflyF op fn o) = some o := by
  simp (disch := decide) [formBflyF, rawBflyF, extractLsb'_append_eq_of_add_le, extractLsb'_append_eq_of_le, -Nat.reduceAdd]

theorem formTwmulF_rawTwmulF (o : TwmulF) : formTwmulF (rawTwmulF op fn o) = some o := by
  simp [formTwmulF, rawTwmulF]

theorem formAmovF_rawAmovF (o : AmovF) : formAmovF (rawAmovF op fn o) = some o := by
  simp (disch := decide) [formAmovF, rawAmovF, extractLsb'_append_eq_of_add_le, extractLsb'_append_eq_of_le, getLsbD_append,
    -getLsbD_eq_getElem, -Nat.reduceAdd]

theorem formAstF_rawAstF (o : AstF) : formAstF (rawAstF op fn o) = some o := by
  simp (disch := decide) [formAstF, rawAstF, extractLsb'_append_eq_of_add_le, extractLsb'_append_eq_of_le, getLsbD_append,
    -getLsbD_eq_getElem, -Nat.reduceAdd]

theorem formAldF_rawAldF (o : AldF) : formAldF (rawAldF op fn o) = some o := by
  simp (disch := decide) [formAldF, rawAldF, extractLsb'_append_eq_of_add_le, -Nat.reduceAdd]

theorem formXferF_rawXferF (o : XferF) : formXferF (rawXferF op fn o) = some o := by
  simp [formXferF, rawXferF]

theorem formRingsetF_rawRingsetF (o : RingsetF) : formRingsetF (rawRingsetF op fn o) = some o := by
  simp (disch := decide) [formRingsetF, rawRingsetF, extractLsb'_append_eq_of_add_le, -Nat.reduceAdd]

theorem formRingwaitF_rawRingwaitF (o : RingwaitF) : formRingwaitF (rawRingwaitF op fn o) = some o := by
  simp (disch := decide) [formRingwaitF, rawRingwaitF, extractLsb'_append_eq_of_add_le, -Nat.reduceAdd]

theorem formIbindF_rawIbindF (o : IbindF) : formIbindF (rawIbindF op fn o) = some o := by
  simp (disch := decide) [formIbindF, rawIbindF, extractLsb'_append_eq_of_add_le, extractLsb'_append_eq_of_le, -Nat.reduceAdd]

theorem formIunbindF_rawIunbindF (o : IunbindF) : formIunbindF (rawIunbindF op fn o) = some o := by
  simp [formIunbindF, rawIunbindF]

theorem formQpushF_rawQpushF (o : QpushF) : formQpushF (rawQpushF op fn o) = some o := by
  simp [formQpushF, rawQpushF]

theorem formQpopF_rawQpopF (o : QpopF) : formQpopF (rawQpopF op fn o) = some o := by
  simp (disch := decide) [formQpopF, rawQpopF, extractLsb'_append_eq_of_add_le, -Nat.reduceAdd]

theorem formQfreeF_rawQfreeF (o : QfreeF) : formQfreeF (rawQfreeF op fn o) = some o := by
  simp [formQfreeF, rawQfreeF]

theorem formBxfF_rawBxfF (o : BxfF) : formBxfF (rawBxfF op fn o) = some o := by
  simp [formBxfF, rawBxfF]

theorem formSemF_rawSemF (o : SemF) : formSemF (rawSemF op fn o) = some o := by
  simp (disch := decide) [formSemF, rawSemF, extractLsb'_append_eq_of_add_le, -Nat.reduceAdd]

theorem formSemsetF_rawSemsetF (o : SemsetF) : formSemsetF (rawSemsetF op fn o) = some o := by
  simp [formSemsetF, rawSemsetF]

theorem formRepbF_rawRepbF (o : RepbF) : formRepbF (rawRepbF op fn o) = some o := by
  simp (disch := decide) [formRepbF, rawRepbF, extractLsb'_append_eq_of_add_le, extractLsb'_append_eq_of_le, -Nat.reduceAdd]

theorem formShsetF_rawShsetF (o : ShsetF) : formShsetF (rawShsetF op fn o) = some o := by
  simp [formShsetF, rawShsetF]

theorem formShrdF_rawShrdF (o : ShrdF) : formShrdF (rawShrdF op fn o) = some o := by
  simp [formShrdF, rawShrdF, getLsbD_append, -getLsbD_eq_getElem, -Nat.reduceAdd]

theorem formGselF_rawGselF (o : GselF) : formGselF (rawGselF op fn o) = some o := by
  simp (disch := decide) [formGselF, rawGselF, extractLsb'_append_eq_of_add_le, -Nat.reduceAdd]

theorem formGrdF_rawGrdF (o : GrdF) : formGrdF (rawGrdF op fn o) = some o := by
  simp (disch := decide) [formGrdF, rawGrdF, extractLsb'_append_eq_of_add_le, extractLsb'_append_eq_of_le, -Nat.reduceAdd]

end

/-! Encoding and decoding. -/

/-- The fields of a form's word name the form, once its operand form reads its own fields back. -/
theorem candidate_unpack_pack {r : Raw} {w : Word96} {i : Instr} (hw : some r.pack = some w) (hr : candidate r = some i) :
    candidate (Raw.unpack w) = some i := by
  cases hw
  rw [Raw.unpack_pack, hr]

/-- The fields of the word of an instruction name that instruction. -/
theorem candidate_of_encode (i : Instr) (w : Word96) (h : encode i = some w) : candidate (Raw.unpack w) = some i := by
  cases i with
  | add o | sub o | and o | or o | xor o | andn o | sll o | srl o | sra o | rol o | min o | max o | minu o | maxu o
    | mul o | mulh o | mulhu o | div o | divu o | rem o | remu o | slt o | sltu o | track o | tkill o | migr o
    | launch o | rchspl o | rchmrg o => exact candidate_unpack_pack h (congrArg (Option.map _) (formSSS_rawSSS _ _ o))
  | addi o | andi o | ori o | xori o => exact candidate_unpack_pack h (congrArg (Option.map _) (formSSI_rawSSI _ _ o))
  | slli o | srli o | srai o | roli o => exact candidate_unpack_pack h (congrArg (Option.map _) (formSSN_rawSSN _ _ o))
  | li o | lpc o => exact candidate_unpack_pack h (congrArg (Option.map _) (formSI_rawSI _ _ o))
  | cmpeq o | cmpne o | cmplt o | cmple o | cmpltu o | cmpleu o =>
    exact candidate_unpack_pack h (congrArg (Option.map _) (formPSS_rawPSS _ _ o))
  | sel o | bffcs o => exact candidate_unpack_pack h (congrArg (Option.map _) (formSSSP_rawSSSP _ _ o))
  | clz o | ctz o | popc o | bswap o | brev o | callr o | share o | slice o | waitres o | rchinv o =>
    exact candidate_unpack_pack h (congrArg (Option.map _) (formSS_rawSS _ _ o))
  | bfx o | bfxu o => exact candidate_unpack_pack h (congrArg (Option.map _) (formBfxF_rawBfxF _ _ o))
  | bfi o => exact candidate_unpack_pack h (congrArg (Option.map _) (formBfiF_rawBfiF _ _ o))
  | bins o | bplim o => exact candidate_unpack_pack h (congrArg (Option.map _) (formSSSS_rawSSSS _ _ o))
  | pand o | por o | pxor o | pandn o => exact candidate_unpack_pack h (congrArg (Option.map _) (formPPP_rawPPP _ _ o))
  | pnot o => exact candidate_unpack_pack h (congrArg (Option.map _) (formPP_rawPP _ _ o))
  | br o => exact candidate_unpack_pack h (congrArg (Option.map _) (formBrF_rawBrF _ _ o))
  | beq o | bne o | blt o | bge o | bltu o | bgeu o =>
    exact candidate_unpack_pack h (congrArg (Option.map _) (formBrSS_rawBrSS _ _ o))
  | call o => exact candidate_unpack_pack h (congrArg (Option.map _) (formCallF_rawCallF _ _ o))
  | jmp o | ret o | yield o | twset o | cfopen o => exact candidate_unpack_pack h (congrArg (Option.map _) (formA1_rawA1 _ _ o))
  | mfs o => exact candidate_unpack_pack h (congrArg (Option.map _) (formMfsF_rawMfsF _ _ o))
  | mts o => exact candidate_unpack_pack h (congrArg (Option.map _) (formMtsF_rawMtsF _ _ o))
  | nop o | halt o | trig o | repstop o | cfclose o =>
    exact candidate_unpack_pack h (congrArg (Option.map _) (formG0_rawG0 _ _ o))
  | lbpurge o => exact candidate_unpack_pack h (congrArg (Option.map _) (formPurgeF_rawPurgeF _ _ o))
  | swtrap o | mark o => exact candidate_unpack_pack h (congrArg (Option.map _) (formCodeF_rawCodeF _ _ o))
  | ld o | ldu o => exact candidate_unpack_pack h (congrArg (Option.map _) (formLdF_rawLdF _ _ o))
  | st o => exact candidate_unpack_pack h (congrArg (Option.map _) (formStF_rawStF _ _ o))
  | ldbf o | ldbfs o => exact candidate_unpack_pack h (congrArg (Option.map _) (formLdbfF_rawLdbfF _ _ o))
  | stbf o => exact candidate_unpack_pack h (congrArg (Option.map _) (formStbfF_rawStbfF _ _ o))
  | bset o => exact candidate_unpack_pack h (congrArg (Option.map _) (formBsetF_rawBsetF _ _ o))
  | bget o => exact candidate_unpack_pack h (congrArg (Option.map _) (formBgetF_rawBgetF _ _ o))
  | badd o => exact candidate_unpack_pack h (congrArg (Option.map _) (formBaddF_rawBaddF _ _ o))
  | vadd o | vsub o | vmul o | vmin o | vmax o | vand o | vor o | vxor o | vsll o | vsrl o | vsra o | vadds o
    | vfadd o | vfsub o | vfmul o | vfmin o | vfmax o | vperm o | vdiv o | vfdiv o =>
    exact candidate_unpack_pack h (congrArg (Option.map _) (formVVV_rawVVV _ _ o))
  | vfma o => exact candidate_unpack_pack h (congrArg (Option.map _) (formVVVV_rawVVVV _ _ o))
  | vfabs o | vfneg o | vrcp o | vrsq o | vexp2 o | vlog2 o | vfsqrt o =>
    exact candidate_unpack_pack h (congrArg (Option.map _) (formVV_rawVV _ _ o))
  | vcmpeq o | vcmpne o | vcmplt o | vcmple o | vfcmpeq o | vfcmplt o | vfcmple o | vfcmpun o =>
    exact candidate_unpack_pack h (congrArg (Option.map _) (formPVV_rawPVV _ _ o))
  | vbcast o => exact candidate_unpack_pack h (congrArg (Option.map _) (formVST_rawVST _ _ o))
  | vextr o => exact candidate_unpack_pack h (congrArg (Option.map _) (formSVST_rawSVST _ _ o))
  | vins o => exact candidate_unpack_pack h (congrArg (Option.map _) (formVSST_rawVSST _ _ o))
  | vrot o => exact candidate_unpack_pack h (congrArg (Option.map _) (formVVST_rawVVST _ _ o))
  | vsel o => exact candidate_unpack_pack h (congrArg (Option.map _) (formVVVP_rawVVVP _ _ o))
  | vcvt o => exact candidate_unpack_pack h (congrArg (Option.map _) (formCvtF_rawCvtF _ _ o))
  | vredadd o | vfredadd o | vredmin o | vredmax o =>
    exact candidate_unpack_pack h (congrArg (Option.map _) (formSVT_rawSVT _ _ o))
  | vfdot o => exact candidate_unpack_pack h (congrArg (Option.map _) (formDotF_rawDotF _ _ o))
  | vmovi o => exact candidate_unpack_pack h (congrArg (Option.map _) (formVI_rawVI _ _ o))
  | spawn o | rchins o | brkpt o => exact candidate_unpack_pack h (congrArg (Option.map _) (formSVS_rawSVS _ _ o))
  | reap o => exact candidate_unpack_pack h (congrArg (Option.map _) (formReapF_rawReapF _ _ o))
  | rchrd o | siltrd o => exact candidate_unpack_pack h (congrArg (Option.map _) (formVS_rawVS _ _ o))
  | bar o | phase o => exact candidate_unpack_pack h (congrArg (Option.map _) (formScopeF_rawScopeF _ _ o))
  | vmld o => exact candidate_unpack_pack h (congrArg (Option.map _) (formVmldF_rawVmldF _ _ o))
  | vmst o => exact candidate_unpack_pack h (congrArg (Option.map _) (formVmstF_rawVmstF _ _ o))
  | vmgat o => exact candidate_unpack_pack h (congrArg (Option.map _) (formGatF_rawGatF _ _ o))
  | vmsct o => exact candidate_unpack_pack h (congrArg (Option.map _) (formSctF_rawSctF _ _ o))
  | tld o => exact candidate_unpack_pack h (congrArg (Option.map _) (formTldF_rawTldF _ _ o))
  | rowopen o | rowclose o => exact candidate_unpack_pack h (congrArg (Option.map _) (formRowF_rawRowF _ _ o))
  | vldx o => exact candidate_unpack_pack h (congrArg (Option.map _) (formVldxF_rawVldxF _ _ o))
  | vlda o => exact candidate_unpack_pack h (congrArg (Option.map _) (formVldaF_rawVldaF _ _ o))
  | vst o => exact candidate_unpack_pack h (congrArg (Option.map _) (formVstF_rawVstF _ _ o))
  | vfloor o => exact candidate_unpack_pack h (congrArg (Option.map _) (formVfloorF_rawVfloorF _ _ o))
  | amoAdd o | amoAnd o | amoOr o | amoXor o | amoMin o | amoMax o | amoMinu o | amoMaxu o | amoSwap o | amoCas o
    | amoBins o | amoBffcs o | amoBplim o => exact candidate_unpack_pack h (congrArg (Option.map _) (formAmoF_rawAmoF _ _ o))
  | lr o => exact candidate_unpack_pack h (congrArg (Option.map _) (formLrF_rawLrF _ _ o))
  | sc o | waitaddr o => exact candidate_unpack_pack h (congrArg (Option.map _) (formScF_rawScF _ _ o))
  | rget o | rput o | rcas o => exact candidate_unpack_pack h (congrArg (Option.map _) (formRcF_rawRcF _ _ o))
  | radd o | rcall o => exact candidate_unpack_pack h (congrArg (Option.map _) (formRcbF_rawRcbF _ _ o))
  | mmabf o | mmafh o | mmai8 o | mmatw o | mmasp o =>
    exact candidate_unpack_pack h (congrArg (Option.map _) (formMmaF_rawMmaF _ _ o))
  | gath o => exact candidate_unpack_pack h (congrArg (Option.map _) (formGathF_rawGathF _ _ o))
  | sparsify o => exact candidate_unpack_pack h (congrArg (Option.map _) (formSparF_rawSparF _ _ o))
  | drev o | azero o => exact candidate_unpack_pack h (congrArg (Option.map _) (formAcc1_rawAcc1 _ _ o))
  | bfly o => exact candidate_unpack_pack h (congrArg (Option.map _) (formBflyF_rawBflyF _ _ o))
  | twmul o => exact candidate_unpack_pack h (congrArg (Option.map _) (formTwmulF_rawTwmulF _ _ o))
  | amov o => exact candidate_unpack_pack h (congrArg (Option.map _) (formAmovF_rawAmovF _ _ o))
  | ast o => exact candidate_unpack_pack h (congrArg (Option.map _) (formAstF_rawAstF _ _ o))
  | ald o => exact candidate_unpack_pack h (congrArg (Option.map _) (formAldF_rawAldF _ _ o))
  | xfer o => exact candidate_unpack_pack h (congrArg (Option.map _) (formXferF_rawXferF _ _ o))
  | ringset o => exact candidate_unpack_pack h (congrArg (Option.map _) (formRingsetF_rawRingsetF _ _ o))
  | ringwait o => exact candidate_unpack_pack h (congrArg (Option.map _) (formRingwaitF_rawRingwaitF _ _ o))
  | ibind o => exact candidate_unpack_pack h (congrArg (Option.map _) (formIbindF_rawIbindF _ _ o))
  | iunbind o => exact candidate_unpack_pack h (congrArg (Option.map _) (formIunbindF_rawIunbindF _ _ o))
  | qpush o => exact candidate_unpack_pack h (congrArg (Option.map _) (formQpushF_rawQpushF _ _ o))
  | qpop o => exact candidate_unpack_pack h (congrArg (Option.map _) (formQpopF_rawQpopF _ _ o))
  | qfree o => exact candidate_unpack_pack h (congrArg (Option.map _) (formQfreeF_rawQfreeF _ _ o))
  | bxf o => exact candidate_unpack_pack h (congrArg (Option.map _) (formBxfF_rawBxfF _ _ o))
  | semsig o | semwait o => exact candidate_unpack_pack h (congrArg (Option.map _) (formSemF_rawSemF _ _ o))
  | semset o => exact candidate_unpack_pack h (congrArg (Option.map _) (formSemsetF_rawSemsetF _ _ o))
  | repb o => exact candidate_unpack_pack h (congrArg (Option.map _) (formRepbF_rawRepbF _ _ o))
  | shset o => exact candidate_unpack_pack h (congrArg (Option.map _) (formShsetF_rawShsetF _ _ o))
  | shrd o => exact candidate_unpack_pack h (congrArg (Option.map _) (formShrdF_rawShrdF _ _ o))
  | gsel o => exact candidate_unpack_pack h (congrArg (Option.map _) (formGselF_rawGselF _ _ o))
  | grd o => exact candidate_unpack_pack h (congrArg (Option.map _) (formGrdF_rawGrdF _ _ o))
  | _ => cases h

theorem decode_of_encode (i : Instr) (w : Word96) (hi : i.wellFormed = true) (h : encode i = some w) : decode w = some i := by
  simp [decode, candidate_of_encode i w h, hi, h]

/-- Decoding answers only an instruction that passed its own checks: it is well formed, and its word is the word at hand. -/
theorem wellFormed_encode_of_decode (i : Instr) (w : Word96) (h : decode w = some i) :
    i.wellFormed = true ∧ encode i = some w := by
  unfold decode at h
  split at h
  case h_1 j _ =>
    obtain ⟨hj, hji⟩ := Option.ite_none_right_eq_some.1 h
    obtain ⟨hwf, hw⟩ := Bool.and_eq_true_iff.1 hj
    cases hji
    exact ⟨hwf, eq_of_beq hw⟩
  case h_2 => cases h

/-- A word is what sets a form apart from an event, and so is a guard. -/
theorem isSome_encode (i : Instr) : (encode i).isSome = (i.bitGuard.isSome || i.laneGuard.isSome) := by
  cases i <;> rfl

end Sys2Proof

namespace Sys2Proof.Machine

/-- Settles O2: every operand form reads its own fields back, so a word names the instruction that it encodes; the other
way the decoder checks by itself. -/
theorem encodeDecodeRoundTrip : Obligations.EncodeDecodeRoundTrip := by
  unfold Obligations.EncodeDecodeRoundTrip
  refine ⟨decode_of_encode, wellFormed_encode_of_decode, fun i => ?_⟩
  rw [isSome_encode, Bool.or_eq_true, Option.isSome_iff_exists, Option.isSome_iff_exists]

/-- Settles O1: each word is the encoding of a well-formed instruction. -/
theorem decodeSpecWords : Obligations.DecodeSpecWords := by
  unfold Obligations.DecodeSpecWords
  and_intros <;> exact decode_of_encode _ _ rfl rfl

end Sys2Proof.Machine

/-! PROOFS. Lanes packed into a vector register, the lanes that a form writes, and the integer forms (R143, R144, R148,
R359). -/

namespace Sys2Proof.Machine

/-! Digits of a packed number. -/

theorem packNat_lt (w : Nat) (l : List Nat) : packNat w l < 2 ^ (w * l.length) := by
  induction l with
  | nil => simp [packNat]
  | cons x l ih =>
    have step : packNat w (x :: l) < 2 ^ w * (packNat w l + 1) := by
      rw [packNat, Nat.mul_succ, Nat.add_comm]
      exact Nat.add_lt_add_left (Nat.mod_lt x (Nat.two_pow_pos w)) _
    have width : 2 ^ w * 2 ^ (w * l.length) = 2 ^ (w * (x :: l).length) := by
      rw [← Nat.pow_add, List.length_cons, Nat.mul_succ, Nat.add_comm]
    exact width ▸ Nat.lt_of_lt_of_le step (Nat.mul_le_mul_left _ ih)

/-- A digit of a packed number. -/
theorem packNat_digit (w : Nat) (l : List Nat) (i : Nat) (h : i < l.length) :
    packNat w l / 2 ^ (w * i) % 2 ^ w = l[i] % 2 ^ w := by
  induction l generalizing i with
  | nil => cases h
  | cons x l ih =>
    cases i with
    | zero => simp [packNat]
    | succ i =>
      have tail : (x % 2 ^ w + 2 ^ w * packNat w l) / 2 ^ w = packNat w l := by
        rw [Nat.add_mul_div_left _ _ (Nat.two_pow_pos w), Nat.div_eq_of_lt (Nat.mod_lt _ (Nat.two_pow_pos w)), Nat.zero_add]
      rw [packNat, Nat.mul_succ, Nat.add_comm (w * i), Nat.pow_add, ← Nat.div_div_eq_div_mul, tail]
      exact ih i (Nat.lt_of_succ_lt_succ h)

theorem laneOf_packLanes (w : Nat) (l : List Nat) (i : Nat) (hl : w * l.length ≤ 1024) (h : i < l.length) :
    laneOf (packLanes w l) w i = l[i] % 2 ^ w := by
  have hlt := Nat.lt_of_lt_of_le (packNat_lt w l) (Nat.pow_le_pow_right Nat.two_pos hl)
  rw [laneOf, packLanes, BitVec.toNat_ofNat, Nat.mod_eq_of_lt hlt, packNat_digit w l i h]

/-- A mark of each word, packed: bit `k` is the mark of word `k`. -/
theorem getLsbD_packMarks (n : Nat) (f : Nat → Bool) (k : Nat) (h : k < n) :
    (BitVec.ofNat n (packNat 1 ((List.range n).map fun k => bit01 (f k)))).getLsbD k = f k := by
  have digit := packNat_digit 1 ((List.range n).map fun k => bit01 (f k)) k (by simpa using h)
  simp only [Nat.one_mul, Nat.pow_one, List.getElem_map, List.getElem_range] at digit
  rw [BitVec.getLsbD_ofNat, decide_eq_true h, Bool.true_and, Nat.testBit_eq_decide_div_mod_eq, digit]
  cases f k <;> rfl

theorem laneOf_lt (v : W1024) (w i : Nat) : laneOf v w i < 2 ^ w := Nat.mod_lt _ (Nat.two_pow_pos w)

theorem any_congr_of_mem {α : Type} {l : List α} {p q : α → Bool} (h : ∀ i ∈ l, p i = q i) : l.any p = l.any q := by
  simpa using congrArg (List.any · id) (List.map_congr_left h)

theorem all_congr_of_mem {α : Type} {l : List α} {p q : α → Bool} (h : ∀ i ∈ l, p i = q i) : l.all p = l.all q := by
  simpa using congrArg (List.all · id) (List.map_congr_left h)

/-- The lanes that are on, as `mergeLanes` takes them. -/
def newLanes (w : Nat) (on : Nat → Bool) (f : Nat → Nat × Bool) : List (Option (Nat × Bool)) :=
  (List.range (1024 / w)).map fun i => if on i then some (f i) else none

theorem newLanes_join (w : Nat) (on : Nat → Bool) (f : Nat → Nat × Bool) (i : Nat) (h : i < 1024 / w) :
    (newLanes w on f)[i]?.join = if on i then some (f i) else none := by
  simp [newLanes, h]

/-! The lanes that a form writes. -/

/-- What `mergeLanes` makes of the lanes that are on is `LanesTake` (R143, R359). -/
theorem lanesTake_mergeLanes (w : Nat) (old : VVal) (on : Nat → Bool) (f : Nat → Nat × Bool) :
    LanesTake w old (mergeLanes w old (newLanes w on f)) on f := by
  have hw : w * (1024 / w) ≤ 1024 := Nat.mul_div_le 1024 w
  refine ⟨fun i hi => ?_, fun k hk => ?_⟩
  · rw [mergeLanes, laneOf_packLanes w _ i (by simpa using hw) (by simpa using hi)]
    simp only [List.getElem_map, List.getElem_range, newLanes_join w on f i hi]
    cases on i
    · exact Nat.mod_eq_of_lt (laneOf_lt ..)
    · rfl
  · rw [mergeLanes, getLsbD_packMarks 32 _ k hk]
    have hi : ∀ i ∈ (List.range (1024 / w)).filter fun i => (laneWords w i).contains k, i < 1024 / w :=
      fun i h => List.mem_range.1 (List.mem_filter.1 h).1
    refine ite_congr (congrArg (· = true) (any_congr_of_mem fun i h => ?_)) (fun _ => rfl)
      fun _ => ite_congr (congrArg (· = true) (all_congr_of_mem fun i h => ?_)) (fun _ => rfl) fun _ => rfl
    all_goals
      rw [newLanes_join w on f i (hi i h)]
      cases on i <;> rfl

theorem State.lanesTake_laneResult (s : State) (g : Guard) (ty : ElemTy) (d : Nat) (f : Nat → Nat × Bool) :
    LanesTake ty.bits (s.cth.regs.getV d) (s.laneResult g ty d f) (s.laneOn g ty) f :=
  lanesTake_mergeLanes ..

theorem LanesTake.congr {w : Nat} {old new : VVal} {on : Nat → Bool} {f g : Nat → Nat × Bool} (h : LanesTake w old new on f)
    (hv : ∀ i, (f i).1 % 2 ^ w = (g i).1 % 2 ^ w) (hm : ∀ i, (f i).2 = (g i).2) : LanesTake w old new on g := by
  obtain ⟨values, marks⟩ := h
  refine ⟨fun i hi => ?_, fun k hk => ?_⟩
  · rw [values i hi, hv]
  · rw [marks k hk]
    simp only [hm]

/-! Forms of two vector operands. -/

/-- The answer of a vector form of two operands that gives each lane that is on a function of their lanes, marked as they
are. -/
def WritesLanes (o : VVV) (s : State) (r : Host.Outcome State Fault Refusal) (h : Nat → Nat → Nat) : Prop :=
  ∃ v, r = s.givesV o.d v ∧ LanesTake o.ty.bits (s.cth.regs.getV o.d.toNat) v (s.laneOn o.g o.ty) fun k =>
    (h (laneOf (s.rV o.a.toNat).bits o.ty.bits k) (laneOf (s.rV o.b.toNat).bits o.ty.bits k),
      (s.rV o.a.toNat).lanePoison o.ty.bits k || (s.rV o.b.toNat).lanePoison o.ty.bits k)

/-- A lane is stored modulo its width, so only that part of the function counts. -/
theorem vecOp_writesLanes (o : VVV) (s : State) (g h : Nat → Nat → Nat)
    (hgh : ∀ a < 2 ^ o.ty.bits, ∀ b < 2 ^ o.ty.bits, g a b % 2 ^ o.ty.bits = h a b % 2 ^ o.ty.bits) :
    WritesLanes o s (vecOp o s g) h :=
  ⟨s.laneResult o.g o.ty o.d.toNat (s.binLane o.ty o.a.toNat o.b.toNat g), rfl,
    (s.lanesTake_laneResult ..).congr (fun _ => hgh _ (laneOf_lt ..) _ (laneOf_lt ..)) fun _ => rfl⟩

/-! Integers modulo the width of a lane. -/

theorem wrapTo_of_emod_eq {n y : Nat} {x : Int} (h : x % (2 ^ n : Nat) = y % (2 ^ n : Nat)) : wrapTo n x = y % 2 ^ n := by
  rw [wrapTo, h, ← Int.natCast_emod, Int.toNat_natCast]

theorem wrapTo_mod (n : Nat) (x : Int) : wrapTo n x % 2 ^ n = wrapTo n x := by
  have pos : (0 : Int) < (2 ^ n : Nat) := Int.natCast_pos.2 (Nat.two_pow_pos n)
  have lt : wrapTo n x < 2 ^ n := (Int.toNat_lt (Int.emod_nonneg x (Int.ne_of_gt pos))).2 (Int.emod_lt_of_pos x pos)
  exact Nat.mod_eq_of_lt lt

theorem signedOf_emod (n x : Nat) : signedOf n x % (2 ^ n : Nat) = x % (2 ^ n : Nat) := by
  unfold signedOf
  split
  · rw [Int.natCast_emod, Int.emod_emod]
  · rw [Int.sub_emod_right, Int.natCast_emod, Int.emod_emod]

/-- However it is read, the integer of a lane is the lane modulo the width (R144). -/
theorem laneInt_emod (ty : ElemTy) (uns : Bool) (x : Nat) : laneInt ty uns x % (2 ^ ty.bits : Nat) = x % (2 ^ ty.bits : Nat) := by
  unfold laneInt
  split
  · exact signedOf_emod _ _
  · rw [Int.natCast_emod, Int.emod_emod]

theorem wrapTo_laneInt (ty : ElemTy) (uns : Bool) (x : Nat) : wrapTo ty.bits (laneInt ty uns x) = x % 2 ^ ty.bits :=
  wrapTo_of_emod_eq (laneInt_emod ty uns x)

theorem wrapTo_ite_laneInt (ty : ElemTy) (uns : Bool) (p : Prop) [Decidable p] (a b : Nat) :
    wrapTo ty.bits (if p then laneInt ty uns b else laneInt ty uns a) = (if p then b else a) % 2 ^ ty.bits := by
  split
  · exact wrapTo_laneInt ty uns b
  · exact wrapTo_laneInt ty uns a

theorem clampInt_eq (lo hi x : Int) (h : lo ≤ hi) : clampInt lo hi x = max lo (min hi x) := by
  unfold clampInt
  split
  · omega
  · split <;> omega

theorem intMin_le_intMax (w : Nat) (sg : Bool) : intMin w sg ≤ intMax w sg := by
  have := Nat.two_pow_pos w
  have := Nat.two_pow_pos (w - 1)
  cases sg <;> simp only [intMin, intMax, Bool.false_eq_true, if_false, if_true] <;> omega

section
variable (ty : ElemTy) (uns : Bool) (a b : Nat)

theorem wrapTo_laneInt_add : wrapTo ty.bits (laneInt ty uns a + laneInt ty uns b) = (a + b) % 2 ^ ty.bits :=
  wrapTo_of_emod_eq (by rw [Int.add_emod, laneInt_emod, laneInt_emod, ← Int.add_emod, Int.natCast_add])

theorem wrapTo_laneInt_mul : wrapTo ty.bits (laneInt ty uns a * laneInt ty uns b) = a * b % 2 ^ ty.bits :=
  wrapTo_of_emod_eq (by rw [Int.mul_emod, laneInt_emod, laneInt_emod, ← Int.mul_emod, Int.natCast_mul])

theorem wrapTo_laneInt_sub (hb : b < 2 ^ ty.bits) :
    wrapTo ty.bits (laneInt ty uns a - laneInt ty uns b) = (a + (2 ^ ty.bits - b)) % 2 ^ ty.bits := by
  have complement : ((a + (2 ^ ty.bits - b) : Nat) : Int) = a - b + (2 ^ ty.bits : Nat) := by omega
  refine wrapTo_of_emod_eq ?_
  rw [Int.sub_emod, laneInt_emod, laneInt_emod, ← Int.sub_emod, complement, Int.add_emod_right]

end

/-- A function of the integers of the lanes, wrapped (R148). -/
theorem intOp_writesLanes (o : VVV) (s : State) (g : Int → Int → Int) (h : Nat → Nat → Nat)
    (hgh : ∀ a < 2 ^ o.ty.bits, ∀ b < 2 ^ o.ty.bits,
      wrapTo o.ty.bits (g (laneInt o.ty o.uns a) (laneInt o.ty o.uns b)) = h a b % 2 ^ o.ty.bits) :
    WritesLanes o s (intOp o s g) h :=
  vecOp_writesLanes o s _ h fun a ha b hb => by rw [hgh a ha b hb, Nat.mod_mod]

/-- The integer that a lane of a form's operands holds (R144). -/
def readLane (o : VVV) (n : Nat) : Int := if !(o.uns || o.ty = .u8) then signedOf o.ty.bits n else n

theorem laneInt_of_lt (o : VVV) (n : Nat) (h : n < 2 ^ o.ty.bits) : laneInt o.ty o.uns n = readLane o n := by
  rw [laneInt, signedTy, readLane, Nat.mod_eq_of_lt h]

/-! The integer forms (R124, R143, R144, R148). -/

section
variable (o : VVV) (s : State)

theorem exec_vadd_writesLanes : WritesLanes o s (exec (.vadd o) s) fun a b => (a + b) % 2 ^ o.ty.bits :=
  intOp_writesLanes o s (fun x y => x + y) _ fun a _ b _ => by rw [wrapTo_laneInt_add, Nat.mod_mod]

theorem exec_vsub_writesLanes : WritesLanes o s (exec (.vsub o) s) fun a b => (a + (2 ^ o.ty.bits - b)) % 2 ^ o.ty.bits :=
  intOp_writesLanes o s (fun x y => x - y) _ fun a _ b hb => by rw [wrapTo_laneInt_sub _ _ _ _ hb, Nat.mod_mod]

theorem exec_vmul_writesLanes : WritesLanes o s (exec (.vmul o) s) fun a b => a * b % 2 ^ o.ty.bits :=
  intOp_writesLanes o s (fun x y => x * y) _ fun a _ b _ => by rw [wrapTo_laneInt_mul, Nat.mod_mod]

theorem exec_vmin_writesLanes :
    WritesLanes o s (exec (.vmin o) s) fun a b => if readLane o b < readLane o a then b else a :=
  intOp_writesLanes o s (fun x y => if y < x then y else x) _ fun a ha b hb => by
    rw [← laneInt_of_lt o a ha, ← laneInt_of_lt o b hb, wrapTo_ite_laneInt]

theorem exec_vmax_writesLanes :
    WritesLanes o s (exec (.vmax o) s) fun a b => if readLane o a < readLane o b then b else a :=
  intOp_writesLanes o s (fun x y => if x < y then y else x) _ fun a ha b hb => by
    rw [← laneInt_of_lt o a ha, ← laneInt_of_lt o b hb, wrapTo_ite_laneInt]

theorem exec_vand_writesLanes : WritesLanes o s (exec (.vand o) s) fun a b => a &&& b :=
  vecOp_writesLanes o s _ _ fun _ _ _ _ => rfl

theorem exec_vor_writesLanes : WritesLanes o s (exec (.vor o) s) fun a b => a ||| b :=
  vecOp_writesLanes o s _ _ fun _ _ _ _ => rfl

theorem exec_vxor_writesLanes : WritesLanes o s (exec (.vxor o) s) fun a b => a ^^^ b :=
  vecOp_writesLanes o s _ _ fun _ _ _ _ => rfl

theorem exec_vsll_writesLanes :
    WritesLanes o s (exec (.vsll o) s) fun a b => a <<< (b % o.ty.bits) % 2 ^ o.ty.bits :=
  vecOp_writesLanes o s _ _ fun a _ b _ => by rw [Nat.shiftLeft_eq]

theorem exec_vsrl_writesLanes : WritesLanes o s (exec (.vsrl o) s) fun a b => a >>> (b % o.ty.bits) :=
  vecOp_writesLanes o s _ _ fun a _ b _ => by rw [Nat.shiftRight_eq_div_pow]

theorem exec_vsra_writesLanes : WritesLanes o s (exec (.vsra o) s) fun a b =>
    (signedOf o.ty.bits a / 2 ^ (b % o.ty.bits) % 2 ^ o.ty.bits).toNat :=
  vecOp_writesLanes o s _ _ fun a _ b _ => by simp [wrapTo]

theorem exec_vadds_writesLanes : WritesLanes o s (exec (.vadds o) s) fun a b =>
    (max (if !(o.uns || o.ty = .u8) then -(2 ^ (o.ty.bits - 1)) else 0)
      (min (if !(o.uns || o.ty = .u8) then 2 ^ (o.ty.bits - 1) - 1 else 2 ^ o.ty.bits - 1) (readLane o a + readLane o b))
      % 2 ^ o.ty.bits).toNat :=
  intOp_writesLanes o s (fun x y =>
    clampInt (intMin o.ty.bits (signedTy o.ty o.uns)) (intMax o.ty.bits (signedTy o.ty o.uns)) (x + y)) _ fun a ha b hb => by
      rw [clampInt_eq _ _ _ (intMin_le_intMax _ _), laneInt_of_lt o a ha, laneInt_of_lt o b hb, ← wrapTo_mod]
      simp [wrapTo, intMin, intMax, signedTy]

end

/-- Settles O26: every integer form writes its lanes modulo the width, and the integer that a lane holds is that lane modulo
the width. -/
theorem vectorIntegerResults : Obligations.VectorIntegerResults := by
  unfold Obligations.VectorIntegerResults
  intro o s _
  exact ⟨exec_vadd_writesLanes o s, exec_vsub_writesLanes o s, exec_vmul_writesLanes o s, exec_vmin_writesLanes o s,
    exec_vmax_writesLanes o s, exec_vand_writesLanes o s, exec_vor_writesLanes o s, exec_vxor_writesLanes o s,
    exec_vsll_writesLanes o s, exec_vsrl_writesLanes o s, exec_vsra_writesLanes o s, exec_vadds_writesLanes o s⟩

end Sys2Proof.Machine

/-! PROOFS. Vector compares, which consume the words of the lanes that are on, and the forms that move lanes (R143, R144,
R149 to R151, R359, R360). -/

namespace Sys2Proof.Machine

/-! The words of a vector operand that a form consumes. -/

theorem State.useV_clean (s : State) (n : Nat) (words : List Nat)
    (clean : ∀ k ∈ words, (s.rV n).poison.getLsbD k = false) : s.useV n words = .ok (s.rV n) := by
  have none : words.find? (fun k => (s.rV n).poison.getLsbD k) = none :=
    List.find?_eq_none.2 fun k hk => by simp [clean k hk]
  simp only [State.useV, none]

/-- Of words in ascending order, the lowest poisoned one is reported (R360). -/
theorem State.useV_poisoned (s : State) (n : Nat) (words : List Nat) (k : Nat) (ascending : words.Pairwise (· ≤ ·))
    (mem : k ∈ words) (poisoned : (s.rV n).poison.getLsbD k = true)
    (lower : ∀ j ∈ words, j < k → (s.rV n).poison.getLsbD j = false) :
    s.useV n words = .error (.trap 0x08 (poisonInfo n 1 k)) := by
  obtain ⟨before, after, split, fresh⟩ := List.eq_append_cons_of_mem mem
  have below : ∀ j ∈ before, j < k := fun j hj => by
    rw [split, List.pairwise_append] at ascending
    obtain ⟨-, -, le⟩ := ascending
    exact Nat.lt_of_le_of_ne (le j hj k List.mem_cons_self) fun e => fresh (e ▸ hj)
  have first : words.find? (fun k => (s.rV n).poison.getLsbD k) = some k :=
    List.find?_eq_some_iff_append.2 ⟨poisoned, before, after, split, fun j hj => by
      simp [lower j (split ▸ List.mem_append_left _ hj) (below j hj)]⟩
  simp only [State.useV, first]

theorem laneWords_le_laneWords (w i j x y : Nat) (hij : i < j) (hx : x ∈ laneWords w i) (hy : y ∈ laneWords w j) :
    x ≤ y := by
  unfold laneWords at hx hy
  split at hx
  · rw [if_pos ‹_›] at hy
    simp only [List.mem_cons, List.not_mem_nil, or_false] at hx hy
    omega
  · rw [if_neg ‹_›] at hy
    rw [List.mem_singleton.1 hx, List.mem_singleton.1 hy]
    exact Nat.div_le_div_right (Nat.mul_le_mul_left w (Nat.le_of_lt hij))

theorem pairwise_laneWords (w i : Nat) : (laneWords w i).Pairwise (· ≤ ·) := by
  unfold laneWords
  split <;> simp

/-- A register has 32 words. -/
theorem lt_32_of_mem_laneWords (w i k : Nat) (hi : i < 1024 / w) (hk : k ∈ laneWords w i) : k < 32 := by
  unfold laneWords at hk
  split at hk
  · subst w
    simp only [List.mem_cons, List.not_mem_nil, or_false] at hk
    omega
  · have inside : w * i < w * (1024 / w) :=
      Nat.mul_lt_mul_of_pos_left hi (Nat.pos_of_ne_zero fun h => by simp [h] at hi)
    have whole : w * (1024 / w) ≤ 1024 := Nat.mul_div_le 1024 w
    rw [List.mem_singleton] at hk
    omega

section
variable (s : State) (g : Guard) (ty : ElemTy)

/-- Whether word `k` belongs to a lane that is on. -/
def State.wordOn (k : Nat) : Bool :=
  (List.range ty.lanes).any fun i => s.laneOn g ty i && (laneWords ty.bits i).contains k

theorem State.mem_wordsOf_lanesOn (k : Nat) : k ∈ wordsOf ty.bits (s.lanesOn g ty) ↔ s.wordOn g ty k = true := by
  simp only [wordsOf, State.lanesOn, State.wordOn, List.mem_flatMap, List.mem_filter, List.any_eq_true, Bool.and_eq_true,
    List.contains_iff_mem, and_assoc]

theorem State.lt_32_of_wordOn (k : Nat) (h : s.wordOn g ty k = true) : k < 32 := by
  obtain ⟨i, hi, on⟩ := List.any_eq_true.1 h
  obtain ⟨-, mem⟩ := Bool.and_eq_true_iff.1 on
  exact lt_32_of_mem_laneWords ty.bits i k (List.mem_range.1 hi) (List.contains_iff_mem.1 mem)

theorem State.pairwise_wordsOf_lanesOn : (wordsOf ty.bits (s.lanesOn g ty)).Pairwise (· ≤ ·) :=
  List.pairwise_flatMap.2 ⟨fun i _ => pairwise_laneWords ty.bits i,
    (List.pairwise_lt_range.filter _).imp fun hij x hx y hy => laneWords_le_laneWords ty.bits _ _ x y hij hx hy⟩

theorem State.useV_lanesOn_clean (n : Nat)
    (clean : ∀ j < 32, s.wordOn g ty j = true → (s.rV n).poison.getLsbD j = false) :
    s.useV n (wordsOf ty.bits (s.lanesOn g ty)) = .ok (s.rV n) :=
  s.useV_clean n _ fun j hj =>
    have on := (s.mem_wordsOf_lanesOn g ty j).1 hj
    clean j (s.lt_32_of_wordOn g ty j on) on

theorem State.useV_lanesOn_poisoned (n k : Nat) (on : s.wordOn g ty k = true)
    (poisoned : (s.rV n).poison.getLsbD k = true)
    (lower : ∀ j < k, s.wordOn g ty j = true → (s.rV n).poison.getLsbD j = false) :
    s.useV n (wordsOf ty.bits (s.lanesOn g ty)) = .error (.trap 0x08 (poisonInfo n 1 k)) :=
  s.useV_poisoned n _ k (s.pairwise_wordsOf_lanesOn g ty) ((s.mem_wordsOf_lanesOn g ty k).2 on) poisoned
    fun j hj hlt => lower j hlt ((s.mem_wordsOf_lanesOn g ty j).1 hj)

end

/-! Compares (R144, R150, R360). -/

section
variable (o : PVV) (s : State)

theorem vcmpOp_traps_left (c : Nat → Nat → Bool) (k : Nat) (on : s.wordOn o.g o.ty k = true)
    (poisoned : (s.rV o.a.toNat).poison.getLsbD k = true)
    (lower : ∀ j < k, s.wordOn o.g o.ty j = true → (s.rV o.a.toNat).poison.getLsbD j = false) :
    vcmpOp o s c = s.traps 0x08 (poisonInfo o.a.toNat 1 k) := by
  unfold vcmpOp
  dsimp only
  rw [s.useV_lanesOn_poisoned o.g o.ty o.a.toNat k on poisoned lower]
  rfl

theorem vcmpOp_traps_right (c : Nat → Nat → Bool) (k : Nat)
    (clean : ∀ j < 32, s.wordOn o.g o.ty j = true → (s.rV o.a.toNat).poison.getLsbD j = false)
    (on : s.wordOn o.g o.ty k = true) (poisoned : (s.rV o.b.toNat).poison.getLsbD k = true)
    (lower : ∀ j < k, s.wordOn o.g o.ty j = true → (s.rV o.b.toNat).poison.getLsbD j = false) :
    vcmpOp o s c = s.traps 0x08 (poisonInfo o.b.toNat 1 k) := by
  unfold vcmpOp
  dsimp only
  rw [s.useV_lanesOn_clean o.g o.ty o.a.toNat clean, s.useV_lanesOn_poisoned o.g o.ty o.b.toNat k on poisoned lower]
  rfl

theorem getLsbD_comparePred (ty : ElemTy) (old : W64) (on cond : Nat → Bool) (k : Nat) (hk : k < 64) :
    (comparePred ty old on cond).getLsbD k =
      if (List.range ty.lanes).filter (fun i => gbit ty i = k) = [] then false
      else if ((List.range ty.lanes).filter fun i => gbit ty i = k).all on then
        ((List.range ty.lanes).filter fun i => gbit ty i = k).all cond
      else old.getLsbD k :=
  getLsbD_packMarks 64 _ k hk

/-- The answer of a compare that tests `c` on the lanes of its operands: it writes a predicate as R150 says. -/
def WritesCompare (r : Host.Outcome State Fault Refusal) (c : Nat → Nat → Bool) : Prop :=
  ∃ p, r = s.givesP o.d p ∧ ∀ k < 64, p.getLsbD k =
    let mine := (List.range o.ty.lanes).filter fun i => gbit o.ty i = k
    if mine = [] then false
    else if mine.all (s.laneOn o.g o.ty) then
      mine.all fun i => c (laneOf (s.rV o.a.toNat).bits o.ty.bits i) (laneOf (s.rV o.b.toNat).bits o.ty.bits i)
    else (s.cth.regs.getP o.d.toNat).getLsbD k

/-- The integer that a lane of a compare's operands holds (R144). -/
def compareLane (n : Nat) : Int := if o.uns || o.ty = .u8 then n else signedOf o.ty.bits n

theorem laneInt_eq_compareLane (n : Nat) (h : n < 2 ^ o.ty.bits) : laneInt o.ty o.uns n = compareLane o n := by
  rw [laneInt, signedTy, compareLane, Nat.mod_eq_of_lt h]
  cases o.uns || decide (o.ty = .u8) <;> rfl

/-- Each compare is `vcmpOp` of some condition. -/
theorem exec_compare_eq_vcmpOp (i : Instr)
    (h : i ∈ [.vcmpeq o, .vcmpne o, .vcmplt o, .vcmple o, .vfcmpeq o, .vfcmplt o, .vfcmple o, .vfcmpun o]) :
    ∃ c, exec i s = vcmpOp o s c := by
  simp only [List.mem_cons, List.not_mem_nil, or_false] at h
  obtain rfl | rfl | rfl | rfl | rfl | rfl | rfl | rfl := h
  all_goals
    dsimp only [exec, execVcmpeq, execVcmpne, execVcmplt, execVcmple, execVfcmpeq, execVfcmplt, execVfcmple, execVfcmpun,
      vcmpInt, vcmpFp]
    exact ⟨_, rfl⟩

variable (clean : ∀ j < 32, s.wordOn o.g o.ty j = true →
  (s.rV o.a.toNat).poison.getLsbD j = false ∧ (s.rV o.b.toNat).poison.getLsbD j = false)
include clean

theorem vcmpOp_givesP (c : Nat → Nat → Bool) :
    vcmpOp o s c = s.givesP o.d (comparePred o.ty (s.cth.regs.getP o.d.toNat) (s.laneOn o.g o.ty)
      fun i => c (laneOf (s.rV o.a.toNat).bits o.ty.bits i) (laneOf (s.rV o.b.toNat).bits o.ty.bits i)) := by
  unfold vcmpOp
  dsimp only
  rw [s.useV_lanesOn_clean o.g o.ty o.a.toNat fun j hj on => (clean j hj on).1,
    s.useV_lanesOn_clean o.g o.ty o.b.toNat fun j hj on => (clean j hj on).2]
  rfl

theorem vcmpOp_writesCompare (c : Nat → Nat → Bool) : WritesCompare o s (vcmpOp o s c) c :=
  ⟨_, vcmpOp_givesP o s clean c, getLsbD_comparePred o.ty _ _ _⟩

theorem vcmpInt_writesCompare (c : Cond) :
    WritesCompare o s (vcmpInt o s c) fun a b => c.holdsInt (compareLane o a) (compareLane o b) := by
  obtain ⟨p, answer, bits⟩ :=
    vcmpOp_writesCompare o s clean fun x y => c.holdsInt (laneInt o.ty o.uns x) (laneInt o.ty o.uns y)
  simp only [laneInt_eq_compareLane o _ (laneOf_lt ..)] at bits
  exact ⟨p, answer, bits⟩

theorem vcmpFp_writesCompare (c : FVal → FVal → Bool) :
    WritesCompare o s (vcmpFp o s c) fun a b => c ((fmtOf o.ty).decode a) ((fmtOf o.ty).decode b) :=
  vcmpOp_writesCompare o s clean _

end

/-! Forms that move lanes (R149, R151, R359). -/

/-- A form that writes lanes from a function of the lane's number. -/
theorem State.laneForm_givesV (s : State) (g : Guard) (ty : ElemTy) (d : VReg) (f : Nat → Nat × Bool) :
    ∃ v, s.laneForm g ty d.toNat f = s.givesV d v ∧ LanesTake ty.bits (s.cth.regs.getV d.toNat) v (s.laneOn g ty) f :=
  ⟨_, rfl, s.lanesTake_laneResult g ty d.toNat f⟩

theorem exec_vextr (o : SVST) (s : State) :
    let x := s.rV o.a.toNat
    let k := s.rS o.b.toNat
    let j := k.bits.toNat % o.ty.lanes
    exec (.vextr o) s = if s.laneOn o.g o.ty j then
      s.gives o.d ⟨extendLane o.ty false (laneOf x.bits o.ty.bits j), x.lanePoison o.ty.bits j || k.poison⟩
      else .next s.advance := rfl

/-- A lane as a scalar is sign-extended for a signed integer type, and zero-extended for any other (R151). -/
theorem extendLane_false (ty : ElemTy) (e : Nat) : extendLane ty false e =
    if ty.isInt ∧ ty ≠ .u8 then BitVec.ofInt 64 (signedOf ty.bits e) else BitVec.ofNat 64 e := by
  simp [extendLane, signedTy, sext64, w64i, w64]

/-- vins writes the one lane that its index names, if that lane is on. -/
theorem exec_vins_givesV (o : VSST) (s : State) :
    let x := s.rS o.a.toNat
    let k := s.rS o.b.toNat
    let j := k.bits.toNat % o.ty.lanes
    ∃ v, exec (.vins o) s = s.givesV o.d v ∧
      LanesTake o.ty.bits (s.cth.regs.getV o.d.toNat) v (fun i => decide (i = j) && s.laneOn o.g o.ty j) fun _ =>
        (x.bits.toNat % 2 ^ o.ty.bits, x.poison || k.poison) := by
  intro x k j
  refine ⟨_, ?_, lanesTake_mergeLanes ..⟩
  simp only [newLanes, Bool.and_eq_true, decide_eq_true_eq]
  rfl

/-- Settles O28: every compare is `vcmpOp` of its condition, which takes both operands' words of the lanes that are on in
order; every form that moves lanes merges them into the old register. -/
theorem vectorCompareAndPermute : Obligations.VectorCompareAndPermute := by
  unfold Obligations.VectorCompareAndPermute
  refine ⟨fun o s => ⟨fun i hi => ?compareTraps, fun clean => ?compareWrites⟩,
    fun o s => s.laneForm_givesV o.g o.ty o.d _, fun o s => s.laneForm_givesV o.g o.ty o.d _,
    fun o s => s.laneForm_givesV o.g o.ty o.d _, fun o s => s.laneForm_givesV o.g o.ty o.d _, fun o s => ?vextr,
    exec_vins_givesV, fun o s => s.laneForm_givesV o.g .i64 o.d _⟩
  case compareTraps =>
    obtain ⟨c, hc⟩ := exec_compare_eq_vcmpOp o s i hi
    rw [hc]
    exact ⟨fun k _ on poisoned lower => vcmpOp_traps_left o s c k on poisoned lower,
      fun clean k _ on poisoned lower => vcmpOp_traps_right o s c k clean on poisoned lower⟩
  case compareWrites =>
    exact ⟨vcmpInt_writesCompare o s clean .eq, vcmpInt_writesCompare o s clean .ne, vcmpInt_writesCompare o s clean .lt,
      vcmpInt_writesCompare o s clean .le, vcmpFp_writesCompare o s clean _, vcmpFp_writesCompare o s clean _,
      vcmpFp_writesCompare o s clean fun x y => x.lt y || x.eq y,
      vcmpFp_writesCompare o s clean fun x y => x.isNan || y.isNan⟩
  case vextr => rw [exec_vextr, extendLane_false]

end Sys2Proof.Machine
